-- ==== Sys2Proof/Word.lean ====
section
/-! DEFINITION. The plain types the model is built from: bytes, stream times, tables of a fixed size,
and the four component roles of a service. -/

namespace Sys2Proof

/-- One byte, as it travels in a frame, a cue section or a packet. -/
abbrev Byte := BitVec 8

/-- A stream time: a 33-bit count of 90 kHz ticks that wraps (R1). -/
abbrev Time := BitVec 33

/-- A packet identifier, 0x0000 to 0x1FFF. -/
abbrev Pid := BitVec 13

/-- A set of zones 0-7, bit z for zone z (R188). -/
abbrev ZoneSet := BitVec 8

/-- `n` like things, addressed by their index. The length is part of the type. -/
structure Table (α : Type) (n : Nat) where
  entries : List α
  size_eq : entries.length = n
  deriving DecidableEq, Repr

def Table.get {α : Type} {n : Nat} (t : Table α n) (i : Fin n) : α :=
  t.entries.get (i.cast t.size_eq.symm)

def Table.set {α : Type} {n : Nat} (t : Table α n) (i : Fin n) (a : α) : Table α n :=
  ⟨t.entries.set i a, by rw [List.length_set, t.size_eq]⟩

def Table.replicate {α : Type} (n : Nat) (a : α) : Table α n :=
  ⟨List.replicate n a, List.length_replicate⟩

def Table.ofFn {α : Type} {n : Nat} (f : Fin n → α) : Table α n :=
  ⟨List.ofFn f, List.length_ofFn⟩

/-- Every entry changed by one function of its index and itself. -/
def Table.mapIdx {α β : Type} {n : Nat} (f : Fin n → α → β) (t : Table α n) : Table β n :=
  Table.ofFn fun i => f i (t.get i)

@[simp] theorem Table.get_set {α : Type} {n : Nat} (t : Table α n) (i j : Fin n) (a : α) :
    (t.set i a).get j = if i = j then a else t.get j := by
  simp [Table.get, Table.set, List.getElem_set, Fin.ext_iff]
  rfl

@[simp] theorem Table.get_replicate {α : Type} {n : Nat} (a : α) (i : Fin n) :
    (Table.replicate n a).get i = a := by
  simp [Table.get, Table.replicate]

@[simp] theorem Table.get_ofFn {α : Type} {n : Nat} (f : Fin n → α) (i : Fin n) :
    (Table.ofFn f).get i = f i := by
  simp [Table.get, Table.ofFn]
  rfl

@[simp] theorem Table.get_mapIdx {α β : Type} {n : Nat} (f : Fin n → α → β) (t : Table α n)
    (i : Fin n) : (t.mapIdx f).get i = f i (t.get i) := by
  simp [Table.mapIdx]

/-- The role that identifies a component of a service. -/
inductive Role where
  | video | audio1 | audio2 | audio3
  deriving DecidableEq, Repr

/-- One thing for each role. -/
structure PerRole (α : Type) where
  video  : α
  audio1 : α
  audio2 : α
  audio3 : α
  deriving DecidableEq, Repr

def PerRole.get {α : Type} (p : PerRole α) : Role → α
  | .video => p.video
  | .audio1 => p.audio1
  | .audio2 => p.audio2
  | .audio3 => p.audio3

def PerRole.set {α : Type} (p : PerRole α) (r : Role) (a : α) : PerRole α :=
  match r with
  | .video => { p with video := a }
  | .audio1 => { p with audio1 := a }
  | .audio2 => { p with audio2 := a }
  | .audio3 => { p with audio3 := a }

def PerRole.all {α : Type} (a : α) : PerRole α := ⟨a, a, a, a⟩

def PerRole.map {α β : Type} (f : α → β) (p : PerRole α) : PerRole β :=
  ⟨f p.video, f p.audio1, f p.audio2, f p.audio3⟩

def PerRole.toList {α : Type} (p : PerRole α) : List α := [p.video, p.audio1, p.audio2, p.audio3]

@[simp] theorem PerRole.get_set {α : Type} (p : PerRole α) (r q : Role) (a : α) :
    (p.set r a).get q = if r = q then a else p.get q := by
  cases r <;> cases q <;> rfl

@[simp] theorem PerRole.get_map {α β : Type} (f : α → β) (p : PerRole α) (r : Role) :
    (p.map f).get r = f (p.get r) := by
  cases r <;> rfl

/-- The roles, VIDEO first. -/
def Role.every : List Role := [.video, .audio1, .audio2, .audio3]

end Sys2Proof
end

