-- ==== Sys2Proof/Syntax.lean ====
section
/-! DEFINITION. The commands of the part: one constructor of `Instr` for each row of
spec/opcode_table.json, with the transport packets and the request bodies they carry. -/

namespace Sys2Proof

/-- A programme clock reference: base in ticks and extension (0-299). -/
structure Pcr where
  base : Time
  ext  : Nat
  deriving DecidableEq, Repr

/-- What stands in an adaptation field after its length byte. `others` is the rest of the flags byte but the
PCR flag, which `pcr` stands for: the five flags that no rule reads (stream priority, OPCR, splicing point,
private data, extension), in that order. `rest` is every byte after the place of the PCR, the fields those
flags call for and stuffing included (R106 moves it up and appends stuffing). -/
structure Adaptation where
  discontinuity : Bool
  randomAccess  : Bool
  others        : BitVec 5
  pcr           : Option Pcr
  rest          : List Byte
  deriving DecidableEq, Repr

/-- An adaptation field: of length 0, its length byte alone, or with a flags byte and what follows it (R107). -/
inductive AdaptField where
  | empty
  | holds (a : Adaptation)
  deriving DecidableEq, Repr

/-- A timestamp field of a PES header: not called for by the header's flags, called for but not lying
wholly within the packet's payload, or carried (R104, R118). -/
inductive Stamp where
  | absent
  | cut
  | whole (t : Time)
  deriving DecidableEq, Repr

/-- What the part reads of a PES header. -/
structure PesHeader where
  pts : Stamp
  dts : Stamp
  deriving DecidableEq, Repr

/-- A packet's payload. With a PES header at its start, the timestamps stand in the header and `rest`
holds everything else of the payload. -/
inductive Payload where
  | bytes (b : List Byte)
  | pes (h : PesHeader) (rest : List Byte)
  deriving DecidableEq, Repr

/-- A transport packet: every field of its header, the adaptation field and the payload (00_scope.md, "What
this manual leaves out"). No rule reads `priority` and `scrambling`; they pass as received. DESIGN CHOICE,
log 4. -/
structure Packet where
  tei        : Bool
  pusi       : Bool
  priority   : Bool
  pid        : Pid
  scrambling : BitVec 2
  cc         : BitVec 4
  af         : Option AdaptField
  payload    : Option Payload
  deriving DecidableEq, Repr

/-- A placement entry of a request body (R189): zone set, lane request, keep-open. -/
structure PlacementArg where
  zones    : Byte
  lane     : Byte
  keepOpen : Byte
  deriving DecidableEq, Repr

/-- SERVICE_SET's body (R189). `none` is a field whose presence bit is clear; a PID of 0xFFFF is absent. -/
structure ServiceSetArgs where
  service       : Byte
  input         : Option Byte
  pids          : PerRole (Option (BitVec 16))
  pcrPid        : Option (BitVec 16)
  cuePid        : Option (BitVec 16)
  policy        : Option Byte
  holdDefault   : Option Byte
  armLead       : Option (BitVec 32)
  immLead       : Option (BitVec 32)
  spliceAdjust  : Option (BitVec 32)
  spliceWindow  : Option (BitVec 32)
  pcrTolerance  : Option (BitVec 32)
  absenceTimeout : Option (BitVec 32)
  deriving DecidableEq, Repr

/-- TEMPLATE_SET's body (R189). -/
structure TemplateSetArgs where
  service    : Byte
  breakClass : Byte
  placements : List PlacementArg
  deriving DecidableEq, Repr

/-- The body of a request that names an avail record (R189). -/
structure KeyArgs where
  service : Byte
  event   : BitVec 32
  deriving DecidableEq, Repr

/-- AVAIL_CREATE's body (R190). `s` is disregarded unless the time kind is FIXED; duration 0 is none. -/
structure AvailCreateArgs where
  service    : Byte
  event      : BitVec 32
  timeKind   : Byte
  s          : BitVec 40
  duration   : BitVec 32
  placements : List PlacementArg
  deriving DecidableEq, Repr

/-- AVAIL_AMEND's body (R189). -/
structure AvailAmendArgs where
  service    : Byte
  event      : BitVec 32
  time       : Option (Byte × BitVec 40)
  duration   : Option (BitVec 32)
  placements : Option (List PlacementArg)
  deriving DecidableEq, Repr

/-- AVAIL_WALK's body (R189): filter 0xFF is none. -/
structure WalkArgs where
  filter  : Byte
  restart : Byte
  deriving DecidableEq, Repr

/-- LANE_SET's body (R189). -/
structure LaneSetArgs where
  lane        : Byte
  pids        : PerRole (Option (BitVec 16))
  pcrPid      : Option (BitVec 16)
  preroll     : Option (BitVec 32)
  eos         : Option (BitVec 16 × Byte)
  openTimeout : Option (BitVec 32)
  deriving DecidableEq, Repr

/-- PORT_SET's body (R189). -/
structure PortSetArgs where
  port  : Byte
  input : Byte
  zone  : Byte
  deriving DecidableEq, Repr

/-- CHAN_SET's body (R189). -/
structure ChanSetArgs where
  channel : Byte
  service : Byte
  port    : Byte
  deriving DecidableEq, Repr

/-- AIN_SET's body (R189). -/
structure AinSetArgs where
  input    : Byte
  polarity : Byte
  debounce : BitVec 32
  deriving DecidableEq, Repr

/-- FLAG_SET's body (R189). -/
structure FlagSetArgs where
  flag  : Byte
  level : Byte
  deriving DecidableEq, Repr

/-- ALERT_SET's body (R189): an alert configuration. -/
structure AlertSetArgs where
  alert    : Byte
  enabled  : Byte
  priority : Byte
  terms    : List (Byte × Byte)
  combine  : Byte
  hold     : BitVec 32
  release  : BitVec 32
  zones    : Byte
  lane     : Byte
  deriving DecidableEq, Repr

/-- TALLY_SET's body (R189): a tally configuration. -/
structure TallySetArgs where
  output   : Byte
  kind     : Byte
  selector : Byte
  mode     : Byte
  count    : BitVec 32
  delay    : BitVec 32
  onTime   : BitVec 32
  period   : BitVec 32
  polarity : Byte
  deriving DecidableEq, Repr

/-- ATTN_MASK's body (R191). -/
structure AttnMaskArgs where
  mask : BitVec 16
  mode : Byte
  deriving DecidableEq, Repr

/-- The commands. A request carries its tag and the fields of its body; the event rows name the input,
lane, channel, alert or output they happen at. -/
inductive Instr where
  /-- REQUEST_TRANSACTION: the bytes received after the transfer byte 0xA5 (R178, R179). -/
  | requestTransaction (bytes : List Byte)
  /-- READ_TRANSACTION: the number of whole bytes clocked after the transfer byte 0x5A (R181). -/
  | readTransaction (clocks : Nat)
  /-- OTHER_TRANSFER_BYTE: every byte received, the transfer byte first (R177). -/
  | otherTransferByte (bytes : List Byte)
  | resetNLow
  | resetNRise
  | powerOn
  | serviceSet (tag : Byte) (a : ServiceSetArgs)
  | serviceGet (tag : Byte) (service : Byte)
  | serviceClear (tag : Byte) (service : Byte)
  | templateSet (tag : Byte) (a : TemplateSetArgs)
  | outcomeGet (tag : Byte) (service : Byte)
  | availCreate (tag : Byte) (a : AvailCreateArgs)
  | availAmend (tag : Byte) (a : AvailAmendArgs)
  | availCancel (tag : Byte) (a : KeyArgs)
  | availReturn (tag : Byte) (a : KeyArgs)
  | availConfirm (tag : Byte) (a : KeyArgs)
  | availDecline (tag : Byte) (a : KeyArgs)
  | availGet (tag : Byte) (a : KeyArgs)
  | availWalk (tag : Byte) (a : WalkArgs)
  | laneSet (tag : Byte) (a : LaneSetArgs)
  | laneGet (tag : Byte) (lane : Byte)
  | laneClose (tag : Byte) (lane : Byte)
  | laneGuardSet (tag : Byte) (guard : BitVec 32)
  | portSet (tag : Byte) (a : PortSetArgs)
  | portGet (tag : Byte) (port : Byte)
  | chanSet (tag : Byte) (a : ChanSetArgs)
  | chanGet (tag : Byte) (channel : Byte)
  | chanClear (tag : Byte) (channel : Byte)
  | zoneLock (tag : Byte) (zone : Byte)
  | zoneUnlock (tag : Byte) (zone : Byte)
  | zoneGet (tag : Byte) (zone : Byte)
  | ainSet (tag : Byte) (a : AinSetArgs)
  | ainGet (tag : Byte) (input : Byte)
  | flagSet (tag : Byte) (a : FlagSetArgs)
  | alertSet (tag : Byte) (a : AlertSetArgs)
  | alertGet (tag : Byte) (alert : Byte)
  | alertEnd (tag : Byte) (alert : Byte)
  | tallySet (tag : Byte) (a : TallySetArgs)
  | tallyGet (tag : Byte) (output : Byte)
  | attnMask (tag : Byte) (a : AttnMaskArgs)
  | poll (tag : Byte)
  | summary (tag : Byte)
  | resetStreams (tag : Byte)
  | resetAll (tag : Byte)
  | networkPacket (input : Fin 4) (p : Packet)
  | lanePacket (lane : Fin 16) (p : Packet)
  /-- AIN_CHANGE: the pin's new level, high or low. -/
  | ainChange (input : Fin 6) (high : Bool)
  | debounceExpiry (input : Fin 6)
  | holdTimerExpiry (alert : Fin 16)
  | releaseTimerExpiry (alert : Fin 16)
  | pcrAbsenceTimeout (service : Fin 64)
  | openTimeout (lane : Fin 16)
  | closingTimerExpiry (lane : Fin 16)
  | starvation (lane : Fin 16) (channel : Fin 128)
  | followTimeout (channel : Fin 128)
  | tallyPhaseTimerExpiry (output : Fin 4)
  | tallyPulseEnd (output : Fin 4)
  | tallyPendingEdgeExpiry (output : Fin 4)
  | attnGapEnd
  | networkInputSearchOrMiss (input : Fin 4) (bytes : List Byte)
  | laneInputSearchOrMiss (lane : Fin 16) (bytes : List Byte)
  deriving DecidableEq, Repr

end Sys2Proof
end

