-- ==== Sys2Proof/Decode.lean ====
section
/-! DEFINITION. The command that a word spells by the bits of spec/opcode_table.json. Every row of that
table has an empty "fields" list and no "fixed" bits, so no word spells a command. The part's own frames
are judged by the REQUEST_TRANSACTION command (Machine/Operands.lean, Machine/Port.lean). -/

namespace Sys2Proof

/-- No row of the table gives bits: no word spells a command. -/
def decodeTableWord (_nbits _w : Nat) : Option Instr := none

end Sys2Proof
end

