-- ==== Sys2Proof/Machine/State.lean ====
section
/-! DEFINITION. The state of the part as plain data, and the state after a full reset. Every field cites
the rule of spec/ that names it; a field marked "model's own" is named in the assumption log. -/

namespace Sys2Proof.Machine

/-! ## Names -/

/-- The result a placement ends with; some are also leave causes (section 2.1, R35). -/
inductive Outcome where
  | played | cut | missedLate | missedNoLane | missedNotReady | missedNoLock | missedConflict
  | noChannel | lockedOut | preempted | aborted | laneFault | cancelled | unconfirmed | declined
  deriving DecidableEq, Repr

inductive Origin where
  | schedule | network
  deriving DecidableEq, Repr

inductive TimeSource where
  | fixed | fromCue
  deriving DecidableEq, Repr

inductive AvailState where
  | awaitCue | held | pending | armed | active
  deriving DecidableEq, Repr

inductive PlacementState where
  | waiting | laned | onAir | done
  deriving DecidableEq, Repr

inductive TbState where
  | unlocked | acquiring | locked
  deriving DecidableEq, Repr

inductive CuePolicy where
  | auto | hold | ignore
  deriving DecidableEq, Repr

inductive HoldDefault where
  | arm | drop
  deriving DecidableEq, Repr

inductive LaneState where
  | idle | opening | ready | onAir | closing
  deriving DecidableEq, Repr

inductive LaneFaultKind where
  | none | openTimeout | starved
  deriving DecidableEq, Repr

inductive Polarity where
  | highActive | lowActive
  deriving DecidableEq, Repr

inductive AlertState where
  | disabled | idle | qualifying | active | releasing | spent
  deriving DecidableEq, Repr

inductive Combine where
  | all | any | odd
  deriving DecidableEq, Repr

/-- The source a term of an alert record reads (section 7.2). -/
inductive TermSource where
  | ain (i : Fin 6)
  | flag (j : Fin 8)
  deriving DecidableEq, Repr

inductive TallyKind where
  | none | spliceOut | ret | cueHeld | alertQualifying | alertActive
  deriving DecidableEq, Repr

inductive TallyMode where
  | count | repeating | steady
  deriving DecidableEq, Repr

inductive TallyPhase where
  | idle | delay | pulsing | finishing
  deriving DecidableEq, Repr

inductive LineMode where
  | level | pulse
  deriving DecidableEq, Repr

/-- The nine attention cause kinds (section 9.1). -/
inductive Cause where
  | timebaseLost | outcome | cueHeld | cueCorrupt | cueDropped | laneFault | alertActive | alertEnded
  | alertLaneNotReady
  deriving DecidableEq, Repr

/-- The response codes (R182). PENDING is no code of a finished response; it is `RespSlot.pending`. -/
inductive Code where
  | ok | notFound | exists_ | full | badArg | state | late | badFrame
  deriving DecidableEq, Repr

/-! ## The request port (section 10.2) -/

/-- A taken request: tag, kind and body (section 10.2). -/
structure Request where
  tag  : Byte
  kind : Byte
  body : List Byte
  deriving DecidableEq, Repr

/-- A finished response (section 10.2). -/
structure Response where
  tag  : Byte
  kind : Byte
  code : Code
  body : List Byte
  deriving DecidableEq, Repr

/-- The response slot (section 10.2). -/
inductive RespSlot where
  | empty
  | pending (tag kind : Byte)
  | finished (r : Response)
  deriving DecidableEq, Repr

/-! ## Services (section 1.3, 1.4, 1.5) -/

/-- The reference of a timebase: the latest PCR's count and the local count at its arrival (R10). -/
structure PcrRef where
  count   : Nat
  arrival : Nat
  deriving DecidableEq, Repr

/-- The timebase context (section 1.4). `absence` is the device time in ms at which the absence timer
started, absent while it is stopped. -/
structure Timebase where
  state   : TbState
  count   : Nat
  ref     : Option PcrRef
  t       : Option Time
  absence : Option Nat
  deriving DecidableEq, Repr

/-- A lane request: a named lane, or ANY (`none`). -/
abbrev LaneReq := Option (Fin 16)

/-- A placement of a template (section 1.3). -/
structure TPlacement where
  zones    : ZoneSet
  lane     : LaneReq
  keepOpen : Bool
  deriving DecidableEq, Repr

/-- The last-outcome record, when present (section 1.5). -/
structure LastOutcome where
  event      : BitVec 32
  origin     : Origin
  placements : List (Outcome × Bool)
  pOut       : Option Time
  spliceErr  : Option Nat
  deriving DecidableEq, Repr

/-- A defined Service Table entry with its timebase and last-outcome record (section 1.3). `lastT` is the
last T the service had, 0 when it has had none (R21). -/
structure Service where
  input          : Fin 4
  video          : Pid
  audio1         : Option Pid
  audio2         : Option Pid
  audio3         : Option Pid
  pcrPid         : Pid
  cuePid         : Option Pid
  policy         : CuePolicy
  holdDefault    : HoldDefault
  armLead        : Nat
  immLead        : Nat
  spliceAdjust   : Int
  spliceWindow   : Nat
  pcrTolerance   : Nat
  absenceTimeout : Nat
  templates      : Table (List TPlacement) 4
  tb             : Timebase
  lastT          : Time
  last           : Option LastOutcome
  deriving DecidableEq, Repr

/-! ## Avail records (section 2.1) -/

/-- An avail record's key. -/
structure Key where
  svc   : Fin 64
  event : BitVec 32
  deriving DecidableEq, Repr

/-- A placement of a record, named by the record's key and its place in the record's list. -/
structure PRef where
  key : Key
  idx : Nat
  deriving DecidableEq, Repr

/-- A placement (section 2.1). The outcome is present exactly in DONE. -/
structure Placement where
  zones      : ZoneSet
  lane       : LaneReq
  keepOpen   : Bool
  bound      : Option (Fin 16)
  state      : PlacementState
  outcome    : Option Outcome
  part       : Bool
  firstCause : Option Outcome
  count      : Nat
  deriving DecidableEq, Repr

/-- An avail record (section 2.1). `creation` is its place in the creation order (R20). `cutAsked` says
that a CUT return at the next beat has been asked for it (R45, R63; log 23). -/
structure Avail where
  key        : Key
  origin     : Origin
  timeSource : TimeSource
  e          : Option Time
  d          : Option (BitVec 32)
  placements : List Placement
  state      : AvailState
  pOut       : Option Time
  spliceErr  : Option Nat
  r          : Option Time
  creation   : Nat
  cutAsked   : Bool
  deriving DecidableEq, Repr

/-- The position of the walk cursor (R23). -/
structure WalkPos where
  key      : Key
  e        : Option Time
  creation : Nat
  deriving DecidableEq, Repr

/-! ## Inputs -/

/-- The sync state of a stream or lane input (R3, R66). `seen` holds the bytes taken while SEARCHING,
newest first, as far back as the search looks; `misses` counts misses in a row while SYNCED. -/
structure SyncState where
  synced : Bool
  seen   : List Byte
  misses : Nat
  deriving DecidableEq, Repr

/-! ## Lanes (section 4.1, 4.2) -/

/-- A lane's configuration (section 4.1). -/
structure LaneCfg where
  video       : Pid
  audio1      : Option Pid
  audio2      : Option Pid
  audio3      : Option Pid
  pcrPid      : Pid
  preroll     : Nat
  eos         : Option (Pid × Byte)
  openTimeout : Nat
  deriving DecidableEq, Repr

/-- The class of a packet kept in a lane buffer (R67): a component packet with the PTS of its header when
it is a RAP, or an end-of-segment packet. -/
inductive PktClass where
  | role (x : Role) (rap : Option Time)
  | eos
  deriving DecidableEq, Repr

/-- A packet in a lane buffer with its arrival number. -/
structure BufPkt where
  seq : Nat
  cls : PktClass
  pkt : Packet
  deriving DecidableEq, Repr

/-- A reader of a lane (R79, R80, R82). A cursor is the arrival number it points at. `dry` says that the
reader has had an underrun since it last filled a slot; `starve` is when its starvation timer started. -/
structure Reader where
  chan    : Fin 128
  cursors : PerRole (Option Nat)
  dry     : Bool
  starve  : Option Nat
  deriving DecidableEq, Repr

/-- A lane (section 4.2). `entry` is the arrival number of the entry RAP. Timers hold the device time in
ms at which they started. Mode and the naming alert records are computed (R70). -/
structure Lane where
  cfg       : LaneCfg
  state     : LaneState
  bound     : Option PRef
  entry     : Option Nat
  lpts      : Option Time
  pcrSeen   : Bool
  buffer    : List BufPkt
  nextSeq   : Nat
  readers   : List Reader
  faulted   : Bool
  hold      : Bool
  openStart : Option Nat
  closeStart : Option Nat
  lastFault : LaneFaultKind
  deriving DecidableEq, Repr

/-! ## Channels, ports and zones (chapter 6) -/

/-- On whose behalf a channel draws from a lane. -/
inductive Holder where
  | placement (p : PRef)
  | alert (a : Fin 16)
  deriving DecidableEq, Repr

/-- A lane that the video has left while some audio is still on it (R117). -/
structure Departing where
  lane   : Fin 16
  holder : Option Holder
  cause  : Option Outcome
  deriving DecidableEq, Repr

/-- The source of a component (section 6.3). -/
inductive RoleSource where
  | network
  | lane (l : Fin 16)
  | muted
  deriving DecidableEq, Repr

/-- The live state of one component of a channel (section 6.3). `rejoin` says that the next
payload-bearing network packet is the first since the component switched to NETWORK (R125, R135). -/
structure RoleState where
  source   : RoleSource
  switched : Bool
  ccDelta  : BitVec 4
  lastCc   : Option (BitVec 4)
  rejoin   : Bool
  deriving DecidableEq, Repr

/-- A target: NETWORK, or a lane with a holder (section 6.3). -/
inductive Target where
  | network
  | lane (l : Fin 16) (h : Holder)
  deriving DecidableEq, Repr

inductive PendingKind where
  | asked | coverage
  deriving DecidableEq, Repr

/-- The pending target of a channel (R119). -/
structure PendingTarget where
  target : Target
  kind   : PendingKind
  cause  : Option Outcome
  deriving DecidableEq, Repr

/-- A defined channel (section 6.2, 6.3). Its source, lane and channel state are computed (R117). `switchPts` is that
of the latest video switch, and is kept on a channel back on NETWORK (log 51). -/
structure Channel where
  service      : Fin 64
  port         : Fin 8
  underrunSeen : Bool
  holder       : Option Holder
  departing    : Option Departing
  offset       : Option Time
  switchPts    : Option Time
  followStart  : Option Nat
  followDue    : Bool
  roles        : PerRole RoleState
  pending      : Option PendingTarget
  ret          : Option Time
  cueRet       : Option Time
  deriving DecidableEq, Repr

/-- A continuity memory: PID and CC, sorted by PID with no repeats; an unlisted PID is absent (6.1). -/
abbrev ContMem := List (Nat × BitVec 4)

/-- A port (section 6.1). `out` is every packet emitted, newest first (model's own, log 14). -/
structure Port where
  baseInput : Fin 4
  zone      : Fin 8
  cont      : ContMem
  out       : List Packet
  deriving DecidableEq, Repr

/-- A zone: its lock flag (R131), its covering alert and whether it waits for a lane (chapter 7). -/
structure Zone where
  locked  : Bool
  cover   : Option (Fin 16)
  waiting : Bool
  deriving DecidableEq, Repr

/-! ## Alerts (chapter 7) -/

/-- An alert input (section 7.1). `pin` is the level of the pin; `timer` is when the debounce timer
started. The raw level is computed. -/
structure Ain where
  pin      : Bool
  polarity : Polarity
  debounce : Nat
  level    : Bool
  timer    : Option Nat
  deriving DecidableEq, Repr

/-- An alert record (section 7.2). `seq` is its place in the order of activations (R144). -/
structure Alert where
  enabled      : Bool
  priority     : Nat
  terms        : List (TermSource × Bool)
  combine      : Combine
  hold         : Nat
  release      : Nat
  zones        : ZoneSet
  lane         : Fin 16
  state        : AlertState
  stamp        : Option (BitVec 48)
  seq          : Nat
  holdStart    : Option Nat
  releaseStart : Option Nat
  deriving DecidableEq, Repr

/-! ## Tallies (chapter 8) -/

/-- A pending edge: the level it goes to and when it is due (R163). -/
structure Edge where
  level : Bool
  due   : Nat
  deriving DecidableEq, Repr

/-- A tally record (section 8.1). `phaseDue` is the device time in ms at which the phase timer runs out;
`pulses` holds the end of each pulse in its on-time, earliest first; `steady` is STEADY's output. -/
structure Tally where
  kind     : TallyKind
  selector : Option Nat
  mode     : TallyMode
  count    : Nat
  delay    : Nat
  onTime   : Nat
  period   : Nat
  polarity : Polarity
  phase    : TallyPhase
  started  : Nat
  phaseDue : Option Nat
  pulses   : List Nat
  edge     : Option Edge
  steady   : Bool
  deriving DecidableEq, Repr

/-! ## The machine -/

/-- The state of the part. -/
structure State where
  /-- Commands waiting, first in first out (log 1). -/
  pending     : List Instr
  /-- RESET_N is low, or power is not yet good (R184). -/
  resetLow    : Bool
  /-- Counts of the 27 MHz reference since the last full reset (R111, R184). -/
  refCount    : Nat
  /-- Section 10.2. -/
  reqSlot     : Option Request
  /-- Section 10.2. -/
  respSlot    : RespSlot
  /-- Bytes shifted out in the latest transaction (R177; model's own, log 14). -/
  spiOut      : List Byte
  /-- The Service Table (section 1.3). -/
  services    : Table (Option Service) 64
  /-- The Avail Table, in creation order (R20). -/
  avails      : List Avail
  /-- Records created since the last full reset: the next place in the creation order (R20, R47). -/
  created     : Nat
  /-- The walk cursor: at start, or a position (R23). -/
  walk        : Option WalkPos
  /-- NIN0-NIN3 (R3). -/
  netIn       : Table SyncState 4
  /-- The lane inputs (R66). -/
  laneIn      : Table SyncState 16
  /-- Section 4.2. -/
  lanes       : Table Lane 16
  /-- group_guard in ticks (R92). -/
  groupGuard  : Nat
  /-- The Channel Table (section 6.2). -/
  channels    : Table (Option Channel) 128
  /-- OUT0-OUT7 (section 6.1). -/
  ports       : Table Port 8
  /-- Zones 0-7 (R131, R148). -/
  zones       : Table Zone 8
  /-- AIN0-AIN5 (section 7.1). -/
  ains        : Table Ain 6
  /-- RFLAG0-RFLAG7 (R138). -/
  rflags      : Table Bool 8
  /-- Section 7.2. -/
  alerts      : Table Alert 16
  /-- Activations since the last full reset: the next place in their order (R144; log 32). -/
  activations : Nat
  /-- TOUT0-TOUT3 (section 8.1). -/
  tallies     : Table Tally 4
  /-- The attention set: for each source, bit k for the kind whose cause bit is k (R168, R188). -/
  attn        : Table (BitVec 9) 96
  /-- The cause mask (R169). -/
  mask        : BitVec 9
  /-- R169. -/
  lineMode    : LineMode
  /-- The reference count at which a running pulse-mode gap started (R171). -/
  gap         : Option Nat
  /-- Which free value comes next (model's own, log 11). -/
  freeCount   : Nat
  deriving DecidableEq, Repr

/-- Why the machine stops with a fault. No command of the table does: every refusal in the spec is a
response code or "changes nothing" (R182), so this type has no constructor. Safe. -/
inductive Fault where
  deriving DecidableEq, Repr

/-- Why a command has no meaning. -/
inductive Refusal where
  /-- Raised by `exec` for a command whose meaning is not written. Safe: the machine stops. -/
  | notModelled (mnemonic : String)
  deriving DecidableEq, Repr

/-! ## Reset values -/

/-- R5, R19: a timebase that has had no PCR. -/
def Timebase.reset : Timebase :=
  { state := .unlocked, count := 0, ref := none, t := none, absence := none }

/-- R3: SEARCHING. -/
def SyncState.reset : SyncState := { synced := false, seen := [], misses := 0 }

/-- Section 4.1's values after a full reset (R94). -/
def LaneCfg.reset : LaneCfg :=
  { video := 0x0100#13, audio1 := some 0x0101#13, audio2 := none, audio3 := none
    pcrPid := 0x0100#13, preroll := 512, eos := none, openTimeout := 3000 }

/-- Section 4.2's values after a full reset (R94). -/
def Lane.reset : Lane :=
  { cfg := LaneCfg.reset, state := .idle, bound := none, entry := none, lpts := none, pcrSeen := false
    buffer := [], nextSeq := 0, readers := [], faulted := false, hold := true, openStart := none
    closeStart := none, lastFault := .none }

/-- Section 6.1's values after a full reset: OUTp has base input p / 2 and zone p (R134). -/
def Port.reset (p : Fin 8) : Port :=
  { baseInput := ⟨p.val / 2, Nat.div_lt_of_lt_mul (by omega)⟩, zone := p, cont := [], out := [] }

/-- R134, R157: unlocked, uncovered, not waiting. -/
def Zone.reset : Zone := { locked := false, cover := none, waiting := false }

/-- Section 7.1's values after a full reset, for a pin at the given level: LOW_ACTIVE, so the raw level is 1
when the pin is low, and then the debounce timer runs from device time 0. -/
def Ain.reset (pin : Bool) : Ain :=
  { pin := pin, polarity := .lowActive, debounce := 20, level := false
    timer := if pin then none else some 0 }

/-- Section 7.2's values after a full reset. -/
def Alert.reset (i : Fin 16) : Alert :=
  { enabled := false, priority := 0, terms := [(.ain 0, true)], combine := .any, hold := 0, release := 0
    zones := 0xFF#8, lane := i, state := .disabled, stamp := none, seq := 0
    holdStart := none, releaseStart := none }

/-- Section 8.1's values after a full reset (R166). -/
def Tally.reset : Tally :=
  { kind := .none, selector := none, mode := .count, count := 1, delay := 0, onTime := 10, period := 20
    polarity := .highActive, phase := .idle, started := 0, phaseDue := none, pulses := [], edge := none
    steady := false }

/-- The part right after a full reset (R18, R47, R94, R134, R157, R166, R175, R184), with every alert
contact open (10.7: an open contact reads high; log 7). -/
def State.reset : State :=
  { pending := [], resetLow := false, refCount := 0, reqSlot := none, respSlot := .empty, spiOut := []
    services := Table.replicate 64 none
    avails := [], created := 0, walk := none
    netIn := Table.replicate 4 SyncState.reset
    laneIn := Table.replicate 16 SyncState.reset
    lanes := Table.replicate 16 Lane.reset
    groupGuard := 27000
    channels := Table.replicate 128 none
    ports := Table.ofFn Port.reset
    zones := Table.replicate 8 Zone.reset
    ains := Table.replicate 6 (Ain.reset true)
    rflags := Table.replicate 8 false
    alerts := Table.ofFn Alert.reset
    activations := 0
    tallies := Table.replicate 4 Tally.reset
    attn := Table.replicate 96 0#9
    mask := 0x1FF#9
    lineMode := .level
    gap := none
    freeCount := 0 }

end Sys2Proof.Machine
end

