-- ==== Sys2Proof/Machine/Flags.lean ====
section
/-! DEFINITION. The Attention Unit's flags (chapter 9): cause bits, the attention set, raising a cause and
the ATTN line; and the value codes of R188 by which names travel in bodies. -/

namespace Sys2Proof.Machine

/-! ## Cause kinds and sources -/

/-- The cause kind's bit (R188, value codes). -/
def Cause.bit : Cause → Nat
  | .timebaseLost => 0
  | .outcome => 1
  | .cueHeld => 2
  | .cueCorrupt => 3
  | .cueDropped => 4
  | .laneFault => 5
  | .alertActive => 6
  | .alertEnded => 7
  | .alertLaneNotReady => 8

def Cause.flag (c : Cause) : BitVec 9 := 1#9 <<< c.bit

/-- The attention source of a service: its index (section 9.1). -/
def svcSource (i : Fin 64) : Fin 96 := ⟨i.val, by omega⟩

/-- The attention source of lane n: 64 + n (R93). -/
def laneSource (l : Fin 16) : Fin 96 := ⟨64 + l.val, by omega⟩

/-- The attention source of alert i: 80 + i (R156). -/
def alertSource (a : Fin 16) : Fin 96 := ⟨80 + a.val, by omega⟩

/-- The kinds a source can hold (section 9.1): five for a service, one for a lane, three for an alert. -/
def allowedCauses (src : Fin 96) : BitVec 9 :=
  if src.val < 64 then 0x01F#9 else if src.val < 80 then 0x020#9 else 0x1C0#9

/-- A raise: recorded when the kind is enabled in the mask as it stands, once (R168). -/
def raise (src : Fin 96) (c : Cause) (s : State) : State :=
  if s.mask.getLsbD c.bit then { s with attn := s.attn.set src (s.attn.get src ||| c.flag) } else s

/-- Whether any cause is pending for any source. -/
def attnNonEmpty (s : State) : Bool := s.attn.entries.any fun k => k != 0#9

/-- ATTN: asserted exactly when the set is non-empty, except during the gap (R170, R171). -/
def attnLine (s : State) : Bool := attnNonEmpty s && s.gap.isNone

/-- The lowest-numbered source whose set is non-empty (R172). -/
def lowestSource (s : State) : Option (Fin 96) :=
  (List.finRange 96).find? fun i => s.attn.get i != 0#9

/-- 50 us of the 27 MHz reference (R171). -/
def gapCounts : Nat := 1350

/-! ## Value codes (R182, R188) -/

def Code.byte : Code → Byte
  | .ok => 0x00
  | .notFound => 0x02
  | .exists_ => 0x03
  | .full => 0x04
  | .badArg => 0x05
  | .state => 0x06
  | .late => 0x07
  | .badFrame => 0x08

def AvailState.byte : AvailState → Byte
  | .awaitCue => 1 | .held => 2 | .pending => 3 | .armed => 4 | .active => 5

def PlacementState.byte : PlacementState → Byte
  | .waiting => 1 | .laned => 2 | .onAir => 3 | .done => 4

def Outcome.byte : Outcome → Byte
  | .played => 1 | .cut => 2 | .missedLate => 3 | .missedNoLane => 4 | .missedNotReady => 5
  | .missedNoLock => 6 | .missedConflict => 7 | .noChannel => 8 | .lockedOut => 9 | .preempted => 10
  | .aborted => 11 | .laneFault => 12 | .cancelled => 13 | .unconfirmed => 14 | .declined => 15

def Origin.byte : Origin → Byte
  | .schedule => 1 | .network => 2

def TimeSource.byte : TimeSource → Byte
  | .fixed => 1 | .fromCue => 2

def TbState.byte : TbState → Byte
  | .unlocked => 0 | .acquiring => 1 | .locked => 2

def LaneState.byte : LaneState → Byte
  | .idle => 0 | .opening => 1 | .ready => 2 | .onAir => 3 | .closing => 4

def LaneFaultKind.byte : LaneFaultKind → Byte
  | .none => 0 | .openTimeout => 1 | .starved => 2

def AlertState.byte : AlertState → Byte
  | .disabled => 0 | .idle => 1 | .qualifying => 2 | .active => 3 | .releasing => 4 | .spent => 5

def Combine.byte : Combine → Byte
  | .all => 0 | .any => 1 | .odd => 2

def Combine.ofByte (b : Byte) : Option Combine :=
  if b = 0 then some .all else if b = 1 then some .any else if b = 2 then some .odd else none

def CuePolicy.byte : CuePolicy → Byte
  | .auto => 0 | .hold => 1 | .ignore => 2

def CuePolicy.ofByte (b : Byte) : Option CuePolicy :=
  if b = 0 then some .auto else if b = 1 then some .hold else if b = 2 then some .ignore else none

def HoldDefault.byte : HoldDefault → Byte
  | .arm => 0 | .drop => 1

def HoldDefault.ofByte (b : Byte) : Option HoldDefault :=
  if b = 0 then some .arm else if b = 1 then some .drop else none

def TallyKind.byte : TallyKind → Byte
  | .none => 0 | .spliceOut => 1 | .ret => 2 | .cueHeld => 3 | .alertQualifying => 4 | .alertActive => 5

def TallyKind.ofByte (b : Byte) : Option TallyKind :=
  if b = 0 then some TallyKind.none
  else if b = 1 then some .spliceOut
  else if b = 2 then some .ret
  else if b = 3 then some .cueHeld
  else if b = 4 then some .alertQualifying
  else if b = 5 then some .alertActive
  else Option.none

def TallyMode.byte : TallyMode → Byte
  | .count => 0 | .repeating => 1 | .steady => 2

def TallyMode.ofByte (b : Byte) : Option TallyMode :=
  if b = 0 then some .count else if b = 1 then some .repeating else if b = 2 then some .steady else none

def TallyPhase.byte : TallyPhase → Byte
  | .idle => 0 | .delay => 1 | .pulsing => 2 | .finishing => 3

def Polarity.byte : Polarity → Byte
  | .highActive => 0 | .lowActive => 1

def Polarity.ofByte (b : Byte) : Option Polarity :=
  if b = 0 then some .highActive else if b = 1 then some .lowActive else none

def LineMode.byte : LineMode → Byte
  | .level => 0 | .pulse => 1

def LineMode.ofByte (b : Byte) : Option LineMode :=
  if b = 0 then some .level else if b = 1 then some .pulse else none

/-- AIN0-AIN5 are 0-5, RFLAG0-RFLAG7 are 8-15. -/
def TermSource.byte : TermSource → Byte
  | .ain i => BitVec.ofNat 8 i.val
  | .flag j => BitVec.ofNat 8 (8 + j.val)

def TermSource.ofByte (b : Byte) : Option TermSource :=
  if h : b.toNat < 6 then some (.ain ⟨b.toNat, h⟩)
  else if h : 8 ≤ b.toNat ∧ b.toNat < 16 then some (.flag ⟨b.toNat - 8, by omega⟩)
  else none

def RoleSource.byte : RoleSource → Byte
  | .network => 0x10
  | .muted => 0x11
  | .lane l => BitVec.ofNat 8 l.val

/-- A flag byte: 0 or 1 (R183). -/
def boolOfByte (b : Byte) : Option Bool :=
  if b = 0 then some false else if b = 1 then some true else none

def boolByte (b : Bool) : Byte := if b then 1 else 0

end Sys2Proof.Machine
end

