-- ==== Sys2Proof/Machine/Ops.lean ====
section
/-! DEFINITION. The named operations shared by all blocks: wrap-aware stream time (R1, R2), device time,
reads and updates of the tables, the continuity memory and the table order (R21). -/

namespace Sys2Proof.Machine

/-! ## Stream time (R1, R2) -/

/-- The distance (e - t) mod 2^33. -/
def dist (e t : Time) : Nat := (e - t).toNat

/-- `e` is ahead of `t` (R1). -/
def isAhead (e t : Time) : Bool := decide (dist e t < 2 ^ 32)

/-- `e` is behind `t`: it has passed (R1). -/
def isBehind (e t : Time) : Bool := !isAhead e t

/-- `t` is at or after `u` (R1). -/
def atOrAfter (t u : Time) : Bool := decide (dist t u < 2 ^ 32)

/-- The wrap-aware absolute difference (R1). -/
def absDiff (a b : Time) : Nat := min (dist a b) (dist b a)

/-- A time plus a number of ticks, modulo 2^33. -/
def addTicks (t : Time) (n : Nat) : Time := t + BitVec.ofNat 33 n

/-- A given time plus a signed splice_adjust, modulo 2^33 (R96). -/
def adjust (t : Time) (a : Int) : Time := t + BitVec.ofInt 33 a

/-- The modulus of PCR counts (R2). -/
def pcrMod : Nat := 2 ^ 33 * 300

/-- The signed difference of count `a` from count `b` (R2). -/
def signedDiff (a b : Nat) : Int :=
  let d : Nat := (a + (pcrMod - b % pcrMod)) % pcrMod
  if d < pcrMod / 2 then (d : Int) else (d : Int) - (pcrMod : Int)

/-- A PCR's count (R10). -/
def pcrCounts (c : Pcr) : Nat := 300 * c.base.toNat + c.ext

/-! ## Device time (log 2) -/

/-- Device time in ms (00 glossary): 27 000 counts of the reference each. -/
def nowMs (s : State) : Nat := s.refCount / 27000

/-- The clock at the given device time, or where it is if that has been reached (log 3). -/
def reachMs (ms : Nat) (s : State) : State :=
  if ms ≤ nowMs s then s else { s with refCount := ms * 27000 }

/-- The clock at the given reference count, or where it is if that has been reached (log 3). -/
def reachCount (n : Nat) (s : State) : State :=
  if n ≤ s.refCount then s else { s with refCount := n }

/-! ## Lists -/

/-- `f` applied for every index in ascending order. -/
def overFin (n : Nat) (f : Fin n → State → State) (s : State) : State :=
  (List.finRange n).foldl (fun s i => f i s) s

/-- `f` applied for every element of a list, in order. -/
def overList {α : Type} (l : List α) (f : α → State → State) (s : State) : State :=
  l.foldl (fun s a => f a s) s

/-- An element put in a sorted list before the first element it comes before. -/
def insertBy {α : Type} (lt : α → α → Bool) (x : α) : List α → List α
  | [] => [x]
  | y :: ys => if lt x y then x :: y :: ys else y :: insertBy lt x ys

/-- A stable sort. -/
def sortBy {α : Type} (lt : α → α → Bool) : List α → List α
  | [] => []
  | x :: xs => insertBy (fun a b => !lt b a) x (sortBy lt xs)

/-- The lexicographic order on lists of numbers. -/
def lexLt : List Nat → List Nat → Bool
  | [], [] => false
  | [], _ :: _ => true
  | _ :: _, [] => false
  | a :: as, b :: bs => if a < b then true else if b < a then false else lexLt as bs

/-- Whether zone `z` is in a set. -/
def zoneIn (zs : ZoneSet) (z : Fin 8) : Bool := zs.getLsbD z.val

/-! ## Services -/

def Service.pid (v : Service) : Role → Option Pid
  | .video => some v.video
  | .audio1 => v.audio1
  | .audio2 => v.audio2
  | .audio3 => v.audio3

def Service.has (v : Service) (x : Role) : Bool := (v.pid x).isSome

/-- Whether the service's PCR PID is one of its component PIDs (R105, R106). -/
def Service.pcrInComponent (v : Service) : Bool :=
  Role.every.any fun x => v.pid x == some v.pcrPid

def updSvc (i : Fin 64) (f : Service → Service) (s : State) : State :=
  { s with services := s.services.set i ((s.services.get i).map f) }

/-- A service's T (section 1.4). -/
def tOf (s : State) (i : Fin 64) : Option Time := (s.services.get i).bind fun v => v.tb.t

/-- A service's timebase state; an empty entry reads UNLOCKED (R9). -/
def tbStateOf (s : State) (i : Fin 64) : TbState :=
  match s.services.get i with
  | some v => v.tb.state
  | none => .unlocked

def isLocked (s : State) (i : Fin 64) : Bool := decide (tbStateOf s i = .locked)

/-- The service's order reference (R21). -/
def tRef (s : State) (i : Fin 64) : Time :=
  match s.services.get i with
  | some v => v.tb.t.getD v.lastT
  | none => 0

/-! ## Avail records -/

def findRec (k : Key) (s : State) : Option Avail := s.avails.find? fun r => decide (r.key = k)

def updRec (k : Key) (f : Avail → Avail) (s : State) : State :=
  { s with avails := s.avails.map fun r => if r.key = k then f r else r }

def Avail.placement (r : Avail) (i : Nat) : Option Placement := r.placements[i]?

def findPlacement (p : PRef) (s : State) : Option Placement :=
  (findRec p.key s).bind fun r => r.placement p.idx

def Avail.updPlacement (i : Nat) (f : Placement → Placement) (r : Avail) : Avail :=
  { r with placements := r.placements.modify i f }

def updPlacement (p : PRef) (f : Placement → Placement) (s : State) : State :=
  updRec p.key (Avail.updPlacement p.idx f) s

/-- The number of records a service holds (R20). -/
def recCount (s : State) (i : Fin 64) : Nat :=
  (s.avails.filter fun r => decide (r.key.svc = i)).length

def Avail.allDone (r : Avail) : Bool := r.placements.all fun p => decide (p.state = .done)

/-- The place of a record within the table (R21): service, records with an E first, distance from the
order reference, creation order. -/
def sortKey (s : State) (k : Key) (e : Option Time) (creation : Nat) : List Nat :=
  match e with
  | some t => [k.svc.val, 0, dist t (tRef s k.svc), creation]
  | none => [k.svc.val, 1, 0, creation]

def Avail.sortKey (s : State) (r : Avail) : List Nat := Machine.sortKey s r.key r.e r.creation

/-- The Avail Table in table order (R21). -/
def tableOrder (s : State) : List Avail :=
  sortBy (fun a b => lexLt (a.sortKey s) (b.sortKey s)) s.avails

/-- The keys of one service's records in table order. -/
def orderedKeys (s : State) (i : Fin 64) : List Key :=
  ((tableOrder s).filter fun r => decide (r.key.svc = i)).map fun r => r.key

/-! ## Lanes -/

def LaneCfg.pid (c : LaneCfg) : Role → Option Pid
  | .video => some c.video
  | .audio1 => c.audio1
  | .audio2 => c.audio2
  | .audio3 => c.audio3

def updLane (l : Fin 16) (f : Lane → Lane) (s : State) : State :=
  { s with lanes := s.lanes.set l (f (s.lanes.get l)) }

/-- The enabled alert records that name a lane (R70). -/
def namingAlerts (s : State) (l : Fin 16) : List (Fin 16) :=
  (List.finRange 16).filter fun a => (s.alerts.get a).enabled && decide ((s.alerts.get a).lane = l)

/-- A lane is STANDING while at least one enabled alert record names it (R70). -/
def isStanding (s : State) (l : Fin 16) : Bool := !(namingAlerts s l).isEmpty

/-- An AVAIL lane that is unbound and in OPENING or READY is kept open (R83). -/
def isKeptOpen (s : State) (l : Fin 16) : Bool :=
  !isStanding s l && (s.lanes.get l).bound.isNone
    && (decide ((s.lanes.get l).state = .opening) || decide ((s.lanes.get l).state = .ready))

/-- An alert's lane is serving while it is STANDING, in READY or ON_AIR, and not faulted (R149). -/
def isServing (s : State) (l : Fin 16) : Bool :=
  isStanding s l && !(s.lanes.get l).faulted
    && (decide ((s.lanes.get l).state = .ready) || decide ((s.lanes.get l).state = .onAir))

/-! ## Channels -/

def updChan (c : Fin 128) (f : Channel → Channel) (s : State) : State :=
  { s with channels := s.channels.set c ((s.channels.get c).map f) }

/-- The lane the VIDEO component is switched to (section 6.3). -/
def Channel.lane (c : Channel) : Option (Fin 16) :=
  match c.roles.video.source with
  | .lane l => some l
  | _ => none

/-- The placement on whose behalf the channel draws, if it draws for one (R117). -/
def Channel.drawsFor (c : Channel) : Option PRef :=
  match c.lane, c.holder with
  | some _, some (.placement p) => some p
  | _, _ => none

/-- The channel holds components on a lane (R117). -/
def Channel.holdsOn (c : Channel) (l : Fin 16) : Bool :=
  c.roles.toList.any fun r => decide (r.source = .lane l)

/-- The channel is NETWORK: every component's source is NETWORK (R117). -/
def Channel.isNetwork (c : Channel) : Bool :=
  c.roles.toList.all fun r => decide (r.source = .network)

/-- A channel at rest: NETWORK, no pending target, no departing lane (R115). -/
def Channel.atRest (c : Channel) : Bool := c.isNetwork && c.pending.isNone && c.departing.isNone

/-- The zone of a channel's port. -/
def chanZone (s : State) (c : Channel) : Fin 8 := (s.ports.get c.port).zone

/-- The indexes of the defined channels that meet a test, ascending. -/
def chansWhere (s : State) (f : Channel → Bool) : List (Fin 128) :=
  (List.finRange 128).filter fun i =>
    match s.channels.get i with
    | some c => f c
    | none => false

/-- The channels of a service. -/
def chansOfService (s : State) (i : Fin 64) : List (Fin 128) :=
  chansWhere s fun c => decide (c.service = i)

/-- The channels on ports of a zone. -/
def chansOfZone (s : State) (z : Fin 8) : List (Fin 128) :=
  chansWhere s fun c => decide (chanZone s c = z)

/-- Whether the service of a channel has a role. -/
def chanHas (s : State) (c : Fin 128) (x : Role) : Bool :=
  match s.channels.get c with
  | some ch => match s.services.get ch.service with
    | some v => v.has x
    | none => false
  | none => false

/-- A reader draws role `x` when its service and the lane plan both hold it (R80, R123). -/
def draws (s : State) (l : Fin 16) (c : Fin 128) (x : Role) : Bool :=
  chanHas s c x && ((s.lanes.get l).cfg.pid x).isSome

/-! ## Ports and their continuity memory (section 6.1) -/

def updPort (p : Fin 8) (f : Port → Port) (s : State) : State :=
  { s with ports := s.ports.set p (f (s.ports.get p)) }

/-- The CC remembered for a PID; an unlisted PID is absent. -/
def contRead (m : ContMem) (pid : Nat) : Option (BitVec 4) :=
  (m.find? fun c => c.1 == pid).map fun c => c.2

/-- A CC recorded for a PID, the list kept sorted with no repeats. -/
def contWrite (pid : Nat) (cc : BitVec 4) : ContMem → ContMem
  | [] => [(pid, cc)]
  | (q, d) :: m =>
    if pid < q then (pid, cc) :: (q, d) :: m
    else if pid = q then (pid, cc) :: m
    else (q, d) :: contWrite pid cc m

/-- The canonical form: PIDs strictly rising. -/
def contWf : ContMem → Bool
  | [] => true
  | [_] => true
  | (p, _) :: (q, d) :: m => decide (p < q) && contWf ((q, d) :: m)

def updZone (z : Fin 8) (f : Zone → Zone) (s : State) : State :=
  { s with zones := s.zones.set z (f (s.zones.get z)) }

end Sys2Proof.Machine
end

