-- ==== Sys2Proof/Machine/Lanes.lean ====
section
/-! DEFINITION. The Lane Manager's operations on lanes (chapter 4): the buffer and HOLD, opening, rolling,
readers and freeing, closing, eligibility, the group guard and allocation. -/

namespace Sys2Proof.Machine

/-! ## The buffer and HOLD (section 4.3) -/

def BufPkt.isRole (b : BufPkt) (x : Role) : Bool :=
  match b.cls with
  | .role y _ => decide (y = x)
  | .eos => false

/-- The PTS of a RAP, none for any other packet. -/
def BufPkt.rap (b : BufPkt) : Option Time :=
  match b.cls with
  | .role _ r => r
  | .eos => none

def bufferLimit : Nat := 4096
def holdHigh : Nat := 4032
def holdLow : Nat := 3584

/-- HOLD after an arriving packet has brought the buffer to its fill (R73). -/
def Lane.holdAfterArrival (ln : Lane) : Lane :=
  if holdHigh ≤ ln.buffer.length then { ln with hold := true } else ln

/-- HOLD after packets have left the buffer (R73). -/
def Lane.holdAfterLeaving (ln : Lane) : Lane :=
  if ln.buffer.length ≤ holdLow then { ln with hold := false } else ln

/-- Emptying removes every packet, the entry mark and L_pts at once (R72). -/
def Lane.emptied (ln : Lane) : Lane := { ln with buffer := [], entry := none, lpts := none }

/-- Entry to OPENING (R74). The last fault keeps its value. -/
def Lane.enterOpening (now : Nat) (ln : Lane) : Lane :=
  { ln.emptied with
    state := .opening, pcrSeen := false, faulted := false, hold := false, readers := []
    openStart := some now, closeStart := none }

/-- Entry to CLOSING (R84). -/
def Lane.enterClosing (now : Nat) (ln : Lane) : Lane :=
  { ln.emptied with
    state := .closing, hold := true, readers := [], openStart := none, closeStart := some now }

/-- Entry to IDLE (R84, R95). -/
def Lane.enterIdle (ln : Lane) : Lane :=
  { ln.emptied with
    state := .idle, hold := true, readers := [], openStart := none, closeStart := none }

/-! ## Classifying a delivered packet (R67) -/

/-- The PTS of a packet's PES header, when it lies wholly within the packet (R104, R118). -/
def pktPts (p : Packet) : Option Time :=
  match p.pusi, p.payload with
  | true, some (.pes h _) => match h.pts with
    | .whole t => some t
    | _ => none
  | _, _ => none

/-- A timestamp field that the header calls for does not lie wholly within the payload (R104). -/
def headerCut (p : Packet) : Bool :=
  match p.payload with
  | some (.pes h _) => decide (h.pts = .cut) || decide (h.dts = .cut)
  | _ => false

/-- What the packet's adaptation field holds; a packet without one, or with one of length 0, has none. -/
def adaptationOf (p : Packet) : Option Adaptation :=
  match p.af with
  | some (.holds a) => some a
  | _ => none

def pktPcr (p : Packet) : Option Pcr := (adaptationOf p).bind fun a => a.pcr

def discontinuityOf (p : Packet) : Bool := (adaptationOf p).any fun a => a.discontinuity

def randomAccessOf (p : Packet) : Bool := (adaptationOf p).any fun a => a.randomAccess

/-- The first payload byte. A PES header starts with the byte 0x00. PRESUMED, log 5. -/
def firstByteOf (p : Packet) : Option Byte :=
  match p.payload with
  | some (.bytes b) => b.head?
  | some (.pes _ _) => some 0
  | none => none

/-- The PTS that makes a VIDEO packet a RAP (R67): payload start, the random access indicator and a PES
header with a PTS, no timestamp of the header cut (R104). -/
def rapPts (p : Packet) : Option Time :=
  if randomAccessOf p && !headerCut p then pktPts p else none

/-- The role a PID plays in a lane's plan. -/
def LaneCfg.roleOf (c : LaneCfg) (pid : Pid) : Option Role :=
  Role.every.find? fun x => c.pid x == some pid

/-- The class of a packet delivered to a lane; none is discarded on arrival (R67). -/
def classify (standing : Bool) (c : LaneCfg) (p : Packet) : Option PktClass :=
  if p.tei then none
  else match c.roleOf p.pid with
    | some .video => some (.role .video (rapPts p))
    | some x => some (.role x none)
    | none => match c.eos with
      | some (pid, code) =>
        if !standing && decide (p.pid = pid) && p.pusi && firstByteOf p == some code then some .eos else none
      | none => none

/-- A component packet on the lane PCR PID whose adaptation field carries a PCR (R67). -/
def pcrBearing (c : LaneCfg) (cls : PktClass) (p : Packet) : Bool :=
  match cls with
  | .role _ _ => decide (p.pid = c.pcrPid) && (pktPcr p).isSome
  | .eos => false

/-! ## Cursors and freeing (R80) -/

/-- The packet a role-`x` cursor at `c` points at. -/
def Lane.atCursor (ln : Lane) (x : Role) (c : Nat) : Option BufPkt :=
  ln.buffer.find? fun b => b.isRole x && decide (c ≤ b.seq)

/-- Where a role-`x` cursor moves when it takes packet `q`: the next packet of its role, or the end of the
buffer when there is none (R80; log 9). -/
def Lane.cursorAfter (ln : Lane) (x : Role) (q : Nat) : Nat :=
  match ln.buffer.find? fun b => b.isRole x && decide (q < b.seq) with
  | some b => b.seq
  | none => ln.nextSeq

def Reader.passed (r : Reader) (x : Role) (seq : Nat) : Bool :=
  match r.cursors.get x with
  | some c => decide (seq < c)
  | none => false

/-- A packet may be freed (R80). `d` says which reader draws which role. -/
def Lane.freeable (d : Fin 128 → Role → Bool) (ln : Lane) (b : BufPkt) : Bool :=
  match b.cls with
  | .role x _ => (ln.readers.filter fun r => d r.chan x).all fun r => r.passed x b.seq
  | .eos => ln.readers.all fun r => r.passed .video b.seq

/-- In a STANDING lane whose entry RAP has left the buffer, the entry goes to the oldest RAP left, or
becomes absent (R78). -/
def Lane.remark (ln : Lane) : Lane :=
  match ln.entry with
  | none => ln
  | some e =>
    if ln.buffer.any fun b => b.seq == e then ln
    else match ln.buffer.find? fun b => b.rap.isSome with
      | some b => { ln with entry := some b.seq, lpts := b.rap }
      | none => { ln with entry := none, lpts := none }

/-- Freeing behind the readers' cursors; a lane without readers frees nothing (R80). -/
def Lane.free (d : Fin 128 → Role → Bool) (standing : Bool) (ln : Lane) : Lane :=
  if ln.readers.isEmpty then ln
  else
    let kept := Lane.holdAfterLeaving { ln with buffer := ln.buffer.filter fun b => !ln.freeable d b }
    if standing then kept.remark else kept

/-! ## Appending and rolling (R72, R75, R76, R78) -/

/-- A packet appended at the tail, or dropped at a full buffer (R72). -/
def Lane.append (cls : PktClass) (p : Packet) (ln : Lane) : Lane :=
  if ln.buffer.length < bufferLimit then
    Lane.holdAfterArrival { ln with
      buffer := ln.buffer ++ [⟨ln.nextSeq, cls, p⟩], nextSeq := ln.nextSeq + 1
      pcrSeen := ln.pcrSeen || pcrBearing ln.cfg cls p }
  else ln

/-- A RAP appended where the lane has no entry becomes the entry (R75, R78). -/
def Lane.markEntry (cls : PktClass) (ln ln' : Lane) : Lane :=
  match ln.entry, cls with
  | none, .role _ (some t) =>
    if ln.buffer.length < bufferLimit then { ln' with entry := some ln.nextSeq, lpts := some t } else ln'
  | _, _ => ln'

/-- No reader's cursor of the packet's role stands at or before it (R78). An end-of-segment packet has no role; it is judged
by the VIDEO cursors, as freeing judges it (R80; log 54). -/
def Lane.behindAll (ln : Lane) (b : BufPkt) : Bool :=
  match b.cls with
  | .role x _ => ln.readers.all fun r => match r.cursors.get x with
    | some c => decide (b.seq < c)
    | none => true
  | .eos => ln.readers.all fun r => match r.cursors.video with
    | some c => decide (b.seq < c)
    | none => true

/-- The roll: the entry moves to the next RAP after it and the packets before the new entry that every
cursor has passed are discarded, from the oldest onward (R78). -/
def Lane.roll (ln : Lane) : Lane :=
  match ln.entry with
  | none => ln
  | some e => match ln.buffer.find? fun b => b.rap.isSome && decide (e < b.seq) with
    | none => ln
    | some n =>
      Lane.holdAfterLeaving { ln with
        entry := some n.seq, lpts := n.rap
        buffer := ln.buffer.dropWhile fun b => decide (b.seq < n.seq) && ln.behindAll b }

/-- A STANDING lane in READY or ON_AIR rolls when an arrival would bring its fill to 4 032 (R78), and at an arrival
that meets a full buffer (R72; log 10). At any other fill the arrival counts as in an AVAIL lane. -/
def Lane.rollIfDue (standing : Bool) (ln : Lane) : Lane :=
  if standing && (decide (ln.state = .ready) || decide (ln.state = .onAir))
      && (decide (ln.buffer.length + 1 = holdHigh) || decide (bufferLimit ≤ ln.buffer.length))
  then ln.roll else ln

/-- The lane in OPENING meets the conditions of READY (R76). -/
def Lane.readyMet (ln : Lane) : Bool :=
  ln.entry.isSome && decide (ln.cfg.preroll ≤ ln.buffer.length) && ln.pcrSeen

/-- A classified packet offered to the buffer, by the lane's state (R72, R75, R76, R78). In OPENING before
the entry every packet but a RAP is discarded. An AVAIL lane on air takes no entry here, also when it has none (log 50). -/
def Lane.offer (d : Fin 128 → Role → Bool) (standing : Bool) (cls : PktClass) (p : Packet) (ln : Lane) :
    Lane :=
  match ln.state with
  | .idle => ln
  | .closing => ln
  | .opening =>
    match ln.entry, cls with
    | none, .role _ (some _) => openingStep (ln.markEntry cls (ln.append cls p))
    | none, _ => ln
    | some _, _ => openingStep (ln.append cls p)
  | .ready =>
    let r := ln.rollIfDue standing
    if standing then r.markEntry cls (r.append cls p) else r.append cls p
  | .onAir =>
    let r := ln.rollIfDue standing
    (if standing then r.markEntry cls (r.append cls p) else r.append cls p).free d standing
where
  openingStep (ln : Lane) : Lane :=
    if ln.readyMet then { ln with state := .ready, openStart := none } else ln

/-! ## Readers (R79, R80, R82, R83) -/

def Lane.reader (ln : Lane) (c : Fin 128) : Option Reader := ln.readers.find? fun r => decide (r.chan = c)

def Lane.updReader (c : Fin 128) (f : Reader → Reader) (ln : Lane) : Lane :=
  { ln with readers := ln.readers.map fun r => if r.chan = c then f r else r }

/-- A channel starts as a reader, or stays one, with a VIDEO cursor at the entry (R79, R120). Every cursor
it had is discarded. READY becomes ON_AIR at the first reader. -/
def Lane.startReader (c : Fin 128) (ln : Lane) : Lane :=
  let cursors : PerRole (Option Nat) := { PerRole.all none with video := ln.entry }
  let ln' : Lane :=
    match ln.reader c with
    | some _ => ln.updReader c fun r => { r with cursors := cursors }
    | none => { ln with readers := ln.readers ++ [{ chan := c, cursors := cursors, dry := false, starve := none }] }
  { ln' with state := .onAir }

/-- A cursor set or discarded. -/
def Lane.setCursor (c : Fin 128) (x : Role) (v : Option Nat) (ln : Lane) : Lane :=
  ln.updReader c fun r => { r with cursors := r.cursors.set x v }

/-- The outcome of a slot offered to a reader (R80, R81). -/
inductive SlotResult where
  | filled (p : Packet) (eos : Bool)
  | underrun
  | noCursor
  deriving DecidableEq, Repr

/-- A reader takes the packet at its role-`x` cursor. `eos` says that the VIDEO cursor moved past an
end-of-segment packet while taking it (R80, R81). -/
def Lane.take (now : Nat) (c : Fin 128) (x : Role) (ln : Lane) : Lane × SlotResult :=
  match ln.reader c with
  | none => (ln, .noCursor)
  | some r => match r.cursors.get x with
    | none => (ln, .noCursor)
    | some cur => match ln.atCursor x cur with
      | some b =>
        let next := ln.cursorAfter x b.seq
        let eos := decide (x = .video) && ln.buffer.any fun q =>
          decide (q.cls = .eos) && decide (cur ≤ q.seq) && decide (q.seq < next)
        (ln.updReader c fun r =>
            { r with cursors := r.cursors.set x (some next), dry := false, starve := none },
          .filled b.pkt eos)
      | none =>
        (ln.updReader c fun r =>
            if r.dry then r else { r with dry := true, starve := some now },
          .underrun)

/-- Every packet that no longer needs to stay is freed, for lane `l`. -/
def freeLane (l : Fin 16) (s : State) : State :=
  updLane l (Lane.free (draws s l) (isStanding s l)) s

/-- The lane when its last reader has left (R83). `keep` is the keep-open flag of its bound placement. -/
def Lane.lastReaderLeft (now : Nat) (standing keep : Bool) (ln : Lane) : Lane :=
  if standing then
    if ln.faulted then ln.enterClosing now else { ln with state := .ready }
  else if ln.bound.isSome && keep && !ln.faulted then Lane.enterOpening now { ln with bound := none }
  else Lane.enterClosing now { ln with bound := none }

/-- A reader leaves lane `l` (R83). A STANDING lane that goes back from ON_AIR to READY was serving in ON_AIR, so it
does not become serving and no zone is told (R149, R151; log 46). -/
def readerLeave (l : Fin 16) (c : Fin 128) (s : State) : State :=
  let ln := s.lanes.get l
  let rest := ln.readers.filter fun r => decide (r.chan ≠ c)
  let keep := match ln.bound with
    | some p => match findPlacement p s with
      | some q => q.keepOpen
      | none => false
    | none => false
  if rest.isEmpty then
    updLane l (fun ln => Lane.lastReaderLeft (nowMs s) (isStanding s l) keep { ln with readers := [] }) s
  else freeLane l (updLane l (fun ln => { ln with readers := rest }) s)

/-! ## Handing back and closing (R85, R86) -/

/-- A lane handed back for closing by a placement. Nothing changes when the lane is not bound to it (R85). -/
def handBack (l : Fin 16) (p : PRef) (s : State) : State :=
  updLane l (fun ln =>
    if ln.bound = some p then
      match ln.state with
      | .opening => Lane.enterClosing (nowMs s) { ln with bound := none }
      | .ready => Lane.enterClosing (nowMs s) { ln with bound := none }
      | _ => { ln with bound := none }
    else ln) s

/-! ## Groups, guard and allocation (section 4.8) -/

/-- The group of a lane (R88). -/
def groupOf (l : Fin 16) : Fin 4 := ⟨l.val / 4, by omega⟩

/-- The lanes of a group, ascending (R88). -/
def groupLanes (g : Fin 4) : List (Fin 16) :=
  [⟨4 * g.val, by omega⟩, ⟨4 * g.val + 1, by omega⟩, ⟨4 * g.val + 2, by omega⟩, ⟨4 * g.val + 3, by omega⟩]

/-- The E of the record whose placement a lane is bound to, but for the placement `but`. -/
def boundE (s : State) (but : PRef) (l : Fin 16) : Option Time :=
  match (s.lanes.get l).bound with
  | some p => if p = but then none else (findRec p.key s).bind fun r => r.e
  | none => none

/-- A request of placement `p` with time `e` passes the guard in group `g` (R88). -/
def passesGuard (s : State) (p : PRef) (e : Time) (g : Fin 4) : Bool :=
  (groupLanes g).all fun l => match boundE s p l with
    | some e' => decide (s.groupGuard ≤ absDiff e e')
    | none => true

/-- A lane is eligible for a grant (R87). -/
def isEligible (s : State) (l : Fin 16) : Bool :=
  (s.lanes.get l).bound.isNone && !isStanding s l
    && (decide ((s.lanes.get l).state = .idle) || isKeptOpen s l)

/-- The number of a group's lanes that are not IDLE (R90). -/
def busyCount (s : State) (g : Fin 4) : Nat :=
  ((groupLanes g).filter fun l => decide ((s.lanes.get l).state ≠ .idle)).length

/-- The groups in the order a request for ANY tries them (R90). -/
def groupOrder (s : State) : List (Fin 4) :=
  sortBy (fun a b => lexLt [busyCount s a, a.val] [busyCount s b, b.val]) (List.finRange 4)

/-- The lane granted to a request, or none when it is refused (R89, R90). -/
def allocate (s : State) (p : PRef) (req : LaneReq) (e : Time) : Option (Fin 16) :=
  match req with
  | some l => if isEligible s l && passesGuard s p e (groupOf l) then some l else none
  | none => (groupOrder s).findSome? fun g =>
    if passesGuard s p e g then (groupLanes g).find? fun l => isEligible s l else none

/-- A grant binds the lane; an IDLE lane enters OPENING, a kept-open lane keeps its state (R91). -/
def grant (l : Fin 16) (p : PRef) (s : State) : State :=
  updLane l (fun ln =>
    if ln.state = .idle then Lane.enterOpening (nowMs s) { ln with bound := some p }
    else { ln with bound := some p }) s

end Sys2Proof.Machine
end

