-- ==== Sys2Proof/Machine/Channels.lean ====
section
/-! DEFINITION. How targets reach a channel (R119), and the questions the Splice Engine and the Alert Unit
ask of channels. -/

namespace Sys2Proof.Machine

/-- An asked return for placement `p` (R119). With `preempt` it replaces a pending asked return (R133);
otherwise a pending target stays with its cause. -/
def Channel.askReturn (p : PRef) (cause : Outcome) (preempt : Bool) (ch : Channel) : Channel :=
  if ch.drawsFor = some p then
    match ch.pending with
    | none => { ch with pending := some ⟨.network, .asked, some cause⟩ }
    | some t =>
      if preempt && decide (t.kind = .asked)
      then { ch with pending := some ⟨.network, .asked, some cause⟩ } else ch
  else ch

def askReturn (p : PRef) (cause : Outcome) (preempt : Bool) (c : Fin 128) (s : State) : State :=
  updChan c (Channel.askReturn p cause preempt) s

/-- An asked return of whatever placement the channel draws for. -/
def askReturnHeld (cause : Outcome) (preempt : Bool) (c : Fin 128) (s : State) : State :=
  updChan c (fun ch => match ch.drawsFor with
    | some p => ch.askReturn p cause preempt
    | none => ch) s

/-- The leave cause of a coverage target: PREEMPTED when the video draws for a placement (R119). -/
def Channel.coverageCause (ch : Channel) : Option Outcome :=
  if ch.drawsFor.isSome then some .preempted else none

/-- A coverage target (R119): equal to the video's current source it discards the pending target, and for a
lane the holder becomes the covering alert; otherwise it replaces the pending target. -/
def Channel.cover (t : Target) (ch : Channel) : Channel :=
  match t with
  | .network =>
    if ch.lane.isNone then { ch with pending := none }
    else { ch with pending := some ⟨.network, .coverage, ch.coverageCause⟩ }
  | .lane l h =>
    if ch.lane = some l then { ch with pending := none, holder := some h }
    else { ch with pending := some ⟨.lane l h, .coverage, ch.coverageCause⟩ }

def giveCoverage (t : Target) (c : Fin 128) (s : State) : State := updChan c (Channel.cover t) s

/-- The channel's video draws from lane `l`, or its pending target names it (R141, R152). -/
def Channel.onOrToLane (l : Fin 16) (ch : Channel) : Bool :=
  decide (ch.lane = some l) ||
    match ch.pending with
    | some ⟨.lane m _, _, _⟩ => decide (m = l)
    | _ => false

/-- The channels drawing for a placement of a record. -/
def chansOfRecord (s : State) (k : Key) : List (Fin 128) :=
  chansWhere s fun ch => match ch.drawsFor with
    | some p => decide (p.key = k)
    | none => false

/-- The live state of a channel at rest (section 6.3, R115). The last output CC of each role comes from the
port's continuity memory for that role's PID. -/
def Channel.fresh (svc : Fin 64) (port : Fin 8) (v : Service) (m : ContMem) : Channel :=
  let role (x : Role) : RoleState :=
    { source := .network, switched := true, ccDelta := 0
      lastCc := (v.pid x).bind fun pid => contRead m pid.toNat, rejoin := false }
  { service := svc, port := port, underrunSeen := false, holder := none, departing := none
    offset := none, switchPts := none, followStart := none, followDue := false
    roles := ⟨role .video, role .audio1, role .audio2, role .audio3⟩
    pending := none, ret := none, cueRet := none }

/-- RESET_STREAMS's part in a channel (R135): every component on NETWORK at once, last output CCs kept. -/
def Channel.resetStreams (ch : Channel) : Channel :=
  { ch with
    holder := none, departing := none, offset := none, switchPts := none, followStart := none
    followDue := false, pending := none, ret := none, cueRet := none
    roles := ch.roles.map fun r => { r with source := .network, switched := true, rejoin := true } }

end Sys2Proof.Machine
end

