-- ==== Sys2Proof/Machine/Tally.lean ====
section
/-! DEFINITION. The Tally Unit's operations (chapter 8): pulse trains, levels and the output pin. Times are
device time in ms; delays, on-times and periods are in 10 ms steps (R160). -/

namespace Sys2Proof.Machine

/-- The kind is a level kind (section 8.1). -/
def TallyKind.isLevel : TallyKind → Bool
  | .alertQualifying => true
  | .alertActive => true
  | _ => false

/-- A further pulse of the train is to start no later than the one before it ends: the pulses abut or overlap, so the
output has no break between the end of one and the start of the next (R160). -/
def Tally.unbroken (t : Tally) : Bool :=
  decide (t.phase = .pulsing) && decide (0 < t.period) && decide (t.period ≤ t.onTime)
    && match t.mode with
      | .count => decide (t.started < t.count)
      | .repeating => true
      | .steady => false

/-- The output is active while a pulse is in its on-time, while the pulses leave no break, or as STEADY has set it
(R160, R163). -/
def Tally.output (t : Tally) : Bool := t.steady || !t.pulses.isEmpty || t.unbroken

/-- The pin's level, high or low (R160). -/
def Tally.pin (t : Tally) : Bool :=
  match t.polarity with
  | .highActive => t.output
  | .lowActive => !t.output

/-- The ALERT_QUALIFYING or ALERT_ACTIVE level of one alert record (R147). -/
def alertLevel (k : TallyKind) (a : Alert) : Bool :=
  match k with
  | .alertQualifying => decide (a.state = .qualifying)
  | .alertActive => decide (a.state = .active) || decide (a.state = .releasing)
  | _ => false

/-- The record's selector admits an alert record or service of this index (R159). -/
def Tally.admits (t : Tally) (i : Nat) : Bool :=
  match t.selector with
  | some j => j == i
  | none => true

/-- The source level of a record with a level kind (R159). -/
def sourceLevel (t : Tally) (alerts : Table Alert 16) : Bool :=
  (List.finRange 16).any fun a => t.admits a.val && alertLevel t.kind (alerts.get a)

/-- The end of the pulse that ends last (R165). -/
def latestEnd (pulses : List Nat) : Option Nat := pulses.getLast?

/-- A pulse starts: its on-time runs, and the phase timer runs to the next start, or in a COUNT train's
last pulse to the end of the phase (R160 to R162; log 15). In REPEAT with a period of 0 there is neither, and the
phase timer is stopped (log 47). -/
def startPulse (now : Nat) (t : Tally) : Tally :=
  let stop := now + t.onTime * 10
  let next := now + t.period * 10
  match t.mode with
  | .count =>
    let n := if t.period = 0 then t.count else t.started + 1
    { t with
      phase := .pulsing, started := n, pulses := t.pulses ++ [stop]
      phaseDue := some (if n < t.count then next else stop) }
  | _ =>
    { t with
      phase := .pulsing, pulses := t.pulses ++ [stop]
      phaseDue := if t.period = 0 then none else some next }

/-- A train starts, through DELAY or with a pulse at once (R161, R162). -/
def startTrain (now : Nat) (t : Tally) : Tally :=
  if t.delay = 0 then startPulse now { t with started := 0 }
  else { t with phase := .delay, started := 0, phaseDue := some (now + t.delay * 10) }

/-- A trigger in COUNT mode: it starts a train in IDLE and is ignored otherwise (R161). -/
def countTrigger (now : Nat) (t : Tally) : Tally :=
  if t.phase = .idle then startTrain now t else t

/-- The source level of a REPEAT record rises (R162). -/
def repeatRise (now : Nat) (t : Tally) : Tally :=
  match t.phase with
  | .idle => startTrain now t
  | .finishing => startTrain now t
  | _ => t

/-- The source level of a REPEAT record falls (R162). -/
def repeatFall (t : Tally) : Tally :=
  match t.phase with
  | .delay => { t with phase := .idle, phaseDue := none }
  | .pulsing =>
    if t.pulses.isEmpty then { t with phase := .idle, phaseDue := none }
    else { t with phase := .finishing, phaseDue := latestEnd t.pulses }
  | _ => t

/-- The followed level of a STEADY record, as it now stands (R163). -/
def steadyFollow (now : Nat) (level : Bool) (t : Tally) : Tally :=
  if level = t.steady then { t with edge := none }
  else if t.delay = 0 then { t with steady := level, edge := none }
  else match t.edge with
    | some _ => t
    | none => { t with edge := some ⟨level, now + t.delay * 10⟩ }

/-- An alert record's levels change: what one tally record makes of it (R159, R161 to R163). -/
def tallyFollow (now : Nat) (old new : Table Alert 16) (t : Tally) : Tally :=
  if t.kind.isLevel then
    match t.mode with
    | .count =>
      if (List.finRange 16).any fun a =>
          t.admits a.val && !alertLevel t.kind (old.get a) && alertLevel t.kind (new.get a)
      then countTrigger now t else t
    | .repeating =>
      match sourceLevel t old, sourceLevel t new with
      | false, true => repeatRise now t
      | true, false => repeatFall t
      | _, _ => t
    | .steady =>
      if sourceLevel t old = sourceLevel t new then t else steadyFollow now (sourceLevel t new) t
  else t

/-- The levels of the alert records are delivered as they change (R147). -/
def deliverLevels (old : Table Alert 16) (s : State) : State :=
  { s with tallies := s.tallies.mapIdx fun _ t => tallyFollow (nowMs s) old s.alerts t }

/-- An event trigger naming a service is delivered (R129, R54, R159). -/
def deliverTrigger (k : TallyKind) (svc : Fin 64) (s : State) : State :=
  { s with
    tallies := s.tallies.mapIdx fun _ t =>
      if t.kind = k ∧ t.admits svc.val then countTrigger (nowMs s) t else t }

def updTally (o : Fin 4) (f : Tally → Tally) (s : State) : State :=
  { s with tallies := s.tallies.set o (f (s.tallies.get o)) }

/-- The phase timer runs out: the delay ends or the next pulse starts (R161, R162). -/
def phaseExpiry (now : Nat) (t : Tally) : Tally :=
  match t.phase, t.mode with
  | .delay, _ => startPulse now t
  | .pulsing, .count => if t.started < t.count then startPulse now t else t
  | .pulsing, _ => if t.phaseDue.isSome then startPulse now t else t
  | _, _ => t

/-- The on-time of the pulse with the earliest end is over; the train may end with it (R161, R162). -/
def pulseEnd (t : Tally) : Tally :=
  match t.pulses with
  | [] => t
  | _ :: rest =>
    if rest.isEmpty then
      match t.phase, t.mode with
      | .pulsing, .count =>
        if t.started < t.count then { t with pulses := [] }
        else { t with pulses := [], phase := .idle, started := 0, phaseDue := none }
      | .finishing, _ => { t with pulses := [], phase := .idle, phaseDue := none }
      | _, _ => { t with pulses := [] }
    else { t with pulses := rest }

/-- The pending edge's timer runs out (R163). -/
def edgeExpiry (t : Tally) : Tally :=
  match t.edge with
  | some e => { t with steady := e.level, edge := none }
  | none => t

/-- Every timer stops, no edge is pending, the phase is IDLE and the output inactive (R164, R167). -/
def Tally.stop (t : Tally) : Tally :=
  { t with phase := .idle, started := 0, phaseDue := none, pulses := [], edge := none, steady := false }

/-- A newly programmed record looks at its source level as it stands (R164). -/
def tallyLook (now : Nat) (alerts : Table Alert 16) (t : Tally) : Tally :=
  if t.kind.isLevel && sourceLevel t alerts then
    match t.mode with
    | .count => t
    | .repeating => startTrain now t
    | .steady => steadyFollow now true t
  else t

end Sys2Proof.Machine
end

