-- ==== Sys2Proof/Machine/Alerts.lean ====
section
/-! DEFINITION. The Alert Unit's operations (chapter 7): levels and conditions, the states of alert records,
zone coverage, waiting for a lane, and the naming of lanes. -/

namespace Sys2Proof.Machine

/-! ## Inputs and levels (R136, R139) -/

/-- The raw level: the pin read through the polarity (R136). -/
def Ain.raw (a : Ain) : Bool :=
  match a.polarity with
  | .highActive => a.pin
  | .lowActive => !a.pin

/-- What a raw level that was `old` makes of the timer and the debounced level (R136). -/
def Ain.settle (now : Nat) (old : Bool) (a : Ain) : Ain :=
  if a.raw = old then a
  else if a.debounce = 0 then { a with level := a.raw, timer := none }
  else if a.raw = a.level then { a with timer := none }
  else { a with timer := some now }

/-- The debounced level takes the raw level and the timer stops (R136). -/
def Ain.expire (a : Ain) : Ain := { a with level := a.raw, timer := none }

/-- A running timer judged against the debounce time as it now stands (R137). -/
def Ain.judge (now : Nat) (a : Ain) : Ain :=
  match a.timer with
  | some t => if t + a.debounce ≤ now then a.expire else a
  | none => a

/-- The level of a term's source (R139). -/
def levelOf (s : State) : TermSource → Bool
  | .ain i => (s.ains.get i).level
  | .flag j => s.rflags.get j

def termTrue (s : State) (t : TermSource × Bool) : Bool := levelOf s t.1 == t.2

/-- The condition of a record (R139). -/
def condition (s : State) (a : Alert) : Bool :=
  match a.combine with
  | .all => a.terms.all (termTrue s)
  | .any => a.terms.any (termTrue s)
  | .odd => decide ((a.terms.filter (termTrue s)).length % 2 = 1)

def Alert.names (src : TermSource) (a : Alert) : Bool := a.terms.any fun t => decide (t.1 = src)

/-- An alert record changes; its levels reach the Tally Unit as they change (R147). -/
def updAlert (a : Fin 16) (f : Alert → Alert) (s : State) : State :=
  deliverLevels s.alerts { s with alerts := s.alerts.set a (f (s.alerts.get a)) }

/-! ## Coverage (section 7.4, 7.5) -/

/-- Covering-capable: ACTIVE or RELEASING (section 7.2). -/
def Alert.capable (a : Alert) : Bool := decide (a.state = .active) || decide (a.state = .releasing)

/-- `a` covers a zone in preference to `b`: higher priority, then earlier activation (R148, R144). -/
def Alert.before (a b : Alert) : Bool :=
  decide (b.priority < a.priority)
    || (decide (b.priority = a.priority)
      && lexLt [(a.stamp.getD 0).toNat, a.seq] [(b.stamp.getD 0).toNat, b.seq])

/-- The record that is to cover a zone, or none (R148). -/
def bestCover (s : State) (z : Fin 8) : Option (Fin 16) :=
  (List.finRange 16).foldl (fun best i =>
    let a := s.alerts.get i
    if a.capable && zoneIn a.zones z then
      match best with
      | none => some i
      | some j => if a.before (s.alerts.get j) then some i else best
    else best) none

/-- Every channel on every port of a zone gets a coverage target. -/
def targetZone (t : Target) (z : Fin 8) (s : State) : State :=
  overList (chansOfZone s z) (giveCoverage t) s

/-- A zone's covering alert has a serving lane (R149). -/
def coverServing (a : Fin 16) (z : Fin 8) (s : State) : State :=
  targetZone (.lane (s.alerts.get a).lane (.alert a)) z (updZone z (fun q => { q with waiting := false }) s)

/-- The coverage of a zone changes to an alert whose lane is not serving: the zone waits, and its channels
that draw for a placement are asked back with PREEMPTED (R150, R133). -/
def coverWaiting (a : Fin 16) (z : Fin 8) (s : State) : State :=
  let s := updZone z (fun q => { q with waiting := true }) s
  let s := overList (chansOfZone s z) (askReturnHeld .preempted true) s
  raise (alertSource a) .alertLaneNotReady s

/-- The coverage of a zone changes to an alert, or to none (R149, R150, R153). -/
def coverChange (new : Option (Fin 16)) (z : Fin 8) (s : State) : State :=
  let s := updZone z (fun q => { q with cover := new }) s
  match new with
  | none => targetZone .network z (updZone z (fun q => { q with waiting := false }) s)
  | some a => if isServing s (s.alerts.get a).lane then coverServing a z s else coverWaiting a z s

/-- The coverage of a zone is evaluated; an unchanged result does nothing (R148). -/
def evalZone (z : Fin 8) (s : State) : State :=
  let new := bestCover s z
  if new = (s.zones.get z).cover then s else coverChange new z s

/-- The coverage of every zone in a set is evaluated. -/
def evalZones (zs : ZoneSet) (s : State) : State :=
  overFin 8 (fun z s => if zoneIn zs z then evalZone z s else s) s

/-- The zones covered by an alert that names lane `l` receive its targets and stop waiting (R151). -/
def laneServes (l : Fin 16) (s : State) : State :=
  overFin 8 (fun z s =>
    match (s.zones.get z).cover with
    | some a => if (s.alerts.get a).lane = l then coverServing a z s else s
    | none => s) s

/-- A STANDING lane has starved: its channels get NETWORK, the zones of its alerts wait (R152). -/
def standingStarved (l : Fin 16) (s : State) : State :=
  let s := overList (chansWhere s (Channel.onOrToLane l)) (giveCoverage .network) s
  overFin 8 (fun z s =>
    match (s.zones.get z).cover with
    | some a =>
      if (s.alerts.get a).lane = l then
        raise (alertSource a) .alertLaneNotReady (updZone z (fun q => { q with waiting := true }) s)
      else s
    | none => s) s

/-! ## States of a record (section 7.3) -/

/-- Entry to ACTIVE from IDLE or QUALIFYING, with a new stamp (R144). -/
def enterActive (a : Fin 16) (s : State) : State :=
  let n := s.activations
  let stamp := BitVec.ofNat 48 (nowMs s)
  let s := { s with activations := n + 1 }
  let s := updAlert a (fun r => { r with
    state := .active, stamp := some stamp, seq := n, holdStart := none, releaseStart := none }) s
  let s := raise (alertSource a) .alertActive s
  evalZones (s.alerts.get a).zones s

/-- A record leaves ACTIVE or RELEASING for IDLE or SPENT (R145, R146). -/
def endAlert (after : AlertState) (a : Fin 16) (s : State) : State :=
  let s := updAlert a (fun r => { r with state := after, stamp := none, releaseStart := none }) s
  let s := raise (alertSource a) .alertEnded s
  evalZones (s.alerts.get a).zones s

/-- A record acts on its condition, by its state (R143, R145, R146). -/
def alertAct (a : Fin 16) (s : State) : State :=
  let r := s.alerts.get a
  match r.state, condition s r with
  | .idle, true =>
    if r.hold = 0 then enterActive a s
    else updAlert a (fun r => { r with state := .qualifying, holdStart := some (nowMs s) }) s
  | .qualifying, false => updAlert a (fun r => { r with state := .idle, holdStart := none }) s
  | .active, false =>
    if r.release = 0 then endAlert .idle a s
    else updAlert a (fun r => { r with state := .releasing, releaseStart := some (nowMs s) }) s
  | .releasing, true => updAlert a (fun r => { r with state := .active, releaseStart := none }) s
  | .spent, false => updAlert a (fun r => { r with state := .idle }) s
  | _, _ => s

/-- A running hold timer judged against the hold time as it now stands (R141). -/
def rejudgeHold (a : Fin 16) (s : State) : State :=
  let r := s.alerts.get a
  match r.state, r.holdStart with
  | .qualifying, some t => if t + r.hold * 100 ≤ nowMs s then enterActive a s else s
  | _, _ => s

/-- A change of a level is delivered to every record whose terms name it (R136, R138; log 13). -/
def deliverLevel (src : TermSource) (s : State) : State :=
  overFin 16 (fun a s => if (s.alerts.get a).names src then alertAct a s else s) s

/-- An input's record changes; a changed debounced level is delivered (R136). -/
def updAin (i : Fin 6) (f : Ain → Ain) (s : State) : State :=
  let old := s.ains.get i
  let new := f old
  let s := { s with ains := s.ains.set i new }
  if new.level = old.level then s else deliverLevel (.ain i) s

/-! ## Naming of lanes (R70, R71, R141) -/

/-- A lane comes to be named, having been named by none (R70). An ON_AIR lane keeps its entry mark and L_pts, also when
its entry RAP was freed while it was AVAIL (log 44); one that has no entry stays without until the next RAP is appended
(R78; log 50). -/
def laneNamed (l : Fin 16) (s : State) : State :=
  let s := updLane l (fun ln => if ln.state = .idle then ln.enterOpening (nowMs s) else ln) s
  if isServing s l then laneServes l s else s

/-- A lane loses its last naming record (R71); the channels on it or sent to it get NETWORK (R141). -/
def laneUnnamed (l : Fin 16) (s : State) : State :=
  let s := updLane l (fun ln =>
    match ln.state with
    | .opening => ln.enterClosing (nowMs s)
    | .ready => ln.enterClosing (nowMs s)
    | _ => ln) s
  overList (chansWhere s (Channel.onOrToLane l)) (giveCoverage .network) s

/-- A record's configuration is written with its new state, the lanes are told, the old one first, and only then the
record acts on its condition (R141; log 49). -/
def configureAlert (a : Fin 16) (f : Alert → Alert) (s : State) : State :=
  let old := s.alerts.get a
  let new := f old
  let named := isStanding s
  let s := updAlert a f s
  let now := isStanding s
  let s := if named old.lane && !now old.lane then laneUnnamed old.lane s else s
  let s := if !named new.lane && now new.lane then laneNamed new.lane s else s
  rejudgeHold a (alertAct a s)

end Sys2Proof.Machine
end

