-- ==== Sys2Proof/Machine/Operands.lean ====
section
/-! DEFINITION. Byte layouts (R187 to R191): reading request bodies, encoding fields of response bodies, the
two cyclic redundancy checks, clamping (R183) and the checks of operands that several requests share. -/

namespace Sys2Proof.Machine

/-! ## Bytes, most significant first (R187) -/

/-- The value of bytes, most significant byte first. -/
def natBe (bs : List Byte) : Nat := bs.foldl (fun a b => a * 256 + b.toNat) 0

/-- The low `k` bytes of a value, most significant byte first. -/
def be : Nat → Nat → List Byte
  | 0, _ => []
  | k + 1, n => BitVec.ofNat 8 (n / 256 ^ k) :: be k n

/-- One byte off the front. -/
def u8 : List Byte → Option (Byte × List Byte)
  | [] => none
  | b :: r => some (b, r)

/-- `k` bytes off the front as one value of `w` bits. -/
def uN (k w : Nat) (bs : List Byte) : Option (BitVec w × List Byte) :=
  if bs.length < k then none else some (BitVec.ofNat w (natBe (bs.take k)), bs.drop k)

def u16 (bs : List Byte) : Option (BitVec 16 × List Byte) := uN 2 16 bs
def u32 (bs : List Byte) : Option (BitVec 32 × List Byte) := uN 4 32 bs
def u40 (bs : List Byte) : Option (BitVec 40 × List Byte) := uN 5 40 bs

/-- `n` entries off the front. -/
def uList {α : Type} (one : List Byte → Option (α × List Byte)) :
    Nat → List Byte → Option (List α × List Byte)
  | 0, bs => some ([], bs)
  | n + 1, bs =>
    match one bs with
    | none => none
    | some (a, r) =>
      match uList one n r with
      | none => none
      | some (as, r') => some (a :: as, r')

/-- A count byte and that many entries (R188, list). -/
def uCounted {α : Type} (one : List Byte → Option (α × List Byte)) (bs : List Byte) :
    Option (List α × List Byte) :=
  match u8 bs with
  | none => none
  | some (n, r) => uList one n.toNat r

/-- A field is taken only when its presence bit is set (R188). -/
def present {α : Type} (m : BitVec 16) (k : Nat) (a : α) : Option α :=
  if m.getLsbD k then some a else none

/-- The body has been read to its end: any other length is bad (R188). -/
def finish {α : Type} (rest : List Byte) (a : α) : Option α :=
  if rest.isEmpty then some a else none

/-! ## Cyclic redundancy checks (R51, R188) -/

/-- One bit into a register of `w` bits, most significant end first, no reflection. -/
def crcBit {w : Nat} (poly r : BitVec w) (bit : Bool) : BitVec w :=
  if r.msb != bit then (r <<< 1) ^^^ poly else r <<< 1

/-- A byte's bits, most significant first. -/
def byteBits (b : Byte) : List Bool :=
  [b.getLsbD 7, b.getLsbD 6, b.getLsbD 5, b.getLsbD 4, b.getLsbD 3, b.getLsbD 2, b.getLsbD 1,
    b.getLsbD 0]

def crcByte {w : Nat} (poly r : BitVec w) (b : Byte) : BitVec w :=
  (byteBits b).foldl (crcBit poly) r

def crcBytes {w : Nat} (poly : BitVec w) (r : BitVec w) (bs : List Byte) : BitVec w :=
  bs.foldl (crcByte poly) r

/-- The frame check (R188). -/
def crc16 (bs : List Byte) : BitVec 16 := crcBytes 0x1021#16 0xFFFF#16 bs

/-- The cue section's CRC-32 (R51). -/
def crc32 (bs : List Byte) : BitVec 32 := crcBytes 0x04C11DB7#32 0xFFFFFFFF#32 bs

/-! ## Request bodies (R189, R190, R191) -/

def takePlacement (bs : List Byte) : Option (PlacementArg × List Byte) := do
  let (z, bs) ← u8 bs
  let (l, bs) ← u8 bs
  let (k, bs) ← u8 bs
  return (⟨z, l, k⟩, bs)

def takeTerm (bs : List Byte) : Option ((Byte × Byte) × List Byte) := do
  let (src, bs) ← u8 bs
  let (lvl, bs) ← u8 bs
  return ((src, lvl), bs)

def parseEmpty (bs : List Byte) : Option Unit := finish bs ()

/-- A body of one index byte. -/
def parseIndex (bs : List Byte) : Option Byte := do
  let (i, bs) ← u8 bs
  finish bs i

def parseKey (bs : List Byte) : Option KeyArgs := do
  let (i, bs) ← u8 bs
  let (e, bs) ← u32 bs
  finish bs ⟨i, e⟩

def parseServiceSet (bs : List Byte) : Option ServiceSetArgs := do
  let (i, bs) ← u8 bs
  let (m, bs) ← u16 bs
  let (input, bs) ← u8 bs
  let (p1, bs) ← u16 bs
  let (p2, bs) ← u16 bs
  let (p3, bs) ← u16 bs
  let (p4, bs) ← u16 bs
  let (p5, bs) ← u16 bs
  let (p6, bs) ← u16 bs
  let (pol, bs) ← u8 bs
  let (hd, bs) ← u8 bs
  let (t1, bs) ← u32 bs
  let (t2, bs) ← u32 bs
  let (t3, bs) ← u32 bs
  let (t4, bs) ← u32 bs
  let (t5, bs) ← u32 bs
  let (t6, bs) ← u32 bs
  finish bs
    { service := i, input := present m 0 input
      pids := ⟨present m 1 p1, present m 2 p2, present m 3 p3, present m 4 p4⟩
      pcrPid := present m 5 p5, cuePid := present m 6 p6
      policy := present m 7 pol, holdDefault := present m 8 hd
      armLead := present m 9 t1, immLead := present m 10 t2, spliceAdjust := present m 11 t3
      spliceWindow := present m 12 t4, pcrTolerance := present m 13 t5
      absenceTimeout := present m 14 t6 }

def parseTemplateSet (bs : List Byte) : Option TemplateSetArgs := do
  let (i, bs) ← u8 bs
  let (c, bs) ← u8 bs
  let (ps, bs) ← uCounted takePlacement bs
  finish bs ⟨i, c, ps⟩

def parseAvailCreate (bs : List Byte) : Option AvailCreateArgs := do
  let (i, bs) ← u8 bs
  let (e, bs) ← u32 bs
  let (k, bs) ← u8 bs
  let (t, bs) ← u40 bs
  let (d, bs) ← u32 bs
  let (ps, bs) ← uCounted takePlacement bs
  finish bs ⟨i, e, k, t, d, ps⟩

def parseAvailAmend (bs : List Byte) : Option AvailAmendArgs := do
  let (i, bs) ← u8 bs
  let (e, bs) ← u32 bs
  let (m, bs) ← u16 bs
  let (k, bs) ← u8 bs
  let (t, bs) ← u40 bs
  let (d, bs) ← u32 bs
  let (ps, bs) ← uCounted takePlacement bs
  finish bs ⟨i, e, present m 0 (k, t), present m 1 d, present m 2 ps⟩

def parseWalk (bs : List Byte) : Option WalkArgs := do
  let (f, bs) ← u8 bs
  let (r, bs) ← u8 bs
  finish bs ⟨f, r⟩

def parseLaneSet (bs : List Byte) : Option LaneSetArgs := do
  let (l, bs) ← u8 bs
  let (m, bs) ← u16 bs
  let (p1, bs) ← u16 bs
  let (p2, bs) ← u16 bs
  let (p3, bs) ← u16 bs
  let (p4, bs) ← u16 bs
  let (p5, bs) ← u16 bs
  let (pre, bs) ← u32 bs
  let (ep, bs) ← u16 bs
  let (ec, bs) ← u8 bs
  let (ot, bs) ← u32 bs
  finish bs
    { lane := l, pids := ⟨present m 0 p1, present m 1 p2, present m 2 p3, present m 3 p4⟩
      pcrPid := present m 4 p5, preroll := present m 5 pre, eos := present m 6 (ep, ec)
      openTimeout := present m 7 ot }

def parseGuard (bs : List Byte) : Option (BitVec 32) := do
  let (g, bs) ← u32 bs
  finish bs g

def parsePortSet (bs : List Byte) : Option PortSetArgs := do
  let (p, bs) ← u8 bs
  let (i, bs) ← u8 bs
  let (z, bs) ← u8 bs
  finish bs ⟨p, i, z⟩

def parseChanSet (bs : List Byte) : Option ChanSetArgs := do
  let (c, bs) ← u8 bs
  let (i, bs) ← u8 bs
  let (p, bs) ← u8 bs
  finish bs ⟨c, i, p⟩

def parseAinSet (bs : List Byte) : Option AinSetArgs := do
  let (i, bs) ← u8 bs
  let (p, bs) ← u8 bs
  let (d, bs) ← u32 bs
  finish bs ⟨i, p, d⟩

def parseFlagSet (bs : List Byte) : Option FlagSetArgs := do
  let (f, bs) ← u8 bs
  let (l, bs) ← u8 bs
  finish bs ⟨f, l⟩

def parseAlertSet (bs : List Byte) : Option AlertSetArgs := do
  let (a, bs) ← u8 bs
  let (en, bs) ← u8 bs
  let (pr, bs) ← u8 bs
  let (ts, bs) ← uCounted takeTerm bs
  let (cb, bs) ← u8 bs
  let (h, bs) ← u32 bs
  let (r, bs) ← u32 bs
  let (z, bs) ← u8 bs
  let (l, bs) ← u8 bs
  finish bs ⟨a, en, pr, ts, cb, h, r, z, l⟩

def parseTallySet (bs : List Byte) : Option TallySetArgs := do
  let (o, bs) ← u8 bs
  let (k, bs) ← u8 bs
  let (sel, bs) ← u8 bs
  let (m, bs) ← u8 bs
  let (n, bs) ← u32 bs
  let (d, bs) ← u32 bs
  let (h, bs) ← u32 bs
  let (p, bs) ← u32 bs
  let (pol, bs) ← u8 bs
  finish bs ⟨o, k, sel, m, n, d, h, p, pol⟩

def parseAttnMask (bs : List Byte) : Option AttnMaskArgs := do
  let (m, bs) ← u16 bs
  let (l, bs) ← u8 bs
  finish bs ⟨m, l⟩

/-! ## The catalogue (section 10.4) -/

def kServiceSet : Byte := 0x01
def kServiceGet : Byte := 0x02
def kServiceClear : Byte := 0x03
def kTemplateSet : Byte := 0x04
def kOutcomeGet : Byte := 0x05
def kAvailCreate : Byte := 0x10
def kAvailAmend : Byte := 0x11
def kAvailCancel : Byte := 0x12
def kAvailReturn : Byte := 0x13
def kAvailConfirm : Byte := 0x14
def kAvailDecline : Byte := 0x15
def kAvailGet : Byte := 0x16
def kAvailWalk : Byte := 0x17
def kLaneSet : Byte := 0x20
def kLaneGet : Byte := 0x21
def kLaneClose : Byte := 0x22
def kLaneGuardSet : Byte := 0x23
def kPortSet : Byte := 0x30
def kPortGet : Byte := 0x31
def kChanSet : Byte := 0x32
def kChanGet : Byte := 0x33
def kChanClear : Byte := 0x34
def kZoneLock : Byte := 0x35
def kZoneUnlock : Byte := 0x36
def kZoneGet : Byte := 0x37
def kAinSet : Byte := 0x40
def kAinGet : Byte := 0x41
def kFlagSet : Byte := 0x42
def kAlertSet : Byte := 0x43
def kAlertGet : Byte := 0x44
def kAlertEnd : Byte := 0x45
def kTallySet : Byte := 0x50
def kTallyGet : Byte := 0x51
def kAttnMask : Byte := 0x60
def kPoll : Byte := 0x61
def kSummary : Byte := 0x62
def kResetStreams : Byte := 0x70
def kResetAll : Byte := 0x71

/-- The kinds whose body is one index byte (R189). -/
def indexKinds : List Byte :=
  [kServiceGet, kServiceClear, kOutcomeGet, kLaneGet, kLaneClose, kPortGet, kChanGet, kChanClear,
    kZoneLock, kZoneUnlock, kZoneGet, kAinGet, kAlertGet, kAlertEnd, kTallyGet]

/-- The kinds whose body is a record key (R189). -/
def keyKinds : List Byte := [kAvailCancel, kAvailReturn, kAvailConfirm, kAvailDecline, kAvailGet]

/-- The kinds with an empty body (R189). -/
def emptyKinds : List Byte := [kPoll, kSummary, kResetStreams, kResetAll]

/-- The other kinds, each with the test that its body has an allowed length (R178, check 6). -/
def structuredKinds : List (Byte × (List Byte → Bool)) :=
  [(kServiceSet, fun b => (parseServiceSet b).isSome),
   (kTemplateSet, fun b => (parseTemplateSet b).isSome),
   (kAvailCreate, fun b => (parseAvailCreate b).isSome),
   (kAvailAmend, fun b => (parseAvailAmend b).isSome),
   (kAvailWalk, fun b => (parseWalk b).isSome),
   (kLaneSet, fun b => (parseLaneSet b).isSome),
   (kLaneGuardSet, fun b => (parseGuard b).isSome),
   (kPortSet, fun b => (parsePortSet b).isSome),
   (kChanSet, fun b => (parseChanSet b).isSome),
   (kAinSet, fun b => (parseAinSet b).isSome),
   (kFlagSet, fun b => (parseFlagSet b).isSome),
   (kAlertSet, fun b => (parseAlertSet b).isSome),
   (kTallySet, fun b => (parseTallySet b).isSome),
   (kAttnMask, fun b => (parseAttnMask b).isSome)]

/-- The kind is one of the catalogue's codes (R178, check 5). -/
def kindKnown (k : Byte) : Bool :=
  indexKinds.contains k || keyKinds.contains k || emptyKinds.contains k
    || structuredKinds.any fun e => e.1 == k

/-- The body length is one the kind's layout allows for the counts it carries (R178, check 6). -/
def bodyLengthOk (k : Byte) (body : List Byte) : Bool :=
  if indexKinds.contains k then (parseIndex body).isSome
  else if keyKinds.contains k then (parseKey body).isSome
  else if emptyKinds.contains k then body.isEmpty
  else match structuredKinds.find? fun e => e.1 == k with
    | some e => e.2 body
    | none => false

/-! ## Fields of response bodies (R188) -/

/-- An optional index: 0xFF when absent. -/
def optIndex {n : Nat} : Option (Fin n) → List Byte
  | some i => [BitVec.ofNat 8 i.val]
  | none => [0xFF]

/-- A lane request: 0xFE for ANY. -/
def laneReqByte : LaneReq → Byte
  | some l => BitVec.ofNat 8 l.val
  | none => 0xFE

/-- A stream time: 5 bytes, value in the low 33 bits. -/
def timeBytes (t : Time) : List Byte := be 5 t.toNat

/-- An optional stream time: all five bytes 0xFF when absent. -/
def optTime : Option Time → List Byte
  | some t => timeBytes t
  | none => [0xFF, 0xFF, 0xFF, 0xFF, 0xFF]

def pidBytes (p : Pid) : List Byte := be 2 p.toNat

def optPid : Option Pid → List Byte
  | some p => pidBytes p
  | none => [0xFF, 0xFF]

def eventBytes (e : BitVec 32) : List Byte := be 4 e.toNat

/-- A tuning value: 4 bytes, two's complement. -/
def tuningBytes (i : Int) : List Byte := be 4 (BitVec.ofInt 32 i).toNat

/-- A duration: 0 when absent. -/
def durationBytes : Option (BitVec 32) → List Byte
  | some d => eventBytes d
  | none => [0, 0, 0, 0]

def optOutcome : Option Outcome → List Byte
  | some o => [o.byte]
  | none => [0xFF]

/-- Bit i for each listed index, as a number. -/
def bitsOf (f : Nat → Bool) : Nat → Nat
  | 0 => 0
  | n + 1 => bitsOf f n + (if f n then 2 ^ n else 0)

/-! ## Clamping and shared checks -/

/-- A tuning value replaced by the nearer end of its range (R183). -/
def clampInt (lo hi : Int) (v : BitVec 32) : Int :=
  if v.toInt < lo then lo else if hi < v.toInt then hi else v.toInt

def clampNat (lo hi : Nat) (v : BitVec 32) : Nat := (clampInt lo hi v).toNat

/-- An index within a range. -/
def fin? (n : Nat) (b : Byte) : Option (Fin n) := if h : b.toNat < n then some ⟨b.toNat, h⟩ else none

/-- A PID that is given: at most 0x1FFE. -/
def pidArg (b : BitVec 16) : Option Pid :=
  if b.toNat ≤ 0x1FFE then some (BitVec.ofNat 13 b.toNat) else none

/-- A PID that may be absent (0xFFFF). -/
def optPidArg (b : BitVec 16) : Option (Option Pid) :=
  if b = 0xFFFF#16 then some none else (pidArg b).map some

/-- No PID stands twice in a list. -/
def noRepeat : List Pid → Bool
  | [] => true
  | p :: ps => !ps.contains p && noRepeat ps

/-- A stream time: the upper seven bits of its five bytes are 0 (R183). -/
def timeArg (b : BitVec 40) : Option Time :=
  if b.toNat < 2 ^ 33 then some (BitVec.ofNat 33 b.toNat) else none

/-- A duration of 0 is none. -/
def durationArg (b : BitVec 32) : Option (BitVec 32) := if b = 0 then none else some b

/-- A lane request: 0-15, or 0xFE for ANY. -/
def laneReqArg (b : Byte) : Option LaneReq :=
  if b = 0xFE then some none else (fin? 16 b).map some

/-- A placement entry whose zone set, lane request and keep-open byte are in range (R7, R24, R183). No check of R24 names
the keep-open byte; it is judged here, with the placement (log 53). -/
def placementArg (a : PlacementArg) : Option TPlacement :=
  if a.zones = 0 then none
  else match laneReqArg a.lane, boolOfByte a.keepOpen with
    | some l, some k => some ⟨a.zones, l, k⟩
    | _, _ => none

/-- Two placements have disjoint zone sets and do not name the same lane. -/
def placementsApart (p q : TPlacement) : Bool :=
  decide (p.zones &&& q.zones = 0) && (p.lane.isNone || decide (p.lane ≠ q.lane))

def allApart : List TPlacement → Bool
  | [] => true
  | p :: ps => ps.all (placementsApart p) && allApart ps

/-- A placement requests no lane that an enabled alert record names. -/
def laneFree (s : State) (p : TPlacement) : Bool :=
  match p.lane with
  | some l => !isStanding s l
  | none => true

/-- The placement checks of R7 and R24, but for the number of placements, the keep-open bytes among them (log 53). -/
def checkPlacements (s : State) (as : List PlacementArg) : Option (List TPlacement) :=
  match as.mapM placementArg with
  | some ps => if allApart ps && ps.all (laneFree s) then some ps else none
  | none => none

/-- A placement as a record starts it (R25): WAITING, nothing bound. -/
def TPlacement.start (t : TPlacement) : Placement :=
  { zones := t.zones, lane := t.lane, keepOpen := t.keepOpen, bound := none, state := .waiting
    outcome := none, part := false, firstCause := none, count := 0 }

end Sys2Proof.Machine
end

