-- ==== Sys2Proof/Machine/Port.lean ====
section
/-! DEFINITION. The Request Port (chapter 10): judging a request frame, the two slots, the response frame, and
the one operation by which every request executes. -/

namespace Sys2Proof.Machine

/-- What a block answers: a response code and a body (R180). -/
structure Reply where
  code : Code
  body : List Byte
  deriving DecidableEq, Repr

/-- A block's answer to a request: its reply and the state it leaves. -/
abbrev Answer := Reply × State

def accept (body : List Byte) (s : State) : Answer := (⟨.ok, body⟩, s)

/-- A code other than OK: an empty body and no change (R182). -/
def refuse (c : Code) (s : State) : Answer := (⟨c, []⟩, s)

/-! ## Executing a request (R180) -/

/-- The request slot holds this request: its tag, its kind and a body that reads as its fields. -/
def slotHolds (r : Request) (tag kind : Byte) (same : List Byte → Bool) : Bool :=
  r.tag == tag && r.kind == kind && same r.body

/-- The block's answer is written to the response slot and the request slot empties (R180). -/
def complete (tag kind : Byte) (a : Answer) : State :=
  { a.2 with reqSlot := none, respSlot := .finished ⟨tag, kind, a.1.code, a.1.body⟩ }

/-- A request executes when the slot holds it, or with an empty slot together with its transaction; a frame
that meets another request in the slot is dropped (R178 to R180; log 1). Nothing is taken while RESET_N is low
(R184). -/
def serve (tag kind : Byte) (same : List Byte → Bool) (block : State → Answer) (s : State) : State :=
  if s.resetLow then s
  else match s.reqSlot with
    | none => complete tag kind (block s)
    | some r => if slotHolds r tag kind same then complete tag kind (block s) else s

/-! ## Frames (R178, R181, R187) -/

/-- A response frame (R187). -/
def responseFrame (tag kind code : Byte) (body : List Byte) : List Byte :=
  let head := tag :: kind :: code :: BitVec.ofNat 8 body.length :: body
  head ++ be 2 (crc16 head).toNat

/-- PENDING's value (R182). -/
def pendingByte : Byte := 0x01

/-- The frame that a READ shifts out (R181). -/
def readFrame : RespSlot → List Byte
  | .empty => responseFrame 0 0 Code.ok.byte []
  | .pending tag kind => responseFrame tag kind pendingByte []
  | .finished r => responseFrame r.tag r.kind r.code.byte r.body

/-- The first `n` bytes of what is shifted out, 0x00 after its end (R177). -/
def shiftOut (n : Nat) (bs : List Byte) : List Byte :=
  (bs ++ List.replicate (n - bs.length) 0x00#8).take n

/-- The bytes after the transfer byte, judged as a request frame (R178); none when it is bad. -/
def judgeFrame : List Byte → Option Request
  | tag :: kind :: len :: rest =>
    let n := len.toNat
    let body := rest.take n
    if 240 < n then none
    else if rest.length < n + 2 then none
    else if natBe ((rest.drop n).take 2) ≠ (crc16 (tag :: kind :: len :: body)).toNat then none
    else if !kindKnown kind then none
    else if !bodyLengthOk kind body then none
    else some ⟨tag, kind, body⟩
  | _ => none

/-- A released REQUEST transaction (R178, R179): dropped while the slot is occupied, BAD_FRAME for a bad
frame, and otherwise the frame enters the slot. -/
def takeFrame (bytes : List Byte) (s : State) : State :=
  match s.reqSlot with
  | some _ => s
  | none =>
    match judgeFrame bytes with
    | some r => { s with reqSlot := some r, respSlot := .pending r.tag r.kind }
    | none => { s with respSlot := .finished ⟨byteOf 0, byteOf 1, .badFrame, []⟩ }
where
  /-- A byte as received, 0 when it was not received. -/
  byteOf (i : Nat) : Byte := bytes.getD i 0

/-- A REQUEST transaction: the part shifts out 0x00 on every byte (R177). -/
def requestTransaction (bytes : List Byte) (s : State) : State :=
  if s.resetLow then s
  else takeFrame bytes { s with spiOut := List.replicate (bytes.length + 1) 0x00#8 }

/-- A READ transaction: 0x00 during the transfer byte, then the response frame; nothing else changes (R177,
R181). -/
def readTransaction (clocks : Nat) (s : State) : State :=
  if s.resetLow then s
  else { s with spiOut := shiftOut (clocks + 1) (0x00#8 :: readFrame s.respSlot) }

/-- A transaction with any other transfer byte (R177). -/
def otherTransaction (bytes : List Byte) (s : State) : State :=
  if s.resetLow then s else { s with spiOut := List.replicate bytes.length 0x00#8 }

end Sys2Proof.Machine
end

