-- ==== Sys2Proof/Machine/AlertRequests.lean ====
section
/-! DEFINITION. The requests on alert inputs, request flags and alert records (chapter 7). -/

namespace Sys2Proof.Machine

/-! ## Inputs and flags (R137, R138) -/

/-- The debounce time: raised to the next of 0, 10, 20 and 40; above 40 it is 40 (R137). -/
def debounceOf (v : BitVec 32) : Nat :=
  if v.toInt ≤ 0 then 0 else if v.toInt ≤ 10 then 10 else if v.toInt ≤ 20 then 20 else 40

/-- Both fields written: a change of polarity is a change of the raw level, and a running timer is judged
against the new time (R137). The polarity takes effect first (log 45). -/
def Ain.program (now : Nat) (pol : Polarity) (deb : Nat) (a : Ain) : Ain :=
  (Ain.settle now a.raw { a with polarity := pol, debounce := deb }).judge now

/-- R137. -/
def ainSet (a : AinSetArgs) (s : State) : Answer :=
  match fin? 6 a.input, Polarity.ofByte a.polarity with
  | some i, some pol =>
    let deb := debounceOf a.debounce
    accept (pol.byte :: be 4 deb) (updAin i (Ain.program (nowMs s) pol deb) s)
  | _, _ => refuse .badArg s

/-- R137. -/
def ainGet (b : Byte) (s : State) : Answer :=
  match fin? 6 b with
  | none => refuse .badArg s
  | some i =>
    let a := s.ains.get i
    accept ([a.polarity.byte] ++ be 4 a.debounce
      ++ [boolByte a.raw, boolByte a.level, boolByte a.timer.isSome]) s

/-- Bit j for RFLAGj. -/
def flagLevels (s : State) : Byte := BitVec.ofNat 8 (bitsOf (fun j => (s.rflags.entries[j]?).getD false) 8)

/-- A flag takes a level; a change is delivered (R138). -/
def setFlag (j : Fin 8) (level : Bool) (s : State) : State :=
  if s.rflags.get j = level then s
  else deliverLevel (.flag j) { s with rflags := s.rflags.set j level }

/-- R138. -/
def flagSet (a : FlagSetArgs) (s : State) : Answer :=
  match fin? 8 a.flag, boolOfByte a.level with
  | some j, some level => accept [flagLevels (setFlag j level s)] (setFlag j level s)
  | _, _ => refuse .badArg s

/-! ## Bodies (R189) -/

def alertConfig (a : Fin 16) (r : Alert) : List Byte :=
  [BitVec.ofNat 8 a.val, boolByte r.enabled, BitVec.ofNat 8 r.priority, BitVec.ofNat 8 r.terms.length]
    ++ r.terms.flatMap (fun t => [t.1.byte, boolByte t.2]) ++ [r.combine.byte]
    ++ be 4 r.hold ++ be 4 r.release ++ [r.zones, BitVec.ofNat 8 r.lane.val]

def stampBytes : Option (BitVec 48) → List Byte
  | some t => be 6 t.toNat
  | none => [0xFF, 0xFF, 0xFF, 0xFF, 0xFF, 0xFF]

/-- The time left on a timer of `n` steps of 100 ms, in steps rounded up; 0 when stopped (R142). -/
def stepsLeft (now : Nat) (start : Option Nat) (n : Nat) : Nat :=
  match start with
  | some t => (t + n * 100 - now + 99) / 100
  | none => 0

/-- The zones that meet a test, as a zone set. -/
def zonesWhere (s : State) (f : Zone → Bool) : Byte :=
  BitVec.ofNat 8 (bitsOf (fun z => ((s.zones.entries[z]?).map f).getD false) 8)

def alertSnapshot (s : State) (a : Fin 16) (r : Alert) : List Byte :=
  [r.state.byte] ++ stampBytes r.stamp ++ r.terms.map (fun t => boolByte (termTrue s t))
    ++ [boolByte (condition s r)] ++ be 2 (stepsLeft (nowMs s) r.holdStart r.hold)
    ++ be 2 (stepsLeft (nowMs s) r.releaseStart r.release)
    ++ [zonesWhere s (fun z => decide (z.cover = some a)),
        zonesWhere s (fun z => decide (z.cover = some a) && z.waiting)]

/-! ## ALERT_SET (R140, R141) -/

def termArg (t : Byte × Byte) : Option (TermSource × Bool) :=
  match TermSource.ofByte t.1, boolOfByte t.2 with
  | some src, some l => some (src, l)
  | _, _ => none

/-- What a request configures, hold and release clamped. -/
structure AlertCfg where
  enabled  : Bool
  priority : Nat
  terms    : List (TermSource × Bool)
  combine  : Combine
  hold     : Nat
  release  : Nat
  zones    : ZoneSet
  lane     : Fin 16
  deriving DecidableEq, Repr

/-- Check 1 of R140, but for the record index. -/
def alertCfgOf (a : AlertSetArgs) : Option AlertCfg := do
  let enabled ← boolOfByte a.enabled
  let priority ← fin? 8 a.priority
  let terms ← if a.terms.length < 1 ∨ 3 < a.terms.length then none else a.terms.mapM termArg
  let combine ← Combine.ofByte a.combine
  let lane ← fin? 16 a.lane
  if a.zones = 0 then none
  else some {
    enabled := enabled, priority := priority.val, terms := terms, combine := combine
    hold := clampNat 0 600 a.hold, release := clampNat 0 600 a.release, zones := a.zones, lane := lane }

/-- The configuration written, with the state of R141's table. -/
def AlertCfg.apply (c : AlertCfg) (r : Alert) : Alert :=
  { r with
    enabled := c.enabled, priority := c.priority, terms := c.terms, combine := c.combine, hold := c.hold
    release := c.release, zones := c.zones, lane := c.lane
    state := if c.enabled then (if r.state = .disabled then .idle else r.state) else .disabled
    holdStart := if c.enabled then r.holdStart else none }

/-- R140 from its second check on, and R141. -/
def setAlert (i : Fin 16) (c : AlertCfg) (s : State) : Answer :=
  if (s.alerts.get i).capable then refuse .state s
  else if c.enabled && (s.lanes.get c.lane).bound.isSome then refuse .state s
  else
    let s := configureAlert i c.apply s
    accept (alertConfig i (s.alerts.get i) ++ [(s.alerts.get i).state.byte]) s

/-- R140, R141. -/
def alertSet (a : AlertSetArgs) (s : State) : Answer :=
  match fin? 16 a.alert, alertCfgOf a with
  | some i, some c => setAlert i c s
  | _, _ => refuse .badArg s

/-- R142. -/
def alertGet (b : Byte) (s : State) : Answer :=
  match fin? 16 b with
  | none => refuse .badArg s
  | some i => accept (alertConfig i (s.alerts.get i) ++ alertSnapshot s i (s.alerts.get i)) s

/-- R146. A record that enters SPENT with its condition false passes to IDLE in the same evaluation. -/
def alertEnd (b : Byte) (s : State) : Answer :=
  match fin? 16 b with
  | none => refuse .badArg s
  | some i =>
    let r := s.alerts.get i
    if r.capable then accept [] (endAlert (if condition s r then .spent else .idle) i s)
    else refuse .state s

/-! ## The commands -/

def execAinSet (tag : Byte) (a : AinSetArgs) (s : State) : Host.Outcome State Fault Refusal :=
  .next (serve tag kAinSet (fun b => decide (parseAinSet b = some a)) (ainSet a) s)

def execAinGet (tag input : Byte) (s : State) : Host.Outcome State Fault Refusal :=
  .next (serve tag kAinGet (fun b => decide (parseIndex b = some input)) (ainGet input) s)

def execFlagSet (tag : Byte) (a : FlagSetArgs) (s : State) : Host.Outcome State Fault Refusal :=
  .next (serve tag kFlagSet (fun b => decide (parseFlagSet b = some a)) (flagSet a) s)

def execAlertSet (tag : Byte) (a : AlertSetArgs) (s : State) : Host.Outcome State Fault Refusal :=
  .next (serve tag kAlertSet (fun b => decide (parseAlertSet b = some a)) (alertSet a) s)

def execAlertGet (tag alert : Byte) (s : State) : Host.Outcome State Fault Refusal :=
  .next (serve tag kAlertGet (fun b => decide (parseIndex b = some alert)) (alertGet alert) s)

def execAlertEnd (tag alert : Byte) (s : State) : Host.Outcome State Fault Refusal :=
  .next (serve tag kAlertEnd (fun b => decide (parseIndex b = some alert)) (alertEnd alert) s)

end Sys2Proof.Machine
end

