-- ==== Sys2Proof/Machine/AttnRequests.lean ====
section
/-! DEFINITION. The requests on the attention set (chapter 9): ATTN_MASK, POLL and SUMMARY. -/

namespace Sys2Proof.Machine

/-- Nine kinds in two bytes (R191). -/
def causeBytes (k : BitVec 9) : List Byte := be 2 k.toNat

/-- R169, R171: mask bits 9 to 15 are disregarded; LEVEL ends a running gap. -/
def attnMask (a : AttnMaskArgs) (s : State) : Answer :=
  match LineMode.ofByte a.mode with
  | none => refuse .badArg s
  | some m =>
    let mask := BitVec.ofNat 9 a.mask.toNat
    accept (causeBytes mask ++ [m.byte])
      { s with mask := mask, lineMode := m, gap := if m = .level then none else s.gap }

/-- The two snapshot bytes of a source (R172, R191). -/
def snapshot (s : State) (src : Fin 96) : List Byte :=
  if h : src.val < 64 then
    [(tbStateOf s ⟨src.val, h⟩).byte, BitVec.ofNat 8 (recCount s ⟨src.val, h⟩)]
  else if h' : src.val < 80 then
    let ln := s.lanes.get ⟨src.val - 64, by omega⟩
    [ln.state.byte, ln.lastFault.byte]
  else [(s.alerts.get ⟨src.val - 80, by have := src.isLt; omega⟩).state.byte, 0]

/-- The gap after a POLL that has cleared a source (R171): in PULSE mode it starts or restarts while the set
is non-empty; a set left empty ends it. -/
def gapAfterPoll (s : State) : Option Nat :=
  if s.lineMode = .pulse ∧ attnNonEmpty s then some s.refCount else none

/-- R172. -/
def poll (s : State) : Answer :=
  match lowestSource s with
  | none => accept [0xFF, 0, 0, 0, 0, 0] s
  | some src =>
    let cleared := { s with attn := s.attn.set src 0#9 }
    accept ([BitVec.ofNat 8 src.val] ++ causeBytes (s.attn.get src) ++ snapshot s src
        ++ [boolByte (attnNonEmpty cleared)])
      { cleared with gap := gapAfterPoll cleared }

/-- R174. -/
def summary (s : State) : Answer :=
  accept (s.attn.entries.flatMap causeBytes ++ causeBytes s.mask ++ [s.lineMode.byte]) s

/-! ## The commands -/

def execAttnMask (tag : Byte) (a : AttnMaskArgs) (s : State) : Host.Outcome State Fault Refusal :=
  .next (serve tag kAttnMask (fun b => decide (parseAttnMask b = some a)) (attnMask a) s)

def execPoll (tag : Byte) (s : State) : Host.Outcome State Fault Refusal :=
  .next (serve tag kPoll List.isEmpty poll s)

def execSummary (tag : Byte) (s : State) : Host.Outcome State Fault Refusal :=
  .next (serve tag kSummary List.isEmpty summary s)

end Sys2Proof.Machine
end

