-- ==== Sys2Proof/Machine/Avail.lean ====
section
/-! DEFINITION. The Avail Scheduler's operations (chapter 2): ending placements, retiring records, the time
update, amending and ending a break. -/

namespace Sys2Proof.Machine

/-! ## Ending placements and retiring (R34, R35, R37, R15) -/

/-- A placement that is not DONE becomes DONE with an outcome; a lane bound to it is handed back (R85). -/
def finishPlacement (o : Outcome) (p : PRef) (s : State) : State :=
  match findPlacement p s with
  | none => s
  | some q =>
    if q.state = .done then s
    else
      let s := match q.bound with
        | some l => handBack l p s
        | none => s
      updPlacement p (fun q => { q with state := .done, outcome := some o, bound := none }) s

/-- The placements of a record, in placement order. -/
def placementRefs (s : State) (k : Key) : List PRef :=
  match findRec k s with
  | some r => (List.range r.placements.length).map fun i => ⟨k, i⟩
  | none => []

/-- Every placement not DONE becomes DONE with the outcome. -/
def finishAll (o : Outcome) (k : Key) (s : State) : State :=
  overList (placementRefs s k) (finishPlacement o) s

/-- What the last-outcome record takes of a retired record (R15). -/
def Avail.result (r : Avail) : LastOutcome :=
  { event := r.key.event, origin := r.origin
    placements := r.placements.filterMap fun p => p.outcome.map fun o => (o, p.part)
    pOut := r.pOut, spliceErr := r.spliceErr }

/-- A record leaves the table; the last-outcome record is overwritten and OUTCOME is raised (R37, R15). Its
splice-out target is its own place in ARMED, and its return targets left its channels with their video. -/
def retire (r : Avail) (s : State) : State :=
  let s := { s with avails := s.avails.filter fun q => decide (q.key ≠ r.key) }
  let s := updSvc r.key.svc (fun v => { v with last := some r.result }) s
  raise (svcSource r.key.svc) .outcome s

/-- The service's records with every placement DONE are retired, in table order (R27, R37). -/
def retireDone (i : Fin 64) (s : State) : State :=
  overList (orderedKeys s i) (fun k s =>
    match findRec k s with
    | some r => if r.allDone then retire r s else s
    | none => s) s

/-- A leave of one of a placement's channels (R35). -/
def Placement.leave (cause : Outcome) (q : Placement) : Placement :=
  let q := match q.firstCause with
    | none => { q with firstCause := some cause }
    | some c => if c = cause then q else { q with part := true }
  if q.count ≤ 1 then { q with count := 0, state := .done, outcome := some cause, bound := none }
  else { q with count := q.count - 1 }

def reportLeave (p : PRef) (cause : Outcome) (s : State) : State :=
  updPlacement p (fun q => if q.state = .onAir then q.leave cause else q) s

/-! ## Lanes for placements (R30, R91) -/

/-- A placement asks for a lane: granted it is LANED, refused it stays WAITING (R30, R91). -/
def requestLane (p : PRef) (s : State) : State :=
  match findRec p.key s, findPlacement p s with
  | some r, some q =>
    match r.e with
    | some e =>
      match allocate s p q.lane e with
      | some l =>
        grant l p (updPlacement p (fun q => { q with state := .laned, bound := some l }) s)
      | none => s
    | none => s
  | _, _ => s

/-- The zones of the ports that carry a channel of the service. -/
def serviceZones (s : State) (i : Fin 64) : List (Fin 8) :=
  (chansOfService s i).filterMap fun c => (s.channels.get c).map (chanZone s)

/-- A placement at arming (R30): NO_CHANNEL when no channel of the service is in its zones, else it asks. -/
def armPlacement (p : PRef) (s : State) : State :=
  match findPlacement p s with
  | none => s
  | some q =>
    if (serviceZones s p.key.svc).any fun z => zoneIn q.zones z then requestLane p s
    else finishPlacement .noChannel p s

/-- Entry to ARMED (R30). The record's E is the splice-out target from here on (R97). -/
def arm (k : Key) (s : State) : State :=
  overList (placementRefs s k) armPlacement (updRec k (fun r => { r with state := .armed }) s)

/-! ## The time update (R27 to R31) -/

/-- The outcome of a miss by time (R29, R31, R33). -/
def missOutcome (locked : Bool) : Outcome := if locked then .missedLate else .missedNoLock

/-- A PENDING record at a time update (R29, R30). -/
def treatPending (v : Service) (t : Time) (locked : Bool) (k : Key) (s : State) : State :=
  match (findRec k s).bind fun r => r.e with
  | none => s
  | some e =>
    if isBehind e t then finishAll (missOutcome locked) k s
    else if decide (dist e t ≤ v.armLead) && locked then arm k s
    else s

/-- A HELD record at a time update: its deadline (R28). -/
def treatHeld (v : Service) (t : Time) (locked : Bool) (k : Key) (s : State) : State :=
  match (findRec k s).bind fun r => r.e with
  | none => s
  | some e =>
    if isBehind e t || decide (dist e t ≤ v.armLead) then
      match v.holdDefault with
      | .arm => treatPending v t locked k (updRec k (fun r => { r with state := .pending }) s)
      | .drop => finishAll .unconfirmed k s
    else s

/-- A WAITING placement that missed its lane (R31). -/
def missLane (p : PRef) (s : State) : State :=
  match findPlacement p s with
  | some q => if q.state = .waiting then finishPlacement .missedNoLane p s else s
  | none => s

/-- A WAITING placement asks again (R31). -/
def retryLane (p : PRef) (s : State) : State :=
  match findPlacement p s with
  | some q => if q.state = .waiting then requestLane p s else s
  | none => s

/-- An ARMED record at a time update (R31). Where both E + splice_window is behind T and E is ahead of it, the record
misses (log 48). -/
def treatArmed (v : Service) (t : Time) (locked : Bool) (k : Key) (s : State) : State :=
  match (findRec k s).bind fun r => r.e with
  | none => s
  | some e =>
    if isBehind (addTicks e v.spliceWindow) t then finishAll (missOutcome locked) k s
    else if isBehind e t then overList (placementRefs s k) missLane s
    else overList (placementRefs s k) retryLane s

/-- A record at a time update, by its state (R27). -/
def treatRecord (v : Service) (t : Time) (locked : Bool) (k : Key) (s : State) : State :=
  match findRec k s with
  | none => s
  | some r => match r.state with
    | .held => treatHeld v t locked k s
    | .pending => treatPending v t locked k s
    | .armed => treatArmed v t locked k s
    | _ => s

/-- A time update of a service (R14, R27). -/
def timeUpdate (i : Fin 64) (s : State) : State :=
  match s.services.get i with
  | none => s
  | some v => match v.tb.t with
    | none => s
    | some t =>
      retireDone i (overList (orderedKeys s i) (treatRecord v t (isLocked s i)) s)

/-! ## Creating and amending (R25, R41 to R43, R53) -/

/-- A record added at the end of the creation order (R25, R53). -/
def addRecord (k : Key) (o : Origin) (ts : TimeSource) (e : Option Time) (d : Option (BitVec 32))
    (ps : List TPlacement) (st : AvailState) (s : State) : State :=
  { s with
    avails := s.avails ++
      [{ key := k, origin := o, timeSource := ts, e := e, d := d, placements := ps.map TPlacement.start
         state := st, pOut := none, spliceErr := none, r := none, creation := s.created
         cutAsked := false }]
    created := s.created + 1 }

/-- A LANED placement is tested again under the guard with the record's new E; one that fails gives its
lane back, enters WAITING and asks at once (R42). -/
def retestGuard (p : PRef) (s : State) : State :=
  match findRec p.key s, findPlacement p s with
  | some r, some q =>
    match q.state, q.bound, r.e with
    | .laned, some l, some e =>
      if passesGuard s p e (groupOf l) then s
      else
        requestLane p (updPlacement p (fun q => { q with state := .waiting, bound := none })
          (handBack l p s))
    | _, _, _ => s
  | _, _ => s

/-- A new E for an ARMED record: it becomes the splice-out target and the lanes are tested again (R42). -/
def amendArmedE (k : Key) (e : Time) (s : State) : State :=
  let s := updRec k (fun r => { r with e := some e }) s
  overList (placementRefs s k) retestGuard s

/-- The return target of every channel on air for a record (R36, R43). -/
def setReturn (k : Key) (r : Option Time) (s : State) : State :=
  overList (chansOfRecord s k) (fun c s => updChan c (fun ch => { ch with ret := r }) s) s

/-- R = (P_out + D) mod 2^33, absent without D (R36, R43). -/
def returnTarget (pOut : Option Time) (d : Option (BitVec 32)) : Option Time :=
  match pOut, d with
  | some p, some d => some (addTicks p d.toNat)
  | _, _ => none

/-- A new duration for an ACTIVE record (R43, R60). -/
def amendActiveD (k : Key) (d : Option (BitVec 32)) (s : State) : State :=
  match findRec k s with
  | none => s
  | some r =>
    let t := returnTarget r.pOut d
    setReturn k t (updRec k (fun r => { r with d := d, r := t }) s)

/-! ## Ending a break (R44 to R46, R61) -/

/-- Every channel of an ACTIVE record is asked to return at the next beat with CUT; asked once, a second
asking adds nothing (R45). -/
def returnNow (k : Key) (s : State) : State :=
  match findRec k s with
  | none => s
  | some r =>
    if r.cutAsked then s
    else
      overList (chansOfRecord s k) (askReturnHeld .cut false)
        (updRec k (fun r => { r with cutAsked := true }) s)

/-- A record is cancelled (R44, R45, R61). -/
def cancelRecord (k : Key) (s : State) : State :=
  match findRec k s with
  | none => s
  | some r =>
    if r.state = .active then returnNow k s
    else retireDone k.svc (finishAll .cancelled k s)

/-- A cue return target for every channel on air for a record (R62, R63). -/
def setCueReturn (k : Key) (t : Time) (s : State) : State :=
  overList (chansOfRecord s k) (fun c s => updChan c (fun ch => { ch with cueRet := some t }) s) s

end Sys2Proof.Machine
end

