-- ==== Sys2Proof/Machine/Timebase.lean ====
section
/-! DEFINITION. The Timebase Monitor (section 1.4): PCR arrival, the lock test, loss of lock and the absence
timeout. -/

namespace Sys2Proof.Machine

/-- The deviation of an arriving count from the prediction (R11, R111). -/
def deviation (ref : PcrRef) (count now : Nat) : Int :=
  signedDiff count ((ref.count + (now - ref.arrival)) % pcrMod)

/-- The PCR is in tolerance (R11). -/
def inTolerance (v : Service) (count now : Nat) : Bool :=
  match v.tb.ref with
  | some r => decide ((deviation r count now).natAbs ≤ v.pcrTolerance)
  | none => false

/-- State and in-tolerance count after a PCR (R10 to R12). -/
def lockAfter (v : Service) (count now : Nat) (disc : Bool) : TbState × Nat :=
  match v.tb.state with
  | .unlocked => (.acquiring, 0)
  | .acquiring =>
    if !disc && inTolerance v count now then
      if 3 ≤ v.tb.count then (.locked, 4) else (.acquiring, v.tb.count + 1)
    else (.acquiring, 0)
  | .locked => if !disc && inTolerance v count now then (.locked, 4) else (.acquiring, 0)

/-- TIMEBASE_LOST, and the loss of lock reported: every channel of the service that draws for a placement is
asked to return with ABORTED (R17, R132). -/
def lossOfLock (i : Fin 64) (s : State) : State :=
  let s := raise (svcSource i) .timebaseLost s
  overList (chansOfService s i) (askReturnHeld .aborted false) s

/-- A PCR arrives at a service's timebase; it always delivers a time update (R10 to R12, R14). -/
def pcrArrive (i : Fin 64) (c : Pcr) (disc : Bool) (s : State) : State :=
  match s.services.get i with
  | none => s
  | some v =>
    let after := lockAfter v (pcrCounts c) s.refCount disc
    let tb : Timebase :=
      { state := after.1, count := after.2, ref := some ⟨pcrCounts c, s.refCount⟩, t := some c.base
        absence := some (nowMs s) }
    let s := updSvc i (fun v => { v with tb := tb, lastT := c.base }) s
    let s := if v.tb.state = .locked ∧ after.1 ≠ .locked then lossOfLock i s else s
    timeUpdate i s

/-- The timebase enters UNLOCKED (R13). -/
def expireTimebase (i : Fin 64) (s : State) : State :=
  let lost := isLocked s i
  let s := updSvc i (fun v => { v with tb := Timebase.reset }) s
  if lost then lossOfLock i s else s

end Sys2Proof.Machine
end

