-- ==== Sys2Proof/Machine/ServiceRequests.lean ====
section
/-! DEFINITION. The requests on services (chapter 1): SERVICE_SET, SERVICE_GET, SERVICE_CLEAR, TEMPLATE_SET and
OUTCOME_GET. -/

namespace Sys2Proof.Machine

/-! ## Bodies (R189) -/

def TPlacement.bytes (t : TPlacement) : List Byte := [t.zones, laneReqByte t.lane, boolByte t.keepOpen]

def templateBytes (ts : List TPlacement) : List Byte :=
  BitVec.ofNat 8 ts.length :: ts.flatMap TPlacement.bytes

def serviceEntry (i : Fin 64) (v : Service) : List Byte :=
  [BitVec.ofNat 8 i.val, BitVec.ofNat 8 v.input.val]
    ++ pidBytes v.video ++ optPid v.audio1 ++ optPid v.audio2 ++ optPid v.audio3 ++ pidBytes v.pcrPid
    ++ optPid v.cuePid ++ [v.policy.byte, v.holdDefault.byte]
    ++ tuningBytes v.armLead ++ tuningBytes v.immLead ++ tuningBytes v.spliceAdjust
    ++ tuningBytes v.spliceWindow ++ tuningBytes v.pcrTolerance ++ tuningBytes v.absenceTimeout
    ++ v.templates.entries.flatMap templateBytes

/-- T is absent while UNLOCKED (R8). -/
def serviceSnapshot (s : State) (i : Fin 64) (v : Service) : List Byte :=
  [v.tb.state.byte, BitVec.ofNat 8 v.tb.count] ++ optTime v.tb.t ++ [BitVec.ofNat 8 (recCount s i)]

/-- The splice error takes 4 bytes, 0 when it is absent (R188). -/
def spliceErrBytes (e : Option Nat) : List Byte := be 4 (e.getD 0)

def lastOutcomeBytes : Option LastOutcome → List Byte
  | none => [0]
  | some o =>
    [1] ++ eventBytes o.event ++ [o.origin.byte, boolByte o.pOut.isSome] ++ optTime o.pOut
      ++ spliceErrBytes o.spliceErr ++ [BitVec.ofNat 8 o.placements.length]
      ++ o.placements.flatMap fun p => [p.1.byte, boolByte p.2]

/-! ## SERVICE_SET (R5, R6) -/

/-- A carried field read by `f`, or the stored value; none when the field is bad or missing. -/
def pick {α β : Type} (given : Option α) (f : α → Option β) (stored : Option β) : Option β :=
  match given with
  | some a => f a
  | none => stored

/-- A carried tuning value clamped to its range, or the stored value (R183). -/
def tune (given : Option (BitVec 32)) (lo hi stored : Nat) : Nat :=
  match given with
  | some v => clampNat lo hi v
  | none => stored

/-- The entry as it would stand after the request, none when check 1 of R5 fails. An omitted field keeps its
stored value, or takes the creation value of section 1.3. -/
def mergeService (old : Option Service) (a : ServiceSetArgs) : Option Service := do
  let input ← pick a.input (fin? 4) (old.map fun v => v.input)
  let video ← pick a.pids.video pidArg (old.map fun v => v.video)
  let audio1 ← pick a.pids.audio1 optPidArg (some (old.bind fun v => v.audio1))
  let audio2 ← pick a.pids.audio2 optPidArg (some (old.bind fun v => v.audio2))
  let audio3 ← pick a.pids.audio3 optPidArg (some (old.bind fun v => v.audio3))
  let pcrPid ← pick a.pcrPid pidArg (old.map fun v => v.pcrPid)
  let cuePid ← pick a.cuePid optPidArg (some (old.bind fun v => v.cuePid))
  let policy ← pick a.policy CuePolicy.ofByte (some ((old.map fun v => v.policy).getD .auto))
  let holdDefault ← pick a.holdDefault HoldDefault.ofByte (some ((old.map fun v => v.holdDefault).getD .drop))
  return {
    input := input, video := video, audio1 := audio1, audio2 := audio2, audio3 := audio3
    pcrPid := pcrPid, cuePid := cuePid, policy := policy, holdDefault := holdDefault
    armLead := tune a.armLead 45000 5400000 ((old.map fun v => v.armLead).getD 360000)
    immLead := tune a.immLead 9000 900000 ((old.map fun v => v.immLead).getD 180000)
    spliceAdjust := match a.spliceAdjust with
      | some v => clampInt (-9000) 9000 v
      | none => (old.map fun v => v.spliceAdjust).getD 0
    spliceWindow := tune a.spliceWindow 0 90000 ((old.map fun v => v.spliceWindow).getD 9009)
    pcrTolerance := tune a.pcrTolerance 27 270000 ((old.map fun v => v.pcrTolerance).getD 2700)
    absenceTimeout := tune a.absenceTimeout 40 1000 ((old.map fun v => v.absenceTimeout).getD 150)
    templates := (old.map fun v => v.templates).getD (Table.replicate 4 [])
    tb := (old.map fun v => v.tb).getD Timebase.reset
    lastT := (old.map fun v => v.lastT).getD 0
    last := old.bind fun v => v.last }

def Service.components (v : Service) : List Pid := Role.every.filterMap v.pid

/-- The component PIDs and the cue PID. -/
def Service.ownPids (v : Service) : List Pid := v.components ++ v.cuePid.toList

/-- Check 2 of R5. -/
def pidsApart (v : Service) : Bool := noRepeat v.ownPids && decide (v.cuePid ≠ some v.pcrPid)

/-- Check 3 of R5, against one other service on the same input. -/
def clearOf (v w : Service) : Bool :=
  v.ownPids.all (fun p => !(w.ownPids.contains p || p == w.pcrPid)) && !w.ownPids.contains v.pcrPid

/-- Check 3 of R5. -/
def pidsFree (s : State) (i : Fin 64) (v : Service) : Bool :=
  (List.finRange 64).all fun j =>
    decide (j = i) || match s.services.get j with
      | some w => decide (w.input ≠ v.input) || clearOf v w
      | none => true

/-- The service has a record in ARMED or ACTIVE (R6). -/
def hasArmedOrActive (s : State) (i : Fin 64) : Bool :=
  s.avails.any fun r => decide (r.key.svc = i) && (decide (r.state = .armed) || decide (r.state = .active))

/-- A change of the network input, a component PID or the PCR PID. -/
def streamChanged (old new : Service) : Bool :=
  decide (old.input ≠ new.input) || decide (old.pcrPid ≠ new.pcrPid)
    || Role.every.any fun x => decide (old.pid x ≠ new.pid x)

/-- The two further checks of R6. -/
def amendBlocked (s : State) (i : Fin 64) (old new : Service) : Bool :=
  (streamChanged old new && (!(chansOfService s i).isEmpty || hasArmedOrActive s i))
    || (decide (old.spliceWindow ≠ new.spliceWindow) && hasArmedOrActive s i)

/-- The timebase goes to UNLOCKED at a change of network input or PCR PID; TIMEBASE_LOST if it was LOCKED
(R6, R17). -/
def retime (i : Fin 64) (old new : Service) (s : State) : State :=
  if old.input ≠ new.input ∨ old.pcrPid ≠ new.pcrPid then
    let s := updSvc i (fun v => { v with tb := Timebase.reset }) s
    if old.tb.state = .locked then raise (svcSource i) .timebaseLost s else s
  else s

/-- A new absence timeout measured from the last PCR arrival; it expires at the request when that much device
time has gone by (R6, R13). -/
def remeasure (i : Fin 64) (old new : Service) (s : State) : State :=
  match (s.services.get i).bind fun v => v.tb.absence with
  | some t =>
    if old.absenceTimeout ≠ new.absenceTimeout ∧ t + new.absenceTimeout ≤ nowMs s then expireTimebase i s else s
  | none => s

def putService (i : Fin 64) (v : Service) (s : State) : State :=
  { s with services := s.services.set i (some v) }

/-- SERVICE_SET on an entry whose index is good. -/
def setService (i : Fin 64) (a : ServiceSetArgs) (s : State) : Answer :=
  let old := s.services.get i
  match mergeService old a with
  | none => refuse .badArg s
  | some v =>
    if !(pidsApart v && pidsFree s i v) then refuse .badArg s
    else match old with
      | none => accept (serviceEntry i v) (putService i v s)
      | some o =>
        if amendBlocked s i o v then refuse .state s
        else accept (serviceEntry i v) (remeasure i o v (retime i o v (putService i v s)))

/-- R5, R6. -/
def serviceSet (a : ServiceSetArgs) (s : State) : Answer :=
  match fin? 64 a.service with
  | none => refuse .badArg s
  | some i => setService i a s

/-! ## The other requests -/

/-- A request on a defined service: BAD_ARG outside 0-63, NOT_FOUND for an empty entry. -/
def onService (b : Byte) (f : Fin 64 → Service → State → Answer) (s : State) : Answer :=
  match fin? 64 b with
  | none => refuse .badArg s
  | some i => match s.services.get i with
    | none => refuse .notFound s
    | some v => f i v s

/-- R8. -/
def serviceGet (b : Byte) : State → Answer :=
  onService b fun i v s => accept (serviceEntry i v ++ serviceSnapshot s i v) s

/-- R9. -/
def serviceClear (b : Byte) : State → Answer :=
  onService b fun i _ s =>
    if !(chansOfService s i).isEmpty || decide (0 < recCount s i) then refuse .state s
    else accept [] { s with services := s.services.set i none }

/-- R7. -/
def templateSet (a : TemplateSetArgs) : State → Answer :=
  onService a.service fun i _ s =>
    match fin? 4 a.breakClass with
    | none => refuse .badArg s
    | some c =>
      if 4 < a.placements.length then refuse .badArg s
      else match checkPlacements s a.placements with
        | none => refuse .badArg s
        | some ts => accept [] (updSvc i (fun v => { v with templates := v.templates.set c ts }) s)

/-- R16. -/
def outcomeGet (b : Byte) : State → Answer := onService b fun _ v s => accept (lastOutcomeBytes v.last) s

/-! ## The commands -/

def execServiceSet (tag : Byte) (a : ServiceSetArgs) (s : State) : Host.Outcome State Fault Refusal :=
  .next (serve tag kServiceSet (fun b => decide (parseServiceSet b = some a)) (serviceSet a) s)

def execServiceGet (tag service : Byte) (s : State) : Host.Outcome State Fault Refusal :=
  .next (serve tag kServiceGet (fun b => decide (parseIndex b = some service)) (serviceGet service) s)

def execServiceClear (tag service : Byte) (s : State) : Host.Outcome State Fault Refusal :=
  .next (serve tag kServiceClear (fun b => decide (parseIndex b = some service)) (serviceClear service) s)

def execTemplateSet (tag : Byte) (a : TemplateSetArgs) (s : State) : Host.Outcome State Fault Refusal :=
  .next (serve tag kTemplateSet (fun b => decide (parseTemplateSet b = some a)) (templateSet a) s)

def execOutcomeGet (tag service : Byte) (s : State) : Host.Outcome State Fault Refusal :=
  .next (serve tag kOutcomeGet (fun b => decide (parseIndex b = some service)) (outcomeGet service) s)

end Sys2Proof.Machine
end

