-- ==== Sys2Proof/Machine/AvailRequests.lean ====
section
/-! DEFINITION. The requests on avail records (chapter 2): creating, amending, ending, answering and reading. -/

namespace Sys2Proof.Machine

/-! ## The avail record body (R190) -/

def Placement.bytes (q : Placement) : List Byte :=
  [q.zones, laneReqByte q.lane, boolByte q.keepOpen] ++ optIndex q.bound ++ [q.state.byte]
    ++ optOutcome q.outcome ++ [boolByte q.part] ++ optOutcome q.firstCause ++ [BitVec.ofNat 8 q.count]

/-- The distance of E ahead of T, when the record has an E and the service a T (R22). -/
def Avail.distance (s : State) (r : Avail) : Option Time :=
  match r.e, tOf s r.key.svc with
  | some e, some t => some (e - t)
  | _, _ => none

def availBody (s : State) (r : Avail) : List Byte :=
  let d := r.distance s
  let bit (b : Bool) (k : Nat) : Nat := if b then 2 ^ k else 0
  [BitVec.ofNat 8 r.key.svc.val] ++ eventBytes r.key.event
    ++ [r.origin.byte, r.timeSource.byte, r.state.byte,
        BitVec.ofNat 8 (bit r.e.isSome 0 + bit r.d.isSome 1 + bit r.pOut.isSome 2 + bit r.r.isSome 3
          + bit d.isSome 4)]
    ++ optTime r.e ++ durationBytes r.d ++ optTime r.pOut ++ spliceErrBytes r.spliceErr ++ optTime r.r
    ++ optTime d ++ [BitVec.ofNat 8 r.placements.length] ++ r.placements.flatMap Placement.bytes

/-- OK with the record as it stands. -/
def answerRecord (k : Key) (s : State) : Answer :=
  match findRec k s with
  | some r => accept (availBody s r) s
  | none => refuse .notFound s

/-! ## Times -/

/-- A time as a request gives it. -/
inductive TimeArg where
  | fixed (t : Time)
  | immediate
  | fromCue
  deriving DecidableEq, Repr

/-- A time kind and S; S is disregarded unless FIXED (R190). -/
def timeOf (kind : Byte) (t : BitVec 40) : Option TimeArg :=
  if kind = 1 then (timeArg t).map TimeArg.fixed
  else if kind = 2 then some .immediate
  else if kind = 3 then some .fromCue
  else none

/-- The last check of R24 and R40: the E that a time gives, or LATE or STATE. -/
def timeCheck (v : Service) (a : TimeArg) : Except Code (Option Time) :=
  match a, v.tb.state, v.tb.t with
  | .fixed t, .locked, some now =>
    if isBehind (adjust t v.spliceAdjust) now then .error .late else .ok (some (adjust t v.spliceAdjust))
  | .fixed t, _, _ => .ok (some (adjust t v.spliceAdjust))
  | .immediate, .locked, some now => .ok (some (addTicks now v.immLead))
  | .immediate, _, _ => .error .state
  | .fromCue, _, _ => .ok none

/-! ## AVAIL_CREATE (R24, R25) -/

/-- The checks of R24 from its second on, and the record of R25. -/
def createRecord (i : Fin 64) (a : AvailCreateArgs) (t : TimeArg) (s : State) : Answer :=
  match s.services.get i with
  | none => refuse .notFound s
  | some v =>
    let k : Key := ⟨i, a.event⟩
    if (findRec k s).isSome then refuse .exists_ s
    else if 512 ≤ s.avails.length ∨ 32 ≤ recCount s i then refuse .full s
    else if a.placements.length < 1 ∨ 4 < a.placements.length then refuse .badArg s
    else match checkPlacements s a.placements with
      | none => refuse .badArg s
      | some ps => match timeCheck v t with
        | .error c => refuse c s
        | .ok e =>
          let ts := if t = .fromCue then TimeSource.fromCue else .fixed
          let st := if t = .fromCue then AvailState.awaitCue else .pending
          answerRecord k (addRecord k .schedule ts e (durationArg a.duration) ps st s)

/-- R24, R25. -/
def availCreate (a : AvailCreateArgs) (s : State) : Answer :=
  match fin? 64 a.service, timeOf a.timeKind a.s with
  | some i, some t => createRecord i a t s
  | _, _ => refuse .badArg s

/-! ## AVAIL_AMEND (R40 to R43) -/

/-- The fields that an amendment carries, checked under step 1 of R40. A carried duration of 0 is none. -/
structure Amendment where
  time       : Option TimeArg
  duration   : Option (Option (BitVec 32))
  placements : Option (List PlacementArg)
  deriving DecidableEq, Repr

/-- Step 1 of R40, but for the service index. -/
def amendmentOf (a : AvailAmendArgs) : Option Amendment :=
  let rest (t : Option TimeArg) : Amendment := ⟨t, a.duration.map durationArg, a.placements⟩
  match a.time with
  | none => if a.duration.isNone && a.placements.isNone then none else some (rest none)
  | some (k, t) => match timeOf k t with
    | some .fromCue => none
    | some x => some (rest (some x))
    | none => none

/-- Step 3 of R40. -/
def mayAmend (st : AvailState) (a : Amendment) : Bool :=
  match st with
  | .armed => a.placements.isNone
  | .active => a.placements.isNone && a.time.isNone
  | _ => true

/-- Step 4 of R40: the new placement list, when one is carried. -/
def amendPlacements (s : State) (a : Amendment) : Option (Option (List TPlacement)) :=
  match a.placements with
  | none => some none
  | some ps =>
    if ps.length < 1 ∨ 4 < ps.length then none else (checkPlacements s ps).map some

/-- Step 5 of R40: the new E, when a time is carried. -/
def amendTime (v : Service) (a : Amendment) : Except Code (Option Time) :=
  match a.time with
  | none => .ok none
  | some t => timeCheck v t

/-- A record before ARMED takes an amendment (R41). -/
def Avail.amendEarly (e : Option Time) (d : Option (Option (BitVec 32)))
    (ps : Option (List TPlacement)) (r : Avail) : Avail :=
  { r with
    e := e.or r.e
    timeSource := if e.isSome then .fixed else r.timeSource
    state := if e.isSome && decide (r.state = .awaitCue) then .pending else r.state
    d := d.getD r.d
    placements := match ps with
      | some ps => ps.map TPlacement.start
      | none => r.placements }

/-- An ARMED record takes an amendment (R42; log 18). -/
def amendArmed (r : Avail) (e : Option Time) (d : Option (Option (BitVec 32))) (s : State) : State :=
  let s := updRec r.key (fun r =>
    { r with d := d.getD r.d, timeSource := if e.isSome then .fixed else r.timeSource }) s
  match e with
  | some t => if r.e = some t then s else amendArmedE r.key t s
  | none => s

/-- An accepted amendment (R41 to R43). -/
def applyAmendment (r : Avail) (e : Option Time) (d : Option (Option (BitVec 32)))
    (ps : Option (List TPlacement)) (s : State) : State :=
  match r.state with
  | .armed => amendArmed r e d s
  | .active => match d with
    | some d => amendActiveD r.key d s
    | none => s
  | _ => updRec r.key (Avail.amendEarly e d ps) s

/-- Steps 2 to 5 of R40. -/
def amendRecord (i : Fin 64) (event : BitVec 32) (a : Amendment) (s : State) : Answer :=
  match findRec ⟨i, event⟩ s, s.services.get i with
  | some r, some v =>
    if !mayAmend r.state a then refuse .state s
    else match amendPlacements s a with
      | none => refuse .badArg s
      | some ps => match amendTime v a with
        | .error c => refuse c s
        | .ok e => answerRecord r.key (applyAmendment r e a.duration ps s)
  | _, _ => refuse .notFound s

/-- R40 to R43. -/
def availAmend (a : AvailAmendArgs) (s : State) : Answer :=
  match fin? 64 a.service, amendmentOf a with
  | some i, some m => amendRecord i a.event m s
  | _, _ => refuse .badArg s

/-! ## Ending and answering (R38, R39, R44 to R46) -/

/-- A request that names a record: BAD_ARG for the service index; `absent` answers for an absent key. -/
def onRecord (a : KeyArgs) (absent : Fin 64 → State → Answer) (f : Avail → State → Answer) (s : State) :
    Answer :=
  match fin? 64 a.service with
  | none => refuse .badArg s
  | some i => match findRec ⟨i, a.event⟩ s with
    | some r => f r s
    | none => absent i s

def notInTable (_ : Fin 64) (s : State) : Answer := refuse .notFound s

/-- R44, R45. -/
def availCancel (a : KeyArgs) : State → Answer :=
  onRecord a notInTable fun r s => accept [] (cancelRecord r.key s)

/-- R46. -/
def availReturn (a : KeyArgs) : State → Answer :=
  onRecord a notInTable fun r s =>
    if r.state = .active then accept [] (returnNow r.key s) else refuse .state s

/-- The last-outcome record shows the event as dropped unconfirmed (R39). -/
def droppedUnconfirmed (s : State) (i : Fin 64) (event : BitVec 32) : Bool :=
  match (s.services.get i).bind fun v => v.last with
  | some lo => decide (lo.event = event) && lo.placements.all fun p => decide (p.1 = .unconfirmed)
  | none => false

/-- R39. -/
def lateOrAbsent (event : BitVec 32) (i : Fin 64) (s : State) : Answer :=
  refuse (if droppedUnconfirmed s i event then .late else .notFound) s

/-- R38, R39. -/
def availConfirm (a : KeyArgs) : State → Answer :=
  onRecord a (lateOrAbsent a.event) fun r s =>
    if r.state = .held then accept [] (updRec r.key (fun r => { r with state := .pending }) s)
    else refuse .late s

/-- R38, R39. -/
def availDecline (a : KeyArgs) : State → Answer :=
  onRecord a (lateOrAbsent a.event) fun r s =>
    if r.state = .held then accept [] (retireDone r.key.svc (finishAll .declined r.key s))
    else refuse .late s

/-- R22. -/
def availGet (a : KeyArgs) : State → Answer := onRecord a notInTable fun r s => accept (availBody s r) s

/-! ## AVAIL_WALK (R23) -/

/-- Where the cursor stands now: the current place of the record it named, or where that record would sort. -/
def WalkPos.place (s : State) (w : WalkPos) : List Nat :=
  match findRec w.key s with
  | some r => if r.creation = w.creation then r.sortKey s else Machine.sortKey s w.key w.e w.creation
  | none => Machine.sortKey s w.key w.e w.creation

/-- The first record after the cursor that belongs to the filter's service. -/
def nextInWalk (s : State) (w : Option WalkPos) (filter : Option (Fin 64)) : Option Avail :=
  (tableOrder s).find? fun r =>
    (match w with
      | some w => lexLt (w.place s) (r.sortKey s)
      | none => true)
    && match filter with
      | some i => decide (r.key.svc = i)
      | none => true

def walkOn (restart : Bool) (filter : Option (Fin 64)) (s : State) : Answer :=
  match nextInWalk s (if restart then none else s.walk) filter with
  | some r => accept (availBody s r) { s with walk := some ⟨r.key, r.e, r.creation⟩ }
  | none => accept [] { s with walk := none }

/-- R23. Filter 0xFF is none. -/
def availWalk (a : WalkArgs) (s : State) : Answer :=
  match boolOfByte a.restart with
  | none => refuse .badArg s
  | some restart =>
    if a.filter = 0xFF then walkOn restart none s
    else match fin? 64 a.filter with
      | some i => walkOn restart (some i) s
      | none => refuse .badArg s

/-! ## The commands -/

def execAvailCreate (tag : Byte) (a : AvailCreateArgs) (s : State) : Host.Outcome State Fault Refusal :=
  .next (serve tag kAvailCreate (fun b => decide (parseAvailCreate b = some a)) (availCreate a) s)

def execAvailAmend (tag : Byte) (a : AvailAmendArgs) (s : State) : Host.Outcome State Fault Refusal :=
  .next (serve tag kAvailAmend (fun b => decide (parseAvailAmend b = some a)) (availAmend a) s)

def execAvailCancel (tag : Byte) (a : KeyArgs) (s : State) : Host.Outcome State Fault Refusal :=
  .next (serve tag kAvailCancel (fun b => decide (parseKey b = some a)) (availCancel a) s)

def execAvailReturn (tag : Byte) (a : KeyArgs) (s : State) : Host.Outcome State Fault Refusal :=
  .next (serve tag kAvailReturn (fun b => decide (parseKey b = some a)) (availReturn a) s)

def execAvailConfirm (tag : Byte) (a : KeyArgs) (s : State) : Host.Outcome State Fault Refusal :=
  .next (serve tag kAvailConfirm (fun b => decide (parseKey b = some a)) (availConfirm a) s)

def execAvailDecline (tag : Byte) (a : KeyArgs) (s : State) : Host.Outcome State Fault Refusal :=
  .next (serve tag kAvailDecline (fun b => decide (parseKey b = some a)) (availDecline a) s)

def execAvailGet (tag : Byte) (a : KeyArgs) (s : State) : Host.Outcome State Fault Refusal :=
  .next (serve tag kAvailGet (fun b => decide (parseKey b = some a)) (availGet a) s)

def execAvailWalk (tag : Byte) (a : WalkArgs) (s : State) : Host.Outcome State Fault Refusal :=
  .next (serve tag kAvailWalk (fun b => decide (parseWalk b = some a)) (availWalk a) s)

end Sys2Proof.Machine
end

