-- ==== Sys2Proof/Machine/Cues.lean ====
section
/-! DEFINITION. The Cue Parser (chapter 3): reading and checking a section (R49 to R51, R192) and what a valid
cue does. -/

namespace Sys2Proof.Machine

inductive CueKind where
  | insert | cancel | ret
  deriving DecidableEq, Repr

/-- A valid cue (section 3.1). -/
structure Cue where
  kind     : CueKind
  event    : BitVec 32
  cls      : Fin 4
  time     : Option Time
  duration : Option (BitVec 32)
  deriving DecidableEq, Repr

def CueKind.ofByte (b : Byte) : Option CueKind :=
  if b = 0x01 then some .insert else if b = 0x02 then some .cancel else if b = 0x03 then some .ret else none

def byteAt (bs : List Byte) (i : Nat) : Byte := bs.getD i 0

/-- The value of `k` bytes at an offset. -/
def fieldAt (bs : List Byte) (i k : Nat) : Nat := natBe ((bs.drop i).take k)

/-- The section length that the two presence flags imply (R192). -/
def cueLength (timePresent durPresent : Bool) : Nat :=
  10 + (if timePresent then 5 else 0) + (if durPresent then 4 else 0)

/-- The section at the start of a payload; none when a check of R50 fails, taken in its order. -/
def readCue (bs : List Byte) : Option Cue :=
  let n := (byteAt bs 1).toNat
  let flags := byteAt bs 7
  let hasTime := flags.getLsbD 7
  let hasDur := flags.getLsbD 6
  let durAt := if hasTime then 13 else 8
  let dur := BitVec.ofNat 32 (fieldAt bs durAt 4)
  if bs.head? ≠ some 0xC7#8 then none
  else if bs.length < 2 ∨ bs.length < 2 + n then none
  else if (crc32 (bs.take (n - 2))).toNat ≠ fieldAt bs (n - 2) 4 then none
  else match CueKind.ofByte (byteAt bs 2) with
    | none => none
    | some k =>
      if n ≠ cueLength hasTime hasDur then none
      else if hasDur ∧ dur = 0 then none
      else some
        { kind := k, event := BitVec.ofNat 32 (fieldAt bs 3 4)
          cls := ⟨flags.toNat % 4, Nat.mod_lt _ (by decide)⟩
          time := if hasTime then some (BitVec.ofNat 33 (fieldAt bs 8 5)) else none
          duration := if hasDur then some dur else none }

/-- The cue E of a carried splice time (R56). -/
def cueE (v : Service) (c : Cue) : Option Time := c.time.map fun t => adjust t v.spliceAdjust

/-- E of a record that the cue creates or binds: the cue E, or (T + imm_lead) on a LOCKED service (R26, R53). -/
def newE (v : Service) (c : Cue) : Option Time :=
  match cueE v c with
  | some e => some e
  | none =>
    match v.tb.state, v.tb.t with
    | .locked, some t => some (addTicks t v.immLead)
    | _, _ => none

/-- A late repeat (R55). -/
def lateRepeat (v : Service) (c : Cue) : Bool :=
  match v.last with
  | none => false
  | some lo =>
    decide (lo.event = c.event) &&
      match cueE v c, v.tb.t with
      | none, _ => true
      | some e, some t => isBehind e t
      | some _, none => false

def dropCue (i : Fin 64) (s : State) : State := raise (svcSource i) .cueDropped s

/-- The record a new INSERT makes, with CUE_HELD and its trigger under HOLD (R53, R54). -/
def createFromCue (i : Fin 64) (v : Service) (c : Cue) (e : Time) (s : State) : State :=
  let add := addRecord ⟨i, c.event⟩ .network .fixed (some e) c.duration (v.templates.get c.cls)
  match v.policy with
  | .hold => deliverTrigger .cueHeld i (raise (svcSource i) .cueHeld (add .held s))
  | _ => add .pending s

/-- An INSERT whose key is not in the table (R52). -/
def insertNew (i : Fin 64) (v : Service) (c : Cue) (s : State) : State :=
  if lateRepeat v c then s
  else if v.policy = .ignore then s
  else if (v.templates.get c.cls).isEmpty then dropCue i s
  else if 512 ≤ s.avails.length ∨ 32 ≤ recCount s i then dropCue i s
  else match newE v c with
    | none => dropCue i s
    | some e => createFromCue i v c e s

/-- A carried cue value that differs from the record's field (R56). -/
def differs {α : Type} [DecidableEq α] (cue field : Option α) : Bool :=
  match cue with
  | none => false
  | some _ => decide (cue ≠ field)

/-- An INSERT whose key is in the table, by the record's state (R57 to R60). In ARMED only E and D change: the time
source stays as it was (log 43). -/
def insertKnown (i : Fin 64) (v : Service) (c : Cue) (r : Avail) (s : State) : State :=
  match r.state with
  | .awaitCue =>
    match newE v c with
    | none => dropCue i s
    | some e =>
      updRec r.key (fun r => { r with state := .pending, e := some e, d := r.d.or c.duration }) s
  | .armed =>
    let s := match c.duration with
      | some d => updRec r.key (fun r => { r with d := some d }) s
      | none => s
    match cueE v c with
    | some e => if r.e = some e then s else amendArmedE r.key e s
    | none => s
  | .active => if differs c.duration r.d then amendActiveD r.key c.duration s else s
  | _ => updRec r.key (fun r => { r with e := (cueE v c).or r.e, d := c.duration.or r.d }) s

/-- A RETURN cue on a record (R62, R63). -/
def returnCue (v : Service) (c : Cue) (r : Avail) (s : State) : State :=
  match r.state with
  | .active =>
    match cueE v c with
    | none => returnNow r.key s
    | some t => if r.cutAsked then s else setCueReturn r.key t s
  | _ => s

/-- A valid cue of a service (section 3.2). -/
def takeCue (i : Fin 64) (v : Service) (c : Cue) (s : State) : State :=
  match c.kind, findRec ⟨i, c.event⟩ s with
  | .insert, none => insertNew i v c s
  | .insert, some r => insertKnown i v c r s
  | .cancel, some r => cancelRecord r.key s
  | .ret, some r => returnCue v c r s
  | _, none => s

/-- The bytes of a payload as the Cue Parser sees them. A PES header starts with 0x00 (log 5), so it fails
check 1 of R50 whatever follows. -/
def cueBytes : Payload → List Byte
  | .bytes b => b
  | .pes _ r => 0x00#8 :: r

/-- A packet on a service's cue PID (R49): a section that fails its checks raises CUE_CORRUPT (R64). -/
def cuePacket (i : Fin 64) (p : Packet) (s : State) : State :=
  match s.services.get i, p.payload with
  | some v, some pl =>
    if p.pusi then
      match readCue (cueBytes pl) with
      | some c => takeCue i v c s
      | none => raise (svcSource i) .cueCorrupt s
    else s
  | _, _ => s

end Sys2Proof.Machine
end

