-- ==== Sys2Proof/Config.lean ====
section
/-! DEFINITION. The free values: results the spec gives no value for. Each is a constant with no body, so
that no proof can see what it is. -/

namespace Sys2Proof

/-- The `n`th free value. It places the cursor of an audio component that follows onto a STANDING lane
that has no entry at that moment (R121 and R78 give none). DESIGN CHOICE, log 11. -/
opaque Config.freeCursor : Nat → Nat

end Sys2Proof
end

