-- ==== Sys2Proof/Machine/Rewrite.lean ====
section
/-! DEFINITION. What becomes of one packet on its way to a port: rewriting a lane packet (section 5.4), the
continuity counter (R125) and the null packet (R123). -/

namespace Sys2Proof.Machine

/-- PID 0x1FFF, payload only, CC 0 and 184 payload bytes of 0xFF (R123). -/
def nullPacket : Packet :=
  { tei := false, pusi := false, priority := false, pid := 0x1FFF#13, scrambling := 0, cc := 0, af := none
    payload := some (.bytes (List.replicate 184 0xFF#8)) }

/-- A PTS or DTS plus the offset (R104). -/
def shiftStamp (o : Time) : Stamp → Stamp
  | .whole t => .whole (t + o)
  | x => x

/-- The PES header of a packet with payload start; one with a cut timestamp stays as received (R104). -/
def shiftPayload (o : Time) (p : Packet) : Option Payload :=
  match p.pusi, p.payload with
  | true, some (.pes h r) =>
    if headerCut p then p.payload else some (.pes ⟨shiftStamp o h.pts, shiftStamp o h.dts⟩ r)
  | _, x => x

/-- A lane PCR: kept with its base shifted when the service carries its clock in a component (R105), otherwise
taken out, its six bytes made up by stuffing at the end of the field (R106). -/
def shiftPcr (inComponent : Bool) (o : Time) (a : Adaptation) : Adaptation :=
  match a.pcr with
  | none => a
  | some c =>
    if inComponent then { a with pcr := some ⟨c.base + o, c.ext⟩ }
    else { a with pcr := none, rest := a.rest ++ List.replicate 6 0xFF#8 }

/-- An adaptation field of a lane packet: its PCR rewritten, everything else as delivered (R107). -/
def shiftField (inComponent : Bool) (o : Time) : AdaptField → AdaptField
  | .empty => .empty
  | .holds a => .holds (shiftPcr inComponent o a)

/-- A lane packet as it leaves in a slot, but for its continuity counter (R104 to R107, R123). -/
def rewrite (inComponent : Bool) (o : Time) (pid : Pid) (p : Packet) : Packet :=
  { p with pid := pid, af := p.af.map (shiftField inComponent o), payload := shiftPayload o p }

/-- The packet is payload-bearing (R125). -/
def hasPayload (p : Packet) : Bool := p.payload.isSome

/-- A lane packet's counter, and the role's state after it (R125). -/
def laneCc (r : RoleState) (payload : Bool) (own : BitVec 4) : BitVec 4 × RoleState :=
  match r.lastCc with
  | none => (own, { r with lastCc := some own, ccDelta := 0 })
  | some c =>
    let cc := if payload then c + 1 else c
    (cc, { r with lastCc := some cc })

/-- A network packet's counter, none for a duplicate, and the role's state after it (R125). -/
def networkCc (r : RoleState) (payload : Bool) (own : BitVec 4) : Option (BitVec 4) × RoleState :=
  match r.lastCc with
  | none => (some own, { r with lastCc := some own, ccDelta := 0, rejoin := r.rejoin && !payload })
  | some c =>
    if !payload then (some c, r)
    else if !r.rejoin && decide (own + r.ccDelta = c + 1) then (some (c + 1), { r with lastCc := some (c + 1) })
    else if !r.rejoin && decide (own + r.ccDelta = c) then (none, r)
    else (some (c + 1), { r with lastCc := some (c + 1), ccDelta := c + 1 - own, rejoin := false })

end Sys2Proof.Machine
end

