-- ==== Sys2Proof/Machine/Splice.lean ====
section
/-! DEFINITION. The Splice Engine (chapters 5 and 6): judging splice-out targets at a beat, settling which
channels go on air, switching a channel's video, the audio follow, and filling slots. -/

namespace Sys2Proof.Machine

/-! ## Leaving a lane (R122) -/

/-- Some component of the channel is on the lane. -/
def onLane (s : State) (c : Fin 128) (l : Fin 16) : Bool :=
  match s.channels.get c with
  | some ch => ch.holdsOn l
  | none => false

/-- The channel has left lane `l`: the reader leaves, and a placement it drew for is charged (R122, R35). -/
def leaveLane (l : Fin 16) (h : Option Holder) (cause : Option Outcome) (c : Fin 128) (s : State) : State :=
  let s := readerLeave l c s
  match h, cause with
  | some (.placement p), some o => reportLeave p o s
  | _, _ => s

/-- A Departing field that names a lane the channel no longer holds becomes absent, and its leave is
reported (R122). -/
def settleDeparting (c : Fin 128) (s : State) : State :=
  match s.channels.get c with
  | none => s
  | some ch => match ch.departing with
    | none => s
    | some d =>
      if ch.holdsOn d.lane then s
      else leaveLane d.lane d.holder d.cause c (updChan c (fun ch => { ch with departing := none }) s)

/-! ## Switching the video (R120) -/

/-- An audio component after the video has switched to a lane or to NETWORK (R120). -/
def placeAudio (toLane : Bool) (r : RoleState) : RoleState :=
  match r.source, toLane with
  | .network, false => { r with switched := true }
  | .network, true => { r with switched := false }
  | .lane _, false => { r with switched := false }
  | .lane _, true => { r with source := .muted, switched := false }
  | .muted, _ => { r with switched := false }

/-- The roles after the video has taken a target; a role the service lacks stays as it is. -/
def placeRoles (has : Role → Bool) (src : RoleSource) (rs : PerRole RoleState) : PerRole RoleState :=
  let toLane := decide (src ≠ .network)
  let audio (x : Role) (r : RoleState) : RoleState := if has x then placeAudio toLane r else r
  { video := { rs.video with source := src, switched := true
                             rejoin := if rs.video.source = src then rs.video.rejoin else !toLane }
    audio1 := audio .audio1 rs.audio1
    audio2 := audio .audio2 rs.audio2
    audio3 := audio .audio3 rs.audio3 }

/-- The channel's fields after its video has taken a target at a beat with PTS `p` (R120, R101 to R103). `lp`
is the lane's L_pts. The targets leave the channel with its video (R130). The switch PTS is kept also on a channel that
is NETWORK at once (log 51). -/
def Channel.takeTarget (now : Nat) (has : Role → Bool) (t : Target) (lp : Option Time) (p : Time)
    (cause : Option Outcome) (ch : Channel) : Channel :=
  let src : RoleSource := match t with
    | .network => .network
    | .lane l _ => .lane l
  let roles := placeRoles has src ch.roles
  let lagging := roles.toList.any fun r => !r.switched
  let departing := match ch.lane with
    | some x => some (⟨x, ch.holder, cause⟩ : Departing)
    | none => ch.departing
  let ch := { ch with
    roles := roles, departing := departing, switchPts := some p, ret := none, cueRet := none
    followStart := if lagging then some now else none, followDue := false }
  match t with
  | .network => { ch with holder := none, offset := if ch.isNetwork then none else ch.offset }
  | .lane _ h => { ch with holder := some h, offset := lp.map fun q => p - q }

/-- A Departing field whose lane the video takes again: a placement it names is charged at this beat, and the
channel stays a reader (R120). -/
def settleRetaken (l : Fin 16) (c : Fin 128) (s : State) : State :=
  match (s.channels.get c).bind fun ch => ch.departing with
  | none => s
  | some d =>
    if d.lane = l then
      let s := updChan c (fun ch => { ch with departing := none }) s
      match d.holder, d.cause with
      | some (.placement p), some o => reportLeave p o s
      | _, _ => s
    else s

/-- The video of channel `c` takes a target at a beat with PTS `p` (R120). `keep` is the pending target that
stays (R118, third row). -/
def videoTake (p : Time) (c : Fin 128) (t : Target) (cause : Option Outcome)
    (keep : Option PendingTarget) (s : State) : State :=
  let left := (s.channels.get c).bind Channel.lane
  let lp := match t with
    | .lane l _ => (s.lanes.get l).lpts
    | .network => none
  let s := updChan c (fun ch =>
    { Channel.takeTarget (nowMs s) (chanHas s c) t lp p cause ch with pending := keep }) s
  let s := match left with
    | some x => updLane x (Lane.setCursor c .video none) s
    | none => s
  let s := match t with
    | .lane l _ => freeLane l (settleRetaken l c (updLane l (Lane.startReader c) s))
    | .network => s
  settleDeparting c s

/-! ## Judging a beat (R98, R126, R127) -/

inductive Judgement where
  | wait | spliceOut | miss
  deriving DecidableEq, Repr

/-- A beat judged against one target (R98). -/
def judge (window : Nat) (p e : Time) : Judgement :=
  let x := dist p e
  if 2 ^ 32 ≤ x then .wait else if x ≤ window then .spliceOut else .miss

/-- The ARMED records of a service that a beat judges in one way. -/
def judged (s : State) (i : Fin 64) (window : Nat) (p : Time) (j : Judgement) : List Avail :=
  s.avails.filter fun r =>
    decide (r.key.svc = i) && decide (r.state = .armed) &&
      match r.e with
      | some e => decide (judge window p e = j)
      | none => false

/-- A LANED placement whose lane is READY, at a splice-out (R126). `rank` orders rival claims (R127). -/
structure Candidate where
  ref   : PRef
  lane  : Fin 16
  zones : ZoneSet
  rank  : List Nat
  deriving DecidableEq, Repr

def originRank : Origin → Nat
  | .schedule => 0
  | .network => 1

/-- The candidates of one record (R126). -/
def candidatesOf (s : State) (p : Time) (r : Avail) : List Candidate :=
  (List.range r.placements.length).filterMap fun i =>
    match r.placements[i]?, r.e with
    | some q, some e =>
      match q.state, q.bound with
      | .laned, some l =>
        if (s.lanes.get l).state = .ready then
          some ⟨⟨r.key, i⟩, l, q.zones, [dist p e, originRank r.origin, r.key.event.toNat]⟩
        else none
      | _, _ => none
    | _, _ => none

/-- A zone whose channels are locked out of every splice-out (R126). -/
def zoneShut (s : State) (z : Fin 8) : Bool := (s.zones.get z).cover.isSome || (s.zones.get z).locked

/-- The candidate that wins a channel in a zone, none when the zone is shut or nobody claims it (R126, R127). -/
def winner (s : State) (cands : List Candidate) (z : Fin 8) : Option Candidate :=
  if zoneShut s z then none
  else (cands.filter fun k => zoneIn k.zones z).foldl (fun best k =>
    match best with
    | none => some k
    | some b => if lexLt k.rank b.rank then some k else some b) none

/-- The zone of a channel by its index. -/
def zoneOf (s : State) (c : Fin 128) : Option (Fin 8) := (s.channels.get c).map (chanZone s)

/-- The channels of a placement at a beat: those of its service in its zones (R126). -/
def placementChans (s : State) (i : Fin 64) (zs : ZoneSet) : List (Fin 128) :=
  (chansOfService s i).filter fun c => match zoneOf s c with
    | some z => zoneIn zs z
    | none => false

/-- The candidate that wins channel `c`. -/
def winnerOf (s : State) (cands : List Candidate) (c : Fin 128) : Option Candidate :=
  (zoneOf s c).bind (winner s cands)

/-- What the Splice Engine reports for one placement at a splice-out (R129). -/
structure Report where
  chans     : Nat
  taken     : Nat
  lost      : Nat
  lockedOut : Nat
  deriving DecidableEq, Repr

def reportOf (s : State) (cands : List Candidate) (ref : PRef) (zs : ZoneSet) : Report :=
  let cs := placementChans s ref.key.svc zs
  let won := cs.filter fun c => match winnerOf s cands c with
    | some k => decide (k.ref = ref)
    | none => false
  let lost := cs.filter fun c => match winnerOf s cands c with
    | some k => decide (k.ref ≠ ref)
    | none => false
  ⟨cs.length, won.length, lost.length, cs.length - won.length - lost.length⟩

/-! ## What a channel's video takes (R118) -/

/-- A pending lane target can be taken: the lane has an entry, in READY or ON_AIR (R118, R79). -/
def canTake (s : State) : Target → Bool
  | .network => true
  | .lane l _ =>
    (s.lanes.get l).entry.isSome
      && (decide ((s.lanes.get l).state = .ready) || decide ((s.lanes.get l).state = .onAir))

/-- The cause of a handover: that of a pending asked return, else PLAYED (R128). -/
def handoverCause (ch : Channel) : Option Outcome :=
  if ch.drawsFor.isNone then none
  else match ch.pending with
    | some t => if t.kind = .asked then t.cause else some .played
    | none => some .played

def meets (p : Time) : Option Time → Bool
  | some t => atOrAfter p t
  | none => false

/-- What the video of a channel takes: the target, the leave cause and the pending target that stays. -/
def decideVideo (s : State) (p : Time) (win : Option Candidate) (ch : Channel) :
    Option (Target × Option Outcome × Option PendingTarget) :=
  match win with
  | some k => some (.lane k.lane (.placement k.ref), handoverCause ch, none)
  | none =>
    match ch.pending with
    | some t =>
      if canTake s t.target then some (t.target, t.cause, none)
      else if ch.drawsFor.isSome then some (.network, t.cause, some t)
      else none
    | none =>
      if ch.drawsFor.isNone then none
      else if meets p ch.ret then some (.network, some .played, none)
      else if meets p ch.cueRet then some (.network, some .cut, none)
      else none

/-- One channel at the beat (R118). -/
def switchChannel (p : Time) (win : Option Candidate) (c : Fin 128) (s : State) : State :=
  match s.channels.get c with
  | none => s
  | some ch => match decideVideo s p win ch with
    | some (t, cause, keep) => videoTake p c t cause keep s
    | none => s

/-! ## The scheduler's side of a splice-out (R33, R36) -/

/-- A placement at a splice-out on a LOCKED service, by its report (R33, R129). `ready` says whether its lane
was READY. A lane that was not READY comes before no channel and before every channel locked out: the order of the rows in
R33's table, which states no precedence among them (log 52). -/
def placementResult (ready : Bool) (rep : Report) (ref : PRef) (q : Placement) (s : State) : State :=
  match q.state with
  | .waiting => finishPlacement .missedNoLane ref s
  | .laned =>
    if !ready then finishPlacement .missedNotReady ref s
    else if rep.chans = 0 then finishPlacement .noChannel ref s
    else if rep.taken = 0 then
      finishPlacement (if rep.lost = 0 then .lockedOut else .missedConflict) ref s
    else updPlacement ref (fun q =>
      { q with state := .onAir, count := rep.taken, part := q.part || decide (0 < rep.lost + rep.lockedOut) }) s
  | _ => s

/-- The lane of a LANED placement was READY as the beat was taken. -/
def wasReady (s : State) (q : Placement) : Bool :=
  match q.bound with
  | some l => decide ((s.lanes.get l).state = .ready)
  | none => false

/-- A record's splice-out at a beat: the results, and ACTIVE with P_out, the splice error and R when at least
one placement went ON_AIR (R33, R36, R100). `s₀` is the state as the beat was taken. -/
def applySpliceOut (p : Time) (s₀ : State) (cands : List Candidate) (r : Avail) (s : State) : State :=
  let s := overList (List.range r.placements.length) (fun i s =>
    match r.placements[i]? with
    | some q => placementResult (wasReady s₀ q) (reportOf s₀ cands ⟨r.key, i⟩ q.zones) ⟨r.key, i⟩ q s
    | none => s) s
  match findRec r.key s, r.e with
  | some r', some e =>
    if r'.placements.any fun q => decide (q.state = .onAir) then
      let t := returnTarget (some p) r'.d
      setReturn r.key t (updRec r.key (fun q =>
        { q with state := .active, pOut := some p, spliceErr := some (dist p e), r := t }) s)
    else s
  | _, _ => s

/-! ## The beat (R118, R129) -/

/-- The channel's video draws from a lane for a placement. -/
def drawsAvail (s : State) (c : Fin 128) : Option PRef := (s.channels.get c).bind Channel.drawsFor

/-- Some channel of the service took an avail lane between two states. -/
def tookAvail (old new : State) (i : Fin 64) : Bool :=
  (chansOfService old i).any fun c =>
    (drawsAvail new c).isSome && decide (drawsAvail new c ≠ drawsAvail old c)

/-- Some channel of the service left an avail lane for NETWORK between two states. -/
def leftAvail (old new : State) (i : Fin 64) : Bool :=
  (chansOfService old i).any fun c =>
    (drawsAvail old c).isSome && ((new.channels.get c).bind Channel.lane).isNone

/-- A beat of service `i` with switch PTS `p` (R98, R99, R118, R126 to R130). Channels switch in ascending
order (log 24). -/
def beat (i : Fin 64) (p : Time) (s : State) : State :=
  match s.services.get i with
  | none => s
  | some v =>
    let outs := judged s i v.spliceWindow p .spliceOut
    let late := judged s i v.spliceWindow p .miss
    let locked := isLocked s i
    let cands := if locked then outs.flatMap (candidatesOf s p) else []
    let s₁ := overList (chansOfService s i) (fun c s₁ => switchChannel p (winnerOf s cands c) c s₁) s
    let s₂ := overList outs (fun r s₂ =>
      if locked then applySpliceOut p s cands r s₂ else finishAll .missedNoLock r.key s₂) s₁
    let s₃ := overList late (fun r s₃ => finishAll (missOutcome locked) r.key s₃) s₂
    let s₄ := if tookAvail s s₃ i then deliverTrigger .spliceOut i s₃ else s₃
    if leftAvail s s₃ i then deliverTrigger .ret i s₄ else s₄

/-! ## The audio follow (R121) -/

/-- A component follows the video at this packet (R121). -/
def followsAt (ch : Channel) (r : RoleState) (pk : Packet) : Bool :=
  !r.switched &&
    (ch.followDue ||
      match pktPts pk, ch.switchPts with
      | some t, some p => atOrAfter t p
      | _, _ => false)

/-- The fields of a channel after component `x` has switched to the video's source (R121). At NETWORK the offset becomes
absent and the switch PTS of the latest video switch is kept (log 51). -/
def Channel.follow (x : Role) (ch : Channel) : Channel :=
  let src := ch.roles.video.source
  let roles := ch.roles.set x
    { ch.roles.get x with source := src, switched := true, rejoin := decide (src = .network) }
  let ch := { ch with roles := roles }
  let ch := if roles.toList.all fun r => r.switched then { ch with followStart := none, followDue := false } else ch
  if ch.isNetwork then { ch with offset := none } else ch

/-- The cursor of a component that follows onto lane `l`: at the entry; a free value when a STANDING lane has
none (R121, R79; log 11). A role that the lane plan lacks has no cursor (R123). -/
def followCursor (l : Fin 16) (c : Fin 128) (x : Role) (s : State) : State :=
  if ((s.lanes.get l).cfg.pid x).isNone then s
  else match (s.lanes.get l).entry with
    | some e => updLane l (Lane.setCursor c x (some e)) s
    | none =>
      { updLane l (Lane.setCursor c x (some (Config.freeCursor s.freeCount))) s with
        freeCount := s.freeCount + 1 }

/-- Component `x` of channel `c` follows the video (R121, R122). -/
def follow (c : Fin 128) (x : Role) (s : State) : State :=
  match s.channels.get c with
  | none => s
  | some ch =>
    let s := updChan c (Channel.follow x) s
    let s := match ch.roles.get x |>.source with
      | .lane l => freeLane l (updLane l (Lane.setCursor c x none) s)
      | _ => s
    let s := match ch.lane with
      | some l => freeLane l (followCursor l c x s)
      | none => s
    settleDeparting c s

/-! ## Emitting a packet (R114, R123 to R125) -/

/-- A port emits a packet; a payload-bearing one enters its continuity memory (R114). -/
def emit (port : Fin 8) (pk : Packet) (s : State) : State :=
  updPort port (fun q =>
    { q with
      out := pk :: q.out
      cont := if hasPayload pk && decide (pk.pid ≠ 0x1FFF#13) then contWrite pk.pid.toNat pk.cc q.cont
              else q.cont }) s

def updRole (c : Fin 128) (x : Role) (f : RoleState → RoleState) (s : State) : State :=
  updChan c (fun ch => { ch with roles := ch.roles.set x (f (ch.roles.get x)) }) s

/-- A network packet of a component on NETWORK: its counter rewritten, or a null packet for a duplicate
(R125). -/
def passNetwork (port : Fin 8) (c : Fin 128) (x : Role) (r : RoleState) (pk : Packet) (s : State) : State :=
  let out := networkCc r (hasPayload pk) pk.cc
  let s := updRole c x (fun _ => out.2) s
  match out.1 with
  | some cc => emit port { pk with cc := cc } s
  | none => emit port nullPacket s

/-- A lane packet that fills a slot (R104 to R107, R123, R125). -/
def fillSlot (port : Fin 8) (c : Fin 128) (x : Role) (v : Service) (ch : Channel) (r : RoleState)
    (pid : Pid) (pk : Packet) (s : State) : State :=
  let out := laneCc r (hasPayload pk) pk.cc
  let s := updRole c x (fun _ => out.2) s
  emit port { rewrite v.pcrInComponent (ch.offset.getD 0) pid pk with cc := out.1 } s

/-- A slot of a component on lane `l` (R123, R124, R80, R81). -/
def slot (port : Fin 8) (c : Fin 128) (x : Role) (l : Fin 16) (v : Service) (ch : Channel) (r : RoleState)
    (pid : Pid) (s : State) : State :=
  if ((s.lanes.get l).cfg.pid x).isNone then emit port nullPacket s
  else
    let got := Lane.take (nowMs s) c x (s.lanes.get l)
    let s := updLane l (fun _ => got.1) s
    match got.2 with
    | .filled pk eos =>
      let s := fillSlot port c x v ch r pid pk (freeLane l s)
      if eos && !isStanding s l then askReturnHeld .played false c s else s
    | .underrun => emit port nullPacket (updChan c (fun ch => { ch with underrunSeen := true }) s)
    | .noCursor => emit port nullPacket s

/-- A component-PID packet governed by channel `c` (R114, R121, R123, R125). -/
def govern (port : Fin 8) (c : Fin 128) (x : Role) (v : Service) (pk : Packet) (s : State) : State :=
  let s := match s.channels.get c with
    | some ch => if followsAt ch (ch.roles.get x) pk then follow c x s else s
    | none => s
  match s.channels.get c with
  | none => emit port pk s
  | some ch =>
    let r := ch.roles.get x
    match r.source with
    | .network => passNetwork port c x r pk s
    | .lane l => slot port c x l v ch r pk.pid s
    | .muted => emit port nullPacket s

/-- The role a PID plays among a service's components. -/
def Service.roleOf (v : Service) (pid : Pid) : Option Role :=
  Role.every.find? fun x => v.pid x == some pid

/-- The channel on a port whose service has this component PID, with the role (R114). -/
def governing (s : State) (port : Fin 8) (pid : Pid) : Option (Fin 128 × Role × Service) :=
  (List.finRange 128).findSome? fun c =>
    match s.channels.get c with
    | some ch =>
      if ch.port = port then
        match s.services.get ch.service with
        | some v => (v.roleOf pid).map fun x => (c, x, v)
        | none => none
      else none
    | none => none

/-- A port whose base input accepted a packet emits exactly one (R114). -/
def portPacket (port : Fin 8) (pk : Packet) (s : State) : State :=
  match governing s port pk.pid with
  | some (c, x, v) => govern port c x v pk s
  | none => emit port pk s

end Sys2Proof.Machine
end

