-- ==== Sys2Proof/Machine/Packets.lean ====
section
/-! DEFINITION. Streams arriving: the sync state of an input (R3, R66), dispatch of a network packet (R4, R105)
and a packet delivered to a lane (R67). -/

namespace Sys2Proof.Machine

/-! ## Sync (R3) -/

def syncByte : Byte := 0x47

/-- One byte while SEARCHING: SYNCED at the third sync byte in a row, each 188 bytes after the one before. -/
def SyncState.search (b : Byte) (q : SyncState) : SyncState :=
  let seen := b :: q.seen
  if b == syncByte && seen[188]? == some syncByte && seen[376]? == some syncByte then
    { synced := true, seen := [], misses := 0 }
  else { q with seen := seen.take 376 }

/-- Bytes while SEARCHING; the bytes of the delivery after the third sync byte are discarded (log 6). -/
def SyncState.searchAll : List Byte → SyncState → SyncState
  | [], q => q
  | b :: bs, q =>
    let r := q.search b
    if r.synced then r else searchAll bs r

/-- A packet whose first byte is not the sync byte, while SYNCED: three misses in a row send the input back to
SEARCHING. -/
def SyncState.miss (q : SyncState) : SyncState :=
  if 2 ≤ q.misses then SyncState.reset else { q with misses := q.misses + 1 }

/-- Bytes that are not an accepted packet reach an input (R3; log 6). -/
def SyncState.bytes (bs : List Byte) (q : SyncState) : SyncState :=
  if q.synced then (if bs.head? = some syncByte then q else q.miss) else q.searchAll bs

/-- An accepted packet sets the miss count back to 0. -/
def SyncState.accept (q : SyncState) : SyncState := { q with misses := 0 }

/-! ## Network packets (R4) -/

/-- The defined services of an input that meet a test, ascending. -/
def servicesWhere (s : State) (m : Fin 4) (f : Service → Bool) : List (Fin 64) :=
  (List.finRange 64).filter fun i => match s.services.get i with
    | some v => decide (v.input = m) && f v
    | none => false

/-- The packet reaches the timebase of every service whose PCR PID it is on (R4, R105). Services that share a PCR PID
take their time updates in ascending order, and their lane requests with them (R30, R91; log 42). -/
def dispatchPcr (m : Fin 4) (pk : Packet) (s : State) : State :=
  match pktPcr pk with
  | some c =>
    overList (servicesWhere s m fun v => decide (v.pcrPid = pk.pid))
      (fun i => pcrArrive i c (discontinuityOf pk)) s
  | none => s

/-- The packet reaches the Cue Parser for the service whose cue PID it is on (R4, R49). -/
def dispatchCue (m : Fin 4) (pk : Packet) (s : State) : State :=
  overList (servicesWhere s m fun v => decide (v.cuePid = some pk.pid)) (fun i => cuePacket i pk) s

/-- The packet is a beat of the service whose VIDEO PID it is on (R118). -/
def dispatchBeat (m : Fin 4) (pk : Packet) (s : State) : State :=
  match pktPts pk with
  | some p => overList (servicesWhere s m fun v => decide (v.video = pk.pid)) (fun i => beat i p) s
  | none => s

/-- Every port whose base input is this input, in ascending order (R114; log 8). -/
def dispatchPorts (m : Fin 4) (pk : Packet) (s : State) : State :=
  overFin 8 (fun port s => if (s.ports.get port).baseInput = m then portPacket port pk s else s) s

/-- The records that the packet left with every placement DONE are retired (R27, R37; log 29). -/
def settleRecords (m : Fin 4) (pk : Packet) (s : State) : State :=
  overList (servicesWhere s m fun v => (v.roleOf pk.pid).isSome) retireDone s

/-- A packet accepted on network input `m`. A packet with the transport error indicator reaches no timebase,
no Cue Parser and is no beat (R4, R118). -/
def networkPacket (m : Fin 4) (pk : Packet) (s : State) : State :=
  let s := { s with netIn := s.netIn.set m (s.netIn.get m).accept }
  let s := if pk.tei then s else dispatchBeat m pk (dispatchCue m pk (dispatchPcr m pk s))
  settleRecords m pk (dispatchPorts m pk s)

/-! ## Lane packets (R67) -/

/-- A packet accepted on lane input `l`. A STANDING lane that enters READY reports it to the Alert Unit
(R76, R151). -/
def lanePacket (l : Fin 16) (pk : Packet) (s : State) : State :=
  let s := { s with laneIn := s.laneIn.set l (s.laneIn.get l).accept }
  let standing := isStanding s l
  match classify standing (s.lanes.get l).cfg pk with
  | none => s
  | some cls =>
    let served := isServing s l
    let s := updLane l (Lane.offer (draws s l) standing cls pk) s
    if !served && isServing s l then laneServes l s else s

end Sys2Proof.Machine
end

