-- ==== Sys2Proof/Machine/Timers.lean ====
section
/-! DEFINITION. The part's timers running out. Each operation does nothing when its timer is stopped; otherwise
it first takes the clock to the time at which the timer is due (log 3). -/

namespace Sys2Proof.Machine

/-- R13. -/
def pcrAbsenceTimeout (i : Fin 64) (s : State) : State :=
  match s.services.get i with
  | some v => match v.tb.absence with
    | some t => expireTimebase i (reachMs (t + v.absenceTimeout) s)
    | none => s
  | none => s

/-- An OPENING lane times out: OPEN_TIMEOUT, LANE_FAULT, CLOSING; its placement ends with LANE_FAULT (R77,
R34). -/
def laneTimesOut (l : Fin 16) (s : State) : State :=
  let bound := (s.lanes.get l).bound
  let s := updLane l (fun ln =>
    Lane.enterClosing (nowMs s) { ln with lastFault := .openTimeout, bound := none }) s
  let s := raise (laneSource l) .laneFault s
  match bound with
  | some p => retireDone p.key.svc (finishPlacement .laneFault p s)
  | none => s

/-- R77. -/
def openTimeout (l : Fin 16) (s : State) : State :=
  let ln := s.lanes.get l
  match ln.state, ln.openStart with
  | .opening, some t => laneTimesOut l (reachMs (t + ln.cfg.openTimeout) s)
  | _, _ => s

/-- 40 ms of device time (R84). -/
def closingMs : Nat := 40

/-- R84: an AVAIL lane enters IDLE, a STANDING lane reopens. -/
def closingExpiry (l : Fin 16) (s : State) : State :=
  let ln := s.lanes.get l
  match ln.state, ln.closeStart with
  | .closing, some t =>
    let s := reachMs (t + closingMs) s
    updLane l (fun ln => if isStanding s l then ln.enterOpening (nowMs s) else ln.enterIdle) s
  | _, _ => s

/-- 500 ms of device time (R82, R121). -/
def starveMs : Nat := 500

/-- A lane starves: faulted, STARVED, LANE_FAULT, every reader's channel asked to return, every starvation
timer stopped; a STANDING lane stops serving (R82, R152). A faulted lane does not starve again. -/
def laneStarves (l : Fin 16) (s : State) : State :=
  let ln := s.lanes.get l
  let calm (ln : Lane) : Lane := { ln with readers := ln.readers.map fun r => { r with starve := none } }
  if ln.faulted then updLane l calm s
  else
    let s := updLane l (fun ln => calm { ln with faulted := true, lastFault := .starved }) s
    let s := raise (laneSource l) .laneFault s
    let s := overList (ln.readers.map fun r => r.chan) (askReturnHeld .laneFault false) s
    if isStanding s l then standingStarved l s else s

/-- R82. -/
def starvationExpiry (l : Fin 16) (c : Fin 128) (s : State) : State :=
  match (s.lanes.get l).reader c with
  | some r => match r.starve with
    | some t => laneStarves l (reachMs (t + starveMs) s)
    | none => s
  | none => s

/-- The follow timer reaches 500 ms (R121); the components switch at their next packets (log 21). -/
def followExpiry (c : Fin 128) (s : State) : State :=
  match s.channels.get c with
  | some ch => match ch.followStart, ch.followDue with
    | some t, false => updChan c (fun ch => { ch with followDue := true }) (reachMs (t + starveMs) s)
    | _, _ => s
  | none => s

/-- R136. -/
def debounceExpiry (i : Fin 6) (s : State) : State :=
  let a := s.ains.get i
  match a.timer with
  | some t => updAin i Ain.expire (reachMs (t + a.debounce) s)
  | none => s

/-- Hold and release times are in 100 ms steps (section 7.2). -/
def stepMs : Nat := 100

/-- R143. -/
def holdExpiry (a : Fin 16) (s : State) : State :=
  let r := s.alerts.get a
  match r.state, r.holdStart with
  | .qualifying, some t => enterActive a (reachMs (t + r.hold * stepMs) s)
  | _, _ => s

/-- R145. -/
def releaseExpiry (a : Fin 16) (s : State) : State :=
  let r := s.alerts.get a
  match r.state, r.releaseStart with
  | .releasing, some t => endAlert .idle a (reachMs (t + r.release * stepMs) s)
  | _, _ => s

/-- R161, R162. -/
def tallyPhaseExpiry (o : Fin 4) (s : State) : State :=
  match (s.tallies.get o).phaseDue with
  | some t =>
    let s := reachMs t s
    updTally o (phaseExpiry (nowMs s)) s
  | none => s

/-- R160, R161. -/
def tallyPulseEnd (o : Fin 4) (s : State) : State :=
  match (s.tallies.get o).pulses with
  | t :: _ => updTally o pulseEnd (reachMs t s)
  | [] => s

/-- R163. -/
def tallyEdgeExpiry (o : Fin 4) (s : State) : State :=
  match (s.tallies.get o).edge with
  | some e => updTally o edgeExpiry (reachMs e.due s)
  | none => s

/-- R171: at the end of a gap ATTN follows the set again. -/
def gapEnd (s : State) : State :=
  match s.gap with
  | some g => { reachCount (g + gapCounts) s with gap := none }
  | none => s

end Sys2Proof.Machine
end

