-- ==== Sys2Proof/Machine/Events.lean ====
section
/-! DEFINITION. The commands that are no requests: transactions, packets, bytes, contacts and timers. While
RESET_N is low they change nothing, but for the pins themselves (R184). -/

namespace Sys2Proof.Machine

/-- An event that the part takes only while RESET_N is high (R184). -/
def live (f : State → State) (s : State) : State := if s.resetLow then s else f s

/-- A pin takes a level. While RESET_N is low the input holds its full-reset values for the new pin (R136,
R137, R184). -/
def ainChange (i : Fin 6) (high : Bool) (s : State) : State :=
  if s.resetLow then { s with ains := s.ains.set i (Ain.reset high) }
  else updAin i (fun a => Ain.settle (nowMs s) a.raw { a with pin := high }) s

/-- A packet reaches a network input that has sync; without sync it is discarded (R3; log 6). -/
def takeNetworkPacket (m : Fin 4) (pk : Packet) (s : State) : State :=
  if (s.netIn.get m).synced then networkPacket m pk s else s

/-- A packet reaches a lane input that has sync (R66). -/
def takeLanePacket (l : Fin 16) (pk : Packet) (s : State) : State :=
  if (s.laneIn.get l).synced then lanePacket l pk s else s

def execRequestTransaction (bytes : List Byte) (s : State) : Host.Outcome State Fault Refusal :=
  .next (requestTransaction bytes s)

def execReadTransaction (clocks : Nat) (s : State) : Host.Outcome State Fault Refusal :=
  .next (readTransaction clocks s)

def execOtherTransferByte (bytes : List Byte) (s : State) : Host.Outcome State Fault Refusal :=
  .next (otherTransaction bytes s)

def execNetworkPacket (m : Fin 4) (pk : Packet) (s : State) : Host.Outcome State Fault Refusal :=
  .next (live (takeNetworkPacket m pk) s)

def execLanePacket (l : Fin 16) (pk : Packet) (s : State) : Host.Outcome State Fault Refusal :=
  .next (live (takeLanePacket l pk) s)

def execAinChange (i : Fin 6) (high : Bool) (s : State) : Host.Outcome State Fault Refusal :=
  .next (ainChange i high s)

def execDebounceExpiry (i : Fin 6) (s : State) : Host.Outcome State Fault Refusal :=
  .next (live (debounceExpiry i) s)

def execHoldTimerExpiry (a : Fin 16) (s : State) : Host.Outcome State Fault Refusal :=
  .next (live (holdExpiry a) s)

def execReleaseTimerExpiry (a : Fin 16) (s : State) : Host.Outcome State Fault Refusal :=
  .next (live (releaseExpiry a) s)

def execPcrAbsenceTimeout (i : Fin 64) (s : State) : Host.Outcome State Fault Refusal :=
  .next (live (pcrAbsenceTimeout i) s)

def execOpenTimeout (l : Fin 16) (s : State) : Host.Outcome State Fault Refusal :=
  .next (live (openTimeout l) s)

def execClosingTimerExpiry (l : Fin 16) (s : State) : Host.Outcome State Fault Refusal :=
  .next (live (closingExpiry l) s)

def execStarvation (l : Fin 16) (c : Fin 128) (s : State) : Host.Outcome State Fault Refusal :=
  .next (live (starvationExpiry l c) s)

def execFollowTimeout (c : Fin 128) (s : State) : Host.Outcome State Fault Refusal :=
  .next (live (followExpiry c) s)

def execTallyPhaseTimerExpiry (o : Fin 4) (s : State) : Host.Outcome State Fault Refusal :=
  .next (live (tallyPhaseExpiry o) s)

def execTallyPulseEnd (o : Fin 4) (s : State) : Host.Outcome State Fault Refusal :=
  .next (live (tallyPulseEnd o) s)

def execTallyPendingEdgeExpiry (o : Fin 4) (s : State) : Host.Outcome State Fault Refusal :=
  .next (live (tallyEdgeExpiry o) s)

def execAttnGapEnd (s : State) : Host.Outcome State Fault Refusal := .next (live gapEnd s)

def execNetworkInputSearchOrMiss (m : Fin 4) (bytes : List Byte) (s : State) :
    Host.Outcome State Fault Refusal :=
  .next (live (fun s => { s with netIn := s.netIn.set m ((s.netIn.get m).bytes bytes) }) s)

def execLaneInputSearchOrMiss (l : Fin 16) (bytes : List Byte) (s : State) :
    Host.Outcome State Fault Refusal :=
  .next (live (fun s => { s with laneIn := s.laneIn.set l ((s.laneIn.get l).bytes bytes) }) s)

end Sys2Proof.Machine
end

