-- ==== Sys2Proof/Machine/LaneRequests.lean ====
section
/-! DEFINITION. The requests on lanes (chapter 4): LANE_SET, LANE_GET, LANE_CLOSE and LANE_GUARD_SET. -/

namespace Sys2Proof.Machine

/-! ## Bodies (R189) -/

/-- The code byte is 0 when the match is absent (R188: unused positions). -/
def laneConfig (l : Fin 16) (c : LaneCfg) : List Byte :=
  [BitVec.ofNat 8 l.val] ++ pidBytes c.video ++ optPid c.audio1 ++ optPid c.audio2 ++ optPid c.audio3
    ++ pidBytes c.pcrPid ++ be 4 c.preroll
    ++ (match c.eos with
        | some (p, code) => pidBytes p ++ [code]
        | none => [0xFF, 0xFF, 0])
    ++ be 4 c.openTimeout

/-- Binding kind, service index, event id and placement index; positions the kind leaves unused are 0
(log 36). -/
def bindingBytes (s : State) (l : Fin 16) : List Byte :=
  match (s.lanes.get l).bound with
  | some p => [1, BitVec.ofNat 8 p.key.svc.val] ++ eventBytes p.key.event ++ [BitVec.ofNat 8 p.idx]
  | none => [if isStanding s l then 2 else 0, 0, 0, 0, 0, 0, 0]

/-- Bit i for alert i. -/
def namingBits (s : State) (l : Fin 16) : Nat :=
  bitsOf (fun n => (namingAlerts s l).any fun a => a.val == n) 16

def laneSnapshot (s : State) (l : Fin 16) : List Byte :=
  let ln := s.lanes.get l
  [ln.state.byte, boolByte (isStanding s l)] ++ bindingBytes s l ++ be 2 (namingBits s l)
    ++ [boolByte (isKeptOpen s l)] ++ optTime ln.lpts ++ be 2 ln.buffer.length
    ++ [boolByte ln.hold, BitVec.ofNat 8 ln.readers.length, ln.lastFault.byte] ++ be 4 s.groupGuard

/-! ## LANE_SET (R68) -/

/-- A carried field read by `f`, or the value after a full reset. -/
def pickOr {α β : Type} (given : Option α) (f : α → Option β) (dflt : β) : Option β :=
  match given with
  | some a => f a
  | none => some dflt

/-- An end-of-segment match: PID 0xFFFF is absent. -/
def eosArg (a : BitVec 16 × Byte) : Option (Option (Pid × Byte)) :=
  (optPidArg a.1).map fun p => p.map fun q => (q, a.2)

def clampOr (given : Option (BitVec 32)) (lo hi dflt : Nat) : Nat :=
  match given with
  | some v => clampNat lo hi v
  | none => dflt

/-- The whole configuration that a request gives, none when check 1 of R68 fails. -/
def laneCfgOf (a : LaneSetArgs) : Option LaneCfg := do
  let d := LaneCfg.reset
  let video ← pickOr a.pids.video pidArg d.video
  let audio1 ← pickOr a.pids.audio1 optPidArg d.audio1
  let audio2 ← pickOr a.pids.audio2 optPidArg d.audio2
  let audio3 ← pickOr a.pids.audio3 optPidArg d.audio3
  let pcrPid ← pickOr a.pcrPid pidArg d.pcrPid
  let eos ← pickOr a.eos eosArg d.eos
  return {
    video := video, audio1 := audio1, audio2 := audio2, audio3 := audio3, pcrPid := pcrPid
    preroll := clampOr a.preroll 64 2048 d.preroll, eos := eos
    openTimeout := clampOr a.openTimeout 100 10000 d.openTimeout }

def LaneCfg.components (c : LaneCfg) : List Pid := Role.every.filterMap c.pid

/-- Check 2 of R68. -/
def lanePlanOk (c : LaneCfg) : Bool :=
  noRepeat c.components && c.components.contains c.pcrPid
    && match c.eos with
      | some (p, _) => !c.components.contains p
      | none => true

/-- R68. -/
def laneSet (a : LaneSetArgs) (s : State) : Answer :=
  match fin? 16 a.lane, laneCfgOf a with
  | some l, some c =>
    if !lanePlanOk c then refuse .badArg s
    else if (s.lanes.get l).state ≠ .idle then refuse .state s
    else accept (laneConfig l c) (updLane l (fun ln => { ln with cfg := c, lastFault := .none }) s)
  | _, _ => refuse .badArg s

/-! ## The other requests -/

/-- A request on a lane: BAD_ARG outside 0-15. -/
def onLaneArg (b : Byte) (f : Fin 16 → State → Answer) (s : State) : Answer :=
  match fin? 16 b with
  | none => refuse .badArg s
  | some l => f l s

/-- R69. -/
def laneGet (b : Byte) : State → Answer :=
  onLaneArg b fun l s => accept (laneConfig l (s.lanes.get l).cfg ++ laneSnapshot s l) s

/-- R86, its sentences in order: a kept-open lane closes; IDLE or CLOSING changes nothing; any other lane is
refused (log 37). -/
def laneClose (b : Byte) : State → Answer :=
  onLaneArg b fun l s =>
    if isKeptOpen s l then accept [] (updLane l (Lane.enterClosing (nowMs s)) s)
    else match (s.lanes.get l).state with
      | .idle => accept [] s
      | .closing => accept [] s
      | _ => refuse .state s

/-- The E of the record whose placement a lane is bound to. -/
def boundTime (s : State) (l : Fin 16) : Option Time :=
  match (s.lanes.get l).bound with
  | some p => (findRec p.key s).bind fun r => r.e
  | none => none

/-- Some two placements bound in one group are closer than `g` (R92). -/
def guardBroken (s : State) (g : Nat) : Bool :=
  (List.finRange 16).any fun l => (List.finRange 16).any fun m =>
    decide (l.val < m.val) && decide (groupOf l = groupOf m) &&
      match boundTime s l, boundTime s m with
      | some a, some b => decide (absDiff a b < g)
      | _, _ => false

/-- R92. -/
def laneGuardSet (v : BitVec 32) (s : State) : Answer :=
  let g := clampNat 0 90000 v
  if guardBroken s g then refuse .state s
  else accept (be 4 g) { s with groupGuard := g }

/-! ## The commands -/

def execLaneSet (tag : Byte) (a : LaneSetArgs) (s : State) : Host.Outcome State Fault Refusal :=
  .next (serve tag kLaneSet (fun b => decide (parseLaneSet b = some a)) (laneSet a) s)

def execLaneGet (tag lane : Byte) (s : State) : Host.Outcome State Fault Refusal :=
  .next (serve tag kLaneGet (fun b => decide (parseIndex b = some lane)) (laneGet lane) s)

def execLaneClose (tag lane : Byte) (s : State) : Host.Outcome State Fault Refusal :=
  .next (serve tag kLaneClose (fun b => decide (parseIndex b = some lane)) (laneClose lane) s)

def execLaneGuardSet (tag : Byte) (v : BitVec 32) (s : State) : Host.Outcome State Fault Refusal :=
  .next (serve tag kLaneGuardSet (fun b => decide (parseGuard b = some v)) (laneGuardSet v) s)

end Sys2Proof.Machine
end

