-- ==== Sys2Proof/Machine/OutputRequests.lean ====
section
/-! DEFINITION. The requests on ports, channels and zones (chapter 6). -/

namespace Sys2Proof.Machine

/-! ## Ports (R113) -/

/-- The channels on a port, ascending. -/
def chansOfPort (s : State) (p : Fin 8) : List (Fin 128) := chansWhere s fun c => decide (c.port = p)

/-- A change of base input empties the continuity memory (R113). -/
def Port.set (input : Fin 4) (zone : Fin 8) (q : Port) : Port :=
  { q with baseInput := input, zone := zone, cont := if q.baseInput = input then q.cont else [] }

/-- R113. -/
def portSet (a : PortSetArgs) (s : State) : Answer :=
  match fin? 8 a.port, fin? 4 a.input, fin? 8 a.zone with
  | some p, some m, some z =>
    if !(chansOfPort s p).isEmpty then refuse .state s else accept [] (updPort p (Port.set m z) s)
  | _, _, _ => refuse .badArg s

/-- R113. -/
def portGet (b : Byte) (s : State) : Answer :=
  match fin? 8 b with
  | none => refuse .badArg s
  | some p =>
    let q := s.ports.get p
    let cs := chansOfPort s p
    accept ([BitVec.ofNat 8 q.baseInput.val, BitVec.ofNat 8 q.zone.val, BitVec.ofNat 8 cs.length]
      ++ cs.map (fun c => BitVec.ofNat 8 c.val) ++ [boolByte (s.zones.get q.zone).locked]) s

/-! ## Channels (R115, R116) -/

def channelEntry (c : Fin 128) (ch : Channel) : List Byte :=
  [BitVec.ofNat 8 c.val, BitVec.ofNat 8 ch.service.val, BitVec.ofNat 8 ch.port.val, boolByte ch.underrunSeen]

/-- Kind, service index, event id and placement or alert index (R189). -/
def holderBytes : Option Holder → List Byte
  | none => [0, 0, 0, 0, 0, 0, 0]
  | some (.placement p) => [1, BitVec.ofNat 8 p.key.svc.val] ++ eventBytes p.key.event ++ [BitVec.ofNat 8 p.idx]
  | some (.alert a) => [2, 0, 0, 0, 0, 0, BitVec.ofNat 8 a.val]

/-- NETWORK 0, AVAIL 1, ALERT 2: the kind of the video's source (section 6.3). -/
def Channel.sourceByte (ch : Channel) : Byte :=
  match ch.lane, ch.holder with
  | some _, some (.placement _) => 1
  | some _, some (.alert _) => 2
  | _, _ => 0

/-- NETWORK 0, SWITCHING 1, INSERT 2 (R117), over the roles of the service. -/
def Channel.stateByte (has : Role → Bool) (ch : Channel) : Byte :=
  if ch.isNetwork then 0
  else match ch.lane with
    | some l => if Role.every.all fun x => !has x || decide ((ch.roles.get x).source = .lane l) then 2 else 1
    | none => 1

def RoleState.bytes (r : RoleState) : List Byte :=
  [r.source.byte, boolByte r.switched, BitVec.ofNat 8 r.ccDelta.toNat,
    match r.lastCc with
    | some c => BitVec.ofNat 8 c.toNat
    | none => 0xFF]

/-- Pending target kind, lane, holder and cause. -/
def pendingBytes : Option PendingTarget → List Byte
  | none => [0, 0xFF] ++ holderBytes none ++ [0xFF]
  | some t =>
    let kind : Byte := match t.kind with
      | .asked => 1
      | .coverage => 2
    match t.target with
    | .network => [kind, 0xFF] ++ holderBytes none ++ optOutcome t.cause
    | .lane l h => [kind, BitVec.ofNat 8 l.val] ++ holderBytes (some h) ++ optOutcome t.cause

def channelLive (s : State) (c : Fin 128) (ch : Channel) : List Byte :=
  [ch.sourceByte] ++ optIndex ch.lane ++ holderBytes ch.holder
    ++ optIndex (ch.departing.map fun d => d.lane) ++ holderBytes (ch.departing.bind fun d => d.holder)
    ++ optOutcome (ch.departing.bind fun d => d.cause) ++ optTime ch.offset
    ++ [ch.stateByte (chanHas s c)] ++ optTime ch.switchPts ++ [boolByte ch.followStart.isSome]
    ++ ch.roles.toList.flatMap RoleState.bytes ++ pendingBytes ch.pending ++ optTime ch.ret
    ++ optTime ch.cueRet

/-- Another defined channel has the same service and port (R115, check 4). -/
def pairTaken (s : State) (c : Fin 128) (i : Fin 64) (p : Fin 8) : Bool :=
  (chansWhere s fun ch => decide (ch.service = i) && decide (ch.port = p)).any fun d => decide (d ≠ c)

/-- A new channel on a port of a covered zone that is not waiting gets the coverage target (R155). -/
def joinCoverage (c : Fin 128) (p : Fin 8) (s : State) : State :=
  let z := s.zones.get (s.ports.get p).zone
  match z.cover with
  | some a => if z.waiting then s else giveCoverage (.lane (s.alerts.get a).lane (.alert a)) c s
  | none => s

/-- R115 from its second check on. -/
def defineChannel (c : Fin 128) (i : Fin 64) (p : Fin 8) (s : State) : Answer :=
  match s.services.get i with
  | none => refuse .notFound s
  | some v =>
    if v.input ≠ (s.ports.get p).baseInput then refuse .badArg s
    else if pairTaken s c i p then refuse .exists_ s
    else if (match s.channels.get c with
        | some ch => !ch.atRest
        | none => false) then refuse .state s
    else
      let ch := Channel.fresh i p v (s.ports.get p).cont
      accept (channelEntry c ch) (joinCoverage c p { s with channels := s.channels.set c (some ch) })

/-- R115. -/
def chanSet (a : ChanSetArgs) (s : State) : Answer :=
  match fin? 128 a.channel, fin? 64 a.service, fin? 8 a.port with
  | some c, some i, some p => defineChannel c i p s
  | _, _, _ => refuse .badArg s

/-- A request on a defined channel: BAD_ARG outside 0-127, NOT_FOUND for an empty entry (R116). -/
def onChannel (b : Byte) (f : Fin 128 → Channel → State → Answer) (s : State) : Answer :=
  match fin? 128 b with
  | none => refuse .badArg s
  | some c => match s.channels.get c with
    | none => refuse .notFound s
    | some ch => f c ch s

/-- R116: the entry as it was, and then underrun-seen becomes no. -/
def chanGet (b : Byte) : State → Answer :=
  onChannel b fun c ch s =>
    accept (channelEntry c ch ++ channelLive s c ch)
      (updChan c (fun ch => { ch with underrunSeen := false }) s)

/-- R116. -/
def chanClear (b : Byte) : State → Answer :=
  onChannel b fun c ch s =>
    if ch.atRest then accept [] { s with channels := s.channels.set c none } else refuse .state s

/-! ## Zones (R131) -/

/-- A request on a zone: BAD_ARG outside 0-7. -/
def onZone (b : Byte) (f : Fin 8 → State → Answer) (s : State) : Answer :=
  match fin? 8 b with
  | none => refuse .badArg s
  | some z => f z s

/-- The flag is set, and every channel of the zone that draws for a placement is asked to return. -/
def lockZone (z : Fin 8) (s : State) : State :=
  overList (chansOfZone s z) (askReturnHeld .aborted false) (updZone z (fun q => { q with locked := true }) s)

def zoneLock (b : Byte) : State → Answer := onZone b fun z s => accept [] (lockZone z s)

def zoneUnlock (b : Byte) : State → Answer :=
  onZone b fun z s => accept [] (updZone z (fun q => { q with locked := false }) s)

def zoneGet (b : Byte) : State → Answer :=
  onZone b fun z s => accept ([boolByte (s.zones.get z).locked] ++ optIndex (s.zones.get z).cover) s

/-! ## The commands -/

def execPortSet (tag : Byte) (a : PortSetArgs) (s : State) : Host.Outcome State Fault Refusal :=
  .next (serve tag kPortSet (fun b => decide (parsePortSet b = some a)) (portSet a) s)

def execPortGet (tag port : Byte) (s : State) : Host.Outcome State Fault Refusal :=
  .next (serve tag kPortGet (fun b => decide (parseIndex b = some port)) (portGet port) s)

def execChanSet (tag : Byte) (a : ChanSetArgs) (s : State) : Host.Outcome State Fault Refusal :=
  .next (serve tag kChanSet (fun b => decide (parseChanSet b = some a)) (chanSet a) s)

def execChanGet (tag channel : Byte) (s : State) : Host.Outcome State Fault Refusal :=
  .next (serve tag kChanGet (fun b => decide (parseIndex b = some channel)) (chanGet channel) s)

def execChanClear (tag channel : Byte) (s : State) : Host.Outcome State Fault Refusal :=
  .next (serve tag kChanClear (fun b => decide (parseIndex b = some channel)) (chanClear channel) s)

def execZoneLock (tag zone : Byte) (s : State) : Host.Outcome State Fault Refusal :=
  .next (serve tag kZoneLock (fun b => decide (parseIndex b = some zone)) (zoneLock zone) s)

def execZoneUnlock (tag zone : Byte) (s : State) : Host.Outcome State Fault Refusal :=
  .next (serve tag kZoneUnlock (fun b => decide (parseIndex b = some zone)) (zoneUnlock zone) s)

def execZoneGet (tag zone : Byte) (s : State) : Host.Outcome State Fault Refusal :=
  .next (serve tag kZoneGet (fun b => decide (parseIndex b = some zone)) (zoneGet zone) s)

end Sys2Proof.Machine
end

