-- ==== Sys2Proof/Machine/Resets.lean ====
section
/-! DEFINITION. The two resets (section 10.5): the full reset, RESET_N and power-on, RESET_ALL, and
RESET_STREAMS. -/

namespace Sys2Proof.Machine

/-! ## The full reset (R184, R185) -/

/-- Every block at its full-reset values. What the reset does not own stays: the commands waiting, the alert
pins, the level of RESET_N and the model's own records of outputs and free values (log 14, log 32). -/
def fullReset (s : State) : State :=
  { State.reset with
    pending := s.pending
    resetLow := s.resetLow
    spiOut := s.spiOut
    ports := Table.ofFn fun p => { Port.reset p with out := (s.ports.get p).out }
    ains := s.ains.mapIdx fun _ (a : Ain) => Ain.reset a.pin
    freeCount := s.freeCount }

/-- RESET_N falls, or power comes on: the part is held in the full reset (R184). -/
def holdReset (s : State) : State := { fullReset s with resetLow := true }

/-- RESET_N rises: both slots are empty and device time starts from 0 (R184). -/
def riseReset (s : State) : State :=
  if s.resetLow then { fullReset s with resetLow := false } else s

/-- R185. -/
def resetAll (s : State) : Answer := accept [] (fullReset s)

/-! ## RESET_STREAMS (R186) -/

/-- Every ARMED or ACTIVE record of a service ends ABORTED and is retired, in table order (R48, R27). -/
def abortRecords (i : Fin 64) (s : State) : State :=
  overList (orderedKeys s i) (fun k s =>
    match findRec k s with
    | some r =>
      if r.state = .armed ∨ r.state = .active then
        let s := finishAll .aborted k s
        match findRec k s with
        | some r => retire r s
        | none => s
      else s
    | none => s) s

/-- A lane's part (R95): an AVAIL lane enters IDLE, a STANDING lane OPENING. -/
def Lane.resetStreams (now : Nat) (standing : Bool) (ln : Lane) : Lane :=
  let ln := { ln with bound := none, faulted := false }
  if standing then ln.enterOpening now else ln.enterIdle

/-- A timebase's part (R19). -/
def resetTimebases (s : State) : State :=
  { s with services := s.services.mapIdx fun _ (o : Option Service) => o.map fun v => { v with tb := Timebase.reset } }

/-- An alert record's part but for its new evaluation (R158). -/
def Alert.resetStreams (a : Alert) : Alert :=
  { a with
    state := if a.enabled then .idle else .disabled
    stamp := none, holdStart := none, releaseStart := none }

/-- The alert levels fall, the tallies stop, and every enabled record evaluates its condition in ascending
order (R158, R167). -/
def resetAlerts (s : State) : State :=
  let s := deliverLevels s.alerts { s with alerts := s.alerts.mapIdx fun _ (a : Alert) => a.resetStreams }
  let s := { s with tallies := s.tallies.mapIdx fun _ (t : Tally) => t.stop }
  overFin 16 alertAct s

/-- Every block's part, in one order (log 20). -/
def resetStreamsAll (s : State) : State :=
  let s := overFin 64 abortRecords s
  let s := { s with channels := s.channels.mapIdx fun _ (o : Option Channel) => o.map Channel.resetStreams }
  let s := { s with lanes := s.lanes.mapIdx fun l (ln : Lane) => ln.resetStreams (nowMs s) (isStanding s l) }
  let s := resetTimebases s
  let s := { s with zones := s.zones.mapIdx fun _ (z : Zone) => { z with cover := none, waiting := false } }
  resetAlerts s

/-- R186. -/
def resetStreams (s : State) : Answer := accept [] (resetStreamsAll s)

/-! ## The commands -/

def execResetNLow (s : State) : Host.Outcome State Fault Refusal := .next (holdReset s)

def execResetNRise (s : State) : Host.Outcome State Fault Refusal := .next (riseReset s)

def execPowerOn (s : State) : Host.Outcome State Fault Refusal := .next (holdReset s)

def execResetStreams (tag : Byte) (s : State) : Host.Outcome State Fault Refusal :=
  .next (serve tag kResetStreams List.isEmpty resetStreams s)

def execResetAll (tag : Byte) (s : State) : Host.Outcome State Fault Refusal :=
  .next (serve tag kResetAll List.isEmpty resetAll s)

end Sys2Proof.Machine
end

