-- ==== Sys2Proof/Machine/TallyRequests.lean ====
section
/-! DEFINITION. The requests on tallies (chapter 8): TALLY_SET and TALLY_GET. -/

namespace Sys2Proof.Machine

/-! ## Bodies (R189) -/

/-- A selector: 0xFE for ANY. -/
def selectorByte : Option Nat → Byte
  | some n => BitVec.ofNat 8 n
  | none => 0xFE

def tallyConfig (o : Fin 4) (t : Tally) : List Byte :=
  [BitVec.ofNat 8 o.val, t.kind.byte, selectorByte t.selector, t.mode.byte] ++ be 4 t.count ++ be 4 t.delay
    ++ be 4 t.onTime ++ be 4 t.period ++ [t.polarity.byte]

/-- The time left in 10 ms steps, rounded up; 0 when nothing runs (R165). -/
def tensLeft (now : Nat) (due : Option Nat) : Nat :=
  match due with
  | some t => (t - now + 9) / 10
  | none => 0

def edgeByte : Option Edge → Byte
  | none => 0xFF
  | some e => boolByte e.level

def tallyLive (now : Nat) (alerts : Table Alert 16) (t : Tally) : List Byte :=
  [t.phase.byte, BitVec.ofNat 8 t.started, boolByte t.output] ++ be 2 (tensLeft now t.phaseDue)
    ++ be 2 (tensLeft now (latestEnd t.pulses)) ++ [edgeByte t.edge]
    ++ be 2 (tensLeft now (t.edge.map fun e => e.due))
    ++ [if t.kind.isLevel then boolByte (sourceLevel t alerts) else 0xFF]

def tallyBody (o : Fin 4) (s : State) : List Byte :=
  tallyConfig o (s.tallies.get o) ++ tallyLive (nowMs s) s.alerts (s.tallies.get o)

/-! ## TALLY_SET (R164) -/

/-- Check 2 of R164: the selector that suits the kind. -/
def selectorArg (k : TallyKind) (b : Byte) : Option (Option Nat) :=
  let any : Option (Option Nat) := if b = 0xFE then some none else none
  match k with
  | .none => some none
  | .cueHeld => any
  | .spliceOut => any.or ((fin? 64 b).map fun i => some i.val)
  | .ret => any.or ((fin? 64 b).map fun i => some i.val)
  | _ => any.or ((fin? 16 b).map fun i => some i.val)

/-- Check 3 of R164: REPEAT and STEADY go with a level kind or NONE. -/
def modeSuits (k : TallyKind) (m : TallyMode) : Bool :=
  decide (m = .count) || k.isLevel || decide (k = TallyKind.none)

/-- The record as the request programs it, on a stopped output; none when a check of R164 fails. -/
def tallyOf (a : TallySetArgs) (t : Tally) : Option Tally := do
  let k ← TallyKind.ofByte a.kind
  let m ← TallyMode.ofByte a.mode
  let pol ← Polarity.ofByte a.polarity
  let sel ← selectorArg k a.selector
  if modeSuits k m then
    some { t.stop with
      kind := k, selector := sel, mode := m, count := clampNat 1 15 a.count, delay := clampNat 0 255 a.delay
      onTime := clampNat 1 255 a.onTime, period := clampNat 0 255 a.period, polarity := pol }
  else none

/-- R164. -/
def tallySet (a : TallySetArgs) (s : State) : Answer :=
  match fin? 4 a.output with
  | none => refuse .badArg s
  | some o => match tallyOf a (s.tallies.get o) with
    | none => refuse .badArg s
    | some t =>
      let s := updTally o (fun _ => tallyLook (nowMs s) s.alerts t) s
      accept (tallyBody o s) s

/-- R165. -/
def tallyGet (b : Byte) (s : State) : Answer :=
  match fin? 4 b with
  | none => refuse .badArg s
  | some o => accept (tallyBody o s) s

/-! ## The commands -/

def execTallySet (tag : Byte) (a : TallySetArgs) (s : State) : Host.Outcome State Fault Refusal :=
  .next (serve tag kTallySet (fun b => decide (parseTallySet b = some a)) (tallySet a) s)

def execTallyGet (tag output : Byte) (s : State) : Host.Outcome State Fault Refusal :=
  .next (serve tag kTallyGet (fun b => decide (parseIndex b = some output)) (tallyGet output) s)

end Sys2Proof.Machine
end

