-- ==== Sys2Proof/Machine/Dispatch.lean ====
section
/-! DEFINITION. The meaning of every command: one arm each. -/

namespace Sys2Proof.Machine

def exec (i : Instr) (s : State) : Host.Outcome State Fault Refusal :=
  match i with
  | .requestTransaction bytes => Sys2Proof.Machine.execRequestTransaction bytes s
  | .readTransaction clocks => Sys2Proof.Machine.execReadTransaction clocks s
  | .otherTransferByte bytes => Sys2Proof.Machine.execOtherTransferByte bytes s
  | .resetNLow => Sys2Proof.Machine.execResetNLow s
  | .resetNRise => Sys2Proof.Machine.execResetNRise s
  | .powerOn => Sys2Proof.Machine.execPowerOn s
  | .serviceSet tag a => Sys2Proof.Machine.execServiceSet tag a s
  | .serviceGet tag service => Sys2Proof.Machine.execServiceGet tag service s
  | .serviceClear tag service => Sys2Proof.Machine.execServiceClear tag service s
  | .templateSet tag a => Sys2Proof.Machine.execTemplateSet tag a s
  | .outcomeGet tag service => Sys2Proof.Machine.execOutcomeGet tag service s
  | .availCreate tag a => Sys2Proof.Machine.execAvailCreate tag a s
  | .availAmend tag a => Sys2Proof.Machine.execAvailAmend tag a s
  | .availCancel tag a => Sys2Proof.Machine.execAvailCancel tag a s
  | .availReturn tag a => Sys2Proof.Machine.execAvailReturn tag a s
  | .availConfirm tag a => Sys2Proof.Machine.execAvailConfirm tag a s
  | .availDecline tag a => Sys2Proof.Machine.execAvailDecline tag a s
  | .availGet tag a => Sys2Proof.Machine.execAvailGet tag a s
  | .availWalk tag a => Sys2Proof.Machine.execAvailWalk tag a s
  | .laneSet tag a => Sys2Proof.Machine.execLaneSet tag a s
  | .laneGet tag lane => Sys2Proof.Machine.execLaneGet tag lane s
  | .laneClose tag lane => Sys2Proof.Machine.execLaneClose tag lane s
  | .laneGuardSet tag guard => Sys2Proof.Machine.execLaneGuardSet tag guard s
  | .portSet tag a => Sys2Proof.Machine.execPortSet tag a s
  | .portGet tag port => Sys2Proof.Machine.execPortGet tag port s
  | .chanSet tag a => Sys2Proof.Machine.execChanSet tag a s
  | .chanGet tag channel => Sys2Proof.Machine.execChanGet tag channel s
  | .chanClear tag channel => Sys2Proof.Machine.execChanClear tag channel s
  | .zoneLock tag zone => Sys2Proof.Machine.execZoneLock tag zone s
  | .zoneUnlock tag zone => Sys2Proof.Machine.execZoneUnlock tag zone s
  | .zoneGet tag zone => Sys2Proof.Machine.execZoneGet tag zone s
  | .ainSet tag a => Sys2Proof.Machine.execAinSet tag a s
  | .ainGet tag input => Sys2Proof.Machine.execAinGet tag input s
  | .flagSet tag a => Sys2Proof.Machine.execFlagSet tag a s
  | .alertSet tag a => Sys2Proof.Machine.execAlertSet tag a s
  | .alertGet tag alert => Sys2Proof.Machine.execAlertGet tag alert s
  | .alertEnd tag alert => Sys2Proof.Machine.execAlertEnd tag alert s
  | .tallySet tag a => Sys2Proof.Machine.execTallySet tag a s
  | .tallyGet tag output => Sys2Proof.Machine.execTallyGet tag output s
  | .attnMask tag a => Sys2Proof.Machine.execAttnMask tag a s
  | .poll tag => Sys2Proof.Machine.execPoll tag s
  | .summary tag => Sys2Proof.Machine.execSummary tag s
  | .resetStreams tag => Sys2Proof.Machine.execResetStreams tag s
  | .resetAll tag => Sys2Proof.Machine.execResetAll tag s
  | .networkPacket input p => Sys2Proof.Machine.execNetworkPacket input p s
  | .lanePacket lane p => Sys2Proof.Machine.execLanePacket lane p s
  | .ainChange input high => Sys2Proof.Machine.execAinChange input high s
  | .debounceExpiry input => Sys2Proof.Machine.execDebounceExpiry input s
  | .holdTimerExpiry alert => Sys2Proof.Machine.execHoldTimerExpiry alert s
  | .releaseTimerExpiry alert => Sys2Proof.Machine.execReleaseTimerExpiry alert s
  | .pcrAbsenceTimeout service => Sys2Proof.Machine.execPcrAbsenceTimeout service s
  | .openTimeout lane => Sys2Proof.Machine.execOpenTimeout lane s
  | .closingTimerExpiry lane => Sys2Proof.Machine.execClosingTimerExpiry lane s
  | .starvation lane channel => Sys2Proof.Machine.execStarvation lane channel s
  | .followTimeout channel => Sys2Proof.Machine.execFollowTimeout channel s
  | .tallyPhaseTimerExpiry output => Sys2Proof.Machine.execTallyPhaseTimerExpiry output s
  | .tallyPulseEnd output => Sys2Proof.Machine.execTallyPulseEnd output s
  | .tallyPendingEdgeExpiry output => Sys2Proof.Machine.execTallyPendingEdgeExpiry output s
  | .attnGapEnd => Sys2Proof.Machine.execAttnGapEnd s
  | .networkInputSearchOrMiss input bytes => Sys2Proof.Machine.execNetworkInputSearchOrMiss input bytes s
  | .laneInputSearchOrMiss lane bytes => Sys2Proof.Machine.execLaneInputSearchOrMiss lane bytes s

end Sys2Proof.Machine
end

