-- ==== Sys2Proof/Machine/Step.lean ====
section
/-! DEFINITION. One step: the command at the front of the queue, or one count of the 27 MHz reference when the
queue is empty. -/

namespace Sys2Proof.Machine

/-- One count of the 27 MHz reference; device time does not count while RESET_N is low (R184; log 2). -/
def State.tick (s : State) : State := if s.resetLow then s else { s with refCount := s.refCount + 1 }

/-- The machine takes the command at the front of its queue; with an empty queue time passes (log 1, log 2). -/
def step (s : State) : Host.Outcome State Fault Refusal :=
  match s.pending with
  | [] => .next s.tick
  | c :: rest => exec c { s with pending := rest }

/-- The command that a word spells, put at the front of the queue. No word spells one (Decode.lean). -/
def State.withFetchWord (s : State) (nbits w : Nat) : State :=
  match decodeTableWord nbits w with
  | some c => { s with pending := c :: s.pending }
  | none => s

end Sys2Proof.Machine
end

