-- ==== Sys2Proof/WellFormed.lean ====
section
/-! DEFINITION. Which commands can be sent: what the transfer bytes, the body lengths of R189 and the size
of a transport packet allow. Every field of a request body of a fixed width has that width in its type. -/

namespace Sys2Proof

/-- A PCR's extension is 0-299 (00_scope.md, glossary "27 MHz count"). -/
def Packet.pcrOk (p : Packet) : Bool :=
  match p.af with
  | some (.holds a) => a.pcr.all fun c => decide (c.ext < 300)
  | _ => true

/-- A PES header stands only at a payload start (R104). -/
def Packet.pesOk (p : Packet) : Bool :=
  match p.payload with
  | some (.pes _ _) => p.pusi
  | _ => true

/-- Bytes of an adaptation field after its length byte: flags, PCR and the rest. -/
def Adaptation.size (a : Adaptation) : Nat :=
  1 + (if a.pcr.isSome then 6 else 0) + a.rest.length

/-- Bytes of an adaptation field, its length byte included. -/
def AdaptField.size : AdaptField → Nat
  | .empty => 1
  | .holds a => 1 + a.size

/-- What a packet's fields need of its 188 bytes (R3): 4 of header, the adaptation field, the payload. -/
def Packet.size (p : Packet) : Nat :=
  4 + (match p.af with | some a => a.size | none => 0)
    + (match p.payload with
       | some (.bytes b) => b.length
       | some (.pes _ r) => r.length
       | none => 0)

def Packet.sizeOk (p : Packet) : Bool := decide (p.size ≤ 188)

/-- A payload of plain bytes is not empty. -/
def Packet.payloadOk (p : Packet) : Bool :=
  match p.payload with
  | some (.bytes b) => !b.isEmpty
  | _ => true

/-- A PES header starts with 0x00, 0x00, 0x01 (log 5); a payload that starts so at a payload start is given
as a PES payload, not as plain bytes. -/
def Packet.plainOk (p : Packet) : Bool :=
  match p.payload with
  | some (.bytes (0#8 :: 0#8 :: 1#8 :: _)) => !p.pusi
  | _ => true

def Packet.wellFormed (p : Packet) : Bool :=
  p.pcrOk && p.pesOk && p.sizeOk && p.payloadOk && p.plainOk

/-- The body of `fixed` bytes and `n` entries of `each` bytes fits the 240 bytes of a frame (R178). -/
def bodyFits (fixed each n : Nat) : Bool := decide (fixed + each * n ≤ 240)

/-- The command is one that can reach the part. -/
def Instr.wellFormed : Instr → Bool
  | .requestTransaction _ => true
  | .readTransaction _ => true
  | .otherTransferByte b => b.head? != some 0xA5#8 && b.head? != some 0x5A#8
  | .resetNLow => true
  | .resetNRise => true
  | .powerOn => true
  | .serviceSet _ _ => true
  | .serviceGet _ _ => true
  | .serviceClear _ _ => true
  | .templateSet _ a => bodyFits 3 3 a.placements.length
  | .outcomeGet _ _ => true
  | .availCreate _ a => bodyFits 16 3 a.placements.length
  | .availAmend _ a => bodyFits 18 3 (a.placements.getD []).length
  | .availCancel _ _ => true
  | .availReturn _ _ => true
  | .availConfirm _ _ => true
  | .availDecline _ _ => true
  | .availGet _ _ => true
  | .availWalk _ _ => true
  | .laneSet _ _ => true
  | .laneGet _ _ => true
  | .laneClose _ _ => true
  | .laneGuardSet _ _ => true
  | .portSet _ _ => true
  | .portGet _ _ => true
  | .chanSet _ _ => true
  | .chanGet _ _ => true
  | .chanClear _ _ => true
  | .zoneLock _ _ => true
  | .zoneUnlock _ _ => true
  | .zoneGet _ _ => true
  | .ainSet _ _ => true
  | .ainGet _ _ => true
  | .flagSet _ _ => true
  | .alertSet _ a => bodyFits 15 2 a.terms.length
  | .alertGet _ _ => true
  | .alertEnd _ _ => true
  | .tallySet _ _ => true
  | .tallyGet _ _ => true
  | .attnMask _ _ => true
  | .poll _ => true
  | .summary _ => true
  | .resetStreams _ => true
  | .resetAll _ => true
  | .networkPacket _ p => p.wellFormed
  | .lanePacket _ p => p.wellFormed
  | .ainChange _ _ => true
  | .debounceExpiry _ => true
  | .holdTimerExpiry _ => true
  | .releaseTimerExpiry _ => true
  | .pcrAbsenceTimeout _ => true
  | .openTimeout _ => true
  | .closingTimerExpiry _ => true
  | .starvation _ _ => true
  | .followTimeout _ => true
  | .tallyPhaseTimerExpiry _ => true
  | .tallyPulseEnd _ => true
  | .tallyPendingEdgeExpiry _ => true
  | .attnGapEnd => true
  | .networkInputSearchOrMiss _ b => !b.isEmpty
  | .laneInputSearchOrMiss _ b => !b.isEmpty

end Sys2Proof
end

