-- ==== Sys2Proof/Safety.lean ====
section
/-! DEFINITION. What the statements are written with: when a request executes, the state an answered request
leaves, the bytes by which a request travels, and the invariants of the part. -/

namespace Sys2Proof.Machine

/-! ## Requests -/

/-- A request's tag, its kind code, and the test that a body reads as its fields (R180, R189). -/
structure RequestId where
  tag  : Byte
  kind : Byte
  same : List Byte → Bool

/-- The request a command is; none for a command that is no request. -/
def requestOf : Instr → Option RequestId
  | .serviceSet t a => some ⟨t, kServiceSet, fun b => decide (parseServiceSet b = some a)⟩
  | .serviceGet t i => some ⟨t, kServiceGet, fun b => decide (parseIndex b = some i)⟩
  | .serviceClear t i => some ⟨t, kServiceClear, fun b => decide (parseIndex b = some i)⟩
  | .templateSet t a => some ⟨t, kTemplateSet, fun b => decide (parseTemplateSet b = some a)⟩
  | .outcomeGet t i => some ⟨t, kOutcomeGet, fun b => decide (parseIndex b = some i)⟩
  | .availCreate t a => some ⟨t, kAvailCreate, fun b => decide (parseAvailCreate b = some a)⟩
  | .availAmend t a => some ⟨t, kAvailAmend, fun b => decide (parseAvailAmend b = some a)⟩
  | .availCancel t a => some ⟨t, kAvailCancel, fun b => decide (parseKey b = some a)⟩
  | .availReturn t a => some ⟨t, kAvailReturn, fun b => decide (parseKey b = some a)⟩
  | .availConfirm t a => some ⟨t, kAvailConfirm, fun b => decide (parseKey b = some a)⟩
  | .availDecline t a => some ⟨t, kAvailDecline, fun b => decide (parseKey b = some a)⟩
  | .availGet t a => some ⟨t, kAvailGet, fun b => decide (parseKey b = some a)⟩
  | .availWalk t a => some ⟨t, kAvailWalk, fun b => decide (parseWalk b = some a)⟩
  | .laneSet t a => some ⟨t, kLaneSet, fun b => decide (parseLaneSet b = some a)⟩
  | .laneGet t i => some ⟨t, kLaneGet, fun b => decide (parseIndex b = some i)⟩
  | .laneClose t i => some ⟨t, kLaneClose, fun b => decide (parseIndex b = some i)⟩
  | .laneGuardSet t g => some ⟨t, kLaneGuardSet, fun b => decide (parseGuard b = some g)⟩
  | .portSet t a => some ⟨t, kPortSet, fun b => decide (parsePortSet b = some a)⟩
  | .portGet t i => some ⟨t, kPortGet, fun b => decide (parseIndex b = some i)⟩
  | .chanSet t a => some ⟨t, kChanSet, fun b => decide (parseChanSet b = some a)⟩
  | .chanGet t i => some ⟨t, kChanGet, fun b => decide (parseIndex b = some i)⟩
  | .chanClear t i => some ⟨t, kChanClear, fun b => decide (parseIndex b = some i)⟩
  | .zoneLock t i => some ⟨t, kZoneLock, fun b => decide (parseIndex b = some i)⟩
  | .zoneUnlock t i => some ⟨t, kZoneUnlock, fun b => decide (parseIndex b = some i)⟩
  | .zoneGet t i => some ⟨t, kZoneGet, fun b => decide (parseIndex b = some i)⟩
  | .ainSet t a => some ⟨t, kAinSet, fun b => decide (parseAinSet b = some a)⟩
  | .ainGet t i => some ⟨t, kAinGet, fun b => decide (parseIndex b = some i)⟩
  | .flagSet t a => some ⟨t, kFlagSet, fun b => decide (parseFlagSet b = some a)⟩
  | .alertSet t a => some ⟨t, kAlertSet, fun b => decide (parseAlertSet b = some a)⟩
  | .alertGet t i => some ⟨t, kAlertGet, fun b => decide (parseIndex b = some i)⟩
  | .alertEnd t i => some ⟨t, kAlertEnd, fun b => decide (parseIndex b = some i)⟩
  | .tallySet t a => some ⟨t, kTallySet, fun b => decide (parseTallySet b = some a)⟩
  | .tallyGet t i => some ⟨t, kTallyGet, fun b => decide (parseIndex b = some i)⟩
  | .attnMask t a => some ⟨t, kAttnMask, fun b => decide (parseAttnMask b = some a)⟩
  | .poll t => some ⟨t, kPoll, List.isEmpty⟩
  | .summary t => some ⟨t, kSummary, List.isEmpty⟩
  | .resetStreams t => some ⟨t, kResetStreams, List.isEmpty⟩
  | .resetAll t => some ⟨t, kResetAll, List.isEmpty⟩
  | _ => none

/-- The request of a command executes: RESET_N is high, and the request slot is empty or holds it. -/
def canServe (c : Instr) (s : State) : Bool :=
  match requestOf c with
  | none => false
  | some q => !s.resetLow && match s.reqSlot with
    | none => true
    | some r => slotHolds r q.tag q.kind q.same

/-- A state with the response in the response slot and the request slot empty (R180). -/
def answered (tag kind : Byte) (code : Code) (body : List Byte) (s : State) : State :=
  { s with reqSlot := none, respSlot := .finished ⟨tag, kind, code, body⟩ }

/-- A command that applies the full reset in this state: RESET_N falling or low, power-on, RESET_N rising from
low, or RESET_ALL as it executes (R184, R185). -/
def isFullReset (c : Instr) (s : State) : Prop :=
  c = .resetNLow ∨ c = .powerOn ∨ (c = .resetNRise ∧ s.resetLow = true)
    ∨ ∃ tag, c = .resetAll tag ∧ canServe c s = true

/-- The commands that are events of streams, pins and timers: no request, no transaction, no reset. -/
def isEvent : Instr → Bool
  | .requestTransaction _ => false
  | .readTransaction _ => false
  | .otherTransferByte _ => false
  | .resetNLow => false
  | .resetNRise => false
  | .powerOn => false
  | c => (requestOf c).isNone

/-- The channel after a return has been asked of whatever placement it draws for: a pending target stays, and a
channel that draws for none is left alone (R119). -/
def Channel.withAskedReturn (cause : Outcome) (ch : Channel) : Channel :=
  if ch.drawsFor.isSome = true ∧ ch.pending = none then
    { ch with pending := some ⟨.network, .asked, some cause⟩ }
  else ch

/-- The reference count once device time has reached `ms` (log 3). -/
def countAt (ms : Nat) (s : State) : Nat := if ms ≤ s.refCount / 27000 then s.refCount else ms * 27000

/-! ## Request bodies as they travel (R188 to R191) -/

/-- A 2-byte mask with bit k set for each true entry k. -/
def maskBytes (bits : List Bool) : List Byte := be 2 (bitsOf (fun k => bits.getD k false) 16)

/-- A field that may be omitted: 0 in its place when it is. -/
def optBytes {w : Nat} (k : Nat) (v : Option (BitVec w)) : List Byte := be k (v.getD 0).toNat

def placementListBytes (ps : List PlacementArg) : List Byte :=
  BitVec.ofNat 8 ps.length :: ps.flatMap fun p => [p.zones, p.lane, p.keepOpen]

def keyBytes (a : KeyArgs) : List Byte := a.service :: be 4 a.event.toNat

def serviceSetBody (a : ServiceSetArgs) : List Byte :=
  a.service :: maskBytes [a.input.isSome, a.pids.video.isSome, a.pids.audio1.isSome, a.pids.audio2.isSome,
      a.pids.audio3.isSome, a.pcrPid.isSome, a.cuePid.isSome, a.policy.isSome, a.holdDefault.isSome,
      a.armLead.isSome, a.immLead.isSome, a.spliceAdjust.isSome, a.spliceWindow.isSome,
      a.pcrTolerance.isSome, a.absenceTimeout.isSome]
    ++ optBytes 1 a.input ++ optBytes 2 a.pids.video ++ optBytes 2 a.pids.audio1 ++ optBytes 2 a.pids.audio2
    ++ optBytes 2 a.pids.audio3 ++ optBytes 2 a.pcrPid ++ optBytes 2 a.cuePid ++ optBytes 1 a.policy
    ++ optBytes 1 a.holdDefault ++ optBytes 4 a.armLead ++ optBytes 4 a.immLead ++ optBytes 4 a.spliceAdjust
    ++ optBytes 4 a.spliceWindow ++ optBytes 4 a.pcrTolerance ++ optBytes 4 a.absenceTimeout

def availAmendBody (a : AvailAmendArgs) : List Byte :=
  a.service :: be 4 a.event.toNat ++ maskBytes [a.time.isSome, a.duration.isSome, a.placements.isSome]
    ++ [(a.time.getD (0, 0)).1] ++ be 5 (a.time.getD (0, 0)).2.toNat ++ optBytes 4 a.duration
    ++ placementListBytes (a.placements.getD [])

def laneSetBody (a : LaneSetArgs) : List Byte :=
  a.lane :: maskBytes [a.pids.video.isSome, a.pids.audio1.isSome, a.pids.audio2.isSome, a.pids.audio3.isSome,
      a.pcrPid.isSome, a.preroll.isSome, a.eos.isSome, a.openTimeout.isSome]
    ++ optBytes 2 a.pids.video ++ optBytes 2 a.pids.audio1 ++ optBytes 2 a.pids.audio2
    ++ optBytes 2 a.pids.audio3 ++ optBytes 2 a.pcrPid ++ optBytes 4 a.preroll
    ++ be 2 (a.eos.getD (0, 0)).1.toNat ++ [(a.eos.getD (0, 0)).2] ++ optBytes 4 a.openTimeout

def alertSetBody (a : AlertSetArgs) : List Byte :=
  [a.alert, a.enabled, a.priority, BitVec.ofNat 8 a.terms.length] ++ a.terms.flatMap (fun t => [t.1, t.2])
    ++ [a.combine] ++ be 4 a.hold.toNat ++ be 4 a.release.toNat ++ [a.zones, a.lane]

def tallySetBody (a : TallySetArgs) : List Byte :=
  [a.output, a.kind, a.selector, a.mode] ++ be 4 a.count.toNat ++ be 4 a.delay.toNat ++ be 4 a.onTime.toNat
    ++ be 4 a.period.toNat ++ [a.polarity]

/-- The body of a request; empty for a command that is no request. -/
def bodyOf : Instr → List Byte
  | .serviceSet _ a => serviceSetBody a
  | .serviceGet _ i => [i]
  | .serviceClear _ i => [i]
  | .templateSet _ a => [a.service, a.breakClass] ++ placementListBytes a.placements
  | .outcomeGet _ i => [i]
  | .availCreate _ a =>
    a.service :: be 4 a.event.toNat ++ [a.timeKind] ++ be 5 a.s.toNat ++ be 4 a.duration.toNat
      ++ placementListBytes a.placements
  | .availAmend _ a => availAmendBody a
  | .availCancel _ a => keyBytes a
  | .availReturn _ a => keyBytes a
  | .availConfirm _ a => keyBytes a
  | .availDecline _ a => keyBytes a
  | .availGet _ a => keyBytes a
  | .availWalk _ a => [a.filter, a.restart]
  | .laneSet _ a => laneSetBody a
  | .laneGet _ i => [i]
  | .laneClose _ i => [i]
  | .laneGuardSet _ g => be 4 g.toNat
  | .portSet _ a => [a.port, a.input, a.zone]
  | .portGet _ i => [i]
  | .chanSet _ a => [a.channel, a.service, a.port]
  | .chanGet _ i => [i]
  | .chanClear _ i => [i]
  | .zoneLock _ i => [i]
  | .zoneUnlock _ i => [i]
  | .zoneGet _ i => [i]
  | .ainSet _ a => [a.input, a.polarity] ++ be 4 a.debounce.toNat
  | .ainGet _ i => [i]
  | .flagSet _ a => [a.flag, a.level]
  | .alertSet _ a => alertSetBody a
  | .alertGet _ i => [i]
  | .alertEnd _ i => [i]
  | .tallySet _ a => tallySetBody a
  | .tallyGet _ i => [i]
  | .attnMask _ a => be 2 a.mask.toNat ++ [a.mode]
  | _ => []

/-- The bytes of a request frame after its transfer byte (R187). -/
def requestFrame (tag kind : Byte) (body : List Byte) : List Byte :=
  let head := tag :: kind :: BitVec.ofNat 8 body.length :: body
  head ++ be 2 (crc16 head).toNat

/-- The bytes of fields that stand in this order, each given by its width in bytes and its value and sent most significant
byte first (R187, R189). -/
def laidOut (fields : List (Nat × Nat)) : List Byte := fields.flatMap fun f => be f.1 f.2

/-! ## Cue sections as they travel (R192) -/

def CueKind.byte : CueKind → Byte
  | .insert => 0x01 | .cancel => 0x02 | .ret => 0x03

/-- The section of a cue. -/
def cueSection (c : Cue) : List Byte :=
  let flags : Nat := (if c.time.isSome then 128 else 0) + (if c.duration.isSome then 64 else 0) + c.cls.val
  let time : List Byte := match c.time with
    | some t => be 5 t.toNat
    | none => []
  let duration : List Byte := match c.duration with
    | some d => be 4 d.toNat
    | none => []
  let length : Nat := 10 + time.length + duration.length
  let head := [0xC7, BitVec.ofNat 8 length, c.kind.byte] ++ be 4 c.event.toNat ++ [BitVec.ofNat 8 flags] ++ time
    ++ duration
  head ++ be 4 (crc32 head).toNat

/-! ## Invariants -/

/-- T, the reference and the absence timer stand exactly while the timebase is not UNLOCKED, and the
in-tolerance count suits the state (section 1.4, R10 to R13). -/
def Timebase.ok (b : Timebase) : Prop :=
  match b.state with
  | .unlocked => b = Timebase.reset
  | .acquiring => b.count ≤ 3 ∧ b.ref.isSome = true ∧ b.t.isSome = true ∧ b.absence.isSome = true
  | .locked => b.count = 4 ∧ b.ref.isSome = true ∧ b.t.isSome = true ∧ b.absence.isSome = true

def TimebasesOk (s : State) : Prop := ∀ i v, s.services.get i = some v → v.tb.ok

/-- A lane's buffer is bounded, HOLD is high at 4 032 packets, a lane in IDLE or CLOSING is empty with HOLD
high, and only an ON_AIR lane has readers (R72, R73, R79, R84). -/
def Lane.ok (ln : Lane) : Prop :=
  ln.buffer.length ≤ 4096
    ∧ (4032 ≤ ln.buffer.length → ln.hold = true)
    ∧ (ln.state = .idle ∨ ln.state = .closing →
        ln.buffer = [] ∧ ln.hold = true ∧ ln.entry = none ∧ ln.lpts = none)
    ∧ (ln.state ≠ .onAir → ln.readers = [])

def LanesOk (s : State) : Prop := ∀ l, (s.lanes.get l).ok

/-- Every continuity memory is in its canonical form: PIDs strictly rising (section 6.1). -/
def MemoriesOk (s : State) : Prop := ∀ p, contWf (s.ports.get p).cont = true

/-- Each source holds only the kinds it may hold (section 9.1). -/
def AttentionOk (s : State) : Prop := ∀ src, s.attn.get src &&& ~~~(allowedCauses src) = 0#9

/-- A gap runs only in PULSE mode and only while the set is non-empty (R171). -/
def GapOk (s : State) : Prop := s.gap.isSome = true → s.lineMode = .pulse ∧ attnNonEmpty s = true

/-- The bounds of R20: at most 512 records, at most 32 of one service, no key twice. -/
def TableOk (s : State) : Prop :=
  s.avails.length ≤ 512 ∧ (∀ i, recCount s i ≤ 32) ∧ (s.avails.map fun r => r.key).Nodup

/-- Every defined channel names a defined service on its port's base input, and no two defined channels have
the same service and port (R115). -/
def ChannelsOk (s : State) : Prop :=
  (∀ c ch, s.channels.get c = some ch →
      ∃ v, s.services.get ch.service = some v ∧ v.input = (s.ports.get ch.port).baseInput)
    ∧ ∀ c d ch dh, s.channels.get c = some ch → s.channels.get d = some dh →
        ch.service = dh.service → ch.port = dh.port → c = d

/-- On one input a component or cue PID belongs to one service (R4, R5). -/
def PidsOk (s : State) : Prop :=
  (∀ i v, s.services.get i = some v → pidsApart v = true)
    ∧ ∀ i j v w, i ≠ j → s.services.get i = some v → s.services.get j = some w → v.input = w.input →
        clearOf v w = true

/-- An alert record's stamp and timers stand exactly in the states that have them (section 7.2, R143, R145). -/
def Alert.ok (a : Alert) : Prop :=
  a.stamp.isSome = a.capable ∧ a.enabled = decide (a.state ≠ .disabled)
    ∧ a.holdStart.isSome = decide (a.state = .qualifying)
    ∧ a.releaseStart.isSome = decide (a.state = .releasing)

def AlertsOk (s : State) : Prop := ∀ a, (s.alerts.get a).ok

/-- Every covering-capable record has a place of its own in the order of activations, before the next one to be given
(R144). -/
def ActivationsOk (s : State) : Prop :=
  (∀ a, (s.alerts.get a).capable = true → (s.alerts.get a).seq < s.activations)
    ∧ ∀ a b, a ≠ b → (s.alerts.get a).capable = true → (s.alerts.get b).capable = true →
        (s.alerts.get a).seq ≠ (s.alerts.get b).seq

/-- Every zone is covered by the record that R148 names, or by none. -/
def CoverageOk (s : State) : Prop := ∀ z, (s.zones.get z).cover = bestCover s z

/-- One placement of an ARMED record whose E has become `new`, `q` as it stood, is tested again from `s` to `t`: it leaves
itself out of the guard, and where it fails its lane is handed back, it waits and asks at once (R42, R85, R88, R91). -/
def Retested (p : PRef) (new : Time) (q : Placement) (s t : State) : Prop :=
  let now := s.refCount / 27000
  let passes (l : Fin 16) : Prop := ∀ (m : Fin 16) (o : PRef) (other : Avail) (e : Time), m.val / 4 = l.val / 4 →
    (s.lanes.get m).bound = some o → o ≠ p → findRec o.key s = some other → other.e = some e →
    s.groupGuard ≤ absDiff new e
  let placed (q' : Placement) (u : State) : State :=
    { u with avails := u.avails.map fun x =>
        if x.key = p.key then { x with placements := x.placements.set p.idx q' } else x }
  (q.state ≠ .laned ∨ q.bound = none → t = s)
  ∧ ∀ l, q.state = .laned → q.bound = some l →
    let ln := s.lanes.get l
    let given : Lane :=
      if ln.bound ≠ some p then ln
      else if ln.state = .opening ∨ ln.state = .ready then
        { ln with
          state := .closing, bound := none, buffer := [], entry := none, lpts := none, readers := []
          hold := true, openStart := none, closeStart := some now }
      else { ln with bound := none }
    let back : State :=
      placed { q with state := .waiting, bound := none } { s with lanes := s.lanes.set l given }
    (passes l → t = s)
    ∧ (¬ passes l →
      (allocate back p q.lane new = none → t = back)
      ∧ ∀ m, allocate back p q.lane new = some m →
        let lm := back.lanes.get m
        let granted : Lane :=
          if lm.state = .idle then
            { lm with
              state := .opening, bound := some p, buffer := [], entry := none, lpts := none, pcrSeen := false
              faulted := false, hold := false, readers := [], openStart := some now, closeStart := none }
          else { lm with bound := some p }
        t = placed { q with state := .laned, bound := some m } { back with lanes := back.lanes.set m granted })

/-- Coverage is evaluated over a set of zones from `s` to `t`, whose alert records are already `t`'s (R148). A zone of the
set whose covering alert changes becomes, with its channels, what `coverChange` makes of it, and every cause of that change
is raised; every other zone stays, with its channels. -/
def Recovered (zs : ZoneSet) (s t : State) : Prop :=
  ∀ z,
    let new := bestCover t z
    let changed := coverChange new z { s with alerts := t.alerts }
    let changes : Prop := zoneIn zs z = true ∧ new ≠ (s.zones.get z).cover
    (changes → t.zones.get z = changed.zones.get z
      ∧ (∀ src k, (changed.attn.get src).getLsbD k = true → (t.attn.get src).getLsbD k = true)
      ∧ ∀ c ch, s.channels.get c = some ch → chanZone s ch = z → t.channels.get c = changed.channels.get c)
    ∧ (¬ changes → t.zones.get z = s.zones.get z
      ∧ ∀ c ch, s.channels.get c = some ch → chanZone s ch = z → t.channels.get c = some ch)

end Sys2Proof.Machine
end

