-- ==== Sys2Proof/Certificates/Slice0/Obligations.lean ====
section
/-! DEFINITION. The statements for the provers. -/

section

open Sys2Proof Sys2Proof.Machine

/-! ## The queue and time -/

/-- A step takes the command at the front of the queue and runs it on the rest of the state. On an empty queue one
count of the reference passes, none while RESET_N is low: that is the model's choice (log 2). -/
def Obligations.StepRunsFrontCommand : Prop :=
  (∀ (s : State) (c : Instr) (rest : List Instr), s.pending = c :: rest →
    step s = exec c { s with pending := rest })
  ∧ (∀ s : State, s.pending = [] →
    step s = .next (if s.resetLow then s else { s with refCount := s.refCount + 1 }))

/-! ## The request port (chapter 10) -/

/-- A READ transaction shifts out 0x00, the response frame of the slot and zeros, and changes nothing else. -/
def Obligations.ReadShiftsOutResponseFrame : Prop :=
  ∀ (n : Nat) (s : State), s.resetLow = false →
    let frame (tag kind code : Byte) (body : List Byte) : List Byte :=
      let head := [tag, kind, code, BitVec.ofNat 8 body.length] ++ body
      head ++ [BitVec.ofNat 8 ((crc16 head).toNat / 256), BitVec.ofNat 8 (crc16 head).toNat]
    let stored : List Byte := match s.respSlot with
      | .empty => frame 0 0 0 []
      | .pending tag kind => frame tag kind 1 []
      | .finished r => frame r.tag r.kind r.code.byte r.body
    ∃ bytes, exec (.readTransaction n) s = .next { s with spiOut := bytes } ∧ bytes.length = n + 1
      ∧ ∀ j, j ≤ n → bytes[j]? = some ((0x00#8 :: stored).getD j 0x00#8)

/-- A frame that passes the checks of R178 enters the empty request slot, whatever bytes follow its check, and the
response held before is discarded; one that fails a check reaches no block and answers BAD_FRAME with tag and kind
echoed. A REQUEST that finds the slot occupied, and a transaction with another transfer byte, change nothing but the
bytes shifted out (R177 to R179). The kinds are the codes of section 10.4, and a body has the length that its kind's
layout in R189 and R190 gives for the count it carries (R178, R188). -/
def Obligations.RequestFramesJudged : Prop :=
  (∀ (tag kind : Byte) (body extra : List Byte) (s : State),
    s.resetLow = false → s.reqSlot = none → body.length ≤ 240 → kindKnown kind = true →
    bodyLengthOk kind body = true →
    let bytes := requestFrame tag kind body ++ extra
    exec (.requestTransaction bytes) s =
      .next { s with
        reqSlot := some ⟨tag, kind, body⟩, respSlot := .pending tag kind
        spiOut := List.replicate (bytes.length + 1) 0x00#8 })
  ∧ (∀ (bytes : List Byte) (s : State), s.resetLow = false → s.reqSlot = none →
    (let kind := bytes.getD 1 0
     let len := (bytes.getD 2 0).toNat
     let body := (bytes.drop 3).take len
     bytes.length < 3 ∨ 240 < len ∨ bytes.length < 3 + len + 2
       ∨ (bytes.drop (3 + len)).take 2 ≠ be 2 (crc16 (bytes.take (3 + len))).toNat
       ∨ kindKnown kind = false ∨ bodyLengthOk kind body = false) →
    exec (.requestTransaction bytes) s =
      .next { s with
        respSlot := .finished ⟨bytes.getD 0 0, bytes.getD 1 0, .badFrame, []⟩
        spiOut := List.replicate (bytes.length + 1) 0x00#8 })
  ∧ (∀ (bytes : List Byte) (s : State), s.resetLow = false →
    (∀ r, s.reqSlot = some r →
      exec (.requestTransaction bytes) s =
        .next { s with spiOut := List.replicate (bytes.length + 1) 0x00#8 })
    ∧ exec (.otherTransferByte bytes) s = .next { s with spiOut := List.replicate bytes.length 0x00#8 })
  ∧ (let fixed : List (Nat × Nat) :=
      [(0x01, 42), (0x02, 1), (0x03, 1), (0x05, 1), (0x12, 5), (0x13, 5), (0x14, 5), (0x15, 5), (0x16, 5), (0x17, 2),
        (0x20, 24), (0x21, 1), (0x22, 1), (0x23, 4), (0x30, 3), (0x31, 1), (0x32, 3), (0x33, 1), (0x34, 1), (0x35, 1),
        (0x36, 1), (0x37, 1), (0x40, 6), (0x41, 1), (0x42, 2), (0x44, 1), (0x45, 1), (0x50, 21), (0x51, 1), (0x60, 3),
        (0x61, 0), (0x62, 0), (0x70, 0), (0x71, 0)]
    let bytesEachAndPlaceOfCount : List (Nat × Nat × Nat × Nat) :=
      [(0x04, 3, 3, 2), (0x10, 16, 3, 15), (0x11, 18, 3, 17), (0x43, 15, 2, 3)]
    (∀ kind : Byte, kindKnown kind = true ↔
      (∃ n, (kind.toNat, n) ∈ fixed) ∨ ∃ n, (kind.toNat, n) ∈ bytesEachAndPlaceOfCount)
    ∧ ∀ (kind : Byte) (body : List Byte), bodyLengthOk kind body = true ↔
      (kind.toNat, body.length) ∈ fixed
      ∨ ∃ bytes each place, (kind.toNat, bytes, each, place) ∈ bytesEachAndPlaceOfCount
          ∧ body.length = bytes + each * (body.getD place 0).toNat)

/-- Every request that can be sent crosses the link: its frame enters the slot, and then that request and no
other one executes. -/
def Obligations.LinkCarriesEveryRequest : Prop :=
  ∀ (c : Instr) (q : RequestId) (s : State), requestOf c = some q → c.wellFormed = true →
    s.resetLow = false → s.reqSlot = none →
    ∃ t, exec (.requestTransaction (requestFrame q.tag q.kind (bodyOf c))) s = .next t
      ∧ t.reqSlot = some ⟨q.tag, q.kind, bodyOf c⟩ ∧ t.respSlot = .pending q.tag q.kind
      ∧ canServe c t = true ∧ ∀ d, canServe d t = true → d = c

/-- A request that executes is answered in the response slot and empties the request slot; with any code but OK the
body is empty and nothing else has changed (R180, R182). A request that meets another one in the slot, or RESET_N
low, changes nothing; the first of these is the model's choice (log 1). -/
def Obligations.RequestsAnswerOrAreDropped : Prop :=
  (∀ (c : Instr) (q : RequestId) (s : State), requestOf c = some q → canServe c s = true →
    ∃ code body t, exec c s = .next (answered q.tag q.kind code body t) ∧ t.pending = s.pending
      ∧ t.resetLow = s.resetLow ∧ t.spiOut = s.spiOut ∧ (code ≠ .ok → body = [] ∧ t = s))
  ∧ (∀ (c : Instr) (q : RequestId) (s : State), requestOf c = some q → canServe c s = false →
    exec c s = .next s)

/-! ## Resets -/

/-- While RESET_N is low nothing but the reset commands and the pins changes the part; after the rise, and after
RESET_ALL, device time is 0 and the slots are as R184 and R185 give them. That a transaction under RESET_N low leaves
the bytes shifted out before it (log 27), and that the finer count of the reference starts at 0 with device time (log
34), are the model's readings. -/
def Obligations.ResetLineHoldsThePart : Prop :=
  (∀ (c : Instr) (s : State), s.resetLow = true →
    (c ≠ .resetNLow → c ≠ .resetNRise → c ≠ .powerOn → (∀ i high, c ≠ .ainChange i high) →
      exec c s = .next s)
    ∧ ∀ i high,
        let held : Ain :=
          { pin := high, polarity := .lowActive, debounce := 20, level := false
            timer := if high then none else some 0 }
        exec (.ainChange i high) s = .next { s with ains := s.ains.set i held })
  ∧ (∀ s : State,
    (∃ t, exec .resetNLow s = .next t ∧ t.resetLow = true ∧ t.reqSlot = none ∧ t.respSlot = .empty
      ∧ t.refCount = 0 ∧ t.pending = s.pending)
    ∧ (∃ t, exec .powerOn s = .next t ∧ t.resetLow = true ∧ t.reqSlot = none ∧ t.respSlot = .empty
      ∧ t.refCount = 0 ∧ t.pending = s.pending)
    ∧ (s.resetLow = true → ∃ t, exec .resetNRise s = .next t ∧ t.resetLow = false ∧ t.reqSlot = none
      ∧ t.respSlot = .empty ∧ t.refCount = 0 ∧ t.pending = s.pending)
    ∧ (s.resetLow = false → exec .resetNRise s = .next s)
    ∧ ∀ tag, canServe (.resetAll tag) s = true → ∃ t, exec (.resetAll tag) s = .next t
      ∧ t.resetLow = false ∧ t.reqSlot = none ∧ t.respSlot = .finished ⟨tag, kResetAll, .ok, []⟩
      ∧ t.refCount = 0 ∧ t.pending = s.pending)

/-- R175. -/
def Obligations.FullResetAttention : Prop :=
  ∀ (c : Instr) (s : State), isFullReset c s → ∃ t, exec c s = .next t
    ∧ (∀ src, t.attn.get src = 0#9) ∧ t.mask = 0x1FF#9 ∧ t.lineMode = .level ∧ t.gap = none
    ∧ attnLine t = false ∧ ∀ src k, attnLine (raise src k t) = true

/-- Every block after a full reset: R18, R47, R94, R134, R157 and R166 with the values of sections 4.1, 4.2, 6.1, 7.1,
7.2 and 8.1. -/
def Obligations.FullResetValues : Prop :=
  (∀ (c : Instr) (s : State), isFullReset c s → ∃ t, exec c s = .next t
    ∧ (∀ i, t.services.get i = none) ∧ (∀ m, (t.netIn.get m).synced = false)
    ∧ ∀ m f, servicesWhere t m f = [])
  ∧ (∀ (c : Instr) (s : State), isFullReset c s → ∃ t, exec c s = .next t
    ∧ t.avails = [] ∧ t.created = 0 ∧ t.walk = none ∧ ∀ src, t.attn.get src = 0#9)
  ∧ (∀ (c : Instr) (s : State), isFullReset c s → ∃ t, exec c s = .next t ∧ t.groupGuard = 27000
    ∧ (∀ l, (t.laneIn.get l).synced = false) ∧ (∀ src, t.attn.get src = 0#9)
    ∧ ∀ l, isStanding t l = false
      ∧ (t.lanes.get l).cfg =
        { video := 0x0100, audio1 := some 0x0101, audio2 := none, audio3 := none, pcrPid := 0x0100
          preroll := 512, eos := none, openTimeout := 3000 }
      ∧ (t.lanes.get l).state = .idle ∧ (t.lanes.get l).bound = none ∧ (t.lanes.get l).entry = none
      ∧ (t.lanes.get l).lpts = none ∧ (t.lanes.get l).pcrSeen = false ∧ (t.lanes.get l).buffer = []
      ∧ (t.lanes.get l).readers = [] ∧ (t.lanes.get l).faulted = false ∧ (t.lanes.get l).hold = true
      ∧ (t.lanes.get l).openStart = none ∧ (t.lanes.get l).closeStart = none
      ∧ (t.lanes.get l).lastFault = .none)
  ∧ (∀ (c : Instr) (s : State), isFullReset c s → ∃ t, exec c s = .next t
    ∧ (∀ ch, t.channels.get ch = none) ∧ (∀ z, (t.zones.get z).locked = false)
    ∧ ∀ p, (t.ports.get p).baseInput.val = p.val / 2 ∧ (t.ports.get p).zone = p
      ∧ (∀ pid, contRead (t.ports.get p).cont pid = none) ∧ ∀ pid, governing t p pid = none)
  ∧ (∀ (c : Instr) (s : State), isFullReset c s → ∃ t, exec c s = .next t
    ∧ (∀ i, (t.ains.get i).pin = (s.ains.get i).pin ∧ (t.ains.get i).polarity = .lowActive
      ∧ (t.ains.get i).debounce = 20 ∧ (t.ains.get i).level = false
      ∧ (t.ains.get i).timer.isSome = (t.ains.get i).raw ∧ (t.ains.get i).raw = !(s.ains.get i).pin)
    ∧ (∀ j, t.rflags.get j = false)
    ∧ (∀ z, (t.zones.get z).cover = none ∧ (t.zones.get z).waiting = false)
    ∧ (∀ src, t.attn.get src = 0#9) ∧ (∀ l, isStanding t l = false)
    ∧ (∀ k a, alertLevel k (t.alerts.get a) = false)
    ∧ ∀ a, t.alerts.get a =
        { enabled := false, priority := 0, terms := [(.ain 0, true)], combine := .any, hold := 0
          release := 0, zones := 0xFF, lane := a, state := .disabled, stamp := none, seq := 0
          holdStart := none, releaseStart := none })
  ∧ (∀ (c : Instr) (s : State), isFullReset c s → ∃ t, exec c s = .next t
    ∧ (∀ k a, alertLevel k (t.alerts.get a) = false)
    ∧ ∀ o, (t.tallies.get o).kind = .none ∧ (t.tallies.get o).selector = none
      ∧ (t.tallies.get o).mode = .count ∧ (t.tallies.get o).count = 1 ∧ (t.tallies.get o).delay = 0
      ∧ (t.tallies.get o).onTime = 10 ∧ (t.tallies.get o).period = 20
      ∧ (t.tallies.get o).polarity = .highActive ∧ (t.tallies.get o).phase = .idle
      ∧ (t.tallies.get o).started = 0 ∧ (t.tallies.get o).phaseDue = none ∧ (t.tallies.get o).pulses = []
      ∧ (t.tallies.get o).edge = none ∧ (t.tallies.get o).output = false ∧ (t.tallies.get o).pin = false
      ∧ (∀ k i, k ≠ .none → (deliverTrigger k i t).tallies.get o = t.tallies.get o)
      ∧ ∀ old, (deliverLevels old t).tallies.get o = t.tallies.get o)

/-- RESET_STREAMS answers OK and keeps what R19, R48, R66, R95, R135, R137, R138, R158, R167, R176 and R186
keep; records before ARMED stay with every field, and no other record stays. The ARMED or ACTIVE record of a service that
stands last in table order is its last outcome, ABORTED in every placement that was not DONE, with OUTCOME raised; a
service without such a record keeps its last outcome (R15, R19, R27, R48). -/
def Obligations.ResetStreamsKeepsConfiguration : Prop :=
  ∀ (tag : Byte) (s : State), canServe (.resetStreams tag) s = true → TableOk s →
    ∃ t, exec (.resetStreams tag) s = .next t ∧ t.reqSlot = none
      ∧ t.respSlot = .finished ⟨tag, kResetStreams, .ok, []⟩
      ∧ t.refCount = s.refCount ∧ t.netIn = s.netIn ∧ t.laneIn = s.laneIn ∧ t.walk = s.walk
      ∧ t.groupGuard = s.groupGuard ∧ t.ports = s.ports ∧ t.ains = s.ains ∧ t.rflags = s.rflags
      ∧ t.mask = s.mask ∧ t.lineMode = s.lineMode ∧ t.gap = s.gap ∧ t.pending = s.pending
      ∧ (∀ src k, (s.attn.get src).getLsbD k = true → (t.attn.get src).getLsbD k = true)
      ∧ (∀ i, (t.services.get i).map (fun v => { v with last := none }) =
          (s.services.get i).map fun v => { v with tb := Timebase.reset, last := none })
      ∧ t.avails = s.avails.filter (fun r => decide (r.state ≠ .armed ∧ r.state ≠ .active))
      ∧ (∀ i v, s.services.get i = some v →
          let live (r : Avail) : Prop := r ∈ s.avails ∧ r.key.svc = i ∧ (r.state = .armed ∨ r.state = .active)
          let lastThen : Option LastOutcome := (t.services.get i).bind fun w => w.last
          ((∀ r, ¬ live r) → lastThen = v.last)
          ∧ ∀ r, live r → (∀ q, live q → q = r ∨ lexLt (q.sortKey s) (r.sortKey s) = true) →
            lastThen = some
              { event := r.key.event, origin := r.origin
                placements := r.placements.filterMap fun q =>
                  (if q.state = .done then q.outcome else some .aborted).map fun o => (o, q.part)
                pOut := r.pOut, spliceErr := r.spliceErr }
            ∧ (s.mask.getLsbD 1 = true → (t.attn.get (svcSource i)).getLsbD 1 = true))
      ∧ (∀ l, (t.lanes.get l).cfg = (s.lanes.get l).cfg
          ∧ (t.lanes.get l).lastFault = (s.lanes.get l).lastFault)
      ∧ (∀ c, (t.channels.get c).map (fun ch => (ch.service, ch.port, ch.underrunSeen)) =
          (s.channels.get c).map fun ch => (ch.service, ch.port, ch.underrunSeen))
      ∧ (∀ z, (t.zones.get z).locked = (s.zones.get z).locked)
      ∧ (∀ a, (t.alerts.get a).enabled = (s.alerts.get a).enabled
          ∧ (t.alerts.get a).priority = (s.alerts.get a).priority
          ∧ (t.alerts.get a).terms = (s.alerts.get a).terms
          ∧ (t.alerts.get a).combine = (s.alerts.get a).combine
          ∧ (t.alerts.get a).hold = (s.alerts.get a).hold
          ∧ (t.alerts.get a).release = (s.alerts.get a).release
          ∧ (t.alerts.get a).zones = (s.alerts.get a).zones ∧ (t.alerts.get a).lane = (s.alerts.get a).lane)
      ∧ ∀ o, (t.tallies.get o).kind = (s.tallies.get o).kind
          ∧ (t.tallies.get o).selector = (s.tallies.get o).selector
          ∧ (t.tallies.get o).mode = (s.tallies.get o).mode
          ∧ (t.tallies.get o).count = (s.tallies.get o).count
          ∧ (t.tallies.get o).delay = (s.tallies.get o).delay
          ∧ (t.tallies.get o).onTime = (s.tallies.get o).onTime
          ∧ (t.tallies.get o).period = (s.tallies.get o).period
          ∧ (t.tallies.get o).polarity = (s.tallies.get o).polarity

/-- RESET_STREAMS sends every channel to NETWORK at once, every AVAIL lane to IDLE and every STANDING lane to OPENING,
emptied (R95, R135). Every channel stays, and each role keeps its last output CC: its next network packet with payload
goes on from it and recomputes cc_delta, as on a switch to NETWORK (R125, R135). Every enabled alert record starts from
IDLE and evaluates its condition, a record with hold 0 activating with a new stamp and ALERT_ACTIVE, in ascending order;
the zones that these cover wait, with ALERT_LANE_NOT_READY (R158). Every tally is stopped, and then follows the levels
that rise (R167); the phase timer in a COUNT train's last pulse (log 15) and in REPEAT with a period of 0 (log 47) is
the model's. -/
def Obligations.ResetStreamsReleasesStreams : Prop :=
  ∀ (tag : Byte) (s : State), canServe (.resetStreams tag) s = true →
    ∃ t, exec (.resetStreams tag) s = .next t
      ∧ (∀ l, (t.lanes.get l).bound = none ∧ (t.lanes.get l).buffer = [] ∧ (t.lanes.get l).readers = []
          ∧ (t.lanes.get l).entry = none ∧ (t.lanes.get l).lpts = none ∧ (t.lanes.get l).faulted = false
          ∧ (t.lanes.get l).closeStart = none
          ∧ (isStanding s l = false → (t.lanes.get l).state = .idle ∧ (t.lanes.get l).hold = true
              ∧ (t.lanes.get l).openStart = none)
          ∧ (isStanding s l = true → (t.lanes.get l).state = .opening ∧ (t.lanes.get l).hold = false
              ∧ (t.lanes.get l).pcrSeen = false ∧ (t.lanes.get l).openStart = some (nowMs s)))
      ∧ (∀ c ch, t.channels.get c = some ch →
          ch.isNetwork = true ∧ ch.lane = none ∧ ch.holder = none ∧ ch.departing = none ∧ ch.offset = none
            ∧ ch.switchPts = none ∧ ch.ret = none ∧ ch.cueRet = none ∧ ch.followStart = none
            ∧ ch.pending = none ∧ (∀ x, (ch.roles.get x).switched = true))
      ∧ (∀ c old, s.channels.get c = some old → ∃ ch, t.channels.get c = some ch ∧ ∀ x,
          let r := old.roles.get x
          let r' := ch.roles.get x
          r'.source = .network ∧ r'.lastCc = r.lastCc ∧ r'.ccDelta = r.ccDelta
          ∧ ∀ last own, r.lastCc = some last →
            networkCc r' false own = (some last, r')
            ∧ networkCc r' true own =
              (some (last + 1), { r' with lastCc := some (last + 1), ccDelta := last + 1 - own, rejoin := false }))
      ∧ (∀ a,
          let r := s.alerts.get a
          let r' := t.alerts.get a
          let now := s.refCount / 27000
          let calm : Alert := { r with stamp := none, holdStart := none, releaseStart := none }
          (r.enabled = false → r' = { calm with state := .disabled })
          ∧ (r.enabled = true → condition s r = false → r' = { calm with state := .idle })
          ∧ (r.enabled = true → condition s r = true →
            (0 < r.hold → r' = { calm with state := .qualifying, holdStart := some now })
            ∧ (r.hold = 0 →
              r' = { calm with state := .active, stamp := some (BitVec.ofNat 48 now), seq := r'.seq }
              ∧ (s.mask.getLsbD 6 = true → (t.attn.get (alertSource a)).getLsbD 6 = true)
              ∧ ∀ b, b.val < a.val → (t.alerts.get b).state = .active → (t.alerts.get b).seq < r'.seq)))
      ∧ (∀ z, (t.zones.get z).cover = bestCover t z
          ∧ (t.zones.get z).waiting = (t.zones.get z).cover.isSome
          ∧ ∀ a, (t.zones.get z).cover = some a → s.mask.getLsbD 8 = true →
            (t.attn.get (alertSource a)).getLsbD 8 = true)
      ∧ ∀ o,
          let now := s.refCount / 27000
          let stopped : Tally :=
            { s.tallies.get o with
              phase := .idle, started := 0, phaseDue := none, pulses := [], edge := none, steady := false }
          let rises : Prop := stopped.kind.isLevel = true ∧ sourceLevel stopped t.alerts = true
          (¬ rises → t.tallies.get o = stopped)
          ∧ (rises →
            (stopped.mode ≠ .steady → stopped.delay ≠ 0 → t.tallies.get o =
              { stopped with phase := .delay, phaseDue := some (now + stopped.delay * 10) })
            ∧ (stopped.mode = .count → stopped.delay = 0 →
              let n := if stopped.period = 0 then stopped.count else 1
              t.tallies.get o = { stopped with
                phase := .pulsing, started := n, pulses := [now + stopped.onTime * 10]
                phaseDue := some (if n < stopped.count then now + stopped.period * 10
                  else now + stopped.onTime * 10) })
            ∧ (stopped.mode = .repeating → stopped.delay = 0 → t.tallies.get o = { stopped with
                phase := .pulsing, pulses := [now + stopped.onTime * 10]
                phaseDue := if stopped.period = 0 then none else some (now + stopped.period * 10) })
            ∧ (stopped.mode = .steady → stopped.delay ≠ 0 →
              t.tallies.get o = { stopped with edge := some ⟨true, now + stopped.delay * 10⟩ })
            ∧ (stopped.mode = .steady → stopped.delay = 0 → t.tallies.get o = { stopped with steady := true }))

/-! ## Services and timebases (chapter 1) -/

/-- The signed difference of PCR counts, its range, its half-point, and its use for the deviation (R2, R11); the
wrap-aware order, distance and absolute difference of stream times (R1); a beat judged against one splice-out target
by its distance (R98). -/
def Obligations.TimeArithmetic : Prop :=
  ((∀ a b : Nat, a < 2576980377600 → b < 2576980377600 →
    let d : Int := ((a : Int) - (b : Int)) % 2576980377600
    signedDiff a b = (if d < 1288490188800 then d else d - 2576980377600)
      ∧ -1288490188800 ≤ signedDiff a b ∧ signedDiff a b ≤ 1288490188799
      ∧ (d = 1288490188800 → signedDiff a b = -1288490188800))
    ∧ ∀ (ref : PcrRef) (count now : Nat), ref.arrival ≤ now →
      deviation ref count now = signedDiff count ((ref.count + (now - ref.arrival)) % 2576980377600))
  ∧ (∀ e t : Time,
    let d : Int := ((e.toNat : Int) - (t.toNat : Int)) % 8589934592
    ((Machine.dist e t : Nat) : Int) = d
      ∧ (isAhead e t = true ↔ d < 4294967296) ∧ (isBehind e t = true ↔ 4294967296 ≤ d)
      ∧ (atOrAfter e t = true ↔ d < 4294967296) ∧ isAhead e e = true
      ∧ absDiff e t = min (Machine.dist e t) (Machine.dist t e) ∧ absDiff e t = absDiff t e
      ∧ absDiff e t ≤ 4294967296)
  ∧ (∀ (window : Nat) (p e : Time),
    let x : Int := ((p.toNat : Int) - (e.toNat : Int)) % 8589934592
    (judge window p e = .wait ↔ 4294967296 ≤ x)
      ∧ (judge window p e = .spliceOut ↔ x < 4294967296 ∧ x ≤ window)
      ∧ (judge window p e = .miss ↔ x < 4294967296 ∧ (window : Int) < x))

/-- SERVICE_SET that gives input, VIDEO PID and PCR PID alone creates the service with the creation values of
section 1.3 and the timebase of R5. The three checks of R5: exactly which fields fail the first (R183 for a value that
names nothing), and BAD_ARG for a creation that fails any of them; one that passes all three defines the entry. -/
def Obligations.ServiceSetCreatesWithDefaults : Prop :=
  (∀ (tag : Byte) (i : Fin 64) (m : Fin 4) (video pcr : BitVec 16) (s : State),
    let a : ServiceSetArgs :=
      { service := BitVec.ofNat 8 i.val, input := some (BitVec.ofNat 8 m.val)
        pids := ⟨some video, none, none, none⟩, pcrPid := some pcr, cuePid := none, policy := none
        holdDefault := none, armLead := none, immLead := none, spliceAdjust := none, spliceWindow := none
        pcrTolerance := none, absenceTimeout := none }
    let v : Service :=
      { input := m, video := BitVec.ofNat 13 video.toNat, audio1 := none, audio2 := none, audio3 := none
        pcrPid := BitVec.ofNat 13 pcr.toNat, cuePid := none, policy := .auto, holdDefault := .drop
        armLead := 360000, immLead := 180000, spliceAdjust := 0, spliceWindow := 9009, pcrTolerance := 2700
        absenceTimeout := 150, templates := Table.replicate 4 []
        tb := { state := .unlocked, count := 0, ref := none, t := none, absence := none }
        lastT := 0, last := none }
    canServe (.serviceSet tag a) s = true → s.services.get i = none →
    video.toNat ≤ 0x1FFE → pcr.toNat ≤ 0x1FFE →
    (∀ j w, s.services.get j = some w → w.input = m →
      v.video ∉ w.ownPids ∧ v.video ≠ w.pcrPid ∧ v.pcrPid ∉ w.ownPids) →
    exec (.serviceSet tag a) s =
      .next (answered tag kServiceSet .ok (serviceEntry i v)
        { s with services := s.services.set i (some v) }))
  ∧ (∀ (old : Option Service) (a : ServiceSetArgs),
    let badPid (x : Option (BitVec 16)) : Prop := ∃ p, x = some p ∧ 0x1FFE < p.toNat
    let badOptPid (x : Option (BitVec 16)) : Prop := ∃ p, x = some p ∧ 0x1FFE < p.toNat ∧ p ≠ 0xFFFF
    mergeService old a = none ↔
      (old = none ∧ (a.input = none ∨ a.pids.video = none ∨ a.pcrPid = none))
        ∨ (∃ m, a.input = some m ∧ 4 ≤ m.toNat) ∨ badPid a.pids.video ∨ badPid a.pcrPid
        ∨ badOptPid a.pids.audio1 ∨ badOptPid a.pids.audio2 ∨ badOptPid a.pids.audio3 ∨ badOptPid a.cuePid
        ∨ (∃ x, a.policy = some x ∧ 3 ≤ x.toNat) ∨ ∃ x, a.holdDefault = some x ∧ 2 ≤ x.toNat)
  ∧ (∀ (s : State) (i : Fin 64) (v : Service),
    (pidsApart v = true ↔ v.ownPids.Nodup ∧ v.cuePid ≠ some v.pcrPid)
      ∧ (pidsFree s i v = true ↔ ∀ j w, j ≠ i → s.services.get j = some w → w.input = v.input →
          (∀ p ∈ v.ownPids, p ∉ w.ownPids ∧ p ≠ w.pcrPid) ∧ v.pcrPid ∉ w.ownPids))
  ∧ (∀ (tag : Byte) (a : ServiceSetArgs) (s : State), canServe (.serviceSet tag a) s = true →
    let refused : Prop := exec (.serviceSet tag a) s = .next (answered tag kServiceSet .badArg [] s)
    (64 ≤ a.service.toNat → refused)
    ∧ ∀ i : Fin 64, a.service.toNat = i.val → s.services.get i = none →
      (mergeService none a = none → refused)
      ∧ ∀ v, mergeService none a = some v →
        (pidsApart v = false ∨ pidsFree s i v = false → refused)
        ∧ (pidsApart v = true → pidsFree s i v = true →
          exec (.serviceSet tag a) s =
            .next (answered tag kServiceSet .ok (serviceEntry i v)
              { s with services := s.services.set i (some v) })))

/-- SERVICE_SET on a defined entry writes the fields it carries and keeps those it omits; the checks of R5 come first. A
change of input, component PIDs or PCR PID is refused while a channel names the service or it has an ARMED or ACTIVE
record, a change of the splice window while it has such a record. A new input or PCR PID unlocks the timebase, with
TIMEBASE_LOST if it was LOCKED; a new absence timeout is measured from the last PCR and may expire at the request.
Stored tuning values are the nearest of their ranges (R6, R13, R17, R183). -/
def Obligations.ServiceSetAmends : Prop :=
  (∀ (tag : Byte) (i : Fin 64) (policy : CuePolicy) (v : Service) (s : State),
    let a : ServiceSetArgs :=
      { service := BitVec.ofNat 8 i.val, input := none, pids := ⟨none, none, none, none⟩, pcrPid := none
        cuePid := none, policy := some policy.byte, holdDefault := none, armLead := none, immLead := none
        spliceAdjust := none, spliceWindow := none, pcrTolerance := none, absenceTimeout := none }
    canServe (.serviceSet tag a) s = true → PidsOk s → s.services.get i = some v →
    exec (.serviceSet tag a) s =
      .next (answered tag kServiceSet .ok (serviceEntry i { v with policy := policy })
        { s with services := s.services.set i (some { v with policy := policy }) }))
  ∧ (∀ (tag : Byte) (a : ServiceSetArgs) (i : Fin 64) (old new : Service) (s : State),
    canServe (.serviceSet tag a) s = true → a.service.toNat = i.val → s.services.get i = some old →
    mergeService (some old) a = some new →
    (old.input ≠ new.input ∨ old.pcrPid ≠ new.pcrPid ∨ ∃ x, old.pid x ≠ new.pid x) →
    ((∃ c ch, s.channels.get c = some ch ∧ ch.service = i)
      ∨ ∃ r ∈ s.avails, r.key.svc = i ∧ (r.state = .armed ∨ r.state = .active)) →
    exec (.serviceSet tag a) s =
      .next (answered tag kServiceSet
        (if pidsApart new && pidsFree s i new then .state else .badArg) [] s))
  ∧ (∀ (old : Option Service) (a : ServiceSetArgs) (v : Service), mergeService old a = some v →
    let within (lo hi : Int) (x : BitVec 32) : Int := max lo (min hi x.toInt)
    (∀ x, a.armLead = some x → (v.armLead : Int) = within 45000 5400000 x)
      ∧ (∀ x, a.immLead = some x → (v.immLead : Int) = within 9000 900000 x)
      ∧ (∀ x, a.spliceAdjust = some x → v.spliceAdjust = within (-9000) 9000 x)
      ∧ (∀ x, a.spliceWindow = some x → (v.spliceWindow : Int) = within 0 90000 x)
      ∧ (∀ x, a.pcrTolerance = some x → (v.pcrTolerance : Int) = within 27 270000 x)
      ∧ ∀ x, a.absenceTimeout = some x → (v.absenceTimeout : Int) = within 40 1000 x)
  ∧ (∀ (old new : Service) (a : ServiceSetArgs), mergeService (some old) a = some new →
    (a.input = none → new.input = old.input) ∧ (∀ x, a.input = some x → new.input.val = x.toNat)
      ∧ (a.pids.video = none → new.video = old.video)
      ∧ (∀ x, a.pids.video = some x → new.video.toNat = x.toNat)
      ∧ (∀ r, r ≠ .video → (a.pids.get r = none → new.pid r = old.pid r)
          ∧ ∀ x, a.pids.get r = some x →
              new.pid r = if x = 0xFFFF then none else some (BitVec.ofNat 13 x.toNat))
      ∧ (a.pcrPid = none → new.pcrPid = old.pcrPid) ∧ (∀ x, a.pcrPid = some x → new.pcrPid.toNat = x.toNat)
      ∧ (a.cuePid = none → new.cuePid = old.cuePid)
      ∧ (∀ x, a.cuePid = some x → new.cuePid = if x = 0xFFFF then none else some (BitVec.ofNat 13 x.toNat))
      ∧ (a.policy = none → new.policy = old.policy) ∧ (∀ x, a.policy = some x → new.policy.byte = x)
      ∧ (a.holdDefault = none → new.holdDefault = old.holdDefault)
      ∧ (∀ x, a.holdDefault = some x → new.holdDefault.byte = x)
      ∧ (a.armLead = none → new.armLead = old.armLead) ∧ (a.immLead = none → new.immLead = old.immLead)
      ∧ (a.spliceAdjust = none → new.spliceAdjust = old.spliceAdjust)
      ∧ (a.spliceWindow = none → new.spliceWindow = old.spliceWindow)
      ∧ (a.pcrTolerance = none → new.pcrTolerance = old.pcrTolerance)
      ∧ (a.absenceTimeout = none → new.absenceTimeout = old.absenceTimeout)
      ∧ new.templates = old.templates ∧ new.tb = old.tb ∧ new.lastT = old.lastT ∧ new.last = old.last)
  ∧ (∀ (tag : Byte) (a : ServiceSetArgs) (i : Fin 64) (old : Service) (s : State),
    canServe (.serviceSet tag a) s = true → a.service.toNat = i.val → s.services.get i = some old →
    let answers (code : Code) (body : List Byte) (t : State) : Prop :=
      exec (.serviceSet tag a) s = .next (answered tag kServiceSet code body t)
    (mergeService (some old) a = none → answers .badArg [] s)
    ∧ ∀ new, mergeService (some old) a = some new →
      (pidsApart new = false ∨ pidsFree s i new = false → answers .badArg [] s)
      ∧ (pidsApart new = true → pidsFree s i new = true →
        let live : Prop := ∃ r ∈ s.avails, r.key.svc = i ∧ (r.state = .armed ∨ r.state = .active)
        let clock : Prop := old.input ≠ new.input ∨ old.pcrPid ≠ new.pcrPid
        (old.spliceWindow ≠ new.spliceWindow → live → answers .state [] s)
        ∧ ((old.spliceWindow ≠ new.spliceWindow → ¬ live) →
          (clock ∨ (∃ x, old.pid x ≠ new.pid x) →
            ¬ live ∧ ∀ c ch, s.channels.get c = some ch → ch.service ≠ i) →
          (clock → ∃ t, answers .ok (serviceEntry i new) t
            ∧ t = { s with
                attn := t.attn
                services := s.services.set i (some { new with
                  tb := { state := .unlocked, count := 0, ref := none, t := none, absence := none } }) }
            ∧ (old.tb.state ≠ .locked ∨ s.mask.getLsbD 0 = false → t.attn = s.attn)
            ∧ (old.tb.state = .locked → s.mask.getLsbD 0 = true →
              t.attn = s.attn.set (svcSource i) (s.attn.get (svcSource i) ||| 1#9)))
          ∧ (¬ clock →
            let due : Prop := old.absenceTimeout ≠ new.absenceTimeout
              ∧ ∃ start, old.tb.absence = some start ∧ start + new.absenceTimeout ≤ s.refCount / 27000
            let stored : State := { s with services := s.services.set i (some new) }
            (¬ due → answers .ok (serviceEntry i new) stored)
            ∧ (due → ∃ t, answers .ok (serviceEntry i new) t
              ∧ t = { stored with
                  attn := t.attn, channels := t.channels
                  services := s.services.set i (some { new with
                    tb := { state := .unlocked, count := 0, ref := none, t := none, absence := none } }) }
              ∧ (old.tb.state ≠ .locked → t.attn = s.attn ∧ t.channels = s.channels)
              ∧ (old.tb.state = .locked →
                (s.mask.getLsbD 0 = true → (t.attn.get (svcSource i)).getLsbD 0 = true)
                ∧ ∀ c, t.channels.get c = (s.channels.get c).map fun ch =>
                    if ch.service = i then ch.withAskedReturn .aborted else ch))))))

/-- SERVICE_GET, OUTCOME_GET, AVAIL_GET and LANE_GET: their refusals, their bodies, and no change (R8, R16, R22, R69).
The value codes of responses (R182, R188), the kind codes of requests (10.4), and the layout of every body that
statements name, field by field with its width: the avail record body (R190) and the service entry, lane
configuration, binding, naming records, channel entry and live state, alert configuration and state, tally
configuration and live state (R187, R189). That the splice error of a record without one travels as four zero bytes
(log 39), and that the binding bytes its kind leaves unused are 0 (log 36), are the model's readings. -/
def Obligations.TableReads : Prop :=
  (∀ (tag b : Byte) (s : State), canServe (.serviceGet tag b) s = true →
    (64 ≤ b.toNat → exec (.serviceGet tag b) s = .next (answered tag kServiceGet .badArg [] s))
    ∧ ∀ i : Fin 64, b.toNat = i.val →
      (s.services.get i = none →
        exec (.serviceGet tag b) s = .next (answered tag kServiceGet .notFound [] s))
      ∧ ∀ v, s.services.get i = some v →
        exec (.serviceGet tag b) s =
          .next (answered tag kServiceGet .ok
            (serviceEntry i v ++ [v.tb.state.byte, BitVec.ofNat 8 v.tb.count] ++ optTime v.tb.t
              ++ [BitVec.ofNat 8 (recCount s i)]) s)
        ∧ (TimebasesOk s → v.tb.state = .unlocked → v.tb.t = none))
  ∧ (∀ (tag b : Byte) (s : State), canServe (.outcomeGet tag b) s = true →
    (64 ≤ b.toNat → exec (.outcomeGet tag b) s = .next (answered tag kOutcomeGet .badArg [] s))
    ∧ ∀ i : Fin 64, b.toNat = i.val →
      (s.services.get i = none →
        exec (.outcomeGet tag b) s = .next (answered tag kOutcomeGet .notFound [] s))
      ∧ ∀ v, s.services.get i = some v →
        (v.last = none → exec (.outcomeGet tag b) s = .next (answered tag kOutcomeGet .ok [0x00] s))
        ∧ ∀ o, v.last = some o →
          exec (.outcomeGet tag b) s =
            .next (answered tag kOutcomeGet .ok
              ([0x01] ++ be 4 o.event.toNat ++ [o.origin.byte, if o.pOut.isSome then 0x01 else 0x00]
                ++ optTime o.pOut ++ be 4 (o.spliceErr.getD 0) ++ [BitVec.ofNat 8 o.placements.length]
                ++ o.placements.flatMap fun p => [p.1.byte, if p.2 then 0x01 else 0x00]) s))
  ∧ (∀ (tag : Byte) (a : KeyArgs) (s : State), canServe (.availGet tag a) s = true →
    (64 ≤ a.service.toNat → exec (.availGet tag a) s = .next (answered tag kAvailGet .badArg [] s))
    ∧ ∀ i : Fin 64, a.service.toNat = i.val →
      (findRec ⟨i, a.event⟩ s = none →
        exec (.availGet tag a) s = .next (answered tag kAvailGet .notFound [] s))
      ∧ ∀ r, findRec ⟨i, a.event⟩ s = some r →
        exec (.availGet tag a) s = .next (answered tag kAvailGet .ok (availBody s r) s)
        ∧ r.distance s = (match r.e, (s.services.get i).bind (fun v => v.tb.t) with
          | some e, some now => some (e - now)
          | _, _ => none))
  ∧ (∀ (tag b : Byte) (s : State), canServe (.laneGet tag b) s = true →
    (16 ≤ b.toNat → exec (.laneGet tag b) s = .next (answered tag kLaneGet .badArg [] s))
    ∧ ∀ l : Fin 16, b.toNat = l.val →
      let ln := s.lanes.get l
      exec (.laneGet tag b) s =
        .next (answered tag kLaneGet .ok
          (laneConfig l ln.cfg ++ [ln.state.byte, if isStanding s l then 1 else 0] ++ bindingBytes s l
            ++ be 2 (namingBits s l) ++ [if isKeptOpen s l then 1 else 0] ++ optTime ln.lpts
            ++ be 2 ln.buffer.length
            ++ [if ln.hold then 1 else 0, BitVec.ofNat 8 ln.readers.length, ln.lastFault.byte]
            ++ be 4 s.groupGuard) s))
  ∧ (∀ k n : Nat, (be k n).length = k ∧ ∀ j, j < k → (be k n)[j]? = some (BitVec.ofNat 8 (n / 256 ^ (k - 1 - j))))
  ∧ ([Code.ok, .notFound, .exists_, .full, .badArg, .state, .late, .badFrame].map Code.byte = [0, 2, 3, 4, 5, 6, 7, 8]
    ∧ [kServiceSet, kServiceGet, kServiceClear, kTemplateSet, kOutcomeGet] = [0x01, 0x02, 0x03, 0x04, 0x05]
    ∧ [kAvailCreate, kAvailAmend, kAvailCancel, kAvailReturn, kAvailConfirm, kAvailDecline, kAvailGet, kAvailWalk]
      = [0x10, 0x11, 0x12, 0x13, 0x14, 0x15, 0x16, 0x17]
    ∧ [kLaneSet, kLaneGet, kLaneClose, kLaneGuardSet] = [0x20, 0x21, 0x22, 0x23]
    ∧ [kPortSet, kPortGet, kChanSet, kChanGet, kChanClear, kZoneLock, kZoneUnlock, kZoneGet]
      = [0x30, 0x31, 0x32, 0x33, 0x34, 0x35, 0x36, 0x37]
    ∧ [kAinSet, kAinGet, kFlagSet, kAlertSet, kAlertGet, kAlertEnd] = [0x40, 0x41, 0x42, 0x43, 0x44, 0x45]
    ∧ [kTallySet, kTallyGet, kAttnMask, kPoll, kSummary, kResetStreams, kResetAll]
      = [0x50, 0x51, 0x60, 0x61, 0x62, 0x70, 0x71]
    ∧ [AvailState.awaitCue, .held, .pending, .armed, .active].map AvailState.byte = [1, 2, 3, 4, 5]
    ∧ [PlacementState.waiting, .laned, .onAir, .done].map PlacementState.byte = [1, 2, 3, 4]
    ∧ [Outcome.played, .cut, .missedLate, .missedNoLane, .missedNotReady, .missedNoLock, .missedConflict, .noChannel,
        .lockedOut, .preempted, .aborted, .laneFault, .cancelled, .unconfirmed, .declined].map Outcome.byte
      = [1, 2, 3, 4, 5, 6, 7, 8, 9, 10, 11, 12, 13, 14, 15]
    ∧ [Origin.schedule, .network].map Origin.byte = [1, 2] ∧ [TimeSource.fixed, .fromCue].map TimeSource.byte = [1, 2]
    ∧ [TbState.unlocked, .acquiring, .locked].map TbState.byte = [0, 1, 2]
    ∧ [LaneState.idle, .opening, .ready, .onAir, .closing].map LaneState.byte = [0, 1, 2, 3, 4]
    ∧ [LaneFaultKind.none, .openTimeout, .starved].map LaneFaultKind.byte = [0, 1, 2]
    ∧ [AlertState.disabled, .idle, .qualifying, .active, .releasing, .spent].map AlertState.byte = [0, 1, 2, 3, 4, 5]
    ∧ [Combine.all, .any, .odd].map Combine.byte = [0, 1, 2]
    ∧ [CuePolicy.auto, .hold, .ignore].map CuePolicy.byte = [0, 1, 2]
    ∧ [HoldDefault.arm, .drop].map HoldDefault.byte = [0, 1]
    ∧ [TallyKind.none, .spliceOut, .ret, .cueHeld, .alertQualifying, .alertActive].map TallyKind.byte
      = [0, 1, 2, 3, 4, 5]
    ∧ [TallyMode.count, .repeating, .steady].map TallyMode.byte = [0, 1, 2]
    ∧ [TallyPhase.idle, .delay, .pulsing, .finishing].map TallyPhase.byte = [0, 1, 2, 3]
    ∧ [Polarity.highActive, .lowActive].map Polarity.byte = [0, 1]
    ∧ [LineMode.level, .pulse].map LineMode.byte = [0, 1]
    ∧ [Cause.timebaseLost, .outcome, .cueHeld, .cueCorrupt, .cueDropped, .laneFault, .alertActive, .alertEnded,
        .alertLaneNotReady].map Cause.bit = [0, 1, 2, 3, 4, 5, 6, 7, 8]
    ∧ (∀ i, (TermSource.ain i).byte.toNat = i.val) ∧ (∀ j, (TermSource.flag j).byte.toNat = 8 + j.val)
    ∧ RoleSource.network.byte = 0x10 ∧ RoleSource.muted.byte = 0x11 ∧ ∀ l, (RoleSource.lane l).byte.toNat = l.val)
  ∧ (let orFF (k : Nat) (x : Option Nat) : Nat := x.getD (256 ^ k - 1)
    let pid (p : Option Pid) : Nat := orFF 2 (p.map fun p => p.toNat)
    let time (x : Option Time) : Nat := orFF 5 (x.map fun x => x.toNat)
    let index {n : Nat} (i : Option (Fin n)) : Nat := orFF 1 (i.map fun i => i.val)
    let code (o : Option Outcome) : Nat := orFF 1 (o.map fun o => o.byte.toNat)
    let request (l : LaneReq) : Nat := (l.map fun l => l.val).getD 0xFE
    let tuning (n : Int) : Nat := (BitVec.ofInt 32 n).toNat
    (∀ (s : State) (r : Avail),
      availBody s r = laidOut
        ([(1, r.key.svc.val), (4, r.key.event.toNat), (1, r.origin.byte.toNat), (1, r.timeSource.byte.toNat),
          (1, r.state.byte.toNat),
          (1, r.e.isSome.toNat + 2 * r.d.isSome.toNat + 4 * r.pOut.isSome.toNat + 8 * r.r.isSome.toNat
            + 16 * (r.distance s).isSome.toNat),
          (5, time r.e), (4, (r.d.map fun d => d.toNat).getD 0), (5, time r.pOut), (4, r.spliceErr.getD 0),
          (5, time r.r), (5, time (r.distance s)), (1, r.placements.length)]
        ++ r.placements.flatMap fun q =>
          [(1, q.zones.toNat), (1, request q.lane), (1, q.keepOpen.toNat), (1, index q.bound), (1, q.state.byte.toNat),
            (1, code q.outcome), (1, q.part.toNat), (1, code q.firstCause), (1, q.count)])
      ∧ (availBody s r).length = 38 + 9 * r.placements.length)
    ∧ (∀ (i : Fin 64) (v : Service),
      serviceEntry i v = laidOut
        ([(1, i.val), (1, v.input.val), (2, v.video.toNat), (2, pid v.audio1), (2, pid v.audio2), (2, pid v.audio3),
          (2, v.pcrPid.toNat), (2, pid v.cuePid), (1, v.policy.byte.toNat), (1, v.holdDefault.byte.toNat),
          (4, tuning v.armLead), (4, tuning v.immLead), (4, tuning v.spliceAdjust), (4, tuning v.spliceWindow),
          (4, tuning v.pcrTolerance), (4, tuning v.absenceTimeout)]
        ++ ([0, 1, 2, 3] : List (Fin 4)).flatMap fun k =>
          (1, (v.templates.get k).length)
            :: (v.templates.get k).flatMap fun p => [(1, p.zones.toNat), (1, request p.lane), (1, p.keepOpen.toNat)]))
    ∧ (∀ (l : Fin 16) (c : LaneCfg),
      laneConfig l c = laidOut
        [(1, l.val), (2, c.video.toNat), (2, pid c.audio1), (2, pid c.audio2), (2, pid c.audio3), (2, c.pcrPid.toNat),
          (4, c.preroll), (2, pid (c.eos.map fun m => m.1)), (1, (c.eos.map fun m => m.2.toNat).getD 0),
          (4, c.openTimeout)]
      ∧ (laneConfig l c).length = 22)
    ∧ (∀ (s : State) (l : Fin 16),
      let names (a : Fin 16) : Prop := (s.alerts.get a).enabled = true ∧ (s.alerts.get a).lane = l
      (∀ p, (s.lanes.get l).bound = some p →
        bindingBytes s l = laidOut [(1, 1), (1, p.key.svc.val), (4, p.key.event.toNat), (1, p.idx)])
      ∧ ((s.lanes.get l).bound = none →
        ((∃ a, names a) → bindingBytes s l = laidOut [(1, 2), (1, 0), (4, 0), (1, 0)])
        ∧ ((∀ a, ¬ names a) → bindingBytes s l = laidOut [(1, 0), (1, 0), (4, 0), (1, 0)]))
      ∧ namingBits s l < 65536 ∧ ∀ a : Fin 16, (namingBits s l).testBit a.val = true ↔ names a)
    ∧ (∀ (s : State) (c : Fin 128) (ch : Channel), s.channels.get c = some ch →
      let holder : Option Holder → List (Nat × Nat)
        | none => [(1, 0), (1, 0), (4, 0), (1, 0)]
        | some (.placement p) => [(1, 1), (1, p.key.svc.val), (4, p.key.event.toNat), (1, p.idx)]
        | some (.alert a) => [(1, 2), (1, 0), (4, 0), (1, a.val)]
      let source : Nat := match ch.lane, ch.holder with
        | some _, some (.placement _) => 1
        | some _, some (.alert _) => 2
        | _, _ => 0
      let has (x : Role) : Prop := ∃ v, s.services.get ch.service = some v ∧ v.pid x ≠ none
      let network : Prop := ∀ x, (ch.roles.get x).source = .network
      let onItsLane : Prop := ∃ l, ch.lane = some l ∧ ∀ x, has x → (ch.roles.get x).source = .lane l
      let pending : List (Nat × Nat) := match ch.pending with
        | none => [(1, 0), (1, 0xFF)] ++ holder none ++ [(1, 0xFF)]
        | some t =>
          let kind : Nat := match t.kind with
            | .asked => 1
            | .coverage => 2
          match t.target with
          | .network => [(1, kind), (1, 0xFF)] ++ holder none ++ [(1, code t.cause)]
          | .lane l h => [(1, kind), (1, l.val)] ++ holder (some h) ++ [(1, code t.cause)]
      channelEntry c ch = laidOut [(1, c.val), (1, ch.service.val), (1, ch.port.val), (1, ch.underrunSeen.toNat)]
      ∧ ∃ state, (network → state = 0) ∧ (¬ network → onItsLane → state = 2)
        ∧ (¬ network → ¬ onItsLane → state = 1)
        ∧ channelLive s c ch = laidOut
          ([(1, source), (1, index ch.lane)] ++ holder ch.holder
            ++ [(1, index (ch.departing.map fun d => d.lane))] ++ holder (ch.departing.bind fun d => d.holder)
            ++ [(1, code (ch.departing.bind fun d => d.cause)), (5, time ch.offset), (1, state), (5, time ch.switchPts),
              (1, ch.followStart.isSome.toNat)]
            ++ [Role.video, .audio1, .audio2, .audio3].flatMap (fun x =>
              let r := ch.roles.get x
              [(1, r.source.byte.toNat), (1, r.switched.toNat), (1, r.ccDelta.toNat),
                (1, orFF 1 (r.lastCc.map fun n => n.toNat))])
            ++ pending ++ [(5, time ch.ret), (5, time ch.cueRet)]))
    ∧ (∀ (s : State) (a : Fin 16) (r : Alert),
      let holds (t : TermSource × Bool) : Bool := match t.1 with
        | .ain i => (s.ains.get i).level == t.2
        | .flag j => s.rflags.get j == t.2
      let left (start : Option Nat) (steps : Nat) : Nat :=
        (start.map fun x => (x + steps * 100 - s.refCount / 27000 + 99) / 100).getD 0
      alertConfig a r = laidOut
        ([(1, a.val), (1, r.enabled.toNat), (1, r.priority), (1, r.terms.length)]
          ++ r.terms.flatMap (fun t => [(1, t.1.byte.toNat), (1, t.2.toNat)])
          ++ [(1, r.combine.byte.toNat), (4, r.hold), (4, r.release), (1, r.zones.toNat), (1, r.lane.val)])
      ∧ (alertConfig a r).length = 15 + 2 * r.terms.length
      ∧ ∃ covered waiting : ZoneSet,
        (∀ z, zoneIn covered z = true ↔ (s.zones.get z).cover = some a)
        ∧ (∀ z, zoneIn waiting z = true ↔ (s.zones.get z).cover = some a ∧ (s.zones.get z).waiting = true)
        ∧ alertSnapshot s a r = laidOut
          ([(1, r.state.byte.toNat), (6, orFF 6 (r.stamp.map fun x => x.toNat))]
            ++ r.terms.map (fun t => (1, (holds t).toNat))
            ++ [(1, (condition s r).toNat), (2, left r.holdStart r.hold), (2, left r.releaseStart r.release),
              (1, covered.toNat), (1, waiting.toNat)]))
    ∧ ∀ (now : Nat) (alerts : Table Alert 16) (o : Fin 4) (t : Tally),
      let left (due : Option Nat) : Nat := (due.map fun x => (x - now + 9) / 10).getD 0
      tallyConfig o t = laidOut
        [(1, o.val), (1, t.kind.byte.toNat), (1, t.selector.getD 0xFE), (1, t.mode.byte.toNat), (4, t.count), (4, t.delay),
          (4, t.onTime), (4, t.period), (1, t.polarity.byte.toNat)]
      ∧ (tallyConfig o t).length = 21
      ∧ tallyLive now alerts t = laidOut
        [(1, t.phase.byte.toNat), (1, t.started), (1, t.output.toNat), (2, left t.phaseDue),
          (2, left t.pulses.getLast?), (1, orFF 1 (t.edge.map fun e => e.level.toNat)),
          (2, left (t.edge.map fun e => e.due)),
          (1, if t.kind.isLevel then (sourceLevel t alerts).toNat else 0xFF)])

/-- R9. -/
def Obligations.ServiceClearEmptiesEntry : Prop :=
  ∀ (tag b : Byte) (s : State), canServe (.serviceClear tag b) s = true →
    (64 ≤ b.toNat → exec (.serviceClear tag b) s = .next (answered tag kServiceClear .badArg [] s))
    ∧ ∀ i : Fin 64, b.toNat = i.val →
      (s.services.get i = none →
        exec (.serviceClear tag b) s = .next (answered tag kServiceClear .notFound [] s))
      ∧ ∀ v, s.services.get i = some v →
        (((∃ c ch, s.channels.get c = some ch ∧ ch.service = i) ∨ ∃ r ∈ s.avails, r.key.svc = i) →
          exec (.serviceClear tag b) s = .next (answered tag kServiceClear .state [] s))
        ∧ ((∀ c ch, s.channels.get c = some ch → ch.service ≠ i) → (∀ r ∈ s.avails, r.key.svc ≠ i) →
          ∃ t, exec (.serviceClear tag b) s = .next (answered tag kServiceClear .ok [] t)
            ∧ t = { s with services := s.services.set i none } ∧ t.attn = s.attn
            ∧ snapshot t (svcSource i) = [0x00, 0x00] ∧ ∀ m f, i ∉ servicesWhere t m f)

/-- TEMPLATE_SET replaces one template whole and nothing else, or is refused; what the placement checks of a template or
a record let through, and that they let through every list that is in order (R7, R24, R183). That the keep-open byte is
judged with the placements, after NOT_FOUND, is the model's choice (log 53). -/
def Obligations.TemplateSetReplacesTemplate : Prop :=
  (∀ (tag : Byte) (a : TemplateSetArgs) (s : State), canServe (.templateSet tag a) s = true →
    (64 ≤ a.service.toNat → exec (.templateSet tag a) s = .next (answered tag kTemplateSet .badArg [] s))
    ∧ ∀ i : Fin 64, a.service.toNat = i.val →
      (s.services.get i = none →
        exec (.templateSet tag a) s = .next (answered tag kTemplateSet .notFound [] s))
      ∧ ∀ v, s.services.get i = some v →
        (4 ≤ a.breakClass.toNat ∨ 4 < a.placements.length ∨ checkPlacements s a.placements = none →
          exec (.templateSet tag a) s = .next (answered tag kTemplateSet .badArg [] s))
        ∧ ∀ (k : Fin 4) ps, a.breakClass.toNat = k.val → a.placements.length ≤ 4 →
          checkPlacements s a.placements = some ps →
          exec (.templateSet tag a) s =
            .next (answered tag kTemplateSet .ok []
              { s with services := s.services.set i (some { v with templates := v.templates.set k ps }) }))
  ∧ (∀ (s : State) (as : List PlacementArg) (ps : List TPlacement), checkPlacements s as = some ps →
    ps.map (fun p => p.zones) = as.map (fun a => a.zones) ∧ (∀ p ∈ ps, p.zones ≠ 0)
      ∧ (∀ p ∈ ps, ∀ l, p.lane = some l → isStanding s l = false)
      ∧ ps.Pairwise (fun p q => p.zones &&& q.zones = 0 ∧ (p.lane = none ∨ p.lane ≠ q.lane))
      ∧ ∀ (j : Nat) (p : TPlacement) (a : PlacementArg), ps[j]? = some p → as[j]? = some a →
        (match p.lane with
          | none => a.lane = 0xFE
          | some l => a.lane.toNat = l.val)
        ∧ a.keepOpen = if p.keepOpen then 1 else 0)
  ∧ (∀ (s : State) (as : List PlacementArg),
    (∀ a ∈ as, a.zones ≠ 0 ∧ (a.lane = 0xFE ∨ a.lane.toNat < 16) ∧ a.keepOpen.toNat < 2
      ∧ ∀ l : Fin 16, a.lane.toNat = l.val → isStanding s l = false) →
    as.Pairwise (fun a b => a.zones &&& b.zones = 0 ∧ (a.lane = 0xFE ∨ a.lane ≠ b.lane)) →
    ∃ ps, checkPlacements s as = some ps)

/-- A PCR accepted for a service settles its timebase (R10 to R12, R111), and the service's time update follows on what is
settled (R14). A departure from LOCKED raises TIMEBASE_LOST and, before the time update, asks with ABORTED for the channels of
the service that draw for a placement (R17, R132). -/
def Obligations.PcrArrivalSettlesTimebase : Prop :=
  (∀ (m : Fin 4) (pk : Packet) (i : Fin 64) (v : Service) (c : Pcr) (s : State),
    s.resetLow = false → (s.netIn.get m).synced = true → pk.tei = false → s.services.get i = some v →
    v.input = m → v.pcrPid = pk.pid → pktPcr pk = some c →
    let arriving : Nat := 300 * c.base.toNat + c.ext
    let inTol (r : PcrRef) : Prop :=
      (signedDiff arriving ((r.count + (s.refCount - r.arrival)) % 2576980377600)).natAbs ≤ v.pcrTolerance
    let settles (st : TbState) (n : Nat) : Prop :=
      ∃ t w, exec (.networkPacket m pk) s = .next t ∧ t.services.get i = some w
        ∧ w.tb = { state := st, count := n, ref := some ⟨arriving, s.refCount⟩, t := some c.base
                   absence := some (s.refCount / 27000) }
    (v.tb.state = .unlocked → settles .acquiring 0)
    ∧ ∀ r, v.tb.ref = some r →
      (discontinuityOf pk = false → inTol r →
        (v.tb.state = .acquiring → v.tb.count < 3 → settles .acquiring (v.tb.count + 1))
        ∧ (v.tb.state = .acquiring → v.tb.count = 3 → settles .locked 4)
        ∧ (v.tb.state = .locked → settles .locked 4))
      ∧ (discontinuityOf pk = true ∨ ¬ inTol r →
        (v.tb.state = .acquiring ∨ v.tb.state = .locked → settles .acquiring 0)
        ∧ (v.tb.state = .locked → s.mask.getLsbD 0 = true →
          ∃ t, exec (.networkPacket m pk) s = .next t ∧ (t.attn.get (svcSource i)).getLsbD 0 = true)))
  ∧ (∀ (i : Fin 64) (v : Service) (c : Pcr) (disc : Bool) (s : State), s.services.get i = some v →
    let arriving : Nat := 300 * c.base.toNat + c.ext
    let inTol (r : PcrRef) : Prop :=
      (signedDiff arriving ((r.count + (s.refCount - r.arrival)) % 2576980377600)).natAbs ≤ v.pcrTolerance
    ∃ st n settled, pcrArrive i c disc s = timeUpdate i settled
      ∧ (v.tb.state = .unlocked → st = .acquiring ∧ n = 0)
      ∧ (∀ r, v.tb.ref = some r →
        (disc = false → inTol r →
          (v.tb.state = .acquiring → v.tb.count < 3 → st = .acquiring ∧ n = v.tb.count + 1)
          ∧ (v.tb.state = .acquiring → v.tb.count = 3 → st = .locked ∧ n = 4)
          ∧ (v.tb.state = .locked → st = .locked ∧ n = 4))
        ∧ (disc = true ∨ ¬ inTol r → v.tb.state = .acquiring ∨ v.tb.state = .locked → st = .acquiring ∧ n = 0))
      ∧ settled.services = s.services.set i (some { v with
          lastT := c.base
          tb := { state := st, count := n, ref := some ⟨arriving, s.refCount⟩, t := some c.base
                  absence := some (s.refCount / 27000) } })
      ∧ settled.avails = s.avails ∧ settled.lanes = s.lanes ∧ settled.zones = s.zones
      ∧ (v.tb.state = .locked → st ≠ .locked → ∀ d, settled.channels.get d = (s.channels.get d).map fun ch =>
          if ch.service = i then ch.withAskedReturn .aborted else ch)
      ∧ (v.tb.state ≠ .locked ∨ st = .locked → settled.channels = s.channels ∧ settled.attn = s.attn))

/-- The absence timeout takes a timebase to UNLOCKED; from LOCKED it raises TIMEBASE_LOST and asks the service's
channels back with ABORTED; it delivers no time update (R13, R14, R17, R132). The due time is the model's
(log 3). -/
def Obligations.AbsenceTimeoutUnlocks : Prop :=
  ∀ (i : Fin 64) (v : Service) (s : State), s.resetLow = false → s.services.get i = some v →
    (v.tb.absence = none → exec (.pcrAbsenceTimeout i) s = .next s)
    ∧ ∀ start, v.tb.absence = some start →
      ∃ t, exec (.pcrAbsenceTimeout i) s = .next t
        ∧ t.refCount = countAt (start + v.absenceTimeout) s
        ∧ t.services.get i =
          some { v with tb := { state := .unlocked, count := 0, ref := none, t := none, absence := none } }
        ∧ (∀ j, j ≠ i → t.services.get j = s.services.get j)
        ∧ t.avails = s.avails ∧ t.lanes = s.lanes ∧ t.ports = s.ports ∧ t.zones = s.zones
        ∧ t.alerts = s.alerts ∧ t.tallies = s.tallies ∧ t.respSlot = s.respSlot
        ∧ (v.tb.state ≠ .locked → t.attn = s.attn ∧ t.channels = s.channels)
        ∧ (v.tb.state = .locked →
          (s.mask.getLsbD 0 = true → (t.attn.get (svcSource i)).getLsbD 0 = true)
          ∧ (∀ src, src ≠ svcSource i → t.attn.get src = s.attn.get src)
          ∧ ∀ c, t.channels.get c = (s.channels.get c).map fun ch =>
              if ch.service = i then ch.withAskedReturn .aborted else ch)

/-! ## The Avail Table (chapter 2) -/

/-- Records at a time update. A PENDING record with E behind T is retired MISSED_LATE on a LOCKED service,
MISSED_NO_LOCK otherwise (R29); within its lead on a LOCKED service it arms: a placement ends NO_CHANNEL without a
channel in its zones, is LANED on the lane the allocation grants, or waits, each judged after those before it (R30);
otherwise it stays. A HELD record meets its deadline with DROP or as a PENDING record (R28). An ARMED record misses past
its window, loses its WAITING placements past E, and asks again for their lanes before (R31); that it misses also where
E is still ahead is the model's (log 48). A record that ends hands back every lane still bound to one of its placements,
for closing: an OPENING or READY lane enters CLOSING (R31, R85). A service's records are treated in table order, and
then those with every placement DONE are retired (R27). -/
def Obligations.PendingRecordsAtTimeUpdate : Prop :=
  (∀ (i : Fin 64) (v : Service) (now e : Time) (r : Avail) (s : State), TableOk s →
    s.services.get i = some v → v.tb.t = some now → r ∈ s.avails → r.key.svc = i → r.state = .pending →
    r.e = some e → isBehind e now = true →
    findRec r.key (timeUpdate i s) = none
    ∧ (s.mask.getLsbD 1 = true → ((timeUpdate i s).attn.get (svcSource i)).getLsbD 1 = true)
    ∧ ((∀ q ∈ s.avails, q.key.svc = i → q = r) → (∀ p ∈ r.placements, p.state ≠ .done) →
      ((timeUpdate i s).services.get i).bind (fun w => w.last) =
        some { event := r.key.event, origin := r.origin
               placements := r.placements.map fun p =>
                 (if v.tb.state = .locked then .missedLate else .missedNoLock, p.part)
               pOut := r.pOut, spliceErr := r.spliceErr }))
  ∧ (∀ (i : Fin 64) (v : Service) (now e : Time) (r : Avail) (q : Placement) (s : State),
    s.services.get i = some v → v.tb.state = .locked → v.tb.t = some now → r ∈ s.avails →
    (∀ q ∈ s.avails, q.key.svc = i → q = r) → (s.avails.map fun q => q.key).Nodup → r.key.svc = i →
    r.state = .pending → r.e = some e → isAhead e now = true → Machine.dist e now ≤ v.armLead →
    r.placements = [q] → q.state = .waiting → q.bound = none →
    let t := timeUpdate i s
    let inZones : Prop := ∃ c ch, s.channels.get c = some ch ∧ ch.service = i ∧ zoneIn q.zones (chanZone s ch) = true
    (¬ inZones → findRec r.key t = none
      ∧ (t.services.get i).bind (fun w => w.last.map fun o => o.placements) = some [(.noChannel, q.part)])
    ∧ (inZones → ∀ l, allocate s ⟨r.key, 0⟩ q.lane e = some l →
      findRec r.key t = some { r with
        state := .armed, placements := [{ q with state := .laned, bound := some l }] }
      ∧ (t.lanes.get l).bound = some ⟨r.key, 0⟩
      ∧ ((s.lanes.get l).state = .idle → (t.lanes.get l).state = .opening)
      ∧ ((s.lanes.get l).state ≠ .idle → (t.lanes.get l).state = (s.lanes.get l).state)
      ∧ ∀ m, m ≠ l → t.lanes.get m = s.lanes.get m)
    ∧ (inZones → allocate s ⟨r.key, 0⟩ q.lane e = none →
      findRec r.key t = some { r with state := .armed } ∧ t.lanes = s.lanes))
  ∧ (∀ (i : Fin 64) (v : Service) (now : Time) (s : State), s.services.get i = some v → v.tb.t = some now →
    timeUpdate i s =
      retireDone i (overList (orderedKeys s i) (treatRecord v now (decide (v.tb.state = .locked))) s))
  ∧ (∀ (v : Service) (now : Time) (locked : Bool) (r : Avail) (s : State), findRec r.key s = some r →
    let t := treatRecord v now locked r.key s
    let moved (st : AvailState) : State :=
      { s with avails := s.avails.map fun q => if q.key = r.key then { q with state := st } else q }
    let ended (o : Outcome) (q : Placement) : Placement :=
      { q with state := .done, outcome := some o, bound := none }
    let allEnd (o : Outcome) : Prop :=
      findRec r.key t =
        some { r with placements := r.placements.map fun q => if q.state = .done then q else ended o q }
      ∧ ∀ j q l, r.placements[j]? = some q → q.state ≠ .done → q.bound = some l →
        (s.lanes.get l).bound = some ⟨r.key, j⟩ →
        let ln := s.lanes.get l
        (ln.state = .opening ∨ ln.state = .ready → t.lanes.get l =
          { ln with
            state := .closing, bound := none, buffer := [], entry := none, lpts := none, readers := []
            hold := true, openStart := none, closeStart := some (s.refCount / 27000) })
        ∧ (ln.state ≠ .opening → ln.state ≠ .ready → t.lanes.get l = { ln with bound := none })
    let missed : Outcome := if locked then .missedLate else .missedNoLock
    let asks (before after : State) (p : PRef) (q : Placement) (e : Time) : Prop :=
      (∀ l, allocate before p q.lane e = some l →
        findPlacement p t = some { q with state := .laned, bound := some l }
          ∧ (after.lanes.get l).bound = some p ∧ ∀ m, m ≠ l → after.lanes.get m = before.lanes.get m)
      ∧ (allocate before p q.lane e = none → findPlacement p t = some q ∧ after = before)
    (r.state = .awaitCue ∨ r.state = .active ∨ r.e = none → t = s)
    ∧ ∀ e, r.e = some e →
      (r.state = .held →
        (isAhead e now = true → v.armLead < Machine.dist e now → t = s)
        ∧ (isBehind e now = true ∨ Machine.dist e now ≤ v.armLead →
          (v.holdDefault = .drop → allEnd .unconfirmed)
          ∧ (v.holdDefault = .arm → t = treatRecord v now locked r.key (moved .pending))))
      ∧ (r.state = .pending →
        (isBehind e now = true → allEnd missed)
        ∧ (isAhead e now = true → locked = false ∨ v.armLead < Machine.dist e now → t = s)
        ∧ (isAhead e now = true → locked = true → Machine.dist e now ≤ v.armLead →
          let upTo (j : Nat) : State :=
            overList ((List.range j).map fun x => (⟨r.key, x⟩ : PRef)) armPlacement (moved .armed)
          t = upTo r.placements.length
          ∧ ∀ j q, r.placements[j]? = some q → q.state ≠ .done →
            let inZones : Prop := ∃ c ch, s.channels.get c = some ch ∧ ch.service = r.key.svc
              ∧ zoneIn q.zones (chanZone s ch) = true
            (¬ inZones → findPlacement ⟨r.key, j⟩ t = some (ended .noChannel q))
            ∧ (inZones → asks (upTo j) (upTo (j + 1)) ⟨r.key, j⟩ q e)))
      ∧ (r.state = .armed →
        let last : Time := e + BitVec.ofNat 33 v.spliceWindow
        (isBehind last now = true → allEnd missed)
        ∧ (isAhead last now = true → isBehind e now = true →
          findRec r.key t = some { r with
            placements := r.placements.map fun q => if q.state = .waiting then ended .missedNoLane q else q })
        ∧ (isAhead last now = true → isAhead e now = true →
          let upTo (j : Nat) : State :=
            overList ((List.range j).map fun x => (⟨r.key, x⟩ : PRef)) retryLane s
          t = upTo r.placements.length
          ∧ ∀ j q, r.placements[j]? = some q →
            (q.state ≠ .waiting → findPlacement ⟨r.key, j⟩ t = some q ∧ upTo (j + 1) = upTo j)
            ∧ (q.state = .waiting → asks (upTo j) (upTo (j + 1)) ⟨r.key, j⟩ q e))))

/-- Whatever the command, a record is ARMED afterwards only if it was before, or if its service is LOCKED
(R30). -/
def Obligations.RecordsArmOnlyOnLockedService : Prop :=
  ∀ (c : Instr) (s t : State), exec c s = .next t → ∀ r ∈ t.avails, r.state = .armed →
    (∃ q ∈ s.avails, q.key = r.key ∧ q.state = .armed) ∨ isLocked t r.key.svc = true

/-- AVAIL_CREATE that passes its checks adds the record of R25 at the end of the creation order, and nothing else; its
refusals come in the order of R24, the service index first. That a keep-open byte is judged with the placement checks,
after NOT_FOUND, EXISTS and FULL, is the model's choice (log 53). -/
def Obligations.AvailCreateAddsRecord : Prop :=
  (∀ (tag : Byte) (a : AvailCreateArgs) (i : Fin 64) (v : Service) (ps : List TPlacement) (s : State)
    (e : Option Time) (src : TimeSource) (st : AvailState),
    canServe (.availCreate tag a) s = true → a.service.toNat = i.val → s.services.get i = some v →
    findRec ⟨i, a.event⟩ s = none → s.avails.length < 512 → recCount s i < 32 →
    1 ≤ a.placements.length → a.placements.length ≤ 4 → checkPlacements s a.placements = some ps →
    ((a.timeKind = 1 ∧ a.s.toNat < 2 ^ 33 ∧ e = some (BitVec.ofNat 33 a.s.toNat + BitVec.ofInt 33 v.spliceAdjust)
        ∧ (∀ now, v.tb.state = .locked → v.tb.t = some now →
            isAhead (BitVec.ofNat 33 a.s.toNat + BitVec.ofInt 33 v.spliceAdjust) now = true)
        ∧ src = .fixed ∧ st = .pending)
      ∨ (a.timeKind = 2 ∧ v.tb.state = .locked ∧ (∃ now, v.tb.t = some now
          ∧ e = some (now + BitVec.ofNat 33 v.immLead)) ∧ src = .fixed ∧ st = .pending)
      ∨ (a.timeKind = 3 ∧ e = none ∧ src = .fromCue ∧ st = .awaitCue)) →
    let r : Avail :=
      { key := ⟨i, a.event⟩, origin := .schedule, timeSource := src, e := e
        d := if a.duration = 0 then none else some a.duration
        placements := ps.map fun p =>
          { zones := p.zones, lane := p.lane, keepOpen := p.keepOpen, bound := none, state := .waiting
            outcome := none, part := false, firstCause := none, count := 0 }
        state := st, pOut := none, spliceErr := none, r := none, creation := s.created, cutAsked := false }
    let t : State := { s with avails := s.avails ++ [r], created := s.created + 1 }
    exec (.availCreate tag a) s = .next (answered tag kAvailCreate .ok (availBody t r) t))
  ∧ (∀ (tag : Byte) (a : AvailCreateArgs) (i : Fin 64) (s : State),
    canServe (.availCreate tag a) s = true → a.service.toNat = i.val →
    let refused (code : Code) : Prop := exec (.availCreate tag a) s = .next (answered tag kAvailCreate code [] s)
    let goodTime : Prop := (a.timeKind = 1 ∧ a.s.toNat < 2 ^ 33) ∨ a.timeKind = 2 ∨ a.timeKind = 3
    (¬ goodTime → refused .badArg)
    ∧ (goodTime → s.services.get i = none → refused .notFound)
    ∧ ∀ v, goodTime → s.services.get i = some v →
      (findRec ⟨i, a.event⟩ s ≠ none → refused .exists_)
      ∧ (findRec ⟨i, a.event⟩ s = none →
        (512 ≤ s.avails.length ∨ 32 ≤ recCount s i → refused .full)
        ∧ (s.avails.length < 512 → recCount s i < 32 →
          (a.placements.length < 1 ∨ 4 < a.placements.length ∨ checkPlacements s a.placements = none →
            refused .badArg)
          ∧ (1 ≤ a.placements.length → a.placements.length ≤ 4 → checkPlacements s a.placements ≠ none →
            (a.timeKind = 2 → v.tb.state ≠ .locked → refused .state)
            ∧ ∀ now, a.timeKind = 1 → v.tb.state = .locked → v.tb.t = some now →
              isBehind (BitVec.ofNat 33 a.s.toNat + BitVec.ofInt 33 v.spliceAdjust) now = true →
              refused .late))))
  ∧ (∀ (tag : Byte) (a : AvailCreateArgs) (s : State), canServe (.availCreate tag a) s = true →
    64 ≤ a.service.toNat → exec (.availCreate tag a) s = .next (answered tag kAvailCreate .badArg [] s))

/-- AVAIL_AMEND: its refusals in the order of R40. Before ARMED it writes every field it carries, a new time making the
record FIXED and taking AWAIT_CUE to PENDING (R41). On an ARMED record it writes E and D; a new E is the splice-out
target, and each LANED placement in placement order, seeing what became of those before it, is tested by the guard but
for itself: one that fails gives its lane back, waits and asks at once (R42, R88; log 18 for the time source). Of an
ACTIVE record's duration it moves R and the return target of every channel that draws for the record (R43). That a
keep-open byte is judged with the placement checks is the model's choice (log 53). -/
def Obligations.AvailAmendChangesRecord : Prop :=
  (∀ (tag : Byte) (a : AvailAmendArgs) (i : Fin 64) (v : Service) (r : Avail) (x : BitVec 40) (s : State),
    canServe (.availAmend tag a) s = true → a.service.toNat = i.val → s.services.get i = some v →
    findRec ⟨i, a.event⟩ s = some r → (s.avails.map fun q => q.key).Nodup →
    r.state = .awaitCue ∨ r.state = .held ∨ r.state = .pending →
    a.time = some (1, x) → x.toNat < 2 ^ 33 → a.duration = none → a.placements = none →
    let e : Time := BitVec.ofNat 33 x.toNat + BitVec.ofInt 33 v.spliceAdjust
    let amended : Avail :=
      { r with
        e := some e, timeSource := .fixed, state := if r.state = .awaitCue then .pending else r.state }
    let t : State := { s with avails := s.avails.map fun q => if q.key = r.key then amended else q }
    (v.tb.state ≠ .locked ∨ (∃ now, v.tb.t = some now ∧ isAhead e now = true) →
      exec (.availAmend tag a) s = .next (answered tag kAvailAmend .ok (availBody t amended) t))
    ∧ ∀ now, v.tb.state = .locked → v.tb.t = some now → isBehind e now = true →
      exec (.availAmend tag a) s = .next (answered tag kAvailAmend .late [] s))
  ∧ (∀ (tag : Byte) (a : AvailAmendArgs) (i : Fin 64) (v : Service) (r : Avail) (d : BitVec 32) (out : Time)
    (s : State),
    canServe (.availAmend tag a) s = true → a.service.toNat = i.val → s.services.get i = some v →
    findRec ⟨i, a.event⟩ s = some r → r.state = .active → r.pOut = some out → a.time = none →
    a.placements = none → a.duration = some d →
    let target : Option Time := if d = 0 then none else some (out + BitVec.ofNat 33 d.toNat)
    ∃ body t, exec (.availAmend tag a) s = .next (answered tag kAvailAmend .ok body t)
      ∧ findRec r.key t = some { r with d := if d = 0 then none else some d, r := target }
      ∧ t.lanes = s.lanes ∧ t.services = s.services ∧ t.attn = s.attn
      ∧ ∀ c, t.channels.get c = (s.channels.get c).map fun ch =>
          if ch.drawsFor.map (fun p => p.key) = some r.key then { ch with ret := target } else ch)
  ∧ (∀ (tag : Byte) (a : AvailAmendArgs) (s : State), canServe (.availAmend tag a) s = true →
    let refused (code : Code) : Prop := exec (.availAmend tag a) s = .next (answered tag kAvailAmend code [] s)
    let badTime : Prop := ∃ k x, a.time = some (k, x) ∧ ¬ ((k = 1 ∧ x.toNat < 2 ^ 33) ∨ k = 2)
    let nothing : Prop := a.time = none ∧ a.duration = none ∧ a.placements = none
    (64 ≤ a.service.toNat ∨ badTime ∨ nothing → refused .badArg)
    ∧ ∀ i : Fin 64, a.service.toNat = i.val → ¬ badTime → ¬ nothing →
      (findRec ⟨i, a.event⟩ s = none → refused .notFound)
      ∧ ∀ v r, s.services.get i = some v → findRec ⟨i, a.event⟩ s = some r →
        let barred : Prop := (r.state = .armed ∧ a.placements ≠ none)
          ∨ (r.state = .active ∧ (a.placements ≠ none ∨ a.time ≠ none))
        let badList : Prop := ∃ ps, a.placements = some ps
          ∧ (ps.length < 1 ∨ 4 < ps.length ∨ checkPlacements s ps = none)
        (barred → refused .state)
        ∧ (¬ barred → badList → refused .badArg)
        ∧ (¬ barred → ¬ badList →
          (∀ x, a.time = some (2, x) → v.tb.state ≠ .locked → refused .state)
          ∧ ∀ x now, a.time = some (1, x) → v.tb.state = .locked → v.tb.t = some now →
            isBehind (BitVec.ofNat 33 x.toNat + BitVec.ofInt 33 v.spliceAdjust) now = true → refused .late))
  ∧ (∀ (tag : Byte) (a : AvailAmendArgs) (i : Fin 64) (v : Service) (r : Avail) (e : Option Time) (s : State),
    canServe (.availAmend tag a) s = true → a.service.toNat = i.val → s.services.get i = some v →
    findRec ⟨i, a.event⟩ s = some r → (s.avails.map fun q => q.key).Nodup →
    ¬ (a.time = none ∧ a.duration = none ∧ a.placements = none) →
    ((a.time = none ∧ e = none)
      ∨ (∃ x, a.time = some (1, x) ∧ x.toNat < 2 ^ 33
          ∧ e = some (BitVec.ofNat 33 x.toNat + BitVec.ofInt 33 v.spliceAdjust)
          ∧ ∀ now, v.tb.state = .locked → v.tb.t = some now →
              isAhead (BitVec.ofNat 33 x.toNat + BitVec.ofInt 33 v.spliceAdjust) now = true)
      ∨ (∃ x now, a.time = some (2, x) ∧ v.tb.state = .locked ∧ v.tb.t = some now
          ∧ e = some (now + BitVec.ofNat 33 v.immLead))) →
    let answers (t : State) (r' : Avail) : Prop :=
      exec (.availAmend tag a) s = .next (answered tag kAvailAmend .ok (availBody t r') t)
    let d : Option (BitVec 32) := match a.duration with
      | none => r.d
      | some x => if x = 0 then none else some x
    let source : TimeSource := if e = none then r.timeSource else .fixed
    let stored (r' : Avail) : State :=
      { s with avails := s.avails.map fun q => if q.key = r.key then r' else q }
    (∀ ts : Option (List TPlacement), r.state = .awaitCue ∨ r.state = .held ∨ r.state = .pending →
      ((a.placements = none ∧ ts = none) ∨ ∃ ps l, a.placements = some ps ∧ 1 ≤ ps.length ∧ ps.length ≤ 4
        ∧ checkPlacements s ps = some l ∧ ts = some l) →
      let r' : Avail :=
        { r with
          e := if e = none then r.e else e, timeSource := source, d := d
          state := if e ≠ none ∧ r.state = .awaitCue then .pending else r.state
          placements := match ts with
            | none => r.placements
            | some l => l.map fun p =>
                { zones := p.zones, lane := p.lane, keepOpen := p.keepOpen, bound := none, state := .waiting
                  outcome := none, part := false, firstCause := none, count := 0 } }
      answers (stored r') r')
    ∧ (r.state = .armed → a.placements = none →
      (e = none ∨ e = r.e →
        let r' : Avail := { r with d := d, timeSource := source }
        answers (stored r') r')
      ∧ ∀ new, e = some new → e ≠ r.e →
        let r' : Avail := { r with d := d, timeSource := .fixed, e := some new }
        (∃ stage : Nat → State, stage 0 = stored r'
          ∧ (∀ j q, r.placements[j]? = some q → Retested ⟨r.key, j⟩ new q (stage j) (stage (j + 1)))
          ∧ ∃ r'', findRec r.key (stage r.placements.length) = some r'' ∧ answers (stage r.placements.length) r'')
        ∧ (∀ q, r.placements = [q] → q.state = .waiting → answers (stored r') r')
        ∧ ∀ q l, r.placements = [q] → q.state = .laned → q.bound = some l →
          (s.lanes.get l).bound = some ⟨r.key, 0⟩ →
          (s.lanes.get l).state = .opening ∨ (s.lanes.get l).state = .ready →
          (∀ m p, (s.lanes.get m).bound = some p → p.key = r.key → p = ⟨r.key, 0⟩) →
          let passes : Prop := ∀ (m : Fin 16) (p : PRef) (other : Avail) (e' : Time), m.val / 4 = l.val / 4 →
            (s.lanes.get m).bound = some p → p.key ≠ r.key → findRec p.key s = some other → other.e = some e' →
            s.groupGuard ≤ absDiff new e'
          let waits : Avail := { r' with placements := [{ q with state := .waiting, bound := none }] }
          let back : State :=
            { s with
              avails := s.avails.map fun x => if x.key = r.key then waits else x
              lanes := s.lanes.set l { s.lanes.get l with
                state := .closing, bound := none, buffer := [], entry := none, lpts := none, readers := []
                hold := true, openStart := none, closeStart := some (s.refCount / 27000) } }
          (passes → answers (stored r') r')
          ∧ (¬ passes →
            (allocate back ⟨r.key, 0⟩ q.lane new = none → answers back waits)
            ∧ ∀ m, allocate back ⟨r.key, 0⟩ q.lane new = some m →
              let again : Avail := { r' with placements := [{ q with state := .laned, bound := some m }] }
              ∃ t, answers t again ∧ findRec r.key t = some again
                ∧ (t.lanes.get m).bound = some ⟨r.key, 0⟩
                ∧ ((back.lanes.get m).state = .idle → (t.lanes.get m).state = .opening)
                ∧ ((back.lanes.get m).state ≠ .idle → (t.lanes.get m).state = (back.lanes.get m).state)
                ∧ ∀ n, n ≠ m → t.lanes.get n = back.lanes.get n)))

/-- AVAIL_CANCEL before air retires the record and raises OUTCOME; no channel is touched, and every lane bound to one of its
placements is handed back for closing, an OPENING or READY lane entering CLOSING. A bad service index answers BAD_ARG, an
absent key NOT_FOUND (R44, R85). -/
def Obligations.CancelBeforeAirRetires : Prop :=
  (∀ (tag : Byte) (a : KeyArgs) (i : Fin 64) (r : Avail) (s : State), TableOk s →
    canServe (.availCancel tag a) s = true → a.service.toNat = i.val →
    findRec ⟨i, a.event⟩ s = some r → r.state ≠ .active →
    (∀ q ∈ s.avails, q.allDone = true → q.key.svc ≠ i ∨ q = r) →
    ∃ t, exec (.availCancel tag a) s = .next (answered tag kAvailCancel .ok [] t)
      ∧ t.avails = s.avails.filter (fun q => decide (q.key ≠ r.key))
      ∧ t.channels = s.channels ∧ t.ports = s.ports ∧ t.alerts = s.alerts
      ∧ (∀ l, (∀ q ∈ r.placements, q.bound ≠ some l) → t.lanes.get l = s.lanes.get l)
      ∧ (s.mask.getLsbD 1 = true → (t.attn.get (svcSource i)).getLsbD 1 = true)
      ∧ ∀ v, s.services.get i = some v → ∃ o, t.services.get i = some { v with last := some o }
          ∧ o.event = r.key.event ∧ o.origin = r.origin
          ∧ ((∀ q ∈ r.placements, q.state ≠ .done) → o.placements = r.placements.map fun q => (.cancelled, q.part)))
  ∧ (∀ (tag : Byte) (a : KeyArgs) (i : Fin 64) (r : Avail) (s : State), canServe (.availCancel tag a) s = true →
    a.service.toNat = i.val → findRec ⟨i, a.event⟩ s = some r → r.state ≠ .active →
    ∃ t, exec (.availCancel tag a) s = .next (answered tag kAvailCancel .ok [] t)
      ∧ ∀ j q l, r.placements[j]? = some q → q.state ≠ .done → q.bound = some l →
        (s.lanes.get l).bound = some ⟨r.key, j⟩ →
        let ln := s.lanes.get l
        (ln.state = .opening ∨ ln.state = .ready → t.lanes.get l =
          { ln with
            state := .closing, bound := none, buffer := [], entry := none, lpts := none, readers := []
            hold := true, openStart := none, closeStart := some (s.refCount / 27000) })
        ∧ (ln.state ≠ .opening → ln.state ≠ .ready → t.lanes.get l = { ln with bound := none }))
  ∧ (∀ (tag : Byte) (a : KeyArgs) (s : State), canServe (.availCancel tag a) s = true →
    (64 ≤ a.service.toNat → exec (.availCancel tag a) s = .next (answered tag kAvailCancel .badArg [] s))
    ∧ ∀ i : Fin 64, a.service.toNat = i.val → findRec ⟨i, a.event⟩ s = none →
      exec (.availCancel tag a) s = .next (answered tag kAvailCancel .notFound [] s))

/-- AVAIL_CANCEL and AVAIL_RETURN on an ACTIVE record ask every channel that draws for it back at the next beat
with CUT, once (R45, R46); AVAIL_RETURN on any other record answers STATE, on an absent key NOT_FOUND, on a bad
service index BAD_ARG. -/
def Obligations.CancelAndReturnOnAirAskCut : Prop :=
  ∀ (tag : Byte) (a : KeyArgs) (s : State),
    let after (r : Avail) : State :=
      if r.cutAsked then s
      else
        { s with
          avails := s.avails.map fun q => if q.key = r.key then { q with cutAsked := true } else q
          channels := s.channels.mapIdx fun _ o => o.map fun ch =>
            if ch.drawsFor.map (fun p => p.key) = some r.key then ch.withAskedReturn .cut else ch }
    (canServe (.availCancel tag a) s = true → ∀ (i : Fin 64) r, a.service.toNat = i.val →
      findRec ⟨i, a.event⟩ s = some r → r.state = .active →
      exec (.availCancel tag a) s = .next (answered tag kAvailCancel .ok [] (after r)))
    ∧ (canServe (.availReturn tag a) s = true →
      (64 ≤ a.service.toNat → exec (.availReturn tag a) s = .next (answered tag kAvailReturn .badArg [] s))
      ∧ ∀ i : Fin 64, a.service.toNat = i.val →
        (findRec ⟨i, a.event⟩ s = none →
          exec (.availReturn tag a) s = .next (answered tag kAvailReturn .notFound [] s))
        ∧ ∀ r, findRec ⟨i, a.event⟩ s = some r →
          (r.state = .active →
            exec (.availReturn tag a) s = .next (answered tag kAvailReturn .ok [] (after r)))
          ∧ (r.state ≠ .active →
            exec (.availReturn tag a) s = .next (answered tag kAvailReturn .state [] s)))

/-- AVAIL_CONFIRM moves a HELD record to PENDING and AVAIL_DECLINE retires it DECLINED; a record in any other state
answers LATE; an absent key answers LATE after an UNCONFIRMED drop, NOT_FOUND otherwise (R38, R39). -/
def Obligations.ConfirmAndDecline : Prop :=
  (∀ (tag : Byte) (a : KeyArgs) (i : Fin 64) (r : Avail) (s : State), TableOk s → a.service.toNat = i.val →
    findRec ⟨i, a.event⟩ s = some r →
    (canServe (.availConfirm tag a) s = true →
      (r.state = .held → exec (.availConfirm tag a) s =
        .next (answered tag kAvailConfirm .ok []
          { s with avails := s.avails.map fun q => if q.key = r.key then { r with state := .pending } else q }))
      ∧ (r.state ≠ .held → exec (.availConfirm tag a) s = .next (answered tag kAvailConfirm .late [] s)))
    ∧ (canServe (.availDecline tag a) s = true →
      (r.state = .held → (∀ q ∈ s.avails, q.allDone = true → q.key.svc ≠ i ∨ q = r) →
        ∃ t, exec (.availDecline tag a) s = .next (answered tag kAvailDecline .ok [] t)
          ∧ t.avails = s.avails.filter (fun q => decide (q.key ≠ r.key)) ∧ t.channels = s.channels
          ∧ ((∀ q ∈ r.placements, q.state ≠ .done) → s.services.get i ≠ none →
            (t.services.get i).bind (fun w => w.last.map fun o => o.placements) =
              some (r.placements.map fun q => (.declined, q.part))))
      ∧ (r.state ≠ .held → exec (.availDecline tag a) s = .next (answered tag kAvailDecline .late [] s))))
  ∧ (∀ (tag : Byte) (a : KeyArgs) (s : State),
    let answers (code : Code) : Prop :=
      (canServe (.availConfirm tag a) s = true →
        exec (.availConfirm tag a) s = .next (answered tag kAvailConfirm code [] s))
      ∧ (canServe (.availDecline tag a) s = true →
        exec (.availDecline tag a) s = .next (answered tag kAvailDecline code [] s))
    (64 ≤ a.service.toNat → answers .badArg)
    ∧ ∀ i : Fin 64, a.service.toNat = i.val → findRec ⟨i, a.event⟩ s = none →
      let dropped : Prop := ∃ v o, s.services.get i = some v ∧ v.last = some o ∧ o.event = a.event
        ∧ ∀ p ∈ o.placements, p.1 = .unconfirmed
      (dropped → answers .late) ∧ (¬ dropped → answers .notFound))

/-- AVAIL_WALK answers with the first record after the cursor, of the filter's service, in table order, and moves
the cursor there; with none left it answers an empty body and the cursor goes to start; a bad filter or restart
flag moves nothing (R23, R183). Table order goes by service, then records with an E by their distance from the order
reference, then those without, and equals by creation (R21); the cursor stands at the place of the record it named, or
where that record would sort. The order reference 0 of a service that is not defined is the model's (log 35). -/
def Obligations.AvailWalkTakesNextRecord : Prop :=
  (∀ (tag : Byte) (a : WalkArgs) (s : State), canServe (.availWalk tag a) s = true →
    (2 ≤ a.restart.toNat ∨ (64 ≤ a.filter.toNat ∧ a.filter ≠ 0xFF) →
      exec (.availWalk tag a) s = .next (answered tag kAvailWalk .badArg [] s))
    ∧ (a.restart.toNat < 2 → a.filter.toNat < 64 ∨ a.filter = 0xFF →
      let start : Option WalkPos := if a.restart = 1 then none else s.walk
      let eligible (r : Avail) : Prop :=
        (∀ w, start = some w → lexLt (w.place s) (r.sortKey s) = true)
          ∧ (a.filter ≠ 0xFF → r.key.svc.val = a.filter.toNat)
      ((∀ r ∈ s.avails, ¬ eligible r) →
        exec (.availWalk tag a) s = .next (answered tag kAvailWalk .ok [] { s with walk := none }))
      ∧ ((∃ r ∈ s.avails, eligible r) →
        ∃ r ∈ s.avails, eligible r ∧ (∀ q ∈ s.avails, eligible q → lexLt (q.sortKey s) (r.sortKey s) = false)
          ∧ exec (.availWalk tag a) s =
            .next (answered tag kAvailWalk .ok (availBody s r)
              { s with walk := some ⟨r.key, r.e, r.creation⟩ }))))
  ∧ (∀ (s : State) (q r : Avail),
    let before : Prop := lexLt (q.sortKey s) (r.sortKey s) = true
    let reference : Time := match s.services.get q.key.svc with
      | none => 0
      | some v => match v.tb.t with
        | some t => t
        | none => v.lastT
    (q.key.svc.val < r.key.svc.val → before) ∧ (r.key.svc.val < q.key.svc.val → ¬ before)
    ∧ (q.key.svc = r.key.svc →
      (∀ e e', q.e = some e → r.e = some e' →
        (before ↔ Machine.dist e reference < Machine.dist e' reference
          ∨ (Machine.dist e reference = Machine.dist e' reference ∧ q.creation < r.creation)))
      ∧ (q.e ≠ none → r.e = none → before) ∧ (q.e = none → r.e ≠ none → ¬ before)
      ∧ (q.e = none → r.e = none → (before ↔ q.creation < r.creation))))
  ∧ (∀ (s : State) (w : WalkPos) (r : Avail),
    (findRec w.key s = some r → r.creation = w.creation → w.place s = r.sortKey s)
    ∧ ((∀ q, findRec w.key s = some q → q.creation ≠ w.creation) → r.key = w.key → r.e = w.e →
        r.creation = w.creation → w.place s = r.sortKey s))

/-! ## Insert lanes (chapter 4) -/

/-- LANE_SET: its checks in order, and on an IDLE lane the whole configuration, with the full-reset value of section
4.1 for every field the request omits and the two tuning fields clamped; the last fault becomes none. A lane number
from 16 up, a PID above 0x1FFE, two equal component PIDs, a PCR PID that is no component and an end-of-segment PID
that is one answer BAD_ARG, a lane that is not IDLE STATE (R68). LANE_CLOSE sends a kept-open lane to CLOSING, leaves
an AVAIL lane in IDLE or CLOSING as it is, and refuses a lane that is bound, STANDING (but in CLOSING), or unbound
ON_AIR (R86; log 37). A lane is kept open while no enabled alert record names it, no placement is bound to it, and it
is OPENING or READY (R83). -/
def Obligations.LaneSetAndClose : Prop :=
  (∀ (tag : Byte) (a : LaneSetArgs) (s : State), canServe (.laneSet tag a) s = true →
    let refused (code : Code) : Prop := exec (.laneSet tag a) s = .next (answered tag kLaneSet code [] s)
    let high (w : BitVec 16) : Prop := 0x1FFE < w.toNat
    let tooHigh : Prop := (∃ w, a.pids.video = some w ∧ high w) ∨ (∃ w, a.pcrPid = some w ∧ high w)
      ∨ (∃ x w, x ≠ Role.video ∧ a.pids.get x = some w ∧ high w ∧ w ≠ 0xFFFF)
      ∨ (∃ w code, a.eos = some (w, code) ∧ high w ∧ w ≠ 0xFFFF)
    (16 ≤ a.lane.toNat ∨ tooHigh → refused .badArg)
    ∧ ∀ l : Fin 16, a.lane.toNat = l.val → ¬ tooHigh →
      let pid (w : BitVec 16) : Pid := BitVec.ofNat 13 w.toNat
      let optional (given : Option (BitVec 16)) (omitted : Option Pid) : Option Pid :=
        match given with
        | some w => if w = 0xFFFF then none else some (pid w)
        | none => omitted
      let cfg : LaneCfg :=
        { video := (a.pids.video.map pid).getD 0x100
          audio1 := optional a.pids.audio1 (some 0x101)
          audio2 := optional a.pids.audio2 none
          audio3 := optional a.pids.audio3 none
          pcrPid := (a.pcrPid.map pid).getD 0x100
          preroll := (a.preroll.map fun n => (max 64 (min 2048 n.toInt)).toNat).getD 512
          eos := a.eos.bind fun m => if m.1 = 0xFFFF then none else some (pid m.1, m.2)
          openTimeout := (a.openTimeout.map fun n => (max 100 (min 10000 n.toInt)).toNat).getD 3000 }
      let repeated : Prop := ∃ x y, x ≠ y ∧ cfg.pid x ≠ none ∧ cfg.pid x = cfg.pid y
      let noPcr : Prop := ∀ x, cfg.pid x ≠ some cfg.pcrPid
      let endTaken : Prop := ∃ m x, cfg.eos = some m ∧ cfg.pid x = some m.1
      (repeated ∨ noPcr ∨ endTaken → refused .badArg)
      ∧ (¬ repeated → ¬ noPcr → ¬ endTaken →
        ((s.lanes.get l).state ≠ .idle → refused .state)
        ∧ ((s.lanes.get l).state = .idle →
          exec (.laneSet tag a) s =
            .next (answered tag kLaneSet .ok (laneConfig l cfg)
              { s with lanes := s.lanes.set l { s.lanes.get l with cfg := cfg, lastFault := .none } }))))
  ∧ (∀ (tag b : Byte) (s : State), canServe (.laneClose tag b) s = true →
    (16 ≤ b.toNat → exec (.laneClose tag b) s = .next (answered tag kLaneClose .badArg [] s))
    ∧ ∀ l : Fin 16, b.toNat = l.val →
      let ln := s.lanes.get l
      (isKeptOpen s l = true →
        exec (.laneClose tag b) s =
          .next (answered tag kLaneClose .ok []
            { s with lanes := s.lanes.set l { ln with
                state := .closing, buffer := [], entry := none, lpts := none, readers := [], hold := true
                openStart := none, closeStart := some (s.refCount / 27000) } }))
      ∧ (isKeptOpen s l = false →
        (ln.state = .idle ∨ ln.state = .closing →
          exec (.laneClose tag b) s = .next (answered tag kLaneClose .ok [] s))
        ∧ (ln.state ≠ .idle → ln.state ≠ .closing →
          exec (.laneClose tag b) s = .next (answered tag kLaneClose .state [] s))))
  ∧ (∀ (s : State) (l : Fin 16), isKeptOpen s l = true ↔
    (∀ a, (s.alerts.get a).enabled = true → (s.alerts.get a).lane ≠ l) ∧ (s.lanes.get l).bound = none
      ∧ ((s.lanes.get l).state = .opening ∨ (s.lanes.get l).state = .ready))

/-- LANE_GUARD_SET stores the clamped value unless two placements bound in one group are closer (R92). -/
def Obligations.LaneGuardSetChecksBoundPlacements : Prop :=
  ∀ (tag : Byte) (v : BitVec 32) (s : State), canServe (.laneGuardSet tag v) s = true →
    let g : Nat := (max 0 (min 90000 v.toInt)).toNat
    let close : Prop := ∃ l m : Fin 16, l ≠ m ∧ l.val / 4 = m.val / 4 ∧ ∃ p q r r' e e',
      (s.lanes.get l).bound = some p ∧ (s.lanes.get m).bound = some q ∧ findRec p.key s = some r
        ∧ findRec q.key s = some r' ∧ r.e = some e ∧ r'.e = some e' ∧ absDiff e e' < g
    (close → exec (.laneGuardSet tag v) s = .next (answered tag kLaneGuardSet .state [] s))
    ∧ (¬ close → exec (.laneGuardSet tag v) s =
      .next (answered tag kLaneGuardSet .ok (be 4 g) { s with groupGuard := g }))

/-- Which lanes are eligible (R87); a grant goes to an eligible lane whose group's bound placements lie at least
group_guard away, a named lane is granted exactly when it meets both, and ANY takes the lowest lane of the least busy
group and is refused only when no lane meets both (R88 to R90). -/
def Obligations.AllocationRespectsGuard : Prop :=
  (∀ (s : State) (l : Fin 16),
    let named : Prop := ∃ a, (s.alerts.get a).enabled = true ∧ (s.alerts.get a).lane = l
    let keptOpen : Prop := ¬ named ∧ (s.lanes.get l).bound = none
      ∧ ((s.lanes.get l).state = .opening ∨ (s.lanes.get l).state = .ready)
    isEligible s l = true ↔
      (s.lanes.get l).bound = none ∧ ¬ named ∧ ((s.lanes.get l).state = .idle ∨ keptOpen))
  ∧ (∀ (s : State) (p : PRef) (e : Time),
    let grantable (l : Fin 16) : Prop := isEligible s l = true
      ∧ ∀ (m : Fin 16) (q : PRef) (r : Avail) (e' : Time), m.val / 4 = l.val / 4 →
          (s.lanes.get m).bound = some q → q ≠ p → findRec q.key s = some r → r.e = some e' →
          s.groupGuard ≤ absDiff e e'
    let busy (g : Fin 4) : Nat :=
      ((List.finRange 16).filter fun m => decide (m.val / 4 = g.val ∧ (s.lanes.get m).state ≠ .idle)).length
    (∀ l, (grantable l → allocate s p (some l) e = some l)
      ∧ (¬ grantable l → allocate s p (some l) e = none))
    ∧ (∀ l, allocate s p none e = some l → grantable l
        ∧ ∀ m, grantable m → (m.val / 4 = l.val / 4 → l.val ≤ m.val)
          ∧ (m.val / 4 ≠ l.val / 4 →
              busy (groupOf l) < busy (groupOf m)
                ∨ (busy (groupOf l) = busy (groupOf m) ∧ l.val < m.val)))
    ∧ (allocate s p none e = none → ∀ l, ¬ grantable l))

/-- The class of a packet by the lane's configuration: one with the transport error indicator has none; on the VIDEO
PID it is VIDEO, and a RAP with its PTS when it has payload start, random access and a PES header whose timestamps lie
whole within it; on another component PID it is that audio role; on the end-of-segment PID, in a lane that is not
STANDING, it is an end-of-segment packet when it has payload start and the code as its first payload byte, 0x00 for a
PES header (the model's, log 5); any other has none (R67, R104). A packet accepted on a lane's input, by the lane's
state: discarded in IDLE and CLOSING; in OPENING without an entry only a RAP is kept, and becomes the entry; from then
on every classified packet is appended below 4 096 packets, HOLD rises at 4 032, and the arrival that completes
preroll and PCR makes the lane READY, which a STANDING lane reports. In READY and ON_AIR an AVAIL lane drops what
meets a full buffer; a STANDING lane first rolls to the next RAP, from the oldest packet up to the first one a cursor
has not passed, and then appends or drops. In ON_AIR what every drawing reader has passed is then freed, and in a
STANDING lane the mark follows. No other lane is touched (R67, R72, R73, R75, R76, R78, R80; at a full buffer the roll
is R72's, log 10). That an AVAIL lane in ON_AIR keeps its entry mark and L_pts after the entry RAP has been freed is
the model's reading (log 12), and so are that a RAP appended there where no entry is left does not become the entry
(log 50) and that a roll judges an end-of-segment packet by the VIDEO cursors (log 54). -/
def Obligations.LanePacketByState : Prop :=
  (∀ (s : State) (l : Fin 16), isStanding s l = true ↔ ∃ a, (s.alerts.get a).enabled = true ∧ (s.alerts.get a).lane = l)
  ∧ (∀ (standing : Bool) (c : LaneCfg) (p : Packet),
    let found := classify standing c p
    let first : Option Byte := match p.payload with
      | some (.bytes b) => b.head?
      | some (.pes _ _) => some 0x00
      | none => none
    let rapAt (t : Time) : Prop := p.pusi = true ∧ (∃ a, p.af = some (.holds a) ∧ a.randomAccess = true)
      ∧ ∃ h rest, p.payload = some (.pes h rest) ∧ h.pts = .whole t ∧ h.dts ≠ .cut
    (p.tei = true → found = none)
    ∧ (p.tei = false →
      (c.video = p.pid → (∀ t, rapAt t → found = some (.role .video (some t)))
        ∧ ((∀ t, ¬ rapAt t) → found = some (.role .video none)))
      ∧ (c.video ≠ p.pid → (∃ x, c.pid x = some p.pid) →
        ∃ x, x ≠ .video ∧ c.pid x = some p.pid ∧ found = some (.role x none))
      ∧ ((∀ x, c.pid x ≠ some p.pid) →
        let ends : Prop := standing = false ∧ p.pusi = true ∧ ∃ code, c.eos = some (p.pid, code) ∧ first = some code
        (ends → found = some .eos) ∧ (¬ ends → found = none)))
    ∧ ∀ x, pktPcr p = some x ↔ ∃ a, p.af = some (.holds a) ∧ a.pcr = some x)
  ∧ ∀ (l : Fin 16) (pk : Packet) (s : State), s.resetLow = false → (s.laneIn.get l).synced = true →
    let standing := isStanding s l
    let ln := s.lanes.get l
    let accepted (x : Lane) : State :=
      { s with
        laneIn := s.laneIn.set l { s.laneIn.get l with misses := 0 }
        lanes := s.lanes.set l x }
    let leaves (x : Lane) : Prop := exec (.lanePacket l pk) s = .next (accepted x)
    (classify standing ln.cfg pk = none ∨ ln.state = .idle ∨ ln.state = .closing → leaves ln)
    ∧ ∀ cls, classify standing ln.cfg pk = some cls →
      let appended (x : Lane) : Lane :=
        { x with
          buffer := x.buffer ++ [⟨x.nextSeq, cls, pk⟩], nextSeq := x.nextSeq + 1
          hold := x.hold || decide (4032 ≤ x.buffer.length + 1)
          pcrSeen := x.pcrSeen || (decide (cls ≠ .eos) && decide (pk.pid = ln.cfg.pcrPid) && (pktPcr pk).isSome) }
      let opened (x : Lane) : Prop :=
        let ready : Lane := { x with state := .ready, openStart := none }
        let met : Prop := ln.cfg.preroll ≤ x.buffer.length ∧ x.pcrSeen = true
        (¬ met → leaves x)
        ∧ (met → standing = false ∨ ln.faulted = true → leaves ready)
        ∧ (met → standing = true → ln.faulted = false →
          exec (.lanePacket l pk) s = .next (laneServes l (accepted ready)))
      let kept (r : Lane) : Lane := if r.buffer.length < 4096 then appended r else r
      let keptMarked (r : Lane) : Lane :=
        match cls with
        | .role _ (some t) =>
          if r.entry = none ∧ r.buffer.length < 4096 then { appended r with entry := some r.nextSeq, lpts := some t }
          else kept r
        | _ => kept r
      let stays (b : BufPkt) : Bool :=
        match b.cls with
        | .role x _ => ln.readers.any fun r => draws s l r.chan x &&
            match r.cursors.get x with
            | some c => decide (c ≤ b.seq)
            | none => true
        | .eos => ln.readers.any fun r =>
            match r.cursors.video with
            | some c => decide (c ≤ b.seq)
            | none => true
      let freed (x : Lane) : Lane :=
        { x with
          buffer := x.buffer.filter stays
          hold := x.hold && decide (3584 < (x.buffer.filter stays).length) }
      let marked (x : Lane) : Lane :=
        if x.entry = none ∨ (∃ b ∈ x.buffer, some b.seq = x.entry) then x
        else match x.buffer.find? fun b => b.rap.isSome with
          | some b => { x with entry := some b.seq, lpts := b.rap }
          | none => { x with entry := none, lpts := none }
      let onward (r : Lane) : Prop :=
        (ln.state = .ready → leaves (keptMarked r))
        ∧ (ln.state = .onAir → ln.readers ≠ [] → leaves (marked (freed (keptMarked r))))
      (ln.state = .opening → ln.entry = none → (∀ x t, cls ≠ .role x (some t)) → leaves ln)
      ∧ (∀ x pts, cls = .role x (some pts) → ln.state = .opening → ln.entry = none → ln.buffer.length < 4096 →
          opened { appended ln with entry := some ln.nextSeq, lpts := some pts })
      ∧ (ln.state = .opening → ln.entry ≠ none →
          (ln.buffer.length < 4096 → opened (appended ln))
          ∧ (4096 ≤ ln.buffer.length → ln.pcrSeen = false → leaves ln))
      ∧ (standing = false →
          (ln.state = .ready → leaves (kept ln))
          ∧ (ln.state = .onAir → ln.readers ≠ [] → leaves (freed (kept ln))))
      ∧ (standing = true →
          let due : Prop := ln.buffer.length + 1 = 4032 ∨ 4096 ≤ ln.buffer.length
          (¬ due → onward ln)
          ∧ (ln.entry = none → onward ln)
          ∧ ∀ e, ln.entry = some e → due →
            (∀ n, ln.buffer.find? (fun b => b.rap.isSome && decide (e < b.seq)) = some n →
              let goes (b : BufPkt) : Prop := b.seq < n.seq ∧ ∀ r ∈ ln.readers, ∀ c,
                r.cursors.get (match b.cls with | .role x _ => x | .eos => .video) = some c → b.seq < c
              ∀ gone rest, ln.buffer = gone ++ rest → (∀ b ∈ gone, goes b) →
                (∀ b, rest.head? = some b → ¬ goes b) →
                onward { ln with
                  entry := some n.seq, lpts := n.rap, buffer := rest
                  hold := ln.hold && decide (3584 < rest.length) })
            ∧ (ln.buffer.find? (fun b => b.rap.isSome && decide (e < b.seq)) = none → onward ln))

/-- The open timeout faults and closes a lane and ends its placement with LANE_FAULT, and where that was its record's
last one not DONE the record is retired and OUTCOME raised (R77, R34, R37, R15); the closing timer takes an AVAIL lane
to IDLE and a STANDING lane to OPENING (R84, R74); a starvation timer marks a lane and asks every reader's channel back
with LANE_FAULT, once: on a lane already faulted it only stops the timers (R82; log 33), and on a STANDING lane it gives
NETWORK to the channels on it or sent to it and has the zones whose alert names it wait, with ALERT_LANE_NOT_READY
(R152). Due times are the model's (log 3), and so are the faulted mark that stays in IDLE (log 30) and the STARVATION
command of one reader (log 33). -/
def Obligations.LaneTimers : Prop :=
  (∀ (l : Fin 16) (s : State), s.resetLow = false →
    let ln := s.lanes.get l
    (ln.state ≠ .opening ∨ ln.openStart = none → exec (.openTimeout l) s = .next s)
    ∧ ∀ start, ln.state = .opening → ln.openStart = some start →
      ∃ t, exec (.openTimeout l) s = .next t ∧ t.refCount = countAt (start + ln.cfg.openTimeout) s
        ∧ t.lanes.get l = { ln with
            state := .closing, bound := none, buffer := [], entry := none, lpts := none, readers := []
            hold := true, openStart := none, closeStart := some (t.refCount / 27000)
            lastFault := .openTimeout }
        ∧ (s.mask.getLsbD 5 = true → (t.attn.get (laneSource l)).getLsbD 5 = true)
        ∧ t.channels = s.channels ∧ t.ports = s.ports
        ∧ (ln.bound = none → ∀ m, m ≠ l → t.lanes.get m = s.lanes.get m)
        ∧ ∀ p r q, ln.bound = some p → findRec p.key s = some r → r.placements[p.idx]? = some q →
            q.state = .laned → q.bound = some l → (s.avails.map fun r => r.key).Nodup →
            let ended : Placement := { q with state := .done, outcome := some .laneFault, bound := none }
            ((∃ j q', r.placements[j]? = some q' ∧ j ≠ p.idx ∧ q'.state ≠ .done) → findPlacement p t = some ended)
            ∧ ((∀ j q', r.placements[j]? = some q' → j ≠ p.idx → q'.state = .done) →
              findRec p.key t = none
              ∧ (s.mask.getLsbD 1 = true → (t.attn.get (svcSource p.key.svc)).getLsbD 1 = true)
              ∧ ((∀ x ∈ s.avails, x.key.svc = p.key.svc → x.key ≠ p.key → ∃ q' ∈ x.placements, q'.state ≠ .done) →
                t.avails = s.avails.filter (fun x => decide (x.key ≠ p.key))
                ∧ ∀ v, s.services.get p.key.svc = some v →
                  let result : LastOutcome :=
                    { event := r.key.event, origin := r.origin
                      placements := (r.placements.set p.idx ended).filterMap fun q' =>
                        q'.outcome.map fun o => (o, q'.part)
                      pOut := r.pOut, spliceErr := r.spliceErr }
                  t.services.get p.key.svc = some { v with last := some result })))
  ∧ (∀ (l : Fin 16) (s : State), s.resetLow = false →
    let ln := s.lanes.get l
    (ln.state ≠ .closing ∨ ln.closeStart = none → exec (.closingTimerExpiry l) s = .next s)
    ∧ ∀ start, ln.state = .closing → ln.closeStart = some start →
      let n := countAt (start + 40) s
      let after : Lane :=
        if isStanding s l then
          { ln with
            state := .opening, buffer := [], entry := none, lpts := none, readers := [], pcrSeen := false
            faulted := false, hold := false, openStart := some (n / 27000), closeStart := none }
        else
          { ln with
            state := .idle, buffer := [], entry := none, lpts := none, readers := [], hold := true
            openStart := none, closeStart := none }
      exec (.closingTimerExpiry l) s = .next { s with refCount := n, lanes := s.lanes.set l after })
  ∧ (∀ (l : Fin 16) (c : Fin 128) (s : State), s.resetLow = false →
    let ln := s.lanes.get l
    ((∀ r, ln.reader c = some r → r.starve = none) → exec (.starvation l c) s = .next s)
    ∧ (∀ r start, ln.reader c = some r → r.starve = some start → ln.faulted = true →
      exec (.starvation l c) s =
        .next { s with
          refCount := countAt (start + 500) s
          lanes := s.lanes.set l { ln with readers := ln.readers.map fun r => { r with starve := none } } })
    ∧ (∀ r start, ln.reader c = some r → r.starve = some start → isStanding s l = false →
      ln.faulted = false →
      ∃ t, exec (.starvation l c) s = .next t ∧ t.refCount = countAt (start + 500) s
        ∧ t.lanes = s.lanes.set l { ln with
            faulted := true, lastFault := .starved
            readers := ln.readers.map fun r => { r with starve := none } }
        ∧ (s.mask.getLsbD 5 = true → (t.attn.get (laneSource l)).getLsbD 5 = true)
        ∧ t.avails = s.avails ∧ t.services = s.services ∧ t.zones = s.zones ∧ t.ports = s.ports
        ∧ ∀ d, t.channels.get d = (s.channels.get d).map fun ch =>
            if d ∈ ln.readers.map (fun r => r.chan) then ch.withAskedReturn .laneFault else ch)
    ∧ ∀ r start, ln.reader c = some r → r.starve = some start → isStanding s l = true → ln.faulted = false →
      ∃ t, exec (.starvation l c) s = .next t ∧ t.refCount = countAt (start + 500) s
        ∧ t.lanes = s.lanes.set l { ln with
            faulted := true, lastFault := .starved
            readers := ln.readers.map fun r => { r with starve := none } }
        ∧ (s.mask.getLsbD 5 = true → (t.attn.get (laneSource l)).getLsbD 5 = true)
        ∧ t.avails = s.avails ∧ t.services = s.services ∧ t.ports = s.ports ∧ t.alerts = s.alerts
        ∧ (∀ d ch, s.channels.get d = some ch →
          let asked := if d ∈ ln.readers.map (fun r => r.chan) then ch.withAskedReturn .laneFault else ch
          let sentThere : Prop := ∃ p h, ch.pending = some p ∧ p.target = .lane l h
          (ch.lane = some l → t.channels.get d = some { ch with
            pending := some ⟨.network, .coverage, if ch.drawsFor.isSome then some .preempted else none⟩ })
          ∧ (ch.lane ≠ some l → sentThere → ch.lane = none → t.channels.get d = some { ch with pending := none })
          ∧ (ch.lane ≠ some l → sentThere → ch.lane ≠ none → t.channels.get d = some { ch with
            pending := some ⟨.network, .coverage, if ch.drawsFor.isSome then some .preempted else none⟩ })
          ∧ (ch.lane ≠ some l → ¬ sentThere → t.channels.get d = some asked))
        ∧ ∀ z, (∀ al, (s.zones.get z).cover = some al → (s.alerts.get al).lane = l →
              t.zones.get z = { s.zones.get z with waiting := true }
              ∧ (s.mask.getLsbD 8 = true → (t.attn.get (alertSource al)).getLsbD 8 = true))
          ∧ ((∀ al, (s.zones.get z).cover = some al → (s.alerts.get al).lane ≠ l) →
              t.zones.get z = s.zones.get z))

/-! ## Network cues (chapter 3) -/

/-- A cue section reads back as the cue it was made from, whatever follows it; a section that fails a check of R50 is
no cue. A packet with payload start on the cue PID is read: a valid cue is taken, anything else raises CUE_CORRUPT;
any other packet is not read (R49 to R51, R192). -/
def Obligations.CueSectionsRead : Prop :=
  (∀ (c : Cue) (extra : List Byte), c.duration ≠ some 0 → readCue (cueSection c ++ extra) = some c)
  ∧ (∀ bs : List Byte,
    let n := (bs.getD 1 0).toNat
    let flags := bs.getD 7 0
    let implied := 10 + (if flags.getLsbD 7 then 5 else 0) + (if flags.getLsbD 6 then 4 else 0)
    (bs.head? ≠ some 0xC7 ∨ bs.length < 2 ∨ bs.length < 2 + n
      ∨ (crc32 (bs.take (n - 2))).toNat ≠ natBe ((bs.drop (n - 2)).take 4)
      ∨ (bs.getD 2 0 ≠ 1 ∧ bs.getD 2 0 ≠ 2 ∧ bs.getD 2 0 ≠ 3) ∨ n ≠ implied
      ∨ (flags.getLsbD 6 = true ∧ natBe ((bs.drop (if flags.getLsbD 7 then 13 else 8)).take 4) = 0)) →
    readCue bs = none)
  ∧ (∀ (i : Fin 64) (v : Service) (pk : Packet) (s : State), s.services.get i = some v →
    (pk.pusi = false ∨ pk.payload = none → cuePacket i pk s = s)
    ∧ ∀ b, pk.pusi = true → pk.payload = some (.bytes b) →
      (readCue b = none → cuePacket i pk s = raise (svcSource i) .cueCorrupt s)
      ∧ ∀ c, readCue b = some c → cuePacket i pk s = takeCue i v c s)

/-- A valid INSERT whose key is not in the table: absorbed as a late repeat, discarded under IGNORE, dropped with
CUE_DROPPED, or the record of R53 added, HELD with CUE_HELD and its trigger under HOLD, PENDING under AUTO
(R52 to R55). -/
def Obligations.InsertCueCreatesRecord : Prop :=
  ∀ (i : Fin 64) (v : Service) (c : Cue) (s : State), c.kind = .insert → findRec ⟨i, c.event⟩ s = none →
    let adjusted (t : Time) : Time := t + BitVec.ofInt 33 v.spliceAdjust
    let late : Prop := ∃ o, v.last = some o ∧ o.event = c.event
      ∧ (c.time = none ∨ ∃ x now, c.time = some x ∧ v.tb.t = some now ∧ isBehind (adjusted x) now = true)
    let e : Option Time :=
      match c.time with
      | some x => some (adjusted x)
      | none => if v.tb.state = .locked then v.tb.t.map (fun now => now + BitVec.ofNat 33 v.immLead) else none
    (late → takeCue i v c s = s)
    ∧ (¬ late → v.policy = .ignore → takeCue i v c s = s)
    ∧ (¬ late → v.policy ≠ .ignore →
      (v.templates.get c.cls = [] ∨ 512 ≤ s.avails.length ∨ 32 ≤ recCount s i ∨ e = none →
        takeCue i v c s = raise (svcSource i) .cueDropped s)
      ∧ (v.templates.get c.cls ≠ [] → s.avails.length < 512 → recCount s i < 32 → ∀ x, e = some x →
        let added (st : AvailState) : State :=
          { s with
            created := s.created + 1
            avails := s.avails ++
              [{ key := ⟨i, c.event⟩, origin := .network, timeSource := .fixed, e := some x, d := c.duration
                 placements := (v.templates.get c.cls).map fun p =>
                   { zones := p.zones, lane := p.lane, keepOpen := p.keepOpen, bound := none, state := .waiting
                     outcome := none, part := false, firstCause := none, count := 0 }
                 state := st, pOut := none, spliceErr := none, r := none, creation := s.created
                 cutAsked := false }] }
        (v.policy = .auto → takeCue i v c s = added .pending)
        ∧ (v.policy = .hold →
          takeCue i v c s = deliverTrigger .cueHeld i (raise (svcSource i) .cueHeld (added .held)))))

/-- A valid cue on a record in the table. INSERT binds an AWAIT_CUE record, or is dropped where its E needs a LOCKED
service (R57); it writes the E and D it carries into a HELD or PENDING record (R58) and into an ARMED one, whose LANED
placements are tested under the guard with a changed E, in placement order and each but for itself, and ask again if
they fail (R59, R42, R88; the time source stays, log 43); on an ACTIVE record only a changed D acts, moving R (R60).
CANCEL acts as AVAIL_CANCEL does (R61). An untimed RETURN acts as AVAIL_RETURN on an ACTIVE record; a timed one gives
its channels on air their cue return target, unless a return at the next beat has been asked (R62, R63). CANCEL and
RETURN for an absent key change nothing. -/
def Obligations.CuesOnKnownRecords : Prop :=
  (∀ (i : Fin 64) (v : Service) (c : Cue) (r : Avail) (s : State), findRec ⟨i, c.event⟩ s = some r →
    let adjusted (t : Time) : Time := t + BitVec.ofInt 33 v.spliceAdjust
    let leaves (t : State) : Prop := takeCue i v c s = t
    let stored (r' : Avail) : State :=
      { s with avails := s.avails.map fun q => if q.key = r.key then r' else q }
    (c.kind = .insert → r.state = .awaitCue → (s.avails.map fun q => q.key).Nodup →
      let bound (e : Time) : State :=
        stored { r with
          state := .pending, e := some e
          d := match r.d with
            | some d => some d
            | none => c.duration }
      (∀ x, c.time = some x → leaves (bound (adjusted x)))
      ∧ (c.time = none →
        (∀ now, v.tb.state = .locked → v.tb.t = some now → leaves (bound (now + BitVec.ofNat 33 v.immLead)))
        ∧ (v.tb.state ≠ .locked → leaves (raise (svcSource i) .cueDropped s))))
    ∧ (c.kind = .insert → r.state = .armed → (s.avails.map fun q => q.key).Nodup →
      let r₁ : Avail :=
        { r with
          d := match c.duration with
            | some d => some d
            | none => r.d }
      ((∀ x, c.time = some x → r.e = some (adjusted x)) → leaves (stored r₁))
      ∧ ∀ x, c.time = some x → r.e ≠ some (adjusted x) →
        let new := adjusted x
        let r' : Avail := { r₁ with e := some new }
        (∃ stage : Nat → State, stage 0 = stored r'
          ∧ (∀ j q, r.placements[j]? = some q → Retested ⟨r.key, j⟩ new q (stage j) (stage (j + 1)))
          ∧ leaves (stage r.placements.length))
        ∧ (∀ q, r.placements = [q] → q.state = .waiting → leaves (stored r'))
        ∧ ∀ q l, r.placements = [q] → q.state = .laned → q.bound = some l →
          (s.lanes.get l).bound = some ⟨r.key, 0⟩ →
          (s.lanes.get l).state = .opening ∨ (s.lanes.get l).state = .ready →
          (∀ m p, (s.lanes.get m).bound = some p → p.key = r.key → p = ⟨r.key, 0⟩) →
          let passes : Prop := ∀ (m : Fin 16) (p : PRef) (other : Avail) (e' : Time), m.val / 4 = l.val / 4 →
            (s.lanes.get m).bound = some p → p.key ≠ r.key → findRec p.key s = some other → other.e = some e' →
            s.groupGuard ≤ absDiff new e'
          let waits : Avail := { r' with placements := [{ q with state := .waiting, bound := none }] }
          let back : State :=
            { stored waits with
              lanes := s.lanes.set l { s.lanes.get l with
                state := .closing, bound := none, buffer := [], entry := none, lpts := none, readers := []
                hold := true, openStart := none, closeStart := some (s.refCount / 27000) } }
          (passes → leaves (stored r'))
          ∧ (¬ passes →
            (allocate back ⟨r.key, 0⟩ q.lane new = none → leaves back)
            ∧ ∀ m, allocate back ⟨r.key, 0⟩ q.lane new = some m →
              let t := takeCue i v c s
              findRec r.key t = some { r' with placements := [{ q with state := .laned, bound := some m }] }
                ∧ (t.lanes.get m).bound = some ⟨r.key, 0⟩
                ∧ ((back.lanes.get m).state = .idle → (t.lanes.get m).state = .opening)
                ∧ ((back.lanes.get m).state ≠ .idle → (t.lanes.get m).state = (back.lanes.get m).state)
                ∧ (∀ n, n ≠ m → t.lanes.get n = back.lanes.get n) ∧ t.channels = s.channels ∧ t.attn = s.attn))
    ∧ (c.kind = .insert → r.state = .active →
      (c.duration = none ∨ c.duration = r.d → leaves s)
      ∧ ∀ d out, c.duration = some d → r.d ≠ some d → r.pOut = some out →
        (s.avails.map fun q => q.key).Nodup →
        let target : Time := out + BitVec.ofNat 33 d.toNat
        leaves { stored { r with d := some d, r := some target } with
          channels := s.channels.mapIdx fun _ o => o.map fun ch =>
            if ch.drawsFor.map (fun p => p.key) = some r.key then { ch with ret := some target } else ch })
    ∧ (c.kind = .insert → r.state = .held ∨ r.state = .pending →
      takeCue i v c s = { s with avails := s.avails.map fun q =>
        if q.key = r.key then
          { q with
            e := (match c.time with
              | some t => some (adjusted t)
              | none => q.e)
            d := (match c.duration with
              | some d => some d
              | none => q.d) }
        else q })
    ∧ (c.kind = .cancel → ∀ tag, canServe (.availCancel tag ⟨BitVec.ofNat 8 i.val, c.event⟩) s = true →
      exec (.availCancel tag ⟨BitVec.ofNat 8 i.val, c.event⟩) s =
        .next (answered tag kAvailCancel .ok [] (takeCue i v c s)))
    ∧ (c.kind = .ret →
      (r.state ≠ .active → takeCue i v c s = s)
      ∧ (r.state = .active → c.time = none →
        ∀ tag, canServe (.availReturn tag ⟨BitVec.ofNat 8 i.val, c.event⟩) s = true →
          exec (.availReturn tag ⟨BitVec.ofNat 8 i.val, c.event⟩) s =
            .next (answered tag kAvailReturn .ok [] (takeCue i v c s)))
      ∧ (r.state = .active → ∀ t, c.time = some t →
        (r.cutAsked = true → takeCue i v c s = s)
        ∧ (r.cutAsked = false → takeCue i v c s =
            { s with
              channels := s.channels.mapIdx fun _ o => o.map fun ch =>
                if ch.drawsFor.map (fun p => p.key) = some r.key then { ch with cueRet := some (adjusted t) }
                else ch }))))
  ∧ (∀ (i : Fin 64) (v : Service) (c : Cue) (s : State), findRec ⟨i, c.event⟩ s = none → c.kind ≠ .insert →
    takeCue i v c s = s)

/-! ## Splices, ports and channels (chapters 5 and 6) -/

/-- A beat inside the windows of ARMED records of a LOCKED service. A channel of the service goes to the LANED placement
on a READY lane that claims it, unless its zone is covered or locked; between several, to the smallest splice error,
then SCHEDULE, then the lower event id: it takes the lane at its entry with the offset of R101 and holds the return
target. Each placement ends or goes ON_AIR by the table of R33, with the number of channels taken, partial exactly when
it was so or some of its channels was not taken; the record goes ACTIVE with P_out, the splice error and R when a
placement did. On a beat past the window, or on a service that is not LOCKED, every placement not DONE ends MISSED_LATE
or MISSED_NO_LOCK. A handover carries the cause of a pending asked return, else PLAYED (also with a coverage target
pending, log 17), and a leave takes one channel off its placement's count, sets the first cause or partial, and ends the
placement at 0 (R33, R35, R36, R79, R100, R101, R118, R126 to R129). Two placements of one record have disjoint zone
sets (R127), and a lane in READY has no channel on it (R79). Every channel of the service without a winning claim
becomes at the beat what VideoTakesTarget says of it, all in ascending order (the model's choice, log 24), and no
channel of another service changes. The beat delivers SPLICE_OUT to the Tally Unit when the video of some channel of the
service took an avail lane, and RETURN when one left an avail lane for NETWORK (R129). That a placement on a lane that
is not READY ends MISSED_NOT_READY also where another row of R33's table fits is the model's choice (log 52). -/
def Obligations.SpliceOutTakesChannels : Prop :=
  (∀ (i : Fin 64) (v : Service) (p e lp : Time) (r : Avail) (q : Placement) (l : Fin 16) (s : State),
    s.services.get i = some v → v.tb.state = .locked → r ∈ s.avails → (s.avails.map fun a => a.key).Nodup →
    (∀ a ∈ s.avails, a.key.svc = i → a.state = .armed → a = r) → r.key.svc = i → r.state = .armed →
    r.e = some e → Machine.dist p e < 4294967296 → Machine.dist p e ≤ v.spliceWindow → r.placements = [q] →
    q.state = .laned → q.bound = some l → (s.lanes.get l).state = .ready → (s.lanes.get l).lpts = some lp →
    isStanding s l = false → (∀ c ch, s.channels.get c = some ch → ch.service = i → ch.atRest = true) →
    let inZones (ch : Channel) : Bool := decide (ch.service = i) && zoneIn q.zones (chanZone s ch)
    let goes (ch : Channel) : Bool := inZones ch && (s.zones.get (chanZone s ch)).cover.isNone
      && !(s.zones.get (chanZone s ch)).locked
    let count := (chansWhere s goes).length
    let R : Option Time := r.d.map fun d => p + BitVec.ofNat 33 d.toNat
    let t := beat i p s
    (∀ c ch, s.channels.get c = some ch → goes ch = true →
      ∃ ch', t.channels.get c = some ch' ∧ ch'.lane = some l ∧ ch'.holder = some (.placement ⟨r.key, 0⟩)
        ∧ ch'.offset = some (p - lp) ∧ ch'.switchPts = some p ∧ ch'.pending = none ∧ ch'.ret = R
        ∧ ch'.cueRet = none ∧ ch'.departing = none)
    ∧ (∀ c ch, s.channels.get c = some ch → goes ch = false → ch.drawsFor = none → t.channels.get c = some ch)
    ∧ (0 < count →
      (t.lanes.get l).state = .onAir ∧ findRec r.key t = some { r with
        state := .active, pOut := some p, spliceErr := some (Machine.dist p e), r := R
        placements := [{ q with
          state := .onAir, count := count
          part := q.part || decide (count < (chansWhere s inZones).length) }] })
    ∧ (count = 0 → t.channels = s.channels ∧
      ∃ o, findRec r.key t = some { r with
          placements := [{ q with state := .done, outcome := some o, bound := none }] }
        ∧ ((∃ c ch, s.channels.get c = some ch ∧ inZones ch = true) → o = .lockedOut)
        ∧ ((∀ c ch, s.channels.get c = some ch → inZones ch = false) → o = .noChannel)
        ∧ ((s.lanes.get l).bound = some ⟨r.key, 0⟩ → t.lanes.get l =
          { s.lanes.get l with
            state := .closing, bound := none, buffer := [], entry := none, lpts := none, readers := []
            hold := true, openStart := none, closeStart := some (s.refCount / 27000) })))
  ∧ (∀ (i : Fin 64) (v : Service) (p : Time) (s : State),
    s.services.get i = some v → v.tb.state = .locked → (s.avails.map fun a => a.key).Nodup →
    let spliced (r : Avail) (e : Time) : Prop := r ∈ s.avails ∧ r.key.svc = i ∧ r.state = .armed ∧ r.e = some e
      ∧ Machine.dist p e < 4294967296 ∧ Machine.dist p e ≤ v.spliceWindow
    let apart (r : Avail) : Prop := ∀ (j k : Nat) (q q' : Placement), r.placements[j]? = some q →
      r.placements[k]? = some q' → j ≠ k → q.zones &&& q'.zones = 0
    let ready (q : Placement) : Prop := ∃ l, q.bound = some l ∧ (s.lanes.get l).state = .ready
    let mine (c : Fin 128) (q : Placement) : Prop := ∃ ch, s.channels.get c = some ch ∧ ch.service = i
      ∧ zoneIn q.zones (chanZone s ch) = true
    let shut (c : Fin 128) : Prop := ∃ ch, s.channels.get c = some ch
      ∧ ((s.zones.get (chanZone s ch)).cover ≠ none ∨ (s.zones.get (chanZone s ch)).locked = true)
    let claims (c : Fin 128) (r : Avail) (e : Time) (q : Placement) : Prop := spliced r e ∧ q ∈ r.placements
      ∧ q.state = .laned ∧ ready q ∧ mine c q
    let beats (r : Avail) (e : Time) (r' : Avail) (e' : Time) : Prop := Machine.dist p e < Machine.dist p e'
      ∨ (e = e' ∧ ((r.origin = .schedule ∧ r'.origin = .network)
        ∨ (r.origin = r'.origin ∧ r.key.event.toNat < r'.key.event.toNat)))
    let wins (c : Fin 128) (r : Avail) (e : Time) (q : Placement) : Prop := claims c r e q ∧ ¬ shut c
      ∧ ∀ r' e' q', claims c r' e' q' → r' = r ∨ beats r e r' e'
    let t := beat i p s
    (∀ r e, spliced r e →
      apart r →
      (∀ q ∈ r.placements, q.state ≠ .onAir) →
      ∃ ps : List Placement, ps.length = r.placements.length
        ∧ ((∃ q ∈ ps, q.state = .onAir) → findRec r.key t = some { r with
            state := .active, pOut := some p, spliceErr := some (Machine.dist p e)
            r := r.d.map fun d => p + BitVec.ofNat 33 d.toNat, placements := ps })
        ∧ ((∀ q ∈ ps, q.state ≠ .onAir) → findRec r.key t = some { r with placements := ps })
        ∧ ∀ (j : Nat) (q : Placement), r.placements[j]? = some q →
          let ends (o : Outcome) : Prop :=
            ps[j]? = some { q with state := .done, outcome := some o, bound := none }
          (q.state = .done → ps[j]? = some q)
          ∧ (q.state = .waiting → ends .missedNoLane)
          ∧ (q.state = .laned → ¬ ready q → ends .missedNotReady)
          ∧ (q.state = .laned → ready q →
            ((∀ c, ¬ mine c q) → ends .noChannel)
            ∧ ((∃ c, mine c q) → (∀ c, mine c q → shut c) → ends .lockedOut)
            ∧ ((∃ c, mine c q ∧ ¬ shut c) → (∀ c, ¬ wins c r e q) → ends .missedConflict)
            ∧ ∀ cs : List (Fin 128), cs.Nodup → (∀ c, c ∈ cs ↔ wins c r e q) → cs ≠ [] →
              ∃ part, ps[j]? = some { q with state := .onAir, count := cs.length, part := part }
                ∧ (part = true ↔ q.part = true ∨ ∃ c, mine c q ∧ ¬ wins c r e q)))
    ∧ ∀ c ch r e q j l, s.channels.get c = some ch → wins c r e q → r.placements[j]? = some q →
      apart r →
      (∀ q ∈ r.placements, q.state ≠ .onAir) → q.bound = some l → isStanding s l = false →
      (s.lanes.get l).readers = [] →
      (∀ d dh, s.channels.get d = some dh → dh.holdsOn l = false ∧ ∀ g, dh.departing = some g → g.lane ≠ l) →
      (∃ ch', t.channels.get c = some ch' ∧ ch'.lane = some l ∧ ch'.holder = some (.placement ⟨r.key, j⟩)
        ∧ ch'.offset = ((s.lanes.get l).lpts.map fun lp => p - lp) ∧ ch'.switchPts = some p ∧ ch'.pending = none
        ∧ ch'.ret = (r.d.map fun d => p + BitVec.ofNat 33 d.toNat) ∧ ch'.cueRet = none)
      ∧ (t.lanes.get l).state = .onAir
      ∧ ∃ rd ∈ (t.lanes.get l).readers, rd.chan = c ∧ rd.cursors.video = (s.lanes.get l).entry)
  ∧ (∀ (i : Fin 64) (v : Service) (p : Time) (L : List (Fin 128)) (s : State),
    s.services.get i = some v → (s.avails.map fun a => a.key).Nodup →
    L.Pairwise (fun c d => c.val < d.val) → (∀ c, c ∈ L ↔ ∃ ch, s.channels.get c = some ch ∧ ch.service = i) →
    let spliced (r : Avail) : Prop := v.tb.state = .locked ∧ r ∈ s.avails ∧ r.key.svc = i ∧ r.state = .armed
      ∧ ∃ e, r.e = some e ∧ Machine.dist p e < 4294967296 ∧ Machine.dist p e ≤ v.spliceWindow
    let claimed (c : Fin 128) : Prop := ∃ ch r q l, s.channels.get c = some ch ∧ ch.service = i
      ∧ (s.zones.get (chanZone s ch)).cover = none ∧ (s.zones.get (chanZone s ch)).locked = false
      ∧ spliced r ∧ q ∈ r.placements ∧ q.state = .laned ∧ q.bound = some l ∧ (s.lanes.get l).state = .ready
      ∧ zoneIn q.zones (chanZone s ch) = true
    let t := beat i p s
    ∃ win : Fin 128 → Option Candidate, (∀ c, c ∈ L → (win c = none ↔ ¬ claimed c))
      ∧ let upTo (cs : List (Fin 128)) : State := cs.foldl (fun u c => switchChannel p (win c) c u) s
        (∀ c, c ∉ L → (upTo L).channels.get c = s.channels.get c)
        ∧ (∀ before c later, L = before ++ c :: later → ¬ claimed c →
          (upTo before).channels.get c = s.channels.get c
            ∧ (upTo L).channels.get c = (switchChannel p none c (upTo before)).channels.get c)
        ∧ ∀ c, (∀ ch k, (upTo L).channels.get c = some ch → ch.drawsFor = some k → ∀ r, spliced r → r.key ≠ k.key) →
          t.channels.get c = (upTo L).channels.get c)
  ∧ (∀ (i : Fin 64) (v : Service) (p : Time) (s : State), s.services.get i = some v →
    let t := beat i p s
    let quiet : State := { t with tallies := s.tallies }
    let took : Prop := ∃ c ch ch', s.channels.get c = some ch ∧ ch.service = i ∧ t.channels.get c = some ch'
      ∧ ch'.drawsFor ≠ none ∧ ch'.drawsFor ≠ ch.drawsFor
    let left : Prop := ∃ c ch ch', s.channels.get c = some ch ∧ ch.service = i ∧ t.channels.get c = some ch'
      ∧ ch.drawsFor ≠ none ∧ ch'.lane = none
    (¬ took → ¬ left → t = quiet)
    ∧ (took → ¬ left → t = deliverTrigger .spliceOut i quiet)
    ∧ (¬ took → left → t = deliverTrigger .ret i quiet)
    ∧ (took → left → t = deliverTrigger .ret i (deliverTrigger .spliceOut i quiet)))
  ∧ (∀ (i : Fin 64) (v : Service) (p e : Time) (r : Avail) (s : State),
    s.services.get i = some v → r ∈ s.avails → (s.avails.map fun a => a.key).Nodup → r.key.svc = i →
    r.state = .armed → r.e = some e → Machine.dist p e < 4294967296 →
    (v.tb.state = .locked → v.spliceWindow < Machine.dist p e) → (∀ q ∈ r.placements, q.state ≠ .onAir) →
    let o : Outcome := if v.tb.state = .locked then .missedLate else .missedNoLock
    findRec r.key (beat i p s) = some { r with placements := r.placements.map fun q =>
        if q.state = .done then q else { q with state := .done, outcome := some o, bound := none } }
    ∧ ((∀ a ∈ s.avails, a.key.svc = i → a.state = .armed → a = r) →
      (∀ c ch, s.channels.get c = some ch → ch.service = i → ch.atRest = true) →
      (beat i p s).channels = s.channels
      ∧ ∀ j q l, r.placements[j]? = some q → q.state ≠ .done → q.bound = some l →
        (s.lanes.get l).bound = some ⟨r.key, j⟩ →
        (s.lanes.get l).state = .opening ∨ (s.lanes.get l).state = .ready →
        (beat i p s).lanes.get l =
          { s.lanes.get l with
            state := .closing, bound := none, buffer := [], entry := none, lpts := none, readers := []
            hold := true, openStart := none, closeStart := some (s.refCount / 27000) }))
  ∧ (∀ (p : Time) (k : Candidate) (c : Fin 128) (ch : Channel) (s : State), s.channels.get c = some ch →
    let cause : Option Outcome :=
      if ch.drawsFor = none then none
      else match ch.pending with
        | some ⟨_, .asked, o⟩ => o
        | _ => some .played
    switchChannel p (some k) c s = videoTake p c (.lane k.lane (.placement k.ref)) cause none s)
  ∧ ∀ (p : PRef) (o : Outcome) (r : Avail) (q : Placement) (s : State), findRec p.key s = some r →
    r.placements[p.idx]? = some q → (∀ x ∈ s.avails, x.key = p.key → x = r) →
    (q.state ≠ .onAir → reportLeave p o s = s)
    ∧ (q.state = .onAir →
      let first : Outcome := q.firstCause.getD o
      let q' : Placement := { q with firstCause := some first, part := q.part || decide (first ≠ o), count := q.count - 1 }
      reportLeave p o s = { s with avails := s.avails.map fun x =>
        if x.key = p.key then
          { r with
            placements := r.placements.set p.idx
              (if 2 ≤ q.count then q' else { q' with state := .done, outcome := some o, bound := none }) }
        else x })

/-- When an audio component follows, and what following does to its channel and to the lanes (R121): its last output
CC and cc_delta stay, and on NETWORK its next network packet with payload is its first there (R125); onto a lane it
gets its cursor at the entry as it stands (a free value where the lane has none, log 11); off a lane its cursor there
is discarded and freeing goes on, and when it was the channel's last component on the lane of its Departing field, the
reader leaves, the field becomes absent and the placement is charged with the field's cause (R122, R35). What is freed
is what every reader that draws its role has passed, and in a STANDING lane the mark follows (R80, R78). A packet of a
component PID governed by a channel: the component follows first, and then a NETWORK source passes the packet with its
counter, or a null packet for a duplicate, a lane source makes it a slot, and a MUTED one a null packet (R114, R121,
R123, R125). A slot is filled with the packet at the reader's cursor, rewritten: the cursor moves to the next packet
of the role, the starvation timer stops, and an end-of-segment packet that the VIDEO cursor of an AVAIL lane passes
asks the channel back with PLAYED. At an underrun it is a null packet that sets underrun-seen and starts the timer,
and a null packet for a role the lane plan lacks (R80 to R82, R123, R124). The end of the buffer as a cursor's place
(log 9), the entry and L_pts of an AVAIL lane that stay when freeing takes the entry RAP (log 12), the offset of a
channel with a MUTED component (log 16), the timer that starts only after a fill (log 28), freeing also right after a
follow makes or discards a cursor (log 41) and the switch PTS that stays on a channel back on NETWORK (log 51) are the
model's readings. -/
def Obligations.SlotsAndFollow : Prop :=
  (∀ (ch : Channel) (r : RoleState) (pk : Packet),
    followsAt ch r pk = true ↔ r.switched = false
      ∧ (ch.followDue = true ∨ ∃ t p, pktPts pk = some t ∧ ch.switchPts = some p ∧ atOrAfter t p = true))
  ∧ (∀ (c : Fin 128) (x : Role) (ch : Channel) (s : State), s.channels.get c = some ch →
    let t := follow c x s
    (∃ ch', t.channels.get c = some ch'
      ∧ ch'.roles.get x = { ch.roles.get x with
          source := ch.roles.video.source, switched := true, rejoin := decide (ch.roles.video.source = .network) }
      ∧ (∀ y, y ≠ x → ch'.roles.get y = ch.roles.get y)
      ∧ ch'.holder = ch.holder ∧ ch'.pending = ch.pending ∧ ch'.ret = ch.ret ∧ ch'.switchPts = ch.switchPts
      ∧ ((∀ y, y ≠ x → (ch.roles.get y).switched = true) → ch'.followStart = none)
      ∧ ((∃ y, y ≠ x ∧ (ch.roles.get y).switched = false) → ch'.followStart = ch.followStart)
      ∧ ch'.offset = if ch'.isNetwork then none else ch.offset)
    ∧ (∀ d, d ≠ c → t.channels.get d = s.channels.get d) ∧ t.ports = s.ports ∧ t.services = s.services)
  ∧ (∀ (c : Fin 128) (x : Role) (ch : Channel) (s : State), s.channels.get c = some ch →
    let t := follow c x s
    let old := (ch.roles.get x).source
    let freed (l : Fin 16) (ln : Lane) : Lane := ln.free (draws s l) (isStanding s l)
    let withCursor (v : Option Nat) (ln : Lane) : Lane :=
      { ln with readers := ln.readers.map fun r =>
          if r.chan = c then { r with cursors := r.cursors.set x v } else r }
    (∀ l, ch.lane = some l → old ≠ .lane l →
      let ln := s.lanes.get l
      (ln.cfg.pid x = none → t.lanes.get l = freed l ln)
      ∧ (ln.cfg.pid x ≠ none →
        (∀ e, ln.entry = some e → t.lanes.get l = freed l (withCursor (some e) ln))
        ∧ (ln.entry = none → ∃ free, t.lanes.get l = freed l (withCursor (some free) ln))))
    ∧ (∀ l h cause, old = .lane l → ch.lane ≠ some l → ch.departing = some ⟨l, h, cause⟩ →
      let back : State := { s with lanes := s.lanes.set l (freed l (withCursor none (s.lanes.get l))) }
      ((∃ y, y ≠ x ∧ (ch.roles.get y).source = .lane l) →
        t.lanes.get l = back.lanes.get l ∧ t.avails = s.avails
          ∧ ∃ ch', t.channels.get c = some ch' ∧ ch'.departing = ch.departing)
      ∧ ((∀ y, y ≠ x → (ch.roles.get y).source ≠ .lane l) →
        t.lanes.get l = (readerLeave l c back).lanes.get l
          ∧ (∀ r ∈ (t.lanes.get l).readers, r.chan ≠ c)
          ∧ (∃ ch', t.channels.get c = some ch' ∧ ch'.departing = none)
          ∧ (∀ p o, h = some (.placement p) → cause = some o → t.avails = (reportLeave p o s).avails)
          ∧ (cause = none ∨ (∀ p, h ≠ some (.placement p)) → t.avails = s.avails)))
    ∧ ∀ m, old ≠ .lane m → ch.lane ≠ some m → (∀ d, ch.departing = some d → d.lane ≠ m) →
      t.lanes.get m = s.lanes.get m)
  ∧ (∀ (s : State) (l : Fin 16) (c : Fin 128) (x : Role), draws s l c x = true ↔ (s.lanes.get l).cfg.pid x ≠ none
      ∧ ∃ ch v, s.channels.get c = some ch ∧ s.services.get ch.service = some v ∧ v.pid x ≠ none)
  ∧ (∀ (drawn : Fin 128 → Role → Bool) (ln : Lane),
    let stays (b : BufPkt) : Bool :=
      match b.cls with
      | .role x _ => ln.readers.any fun r => drawn r.chan x &&
          match r.cursors.get x with
          | some cur => decide (cur ≤ b.seq)
          | none => true
      | .eos => ln.readers.any fun r =>
          match r.cursors.video with
          | some cur => decide (cur ≤ b.seq)
          | none => true
    let left := ln.buffer.filter stays
    let freed : Lane := { ln with buffer := left, hold := ln.hold && decide (3584 < left.length) }
    (ln.readers = [] → ∀ standing, ln.free drawn standing = ln)
    ∧ (ln.readers ≠ [] → ln.free drawn false = freed
      ∧ ln.free drawn true =
        if ln.entry = none ∨ (∃ b ∈ left, some b.seq = ln.entry) then freed
        else match left.find? fun b => b.rap.isSome with
          | some b => { freed with entry := some b.seq, lpts := b.rap }
          | none => { freed with entry := none, lpts := none }))
  ∧ (∀ (port : Fin 8) (c : Fin 128) (x : Role) (l : Fin 16) (v : Service) (ch : Channel) (r : RoleState) (pid : Pid)
      (s : State), s.channels.get c = some ch →
    let ln := s.lanes.get l
    let t := slot port c x l v ch r pid s
    let emits (pk : Packet) : Prop := (t.ports.get port).out = pk :: (s.ports.get port).out
    (ln.cfg.pid x = none → emits nullPacket ∧ t.lanes = s.lanes ∧ t.channels = s.channels)
    ∧ ∀ rd cur, ln.cfg.pid x ≠ none → ln.reader c = some rd → rd.cursors.get x = some cur →
      ((∀ b ∈ ln.buffer, b.isRole x = true → b.seq < cur) →
        emits nullPacket ∧ t.channels = s.channels.set c (some { ch with underrunSeen := true })
          ∧ (t.lanes.get l).reader c =
            some (if rd.dry then rd else { rd with dry := true, starve := some (s.refCount / 27000) }))
      ∧ ∀ before b rest, ln.buffer = before ++ b :: rest → (∀ a ∈ before, a.isRole x = true → a.seq < cur) →
          b.isRole x = true → cur ≤ b.seq →
          emits { rewrite v.pcrInComponent (ch.offset.getD 0) pid b.pkt with
            cc := (laneCc r b.pkt.payload.isSome b.pkt.cc).1 }
          ∧ let next : Nat :=
              match ln.buffer.find? fun a => a.isRole x && decide (b.seq < a.seq) with
              | some a => a.seq
              | none => ln.nextSeq
            let passesEnd : Prop := x = .video ∧ isStanding s l = false
              ∧ ∃ a ∈ ln.buffer, a.cls = .eos ∧ cur ≤ a.seq ∧ a.seq < next
            let ch' : Channel := { ch with roles := ch.roles.set x (laneCc r b.pkt.payload.isSome b.pkt.cc).2 }
            let moved : Lane :=
              { ln with readers := ln.readers.map fun q => if q.chan = c then
                  { q with cursors := q.cursors.set x (some next), dry := false, starve := none } else q }
            (t.lanes.get l).reader c =
                some { rd with cursors := rd.cursors.set x (some next), dry := false, starve := none }
              ∧ t.lanes = s.lanes.set l (moved.free (draws s l) (isStanding s l))
              ∧ (passesEnd → t.channels = s.channels.set c (some (ch'.withAskedReturn .played)))
              ∧ (¬ passesEnd → t.channels = s.channels.set c (some ch')))
  ∧ (∀ (port : Fin 8) (c : Fin 128) (x : Role) (v : Service) (pk : Packet) (ch : Channel) (s : State),
    s.channels.get c = some ch →
    let followed : State := if followsAt ch (ch.roles.get x) pk = true then follow c x s else s
    let t := govern port c x v pk s
    let emits (q : Packet) : Prop := (t.ports.get port).out = q :: (s.ports.get port).out
    ∃ ch', followed.channels.get c = some ch' ∧ followed.ports = s.ports
      ∧ let r := ch'.roles.get x
        let counted := networkCc r pk.payload.isSome pk.cc
        (r.source = .network → t.lanes = followed.lanes
          ∧ t.channels = followed.channels.set c (some { ch' with roles := ch'.roles.set x counted.2 })
          ∧ (∀ cc, counted.1 = some cc → emits { pk with cc := cc }) ∧ (counted.1 = none → emits nullPacket))
        ∧ (∀ l, r.source = .lane l → t = slot port c x l v ch' r pk.pid followed)
        ∧ (r.source = .muted → emits nullPacket ∧ t.lanes = followed.lanes ∧ t.channels = followed.channels))

/-- What a lane packet becomes in a slot: the service's PID; PTS and DTS shifted by the offset unless a timestamp
is cut; the PCR kept and shifted when the service carries its clock in a component, taken out with six stuffing
bytes otherwise; everything else as the lane gave it (R104 to R107, R123). -/
def Obligations.LanePacketRewritten : Prop :=
  ∀ (inComponent : Bool) (o : Time) (pid : Pid) (pk : Packet),
    let out := rewrite inComponent o pid pk
    out.pid = pid ∧ out.tei = pk.tei ∧ out.pusi = pk.pusi ∧ out.cc = pk.cc ∧ out.priority = pk.priority
      ∧ out.scrambling = pk.scrambling
      ∧ (∀ h b, pk.payload = some (.pes h b) →
          (pk.pusi = true ∧ h.pts ≠ .cut ∧ h.dts ≠ .cut → ∃ h', out.payload = some (.pes h' b)
            ∧ (∀ t, h.pts = .whole t → h'.pts = .whole (t + o)) ∧ (h.pts = .absent → h'.pts = .absent)
            ∧ (∀ t, h.dts = .whole t → h'.dts = .whole (t + o)) ∧ (h.dts = .absent → h'.dts = .absent))
          ∧ (pk.pusi = false ∨ h.pts = .cut ∨ h.dts = .cut → out.payload = pk.payload))
      ∧ (∀ b, pk.payload = some (.bytes b) → out.payload = pk.payload)
      ∧ (pk.payload = none → out.payload = none) ∧ (pk.af = none → out.af = none)
      ∧ (pk.af = some .empty → out.af = some .empty)
      ∧ ∀ a, pk.af = some (.holds a) → ∃ a', out.af = some (.holds a') ∧ a'.discontinuity = a.discontinuity
          ∧ a'.randomAccess = a.randomAccess ∧ a'.others = a.others ∧ a'.size = a.size
          ∧ (a.pcr = none → a' = a)
          ∧ ∀ c, a.pcr = some c →
              (inComponent = true → a'.pcr = some ⟨c.base + o, c.ext⟩ ∧ a'.rest = a.rest)
              ∧ (inComponent = false → a'.pcr = none ∧ a'.rest = a.rest ++ List.replicate 6 0xFF)

/-- The continuity counter of each packet emitted on a component PID, row by row of R125's table; that a packet without
payload sets an absent last output CC too is the model's reading (log 31). -/
def Obligations.ContinuityCounters : Prop :=
  ∀ (r : RoleState) (own last : BitVec 4), r.lastCc = some last →
    laneCc r true own = (last + 1, { r with lastCc := some (last + 1) })
    ∧ laneCc r false own = (last, { r with lastCc := some last })
    ∧ networkCc r false own = (some last, r)
    ∧ (r.rejoin = true → networkCc r true own =
        (some (last + 1), { r with lastCc := some (last + 1), ccDelta := last + 1 - own, rejoin := false }))
    ∧ (r.rejoin = false →
        (own + r.ccDelta = last + 1 → networkCc r true own =
          (some (last + 1), { r with lastCc := some (last + 1) }))
        ∧ (own + r.ccDelta = last → networkCc r true own = (none, r))
        ∧ (own + r.ccDelta ≠ last → own + r.ccDelta ≠ last + 1 → networkCc r true own =
          (some (last + 1), { r with lastCc := some (last + 1), ccDelta := last + 1 - own, rejoin := false })))
    ∧ ∀ payload, (laneCc { r with lastCc := none } payload own).1 = own
        ∧ (laneCc { r with lastCc := none } payload own).2.lastCc = some own
        ∧ (laneCc { r with lastCc := none } payload own).2.ccDelta = 0
        ∧ (networkCc { r with lastCc := none } payload own).1 = some own
        ∧ (networkCc { r with lastCc := none } payload own).2.lastCc = some own
        ∧ (networkCc { r with lastCc := none } payload own).2.ccDelta = 0

/-- For every packet a network input accepts, each port on that input emits exactly one packet and no other port emits
any; a packet of no component PID that a channel on the port governs is emitted as received (R114). The port's
continuity memory records the CC of a payload-bearing packet it emits under the packet's PID and keeps every other
entry; a null packet or one without payload is not recorded (R114, R125). The packet reaches the timebases on its PCR
PID, the Cue Parser of its cue PID and, with a PTS, the beat of its VIDEO PID, none of them with the transport error
indicator; then the ports, a component PID of a channel's service by that channel; then the services of its component
PIDs retire what is done (R3, R4, R14, R37, R49, R105, R118). The order of the blocks (log 8, log 29) and of services
and ports (log 42, log 8) is the model's choice. -/
def Obligations.EveryPortEmitsOnePacket : Prop :=
  (∀ (m : Fin 4) (pk : Packet) (s : State), s.resetLow = false → (s.netIn.get m).synced = true →
    ∃ t, exec (.networkPacket m pk) s = .next t ∧ t.reqSlot = s.reqSlot ∧ t.respSlot = s.respSlot
      ∧ ∀ port,
        ((s.ports.get port).baseInput ≠ m → t.ports.get port = s.ports.get port)
        ∧ ((s.ports.get port).baseInput = m → ∃ q, (t.ports.get port).out = q :: (s.ports.get port).out
          ∧ (∀ pid, contRead (t.ports.get port).cont pid =
              if q.payload.isSome = true ∧ q.pid ≠ 0x1FFF ∧ pid = q.pid.toNat then some q.cc
              else contRead (s.ports.get port).cont pid)
          ∧ ((∀ c ch v, s.channels.get c = some ch → ch.port = port → s.services.get ch.service = some v →
                ∀ x, v.pid x ≠ some pk.pid) → q = pk)))
  ∧ (∀ (m : Fin 4) (pk : Packet) (s : State), s.resetLow = false → (s.netIn.get m).synced = true →
    let accepted : State := { s with netIn := s.netIn.set m { s.netIn.get m with misses := 0 } }
    let arrived : State :=
      if pk.tei then accepted else dispatchBeat m pk (dispatchCue m pk (dispatchPcr m pk accepted))
    exec (.networkPacket m pk) s = .next (settleRecords m pk (dispatchPorts m pk arrived)))
  ∧ (∀ (m : Fin 4) (pk : Packet) (s : State),
    let services (meets : Service → Prop) (L : List (Fin 64)) : Prop := L.Pairwise (fun i j => i.val < j.val)
      ∧ ∀ i, i ∈ L ↔ ∃ v, s.services.get i = some v ∧ v.input = m ∧ meets v
    (∀ L, services (fun v => v.pcrPid = pk.pid) L →
      (pktPcr pk = none → dispatchPcr m pk s = s)
      ∧ ∀ c, pktPcr pk = some c →
        dispatchPcr m pk s = L.foldl (fun u i => pcrArrive i c (discontinuityOf pk) u) s)
    ∧ (∀ L, services (fun v => v.cuePid = some pk.pid) L →
      dispatchCue m pk s = L.foldl (fun u i => cuePacket i pk u) s)
    ∧ (∀ L, services (fun v => v.video = pk.pid) L →
      (pktPts pk = none → dispatchBeat m pk s = s)
      ∧ ∀ p, pktPts pk = some p → dispatchBeat m pk s = L.foldl (fun u i => beat i p u) s)
    ∧ (∀ L, services (fun v => ∃ x, v.pid x = some pk.pid) L →
      settleRecords m pk s = L.foldl (fun u i => retireDone i u) s)
    ∧ ∀ L : List (Fin 8), L.Pairwise (fun a b => a.val < b.val) →
      (∀ port, port ∈ L ↔ (s.ports.get port).baseInput = m) →
      dispatchPorts m pk s = L.foldl (fun u port => portPacket port pk u) s)
  ∧ (∀ (port : Fin 8) (c : Fin 128) (x : Role) (v : Service) (ch : Channel) (pk : Packet) (s : State),
    let governs (d : Fin 128) (y : Role) : Prop := ∃ dh w, s.channels.get d = some dh ∧ dh.port = port
      ∧ s.services.get dh.service = some w ∧ w.pid y = some pk.pid
    s.channels.get c = some ch → s.services.get ch.service = some v → governs c x →
    (∀ d y, governs d y → d = c ∧ y = x) →
    portPacket port pk s = govern port c x v pk s)

/-- Without sync a network input or a lane input discards what comes. In SYNCED a packet that does not start with 0x47
is a miss, and the third in a row sends the input to SEARCHING; in SEARCHING the third of three 0x47 bytes, each 188
bytes after the one before, brings SYNCED. No other state changes (R3, R66; log 6 for the rest of the delivery). -/
def Obligations.InputsNeedSync : Prop :=
  (∀ (s : State) (pk : Packet),
    (∀ m, (s.netIn.get m).synced = false → exec (.networkPacket m pk) s = .next s)
    ∧ ∀ l, (s.laneIn.get l).synced = false → exec (.lanePacket l pk) s = .next s)
  ∧ (∀ (s : State) (bytes : List Byte), s.resetLow = false →
    let after (q : SyncState) : SyncState := q.bytes bytes
    (∀ m, exec (.networkInputSearchOrMiss m bytes) s =
      .next { s with netIn := s.netIn.set m (after (s.netIn.get m)) })
    ∧ (∀ l, exec (.laneInputSearchOrMiss l bytes) s =
      .next { s with laneIn := s.laneIn.set l (after (s.laneIn.get l)) })
    ∧ (∀ q : SyncState, q.synced = true → bytes.head? ≠ some 0x47 →
      (q.misses < 2 → after q = { q with misses := q.misses + 1 })
      ∧ (2 ≤ q.misses → after q = { synced := false, seen := [], misses := 0 }))
    ∧ ∀ q : SyncState, q.synced = false →
      ((after q).synced = true ↔ ∃ j, 188 + 188 ≤ j + q.seen.length ∧ j < bytes.length
        ∧ (let all := q.seen.reverse ++ bytes
           let k := q.seen.length + j
           all[k]? = some 0x47 ∧ all[k - 188]? = some 0x47 ∧ all[k - 376]? = some 0x47)))

/-- PORT_SET writes both fields of a port without channels, and empties its continuity memory when the base input changes;
otherwise it is refused. PORT_GET reads (R113). ZONE_LOCK sets the flag and asks every channel of the zone that draws
for a placement back with ABORTED; ZONE_UNLOCK clears the flag and moves no channel; ZONE_GET reads the flag and the
covering alert (R131). -/
def Obligations.PortAndZoneRequests : Prop :=
  (∀ (tag : Byte) (a : PortSetArgs) (s : State),
    (canServe (.portSet tag a) s = true →
      (8 ≤ a.port.toNat ∨ 4 ≤ a.input.toNat ∨ 8 ≤ a.zone.toNat →
        exec (.portSet tag a) s = .next (answered tag kPortSet .badArg [] s))
      ∧ ∀ (p : Fin 8) (m : Fin 4) (z : Fin 8), a.port.toNat = p.val → a.input.toNat = m.val →
          a.zone.toNat = z.val →
        ((∃ c ch, s.channels.get c = some ch ∧ ch.port = p) →
          exec (.portSet tag a) s = .next (answered tag kPortSet .state [] s))
        ∧ ((∀ c ch, s.channels.get c = some ch → ch.port ≠ p) →
          let q := s.ports.get p
          let cont := if q.baseInput = m then q.cont else []
          exec (.portSet tag a) s =
            .next (answered tag kPortSet .ok []
              { s with ports := s.ports.set p { q with baseInput := m, zone := z, cont := cont } })))
    ∧ ∀ b, canServe (.portGet tag b) s = true →
      (8 ≤ b.toNat → exec (.portGet tag b) s = .next (answered tag kPortGet .badArg [] s))
      ∧ ∀ p : Fin 8, b.toNat = p.val →
        let q := s.ports.get p
        let cs := (List.finRange 128).filter fun c =>
          ((s.channels.get c).map fun ch => decide (ch.port = p)).getD false
        exec (.portGet tag b) s =
          .next (answered tag kPortGet .ok
            ([BitVec.ofNat 8 q.baseInput.val, BitVec.ofNat 8 q.zone.val, BitVec.ofNat 8 cs.length]
              ++ cs.map (fun c => BitVec.ofNat 8 c.val)
              ++ [if (s.zones.get q.zone).locked then 1 else 0]) s))
  ∧ (∀ (tag b : Byte) (s : State),
    (8 ≤ b.toNat →
      (canServe (.zoneLock tag b) s = true →
        exec (.zoneLock tag b) s = .next (answered tag kZoneLock .badArg [] s))
      ∧ (canServe (.zoneUnlock tag b) s = true →
        exec (.zoneUnlock tag b) s = .next (answered tag kZoneUnlock .badArg [] s))
      ∧ (canServe (.zoneGet tag b) s = true →
        exec (.zoneGet tag b) s = .next (answered tag kZoneGet .badArg [] s)))
    ∧ ∀ z : Fin 8, b.toNat = z.val →
      (canServe (.zoneLock tag b) s = true → exec (.zoneLock tag b) s =
        .next (answered tag kZoneLock .ok []
          { s with
            zones := s.zones.set z { s.zones.get z with locked := true }
            channels := s.channels.mapIdx fun _ o => o.map fun ch =>
              if (s.ports.get ch.port).zone = z then ch.withAskedReturn .aborted else ch }))
      ∧ (canServe (.zoneUnlock tag b) s = true → exec (.zoneUnlock tag b) s =
        .next (answered tag kZoneUnlock .ok []
          { s with zones := s.zones.set z { s.zones.get z with locked := false } }))
      ∧ (canServe (.zoneGet tag b) s = true → exec (.zoneGet tag b) s =
        .next (answered tag kZoneGet .ok
          [if (s.zones.get z).locked then 1 else 0,
            match (s.zones.get z).cover with
            | some al => BitVec.ofNat 8 al.val
            | none => 0xFF] s)))

/-- CHAN_SET: its checks in order, and a channel at rest with the last output CCs of the port's memory, which joins
the coverage of a zone that is covered and not waiting (R115, R155); that its first network packet is no rejoin
(rejoin no in every role) is the model's reading (log 22). CHAN_GET answers with the entry and the live state and then
clears underrun-seen; CHAN_CLEAR empties the entry of a channel at rest and refuses any other (R116). A channel is at
rest while every component is on NETWORK, no target is pending and no lane departing (R115, R117); its lane is the one
its VIDEO component is switched to, and it draws for a placement while it has a lane and that placement is its holder
(R117). -/
def Obligations.ChannelRequests : Prop :=
  (∀ (tag : Byte) (a : ChanSetArgs) (s : State), canServe (.chanSet tag a) s = true →
    let refused (code : Code) : Prop := exec (.chanSet tag a) s = .next (answered tag kChanSet code [] s)
    (128 ≤ a.channel.toNat ∨ 64 ≤ a.service.toNat ∨ 8 ≤ a.port.toNat → refused .badArg)
    ∧ ∀ (c : Fin 128) (i : Fin 64) (p : Fin 8), a.channel.toNat = c.val → a.service.toNat = i.val →
        a.port.toNat = p.val →
      (s.services.get i = none → refused .notFound)
      ∧ ∀ v, s.services.get i = some v →
        (v.input ≠ (s.ports.get p).baseInput → refused .badArg)
        ∧ (v.input = (s.ports.get p).baseInput →
          ((∃ d ch, d ≠ c ∧ s.channels.get d = some ch ∧ ch.service = i ∧ ch.port = p) → refused .exists_)
          ∧ ((∀ d ch, d ≠ c → s.channels.get d = some ch → ¬ (ch.service = i ∧ ch.port = p)) →
            (∀ ch, s.channels.get c = some ch → ch.atRest = false → refused .state)
            ∧ ((∀ ch, s.channels.get c = some ch → ch.atRest = true) →
              let lastCc (x : Role) : Option (BitVec 4) :=
                (v.pid x).bind fun pid => contRead (s.ports.get p).cont pid.toNat
              let role (x : Role) : RoleState :=
                { source := .network, switched := true, ccDelta := 0, lastCc := lastCc x, rejoin := false }
              let z := s.zones.get (s.ports.get p).zone
              let target : Option PendingTarget :=
                match z.cover, z.waiting with
                | some al, false => some ⟨.lane (s.alerts.get al).lane (.alert al), .coverage, none⟩
                | _, _ => none
              let ch : Channel :=
                { service := i, port := p, underrunSeen := false, holder := none, departing := none
                  offset := none, switchPts := none, followStart := none, followDue := false
                  roles := ⟨role .video, role .audio1, role .audio2, role .audio3⟩, pending := target
                  ret := none, cueRet := none }
              exec (.chanSet tag a) s =
                .next (answered tag kChanSet .ok
                  [BitVec.ofNat 8 c.val, BitVec.ofNat 8 i.val, BitVec.ofNat 8 p.val, 0]
                  { s with channels := s.channels.set c (some ch) })))))
  ∧ (∀ (tag b : Byte) (s : State),
    (canServe (.chanGet tag b) s = true →
      (128 ≤ b.toNat → exec (.chanGet tag b) s = .next (answered tag kChanGet .badArg [] s))
      ∧ ∀ c : Fin 128, b.toNat = c.val →
        (s.channels.get c = none → exec (.chanGet tag b) s = .next (answered tag kChanGet .notFound [] s))
        ∧ ∀ ch, s.channels.get c = some ch →
          exec (.chanGet tag b) s =
            .next (answered tag kChanGet .ok (channelEntry c ch ++ channelLive s c ch)
              { s with channels := s.channels.set c (some { ch with underrunSeen := false }) }))
    ∧ (canServe (.chanClear tag b) s = true →
      (128 ≤ b.toNat → exec (.chanClear tag b) s = .next (answered tag kChanClear .badArg [] s))
      ∧ ∀ c : Fin 128, b.toNat = c.val →
        (s.channels.get c = none → exec (.chanClear tag b) s = .next (answered tag kChanClear .notFound [] s))
        ∧ ∀ ch, s.channels.get c = some ch →
          (ch.atRest = false → exec (.chanClear tag b) s = .next (answered tag kChanClear .state [] s))
          ∧ (ch.atRest = true → exec (.chanClear tag b) s =
            .next (answered tag kChanClear .ok [] { s with channels := s.channels.set c none }))))
  ∧ (∀ ch : Channel,
    let network : Prop := ∀ x, (ch.roles.get x).source = .network
    (ch.isNetwork = true ↔ network)
    ∧ (ch.atRest = true ↔ network ∧ ch.pending = none ∧ ch.departing = none)
    ∧ (∀ l, ch.lane = some l ↔ ch.roles.video.source = .lane l)
    ∧ (∀ l, ch.holdsOn l = true ↔ ∃ x, (ch.roles.get x).source = .lane l)
    ∧ ∀ p, ch.drawsFor = some p ↔ (∃ l, ch.roles.video.source = .lane l) ∧ ch.holder = some (.placement p))

/-- The video takes a lane or NETWORK at a beat: source, holder, switch PTS, offset and targets, each audio component
placed by the table of R120, the return targets gone, and the follow timer restarted when a component is left to
follow, stopped otherwise (R101 to R103, R120, R130). Every last output CC and cc_delta stays, and a video whose
source becomes NETWORK has its next network packet with payload as its first there (R125). When nothing of the channel
stays on the lane it left, the reader leaves and a placement is charged with the cause; a lane taken again charges it
too, but keeps its reader (R120, R122). A lane whose last reader leaves goes on by its kind (R83). Without a winning
claim the video takes its pending target, or NETWORK when that lane has no entry and it draws for a placement; with
none pending, R gives PLAYED and then the cue return target CUT (R118, R130). A beat that has reached no splice-out
target of the service does this for every channel of the service in ascending order (log 24) and to no other, and
delivers the triggers beside. The follow timer's 500 ms mark the channel, so that its components switch at their next
packet of any kind (R121; log 21 and log 3). The model's readings: the offset of a channel with a MUTED component
stays (log 16), the switch PTS stays on a channel that is back on NETWORK (log 51), a lane with an entry is taken in
READY and ON_AIR alone (log 38), a lane target that waits keeps its cause (log 40), and a STANDING lane's return to
READY gives no targets (log 46). -/
def Obligations.VideoTakesTarget : Prop :=
  (∀ (now : Nat) (has : Role → Bool) (p : Time) (cause : Option Outcome) (ch : Channel),
    let audio (toLane : Bool) (x : Role) (r : RoleState) : Prop :=
      let old := ch.roles.get x
      r.ccDelta = old.ccDelta ∧ r.lastCc = old.lastCc ∧ r.rejoin = old.rejoin
        ∧ (has x = false → r = old)
        ∧ (has x = true →
          (old.source = .network → r.source = .network ∧ r.switched = !toLane)
          ∧ (∀ l, old.source = .lane l →
              r.switched = false ∧ r.source = if toLane then RoleSource.muted else .lane l)
          ∧ (old.source = .muted → r.source = .muted ∧ r.switched = false))
    let left (d : Option Departing) : Prop :=
      d = match ch.lane with
        | some x => some ⟨x, ch.holder, cause⟩
        | none => ch.departing
    let timer (t : Channel) : Prop := t.followDue = false
      ∧ ((∃ x, (t.roles.get x).switched = false) → t.followStart = some now)
      ∧ ((∀ x, (t.roles.get x).switched = true) → t.followStart = none)
    let video : RoleState := ch.roles.video
    (∀ l h lp, let t := Channel.takeTarget now has (.lane l h) (some lp) p cause ch
      t.roles.video = { video with
          source := .lane l, switched := true, rejoin := if video.source = .lane l then video.rejoin else false }
        ∧ t.lane = some l ∧ t.holder = some h ∧ t.offset = some (p - lp) ∧ t.switchPts = some p ∧ t.ret = none
        ∧ t.cueRet = none ∧ t.service = ch.service ∧ t.port = ch.port ∧ left t.departing ∧ timer t
        ∧ audio true .audio1 t.roles.audio1 ∧ audio true .audio2 t.roles.audio2
        ∧ audio true .audio3 t.roles.audio3)
    ∧ let t := Channel.takeTarget now has .network none p cause ch
      t.roles.video = { video with
          source := .network, switched := true, rejoin := if video.source = .network then video.rejoin else true }
        ∧ t.lane = none ∧ t.holder = none ∧ t.switchPts = some p ∧ t.ret = none ∧ t.cueRet = none
        ∧ t.service = ch.service ∧ t.port = ch.port ∧ left t.departing ∧ timer t
        ∧ t.offset = (if t.isNetwork then none else ch.offset)
        ∧ audio false .audio1 t.roles.audio1 ∧ audio false .audio2 t.roles.audio2
        ∧ audio false .audio3 t.roles.audio3)
  ∧ (∀ (p : Time) (c : Fin 128) (tgt : Target) (cause : Option Outcome) (keep : Option PendingTarget) (ch : Channel)
      (s : State), s.channels.get c = some ch →
    let lp : Option Time := match tgt with
      | .lane l _ => (s.lanes.get l).lpts
      | .network => none
    let after : Channel :=
      { Channel.takeTarget (s.refCount / 27000) (chanHas s c) tgt lp p cause ch with pending := keep }
    let taken (l : Fin 16) : Prop := ∃ h, tgt = .lane l h
    let t := videoTake p c tgt cause keep s
    (after.departing = none ∨ (∃ d, after.departing = some d ∧ ¬ taken d.lane ∧ after.holdsOn d.lane = true) →
      t.channels = s.channels.set c (some after) ∧ t.avails = s.avails)
    ∧ (∀ d, after.departing = some d → taken d.lane ∨ after.holdsOn d.lane = false →
      t.channels = s.channels.set c (some { after with departing := none })
      ∧ (∀ q o, d.holder = some (.placement q) → d.cause = some o → t.avails = (reportLeave q o s).avails)
      ∧ (d.cause = none ∨ (∀ q, d.holder ≠ some (.placement q)) → t.avails = s.avails)
      ∧ (¬ taken d.lane → ∀ r ∈ (t.lanes.get d.lane).readers, r.chan ≠ c))
    ∧ (∀ l, taken l → (t.lanes.get l).state = .onAir
      ∧ ∃ r ∈ (t.lanes.get l).readers, r.chan = c ∧ r.cursors.video = (s.lanes.get l).entry
        ∧ ∀ x, x ≠ .video → r.cursors.get x = none)
    ∧ t.services = s.services ∧ t.ports = s.ports ∧ t.zones = s.zones ∧ t.attn = s.attn)
  ∧ (∀ (p : Time) (c : Fin 128) (ch : Channel) (s : State), s.channels.get c = some ch →
    let takes (tgt : Target) (cause : Option Outcome) (keep : Option PendingTarget) : Prop :=
      switchChannel p none c s = videoTake p c tgt cause keep s
    let stays : Prop := switchChannel p none c s = s
    let met (x : Option Time) : Prop := ∃ r, x = some r ∧ atOrAfter p r = true
    let noEntry (tgt : Target) : Prop := ∃ l h, tgt = .lane l h
      ∧ ¬ ((s.lanes.get l).entry ≠ none ∧ ((s.lanes.get l).state = .ready ∨ (s.lanes.get l).state = .onAir))
    (∀ x, ch.pending = some x →
      (¬ noEntry x.target → takes x.target x.cause none)
      ∧ (noEntry x.target → ch.drawsFor ≠ none → takes .network x.cause (some x))
      ∧ (noEntry x.target → ch.drawsFor = none → stays))
    ∧ (ch.pending = none →
      (ch.drawsFor = none → stays)
      ∧ (ch.drawsFor ≠ none →
        (met ch.ret → takes .network (some .played) none)
        ∧ (¬ met ch.ret → met ch.cueRet → takes .network (some .cut) none)
        ∧ (¬ met ch.ret → ¬ met ch.cueRet → stays))))
  ∧ (∀ (i : Fin 64) (v : Service) (p : Time) (L : List (Fin 128)) (s : State), s.services.get i = some v →
    (∀ r ∈ s.avails, r.key.svc = i → r.state = .armed → ∀ e, r.e = some e → 4294967296 ≤ Machine.dist p e) →
    L.Pairwise (fun c d => c.val < d.val) → (∀ c, c ∈ L ↔ ∃ ch, s.channels.get c = some ch ∧ ch.service = i) →
    let upTo (cs : List (Fin 128)) : State := cs.foldl (fun u c => switchChannel p none c u) s
    { beat i p s with tallies := s.tallies } = upTo L
    ∧ (∀ c, c ∉ L → (beat i p s).channels.get c = s.channels.get c)
    ∧ ∀ before c later, L = before ++ c :: later → (upTo before).channels.get c = s.channels.get c
      ∧ (beat i p s).channels.get c = (switchChannel p none c (upTo before)).channels.get c)
  ∧ (∀ (l : Fin 16) (c : Fin 128) (s : State),
    let ln := s.lanes.get l
    let keepOpen : Prop := ∃ p q, ln.bound = some p ∧ findPlacement p s = some q ∧ q.keepOpen = true
    let empty : Lane := { ln with bound := none, buffer := [], entry := none, lpts := none, readers := [] }
    let closes : Lane :=
      { empty with state := .closing, hold := true, openStart := none, closeStart := some (s.refCount / 27000) }
    let leaves (x : Lane) : Prop := readerLeave l c s = { s with lanes := s.lanes.set l x }
    ((∃ r ∈ ln.readers, r.chan ≠ c) →
      leaves ({ ln with readers := ln.readers.filter fun r => decide (r.chan ≠ c) }.free (draws s l) (isStanding s l)))
    ∧ ((∀ r ∈ ln.readers, r.chan = c) →
      (isStanding s l = true → ln.faulted = false → leaves { ln with readers := [], state := .ready })
      ∧ (isStanding s l = true → ln.faulted = true → leaves { closes with bound := ln.bound })
      ∧ (isStanding s l = false → keepOpen → ln.faulted = false →
        leaves { empty with
          state := .opening, pcrSeen := false, faulted := false, hold := false
          openStart := some (s.refCount / 27000), closeStart := none })
      ∧ (isStanding s l = false → ¬ keepOpen ∨ ln.faulted = true → leaves closes)))
  ∧ (∀ (c : Fin 128) (s : State), s.resetLow = false →
    ((∀ ch, s.channels.get c = some ch → ch.followStart = none ∨ ch.followDue = true) →
      exec (.followTimeout c) s = .next s)
    ∧ ∀ ch start, s.channels.get c = some ch → ch.followStart = some start → ch.followDue = false →
      exec (.followTimeout c) s =
        .next { s with
          refCount := countAt (start + 500) s
          channels := s.channels.set c (some { ch with followDue := true }) }
      ∧ ∀ r pk, r.switched = false → followsAt { ch with followDue := true } r pk = true)

/-! ## Alerts (chapter 7) -/

/-- A pin change starts, restarts or stops the debounce timer; its expiry gives the debounced level. A changed level is
delivered to every record that names the input, which acts on its condition as AlertStates says (the order of activation
apart, log 13), and to no other; AIN_SET stores polarity and debounce time and AIN_GET reads: a new debounce time leaves a
running timer running until it is reached, a new polarity stops, starts or, with debounce time 0, settles it (R136, R137);
that the polarity acts first is the model's choice (log 45). The due time is the model's (log 3). -/
def Obligations.AlertInputsDebounced : Prop :=
  let delivered (src : TermSource) (s : State) : Prop := (deliverLevel src s).ains = s.ains
    ∧ ∀ al, ((s.alerts.get al).names src = false → (deliverLevel src s).alerts.get al = s.alerts.get al)
      ∧ ((s.alerts.get al).names src = true →
        { (deliverLevel src s).alerts.get al with seq := 0 } = { (alertAct al s).alerts.get al with seq := 0 })
  (∀ (i : Fin 6) (high : Bool) (s : State), s.resetLow = false →
    let a := s.ains.get i
    let raw : Bool := if a.polarity = .highActive then high else !high
    let put (a' : Ain) : Prop := exec (.ainChange i high) s = .next { s with ains := s.ains.set i a' }
    (high = a.pin → put a)
    ∧ (high ≠ a.pin → 0 < a.debounce →
      (raw ≠ a.level → put { a with pin := high, timer := some (s.refCount / 27000) })
      ∧ (raw = a.level → put { a with pin := high, timer := none }))
    ∧ (high ≠ a.pin → a.debounce = 0 →
      let moved : State := { s with ains := s.ains.set i { a with pin := high, level := raw, timer := none } }
      (raw = a.level → exec (.ainChange i high) s = .next moved)
      ∧ (raw ≠ a.level → exec (.ainChange i high) s = .next (deliverLevel (.ain i) moved)
        ∧ delivered (.ain i) moved)))
  ∧ (∀ (i : Fin 6) (s : State), s.resetLow = false →
    let a := s.ains.get i
    (a.timer = none → exec (.debounceExpiry i) s = .next s)
    ∧ ∀ start, a.timer = some start →
      let moved : State :=
        { s with
          refCount := countAt (start + a.debounce) s
          ains := s.ains.set i { a with level := a.raw, timer := none } }
      (a.raw = a.level → exec (.debounceExpiry i) s = .next moved)
      ∧ (a.raw ≠ a.level → exec (.debounceExpiry i) s = .next (deliverLevel (.ain i) moved)
        ∧ delivered (.ain i) moved))
  ∧ (∀ (tag : Byte) (a : AinSetArgs) (s : State),
    (canServe (.ainSet tag a) s = true →
      (6 ≤ a.input.toNat ∨ 2 ≤ a.polarity.toNat →
        exec (.ainSet tag a) s = .next (answered tag kAinSet .badArg [] s))
      ∧ ∀ (i : Fin 6), a.input.toNat = i.val → a.polarity.toNat < 2 →
        let pol : Polarity := if a.polarity = 0 then .highActive else .lowActive
        let deb : Nat :=
          if a.debounce.toInt ≤ 0 then 0 else if a.debounce.toInt ≤ 10 then 10
          else if a.debounce.toInt ≤ 20 then 20 else 40
        let old := s.ains.get i
        ∃ t, exec (.ainSet tag a) s = .next (answered tag kAinSet .ok (a.polarity :: be 4 deb) t)
          ∧ (t.ains.get i).polarity = pol ∧ (t.ains.get i).debounce = deb ∧ (t.ains.get i).pin = old.pin
          ∧ (∀ j, j ≠ i → t.ains.get j = s.ains.get j)
          ∧ (let moved : State := { s with ains := s.ains.set i (t.ains.get i) }
            ((t.ains.get i).level = old.level → t = moved)
            ∧ ((t.ains.get i).level ≠ old.level → t = deliverLevel (.ain i) moved ∧ delivered (.ain i) moved))
          ∧ (pol = old.polarity → old.timer = none → (t.ains.get i).level = old.level
              ∧ (t.ains.get i).timer = none)
          ∧ (pol ≠ old.polarity → 0 < deb → old.raw = old.level →
              (t.ains.get i).level = old.level ∧ (t.ains.get i).timer = some (s.refCount / 27000))
          ∧ (pol ≠ old.polarity → 0 < deb → old.raw ≠ old.level →
              (t.ains.get i).level = old.level ∧ (t.ains.get i).timer = none)
          ∧ (pol ≠ old.polarity → deb = 0 →
              (t.ains.get i).level = !old.raw ∧ (t.ains.get i).timer = none)
          ∧ (∀ start, pol = old.polarity → old.timer = some start → start + deb ≤ s.refCount / 27000 →
              (t.ains.get i).level = old.raw ∧ (t.ains.get i).timer = none)
          ∧ (∀ start, pol = old.polarity → old.timer = some start → s.refCount / 27000 < start + deb →
              (t.ains.get i).level = old.level ∧ (t.ains.get i).timer = some start))
    ∧ ∀ b, canServe (.ainGet tag b) s = true →
      (6 ≤ b.toNat → exec (.ainGet tag b) s = .next (answered tag kAinGet .badArg [] s))
      ∧ ∀ i : Fin 6, b.toNat = i.val →
        let x := s.ains.get i
        exec (.ainGet tag b) s =
          .next (answered tag kAinGet .ok
            ([x.polarity.byte] ++ be 4 x.debounce
              ++ [if x.raw then 1 else 0, if x.level then 1 else 0, if x.timer.isSome then 1 else 0]) s))

/-- FLAG_SET sets a flag, delivers a change to the records that name it and no repeat, and answers with the eight
levels; a record that names the flag acts on its condition as AlertStates says (R138; the order of activation apart,
log 13). -/
def Obligations.FlagSetDeliversChange : Prop :=
  ∀ (tag : Byte) (a : FlagSetArgs) (s : State), canServe (.flagSet tag a) s = true →
    (8 ≤ a.flag.toNat ∨ 2 ≤ a.level.toNat →
      exec (.flagSet tag a) s = .next (answered tag kFlagSet .badArg [] s))
    ∧ ∀ (j : Fin 8) (level : Bool), a.flag.toNat = j.val → a.level = (if level then 1 else 0) →
      ∃ body t, exec (.flagSet tag a) s = .next (answered tag kFlagSet .ok [body] t)
        ∧ (∀ k : Fin 8, body.getLsbD k.val = t.rflags.get k)
        ∧ t.rflags = s.rflags.set j level ∧ t.ains = s.ains
        ∧ (s.rflags.get j = level → t = s)
        ∧ (s.rflags.get j ≠ level →
          let moved : State := { s with rflags := s.rflags.set j level }
          t = deliverLevel (.flag j) moved
          ∧ ∀ al, (s.alerts.get al).names (.flag j) = true →
            { t.alerts.get al with seq := 0 } = { (alertAct al moved).alerts.get al with seq := 0 })
        ∧ ∀ al, (s.alerts.get al).names (.flag j) = false → t.alerts.get al = s.alerts.get al

/-- A record's condition: every term is true for ALL, at least one for ANY, an odd number for ODD, a term being true
when its input's debounced level or its flag equals the wanted level (R139). What an alert record makes of its
condition, state by state; the hold timer takes a QUALIFYING record to ACTIVE with a new stamp, the release timer a
RELEASING record to IDLE, each raising its cause and having its zones' coverage evaluated (R143 to R146, R148): a zone
whose covering alert changes becomes, with its channels, what CoverageChangeGivesTargets says of the change, and no
other does. A delivered level makes every record that names it act so, and no other (R136, R138; the order of
activation apart, log 13); where one record names it, the part becomes what its act makes of it. Due times are the
model's (log 3). -/
def Obligations.AlertStates : Prop :=
  (∀ (s : State) (r : Alert),
    let holds (x : TermSource × Bool) : Bool := match x.1 with
      | .ain i => (s.ains.get i).level == x.2
      | .flag j => s.rflags.get j == x.2
    (r.combine = .all → (condition s r = true ↔ ∀ x ∈ r.terms, holds x = true))
    ∧ (r.combine = .any → (condition s r = true ↔ ∃ x ∈ r.terms, holds x = true))
    ∧ (r.combine = .odd → (condition s r = true ↔ (r.terms.countP holds) % 2 = 1))
    ∧ (∀ x, r.terms = [x] → condition s r = holds x)
    ∧ ∀ src, r.names src = true ↔ ∃ wanted, (src, wanted) ∈ r.terms)
  ∧ (∀ (a : Fin 16) (s : State),
    let r := s.alerts.get a
    let now := s.refCount / 27000
    let after := (alertAct a s).alerts.get a
    let untouched : Prop := alertAct a s = s
    let recovered : Prop := ∀ z, if zoneIn r.zones z then
        ((alertAct a s).zones.get z).cover = bestCover (alertAct a s) z
      else (alertAct a s).zones.get z = s.zones.get z
    let retargeted : Prop := Recovered r.zones s (alertAct a s)
    (condition s r = true →
      (r.state = .idle → 0 < r.hold → after = { r with state := .qualifying, holdStart := some now })
      ∧ (r.state = .idle → r.hold = 0 →
          after = { r with
            state := .active, stamp := some (BitVec.ofNat 48 now), seq := s.activations, holdStart := none
            releaseStart := none }
          ∧ (alertAct a s).activations = s.activations + 1 ∧ recovered ∧ retargeted
          ∧ (s.mask.getLsbD 6 = true → ((alertAct a s).attn.get (alertSource a)).getLsbD 6 = true))
      ∧ (r.state = .releasing → after = { r with state := .active, releaseStart := none })
      ∧ (r.state = .disabled ∨ r.state = .qualifying ∨ r.state = .active ∨ r.state = .spent → untouched))
    ∧ (condition s r = false →
      (r.state = .qualifying → after = { r with state := .idle, holdStart := none })
      ∧ (r.state = .active → 0 < r.release → after = { r with state := .releasing, releaseStart := some now })
      ∧ (r.state = .active → r.release = 0 →
          after = { r with state := .idle, stamp := none, releaseStart := none } ∧ recovered ∧ retargeted
          ∧ (s.mask.getLsbD 7 = true → ((alertAct a s).attn.get (alertSource a)).getLsbD 7 = true))
      ∧ (r.state = .spent → after = { r with state := .idle })
      ∧ (r.state = .disabled ∨ r.state = .idle ∨ r.state = .releasing → untouched))
    ∧ (¬ (r.state = .idle ∧ condition s r = true ∧ r.hold = 0) →
      ¬ (r.state = .active ∧ condition s r = false ∧ r.release = 0) →
      (alertAct a s).zones = s.zones ∧ (alertAct a s).channels = s.channels ∧ (alertAct a s).attn = s.attn)
    ∧ ∀ b, b ≠ a → (alertAct a s).alerts.get b = s.alerts.get b)
  ∧ (∀ (src : TermSource) (al : Fin 16) (s : State),
    let t := deliverLevel src s
    ((s.alerts.get al).names src = false → t.alerts.get al = s.alerts.get al)
    ∧ ((s.alerts.get al).names src = true →
      { t.alerts.get al with seq := 0 } = { (alertAct al s).alerts.get al with seq := 0 })
    ∧ ((∀ b, (s.alerts.get b).names src = decide (b = al)) → t = alertAct al s)
    ∧ t.ains = s.ains ∧ t.rflags = s.rflags ∧ t.lanes = s.lanes ∧ t.avails = s.avails ∧ t.refCount = s.refCount)
  ∧ (∀ (a : Fin 16) (s : State), s.resetLow = false →
    let r := s.alerts.get a
    (r.state ≠ .qualifying ∨ r.holdStart = none → exec (.holdTimerExpiry a) s = .next s)
    ∧ (∀ start, r.state = .qualifying → r.holdStart = some start →
      ∃ t, exec (.holdTimerExpiry a) s = .next t ∧ t.refCount = countAt (start + r.hold * 100) s
        ∧ t.alerts.get a =
          { r with
            state := .active, stamp := some (BitVec.ofNat 48 (t.refCount / 27000)), seq := s.activations
            holdStart := none, releaseStart := none }
        ∧ (s.mask.getLsbD 6 = true → (t.attn.get (alertSource a)).getLsbD 6 = true)
        ∧ Recovered r.zones s t
        ∧ (∀ b, b ≠ a → t.alerts.get b = s.alerts.get b) ∧ t.lanes = s.lanes ∧ t.avails = s.avails)
    ∧ (r.state ≠ .releasing ∨ r.releaseStart = none → exec (.releaseTimerExpiry a) s = .next s)
    ∧ ∀ start, r.state = .releasing → r.releaseStart = some start →
      ∃ t, exec (.releaseTimerExpiry a) s = .next t ∧ t.refCount = countAt (start + r.release * 100) s
        ∧ t.alerts.get a = { r with state := .idle, stamp := none, releaseStart := none }
        ∧ (s.mask.getLsbD 7 = true → (t.attn.get (alertSource a)).getLsbD 7 = true)
        ∧ Recovered r.zones s t
        ∧ (∀ b, b ≠ a → t.alerts.get b = s.alerts.get b) ∧ t.lanes = s.lanes ∧ t.avails = s.avails)

/-- ALERT_SET: its checks in order, and the record it writes on a DISABLED record, with hold and release clamped to 600
(R140, R141). On any record that is not ACTIVE or RELEASING it writes the configuration and the record acts on its
condition by the table of R141, a QUALIFYING one judged against its new hold time. A lane that comes to be named opens
if IDLE, one that loses its last name closes if OPENING or READY, and its channels get NETWORK (R70, R71, R141); a lane
named while ON_AIR keeps its entry mark and L_pts, also of a RAP that is gone (the model's choice, log 44), and stays
without an entry where it has none, whatever RAPs it holds (the model's choice, log 50), and the lanes are told before
the record acts (the model's choice, log 49). ALERT_GET reads a record; ALERT_END ends an ACTIVE or RELEASING one,
raises ALERT_ENDED and refuses any other (R142, R146). Where the record becomes or ceases to be ACTIVE, coverage is
evaluated, and each zone it changes in gets its targets (R148). -/
def Obligations.AlertRequests : Prop :=
  (∀ (tag : Byte) (a : AlertSetArgs) (s : State), canServe (.alertSet tag a) s = true →
    let refused (code : Code) : Prop := exec (.alertSet tag a) s = .next (answered tag kAlertSet code [] s)
    (16 ≤ a.alert.toNat ∨ 2 ≤ a.enabled.toNat ∨ 8 ≤ a.priority.toNat ∨ a.terms.length < 1
        ∨ 3 < a.terms.length ∨ (∃ x ∈ a.terms, TermSource.ofByte x.1 = none ∨ 2 ≤ x.2.toNat)
        ∨ 3 ≤ a.combine.toNat ∨ a.zones = 0 ∨ 16 ≤ a.lane.toNat → refused .badArg)
    ∧ ∀ (i l : Fin 16) (ts : List (TermSource × Bool)) (cb : Combine), a.alert.toNat = i.val →
        a.enabled.toNat < 2 → a.priority.toNat < 8 → 1 ≤ a.terms.length → a.terms.length ≤ 3 →
        a.terms = ts.map (fun x => (x.1.byte, if x.2 then 1 else 0)) → a.combine = cb.byte → a.zones ≠ 0 →
        a.lane.toNat = l.val →
      let old := s.alerts.get i
      let rec' : Alert :=
        { old with
          enabled := decide (a.enabled = 1), priority := a.priority.toNat, terms := ts, combine := cb
          hold := (max 0 (min 600 a.hold.toInt)).toNat, release := (max 0 (min 600 a.release.toInt)).toNat
          zones := a.zones, lane := l, holdStart := none
          state := if a.enabled = 1 then .idle else .disabled }
      (old.state = .active ∨ old.state = .releasing → refused .state)
      ∧ (old.state ≠ .active → old.state ≠ .releasing →
        (a.enabled = 1 → (s.lanes.get l).bound ≠ none → refused .state)
        ∧ (old.state = .disabled → old.enabled = false → old.holdStart = none →
          (a.enabled = 0 →
            exec (.alertSet tag a) s =
              .next (answered tag kAlertSet .ok (alertConfig i rec' ++ [0])
                { s with alerts := s.alerts.set i rec' }))
          ∧ (a.enabled = 1 → (s.lanes.get l).bound = none → condition s rec' = false →
            (s.lanes.get l).state = .idle → isStanding s l = false →
            exec (.alertSet tag a) s =
              .next (answered tag kAlertSet .ok (alertConfig i rec' ++ [1])
                { s with
                  alerts := s.alerts.set i rec'
                  lanes := s.lanes.set l { s.lanes.get l with
                    state := .opening, buffer := [], entry := none, lpts := none, pcrSeen := false
                    faulted := false, hold := false, readers := []
                    openStart := some (s.refCount / 27000), closeStart := none } })))))
  ∧ (∀ (tag : Byte) (a : AlertSetArgs) (i l : Fin 16) (ts : List (TermSource × Bool)) (cb : Combine) (s : State),
    canServe (.alertSet tag a) s = true → AlertsOk s → CoverageOk s → a.alert.toNat = i.val →
    a.enabled.toNat < 2 → a.priority.toNat < 8 → 1 ≤ a.terms.length → a.terms.length ≤ 3 →
    a.terms = ts.map (fun x => (x.1.byte, if x.2 then 1 else 0)) → a.combine = cb.byte → a.zones ≠ 0 →
    a.lane.toNat = l.val → (s.alerts.get i).capable = false →
    (a.enabled = 1 → (s.lanes.get l).bound = none) →
    let old := s.alerts.get i
    let now := s.refCount / 27000
    let base : Alert :=
      { old with
        enabled := decide (a.enabled = 1), priority := a.priority.toNat, terms := ts, combine := cb
        hold := (max 0 (min 600 a.hold.toInt)).toNat, release := (max 0 (min 600 a.release.toInt)).toNat
        zones := a.zones, lane := l }
    let active : Alert :=
      { base with
        state := .active, stamp := some (BitVec.ofNat 48 now), seq := s.activations, holdStart := none
        releaseStart := none }
    ∃ t, exec (.alertSet tag a) s =
        .next (answered tag kAlertSet .ok (alertConfig i (t.alerts.get i) ++ [(t.alerts.get i).state.byte]) t)
      ∧ (a.enabled = 0 → t.alerts.get i = { base with state := .disabled, holdStart := none })
      ∧ (a.enabled = 1 →
        (old.state = .disabled ∨ old.state = .idle →
          (condition s base = false → t.alerts.get i = { base with state := .idle })
          ∧ (condition s base = true → 0 < base.hold →
            t.alerts.get i = { base with state := .qualifying, holdStart := some now })
          ∧ (condition s base = true → base.hold = 0 → t.alerts.get i = active))
        ∧ (old.state = .qualifying →
          (condition s base = false → t.alerts.get i = { base with state := .idle, holdStart := none })
          ∧ ∀ start, condition s base = true → old.holdStart = some start →
            (start + base.hold * 100 ≤ now → t.alerts.get i = active)
            ∧ (now < start + base.hold * 100 → t.alerts.get i = base))
        ∧ (old.state = .spent →
          (condition s base = false → t.alerts.get i = { base with state := .idle })
          ∧ (condition s base = true → t.alerts.get i = base)))
      ∧ (∀ j, j ≠ i → t.alerts.get j = s.alerts.get j)
      ∧ (∀ m, let ln := s.lanes.get m
        (isStanding s m = isStanding t m → t.lanes.get m = ln)
        ∧ (isStanding s m = true → isStanding t m = false →
          (ln.state = .opening ∨ ln.state = .ready → t.lanes.get m = { ln with
            state := .closing, buffer := [], entry := none, lpts := none, readers := [], hold := true
            openStart := none, closeStart := some now })
          ∧ (ln.state ≠ .opening → ln.state ≠ .ready → t.lanes.get m = ln))
        ∧ (isStanding s m = false → isStanding t m = true →
          (ln.state = .idle → t.lanes.get m = { ln with
            state := .opening, buffer := [], entry := none, lpts := none, pcrSeen := false, faulted := false
            hold := false, readers := [], openStart := some now, closeStart := none })
          ∧ (ln.state ≠ .idle → t.lanes.get m = ln)))
      ∧ ((t.alerts.get i).state = .active → (s.mask.getLsbD 6 = true → (t.attn.get (alertSource i)).getLsbD 6 = true)
        ∧ ∀ z, (zoneIn a.zones z = true → (t.zones.get z).cover = bestCover t z)
          ∧ (zoneIn a.zones z = false → t.zones.get z = s.zones.get z))
      ∧ (∃ told : Table (Option Channel) 128,
        (∀ d ch, s.channels.get d = some ch →
          let sent (m : Fin 16) : Prop := isStanding s m = true ∧ isStanding t m = false
            ∧ (ch.lane = some m ∨ ∃ p h, ch.pending = some p ∧ p.target = .lane m h)
          ((∃ m, sent m) → told.get d = some { ch with
            pending := if ch.lane = none then none
              else some ⟨.network, .coverage, if ch.drawsFor.isSome then some .preempted else none⟩ })
          ∧ ((∀ m, ¬ sent m) → told.get d = some ch))
        ∧ ((t.alerts.get i).state ≠ .active → t.zones = s.zones ∧ t.attn = s.attn ∧ t.channels = told)
        ∧ ((t.alerts.get i).state = .active → Recovered a.zones { s with lanes := t.lanes, channels := told } t))
      ∧ t.avails = s.avails ∧ t.services = s.services ∧ t.ports = s.ports)
  ∧ (∀ (tag b : Byte) (s : State),
    (canServe (.alertGet tag b) s = true →
      (16 ≤ b.toNat → exec (.alertGet tag b) s = .next (answered tag kAlertGet .badArg [] s))
      ∧ ∀ i : Fin 16, b.toNat = i.val →
        exec (.alertGet tag b) s =
          .next (answered tag kAlertGet .ok
            (alertConfig i (s.alerts.get i) ++ alertSnapshot s i (s.alerts.get i)) s))
    ∧ (canServe (.alertEnd tag b) s = true →
      (16 ≤ b.toNat → exec (.alertEnd tag b) s = .next (answered tag kAlertEnd .badArg [] s))
      ∧ ∀ i : Fin 16, b.toNat = i.val →
        let r := s.alerts.get i
        (r.capable = false → exec (.alertEnd tag b) s = .next (answered tag kAlertEnd .state [] s))
        ∧ (r.capable = true →
          ∃ t, exec (.alertEnd tag b) s = .next (answered tag kAlertEnd .ok [] t)
            ∧ t.alerts.get i =
              { r with
                state := if condition s r then .spent else .idle, stamp := none, releaseStart := none }
            ∧ (s.mask.getLsbD 7 = true → (t.attn.get (alertSource i)).getLsbD 7 = true)
            ∧ Recovered r.zones s t
            ∧ (∀ j, j ≠ i → t.alerts.get j = s.alerts.get j) ∧ t.lanes = s.lanes ∧ t.avails = s.avails
            ∧ ∀ z, (zoneIn r.zones z = true → (t.zones.get z).cover = bestCover t z)
                ∧ (zoneIn r.zones z = false → t.zones.get z = s.zones.get z))))

/-- The coverage of a zone passes to an alert: with its lane serving every channel of the zone gets the lane as a
coverage target and the zone does not wait; otherwise the zone waits, the channels that draw for a placement are asked
back with PREEMPTED, and ALERT_LANE_NOT_READY is raised (R149, R150, R133). When it passes to none, the zone stops
waiting and its channels get NETWORK (R153). When a lane becomes serving, the zones covered by an alert that names it
get the lane as if their coverage had just changed, and stop waiting (R151). A lane is serving while an enabled alert
record names it, it is READY or ON_AIR, and it is not faulted (R149). -/
def Obligations.CoverageChangeGivesTargets : Prop :=
  (∀ (s : State) (l : Fin 16), isServing s l = true ↔
    (∃ a, (s.alerts.get a).enabled = true ∧ (s.alerts.get a).lane = l)
      ∧ ((s.lanes.get l).state = .ready ∨ (s.lanes.get l).state = .onAir) ∧ (s.lanes.get l).faulted = false)
  ∧ (∀ (z : Fin 8) (al : Fin 16) (s : State),
    let t := coverChange (some al) z s
    let l := (s.alerts.get al).lane
    let inZone (ch : Channel) : Prop := (s.ports.get ch.port).zone = z
    (t.zones.get z).cover = some al ∧ t.alerts = s.alerts ∧ t.lanes = s.lanes
      ∧ (∀ y, y ≠ z → t.zones.get y = s.zones.get y)
      ∧ (isServing s l = true → (t.zones.get z).waiting = false ∧ t.attn = s.attn
        ∧ ∀ c ch, s.channels.get c = some ch →
          (¬ inZone ch → t.channels.get c = some ch)
          ∧ (inZone ch → ch.lane = some l →
              t.channels.get c = some { ch with pending := none, holder := some (.alert al) })
          ∧ (inZone ch → ch.lane ≠ some l →
              t.channels.get c = some { ch with pending := some ⟨.lane l (.alert al), .coverage,
                if ch.drawsFor.isSome then some .preempted else none⟩ }))
      ∧ (isServing s l = false → (t.zones.get z).waiting = true
        ∧ (s.mask.getLsbD 8 = true → (t.attn.get (alertSource al)).getLsbD 8 = true)
        ∧ ∀ c ch, s.channels.get c = some ch →
          (¬ inZone ch ∨ ch.drawsFor = none → t.channels.get c = some ch)
          ∧ (inZone ch → ch.drawsFor ≠ none →
              (∀ p, ch.pending = some p → p.kind = .asked) →
              t.channels.get c = some { ch with pending := some ⟨.network, .asked, some .preempted⟩ })
          ∧ ∀ p, inZone ch → ch.pending = some p → p.kind = .coverage → t.channels.get c = some ch))
  ∧ (∀ (z : Fin 8) (s : State),
    let t := coverChange none z s
    let inZone (ch : Channel) : Prop := (s.ports.get ch.port).zone = z
    t.zones = s.zones.set z { s.zones.get z with cover := none, waiting := false }
      ∧ t.alerts = s.alerts ∧ t.lanes = s.lanes ∧ t.attn = s.attn
      ∧ ∀ c ch, s.channels.get c = some ch →
        (¬ inZone ch → t.channels.get c = some ch)
        ∧ (inZone ch → ch.lane = none → t.channels.get c = some { ch with pending := none })
        ∧ (inZone ch → ch.lane ≠ none → t.channels.get c = some { ch with
            pending := some ⟨.network, .coverage, if ch.drawsFor.isSome then some .preempted else none⟩ }))
  ∧ (∀ (l : Fin 16) (s : State),
    let t := laneServes l s
    let served (z : Fin 8) (al : Fin 16) : Prop := (s.zones.get z).cover = some al ∧ (s.alerts.get al).lane = l
    t.alerts = s.alerts ∧ t.lanes = s.lanes ∧ t.attn = s.attn ∧ t.avails = s.avails
      ∧ (∀ z, ((∃ al, served z al) → t.zones.get z = { s.zones.get z with waiting := false })
        ∧ ((∀ al, ¬ served z al) → t.zones.get z = s.zones.get z))
      ∧ ∀ c ch, s.channels.get c = some ch →
        let z := (s.ports.get ch.port).zone
        ((∀ al, ¬ served z al) → t.channels.get c = some ch)
        ∧ ∀ al, served z al →
          (ch.lane = some l → t.channels.get c = some { ch with pending := none, holder := some (.alert al) })
          ∧ (ch.lane ≠ some l → t.channels.get c = some { ch with pending := some ⟨.lane l (.alert al), .coverage,
              if ch.drawsFor.isSome then some .preempted else none⟩ }))

/-! ## Tallies (chapter 8) -/

/-- TALLY_SET: its checks, the clamped configuration on a stopped output, what a REPEAT or STEADY record makes of a source
level that is high as it is programmed, and the record as stored in the answer; TALLY_GET reads (R164, R165). The stopped
phase timer of a REPEAT record with a period of 0 is the model's (log 47). -/
def Obligations.TallySetAndGet : Prop :=
  ∀ (tag : Byte) (a : TallySetArgs) (s : State),
    (canServe (.tallySet tag a) s = true →
      let refused : Prop := exec (.tallySet tag a) s = .next (answered tag kTallySet .badArg [] s)
      (4 ≤ a.output.toNat ∨ 6 ≤ a.kind.toNat ∨ 3 ≤ a.mode.toNat ∨ 2 ≤ a.polarity.toNat → refused)
      ∧ ((a.kind = 1 ∨ a.kind = 2) → 64 ≤ a.selector.toNat → a.selector ≠ 0xFE → refused)
      ∧ ((a.kind = 4 ∨ a.kind = 5) → 16 ≤ a.selector.toNat → a.selector ≠ 0xFE → refused)
      ∧ (a.kind = 3 → a.selector ≠ 0xFE → refused)
      ∧ ((a.kind = 1 ∨ a.kind = 2 ∨ a.kind = 3) → a.mode ≠ 0 → refused)
      ∧ ∀ (o : Fin 4) (k : TallyKind) (m : TallyMode) (pol : Polarity) (sel : Option Nat), a.output.toNat = o.val →
          a.kind = k.byte → a.mode = m.byte → a.polarity = pol.byte →
          (((a.selector = 0xFE ∨ k = .none) ∧ sel = none)
            ∨ (((k = .spliceOut ∨ k = .ret) ∧ a.selector.toNat < 64 ∨ k.isLevel = true ∧ a.selector.toNat < 16)
              ∧ sel = some a.selector.toNat)) →
          (m = .count ∨ k.isLevel = true ∨ k = .none) →
        let t₀ : Tally :=
          { kind := k, selector := sel, mode := m, count := (max 1 (min 15 a.count.toInt)).toNat
            delay := (max 0 (min 255 a.delay.toInt)).toNat
            onTime := (max 1 (min 255 a.onTime.toInt)).toNat
            period := (max 0 (min 255 a.period.toInt)).toNat
            polarity := pol, phase := .idle, started := 0, phaseDue := none, pulses := [], edge := none
            steady := false }
        let now := s.refCount / 27000
        let put (x : Tally) : Prop :=
          exec (.tallySet tag a) s =
            .next (answered tag kTallySet .ok (tallyConfig o x ++ tallyLive now s.alerts x)
              { s with tallies := s.tallies.set o x })
        (k.isLevel = false ∨ sourceLevel t₀ s.alerts = false ∨ m = .count → put t₀)
        ∧ (k.isLevel = true → sourceLevel t₀ s.alerts = true → m = .repeating →
          (t₀.delay ≠ 0 → put { t₀ with phase := .delay, phaseDue := some (now + t₀.delay * 10) })
          ∧ (t₀.delay = 0 → t₀.period ≠ 0 → put { t₀ with
              phase := .pulsing, pulses := [now + t₀.onTime * 10]
              phaseDue := some (now + t₀.period * 10) })
          ∧ (t₀.delay = 0 → t₀.period = 0 → put { t₀ with
              phase := .pulsing, pulses := [now + t₀.onTime * 10], phaseDue := none }))
        ∧ (k.isLevel = true → sourceLevel t₀ s.alerts = true → m = .steady →
          (t₀.delay ≠ 0 → put { t₀ with edge := some ⟨true, now + t₀.delay * 10⟩ })
          ∧ (t₀.delay = 0 → put { t₀ with steady := true })))
    ∧ ∀ b, canServe (.tallyGet tag b) s = true →
      (4 ≤ b.toNat → exec (.tallyGet tag b) s = .next (answered tag kTallyGet .badArg [] s))
      ∧ ∀ o : Fin 4, b.toNat = o.val →
        exec (.tallyGet tag b) s =
          .next (answered tag kTallyGet .ok
            (tallyConfig o (s.tallies.get o) ++ tallyLive (s.refCount / 27000) s.alerts (s.tallies.get o)) s)

/-- The output is active in STEADY's high, in a pulse, and between pulses that leave no break; the pin follows it
through the polarity (R160). A trigger reaches the records whose kind and selector name it; a change of an alert
record's level reaches a COUNT record at each admitted rise, and a REPEAT or STEADY record through its source level
(R147, R159). A trigger starts a COUNT train in IDLE, through DELAY or with a pulse at once, and is ignored in any
other phase (R161). A REPEAT record's train starts at a rise in IDLE or FINISHING and ends at a fall by the table of
R162; a STEADY record takes each change at once or after its delay, and a return cancels it (R163). The phase timer
starts the next pulse, the end of a pulse takes it out and ends a COUNT train with its last pulse or a FINISHING one
with the pulse in progress; one that completes in DELAY, or in IDLE after it, leaves the phase as it is; the pending
edge sets the output; a stopped timer changes nothing. Due times are the model's (log 3, log 15), and so is the
stopped phase timer of a REPEAT record with a period of 0 (log 47). -/
def Obligations.TallyTrains : Prop :=
  let pulsed (now : Nat) (t : Tally) : Tally :=
    { t with
      phase := .pulsing, pulses := t.pulses ++ [now + t.onTime * 10]
      phaseDue := if t.period = 0 then none else some (now + t.period * 10) }
  let counted (now n : Nat) (t : Tally) : Tally :=
    { t with
      phase := .pulsing, started := n, pulses := t.pulses ++ [now + t.onTime * 10]
      phaseDue := some (if n < t.count then now + t.period * 10 else now + t.onTime * 10) }
  let delayed (now : Nat) (t : Tally) : Tally :=
    { t with phase := .delay, started := 0, phaseDue := some (now + t.delay * 10) }
  (∀ t : Tally,
    let between : Prop := t.phase = .pulsing ∧ 0 < t.period ∧ t.period ≤ t.onTime
      ∧ ((t.mode = .count ∧ t.started < t.count) ∨ t.mode = .repeating)
    (t.output = true ↔ t.steady = true ∨ t.pulses ≠ [] ∨ between)
    ∧ t.pin = (if t.polarity = .highActive then t.output else !t.output))
  ∧ (∀ (now : Nat) (t : Tally), t.mode = .count →
    (t.phase ≠ .idle → countTrigger now t = t)
    ∧ (t.phase = .idle → t.delay ≠ 0 → countTrigger now t = delayed now t)
    ∧ (t.phase = .idle → t.delay = 0 →
      countTrigger now t = counted now (if t.period = 0 then t.count else 1) t))
  ∧ (∀ (k : TallyKind) (i : Fin 64) (s : State),
    let t := deliverTrigger k i s
    t = { s with tallies := t.tallies }
    ∧ ∀ o, let x := s.tallies.get o
      let reached : Prop := x.kind = k ∧ (x.selector = none ∨ x.selector = some i.val)
      (reached → t.tallies.get o = countTrigger (s.refCount / 27000) x)
      ∧ (¬ reached → t.tallies.get o = x))
  ∧ (∀ (old : Table Alert 16) (s : State) (o : Fin 4),
    let now := s.refCount / 27000
    let x := s.tallies.get o
    let after := (deliverLevels old s).tallies.get o
    let high (r : Alert) : Prop := (x.kind = .alertQualifying ∧ r.state = .qualifying)
      ∨ (x.kind = .alertActive ∧ (r.state = .active ∨ r.state = .releasing))
    let admitted (a : Fin 16) : Prop := x.selector = none ∨ x.selector = some a.val
    let was : Prop := ∃ a, admitted a ∧ high (old.get a)
    let is : Prop := ∃ a, admitted a ∧ high (s.alerts.get a)
    (x.kind ≠ .alertQualifying → x.kind ≠ .alertActive → after = x)
    ∧ (x.kind = .alertQualifying ∨ x.kind = .alertActive →
      (x.mode = .count →
        ((∃ a, admitted a ∧ ¬ high (old.get a) ∧ high (s.alerts.get a)) → after = countTrigger now x)
        ∧ ((∀ a, admitted a → high (s.alerts.get a) → high (old.get a)) → after = x))
      ∧ (x.mode = .repeating →
        ((was ↔ is) → after = x)
        ∧ (¬ was → is →
          (x.phase = .idle ∨ x.phase = .finishing →
            (x.delay ≠ 0 → after = delayed now x) ∧ (x.delay = 0 → after = pulsed now { x with started := 0 }))
          ∧ (x.phase = .delay ∨ x.phase = .pulsing → after = x))
        ∧ (was → ¬ is →
          (x.phase = .delay → after = { x with phase := .idle, phaseDue := none })
          ∧ (x.phase = .pulsing → x.pulses = [] → after = { x with phase := .idle, phaseDue := none })
          ∧ (x.phase = .pulsing → ∀ front last, x.pulses = front ++ [last] →
            after = { x with phase := .finishing, phaseDue := some last })
          ∧ (x.phase = .idle ∨ x.phase = .finishing → after = x)))
      ∧ (x.mode = .steady →
        ((was ↔ is) → after = x)
        ∧ ∀ level : Bool, ¬ (was ↔ is) → (level = true ↔ is) →
          (level = x.steady → after = { x with edge := none })
          ∧ (level ≠ x.steady → x.delay = 0 → after = { x with steady := level, edge := none })
          ∧ (level ≠ x.steady → x.delay ≠ 0 →
            (x.edge = none → after = { x with edge := some ⟨level, now + x.delay * 10⟩ })
            ∧ (x.edge ≠ none → after = x)))))
  ∧ (∀ (o : Fin 4) (s : State), s.resetLow = false →
    let t := s.tallies.get o
    let put (n : Nat) (x : Tally) : State := { s with refCount := n, tallies := s.tallies.set o x }
    (t.phaseDue = none → exec (.tallyPhaseTimerExpiry o) s = .next s)
    ∧ (∀ due, t.phaseDue = some due →
      let n := countAt due s
      let turns (x : Tally) : Prop := exec (.tallyPhaseTimerExpiry o) s = .next (put n x)
      (t.phase = .delay → t.mode = .count → t.started = 0 →
        turns (counted (n / 27000) (if t.period = 0 then t.count else 1) t))
      ∧ (t.phase = .delay → t.mode = .repeating → turns (pulsed (n / 27000) t))
      ∧ (t.phase = .pulsing → t.mode = .count → t.period ≠ 0 → t.started < t.count →
        turns (counted (n / 27000) (t.started + 1) t))
      ∧ (t.phase = .pulsing → t.mode = .repeating → t.period ≠ 0 → turns (pulsed (n / 27000) t))
      ∧ (t.phase = .pulsing → t.mode = .count → t.count ≤ t.started → turns t)
      ∧ (t.phase = .idle ∨ t.phase = .finishing → turns t))
    ∧ (t.pulses = [] → exec (.tallyPulseEnd o) s = .next s)
    ∧ (∀ due rest, t.pulses = due :: rest →
      let n := countAt due s
      (rest ≠ [] → exec (.tallyPulseEnd o) s = .next (put n { t with pulses := rest }))
      ∧ (rest = [] → t.phase = .pulsing → t.mode = .repeating ∨ (t.mode = .count ∧ t.started < t.count) →
        exec (.tallyPulseEnd o) s = .next (put n { t with pulses := [] }))
      ∧ (rest = [] → t.phase = .delay ∨ t.phase = .idle →
        exec (.tallyPulseEnd o) s = .next (put n { t with pulses := [] }))
      ∧ (rest = [] → t.phase = .pulsing → t.mode = .count → t.count ≤ t.started →
        exec (.tallyPulseEnd o) s =
          .next (put n { t with pulses := [], phase := .idle, started := 0, phaseDue := none }))
      ∧ (rest = [] → t.phase = .finishing →
        exec (.tallyPulseEnd o) s =
          .next (put n { t with pulses := [], phase := .idle, phaseDue := none })))
    ∧ (t.edge = none → exec (.tallyPendingEdgeExpiry o) s = .next s)
    ∧ ∀ e, t.edge = some e →
      exec (.tallyPendingEdgeExpiry o) s =
        .next (put (countAt e.due s) { t with steady := e.level, edge := none }))

/-! ## Attention (chapter 9) -/

/-- A raise is recorded under the mask as it stands, once, and touches nothing else of the set (R168); ATTN follows the
set but for the gap, and follows it again at the gap's end (R170, R171). The due time is the model's (log 3). -/
def Obligations.RaisesAndAttnLine : Prop :=
  (∀ (src : Fin 96) (k : Cause) (s : State),
    (s.mask.getLsbD k.bit = false → raise src k s = s)
    ∧ (s.mask.getLsbD k.bit = true →
      (raise src k s).attn.get src = s.attn.get src ||| (1#9 <<< k.bit)
      ∧ ((raise src k s).attn.get src).getLsbD k.bit = true
      ∧ (∀ j, j ≠ k.bit → ((raise src k s).attn.get src).getLsbD j = (s.attn.get src).getLsbD j)
      ∧ (∀ other, other ≠ src → (raise src k s).attn.get other = s.attn.get other)
      ∧ ((s.attn.get src).getLsbD k.bit = true → (raise src k s).attn.get src = s.attn.get src)))
  ∧ (∀ s : State,
    (s.gap = none → (attnLine s = true ↔ ∃ src, s.attn.get src ≠ 0#9))
    ∧ (∀ start, s.gap = some start → attnLine s = false)
    ∧ (s.resetLow = false → s.gap = none → exec .attnGapEnd s = .next s)
    ∧ ∀ start, s.resetLow = false → s.gap = some start →
      ∃ t, exec .attnGapEnd s = .next t
        ∧ t = { s with
            gap := none
            refCount := if start + 1350 ≤ s.refCount then s.refCount else start + 1350 }
        ∧ (attnLine t = true ↔ ∃ src, s.attn.get src ≠ 0#9))

/-- ATTN_MASK stores mask and mode and touches no pending cause (R169, R171); POLL reports the lowest source with causes,
its kinds and its snapshot, and removes exactly those, with a gap in PULSE mode while causes remain (R171, R172);
SUMMARY reads the whole set and changes nothing (R174); bodies by R191. -/
def Obligations.AttentionRequests : Prop :=
  (∀ (tag : Byte) (a : AttnMaskArgs) (s : State), canServe (.attnMask tag a) s = true →
    (2 ≤ a.mode.toNat → exec (.attnMask tag a) s = .next (answered tag kAttnMask .badArg [] s))
    ∧ (a.mode = 0 → exec (.attnMask tag a) s =
        .next (answered tag kAttnMask .ok (be 2 (a.mask.toNat % 512) ++ [0])
          { s with mask := BitVec.ofNat 9 a.mask.toNat, lineMode := .level, gap := none }))
    ∧ (a.mode = 1 → exec (.attnMask tag a) s =
        .next (answered tag kAttnMask .ok (be 2 (a.mask.toNat % 512) ++ [1])
          { s with mask := BitVec.ofNat 9 a.mask.toNat, lineMode := .pulse })))
  ∧ (∀ (tag : Byte) (s : State), canServe (.poll tag) s = true →
    ((∀ src, s.attn.get src = 0#9) →
      exec (.poll tag) s = .next (answered tag kPoll .ok [0xFF, 0, 0, 0, 0, 0] s))
    ∧ ∀ src : Fin 96, s.attn.get src ≠ 0#9 → (∀ lower, lower.val < src.val → s.attn.get lower = 0#9) →
      let more : Prop := ∃ other, other ≠ src ∧ s.attn.get other ≠ 0#9
      ∃ snap flag t, exec (.poll tag) s =
          .next (answered tag kPoll .ok
            ([BitVec.ofNat 8 src.val] ++ be 2 (s.attn.get src).toNat ++ snap ++ [flag]) t)
        ∧ t.attn = s.attn.set src 0#9 ∧ t.mask = s.mask ∧ t.lineMode = s.lineMode
        ∧ t.services = s.services ∧ t.lanes = s.lanes ∧ t.alerts = s.alerts ∧ t.avails = s.avails
        ∧ (more → flag = 1) ∧ (¬ more → flag = 0)
        ∧ t.gap.isSome = decide (s.lineMode = .pulse ∧ flag = 1)
        ∧ (∀ start, t.gap = some start → start = s.refCount)
        ∧ (∀ i, src = svcSource i → snap = [(tbStateOf s i).byte, BitVec.ofNat 8 (recCount s i)])
        ∧ (∀ l, src = laneSource l → snap = [(s.lanes.get l).state.byte, (s.lanes.get l).lastFault.byte])
        ∧ ∀ a, src = alertSource a → snap = [(s.alerts.get a).state.byte, 0])
  ∧ (∀ (tag : Byte) (s : State), canServe (.summary tag) s = true →
    ∃ body, exec (.summary tag) s = .next (answered tag kSummary .ok body s) ∧ body.length = 195
      ∧ (∀ src : Fin 96, (body.drop (2 * src.val)).take 2 = be 2 (s.attn.get src).toNat)
      ∧ (body.drop 192).take 2 = be 2 s.mask.toNat ∧ body[194]? = some s.lineMode.byte)

/-! ## Frames and invariants -/

/-- Events of streams, pins and timers leave the request port, the attention and guard settings and every configuration
(services, lanes, ports, locks, channels, alert inputs, flags, alert records, tallies) as they are. While RESET_N is low
an alert input has its reset configuration. -/
def Obligations.EventsKeepConfiguration : Prop :=
  ∀ (c : Instr) (s t : State), isEvent c = true → exec c s = .next t →
    t.pending = s.pending ∧ t.resetLow = s.resetLow ∧ t.reqSlot = s.reqSlot ∧ t.respSlot = s.respSlot
      ∧ t.spiOut = s.spiOut ∧ t.mask = s.mask ∧ t.lineMode = s.lineMode ∧ t.groupGuard = s.groupGuard
      ∧ t.rflags = s.rflags ∧ t.walk = s.walk ∧ s.refCount ≤ t.refCount
      ∧ (∀ p, (t.ports.get p).baseInput = (s.ports.get p).baseInput
          ∧ (t.ports.get p).zone = (s.ports.get p).zone)
      ∧ (∀ z, (t.zones.get z).locked = (s.zones.get z).locked)
      ∧ (∀ l, (t.lanes.get l).cfg = (s.lanes.get l).cfg)
      ∧ (∀ ch, (t.channels.get ch).map (fun x => (x.service, x.port)) =
          (s.channels.get ch).map fun x => (x.service, x.port))
      ∧ (∀ i, (t.services.get i).map (fun v => { v with tb := Timebase.reset, lastT := 0, last := none }) =
          (s.services.get i).map fun v => { v with tb := Timebase.reset, lastT := 0, last := none })
      ∧ (∀ a, (t.alerts.get a).enabled = (s.alerts.get a).enabled
          ∧ (t.alerts.get a).priority = (s.alerts.get a).priority
          ∧ (t.alerts.get a).terms = (s.alerts.get a).terms
          ∧ (t.alerts.get a).combine = (s.alerts.get a).combine
          ∧ (t.alerts.get a).hold = (s.alerts.get a).hold
          ∧ (t.alerts.get a).release = (s.alerts.get a).release
          ∧ (t.alerts.get a).zones = (s.alerts.get a).zones ∧ (t.alerts.get a).lane = (s.alerts.get a).lane)
      ∧ (∀ i, s.resetLow = false ∨ (s.ains.get i).polarity = .lowActive ∧ (s.ains.get i).debounce = 20 →
          (t.ains.get i).polarity = (s.ains.get i).polarity ∧ (t.ains.get i).debounce = (s.ains.get i).debounce)
      ∧ ∀ o, (t.tallies.get o).kind = (s.tallies.get o).kind
          ∧ (t.tallies.get o).selector = (s.tallies.get o).selector
          ∧ (t.tallies.get o).mode = (s.tallies.get o).mode
          ∧ (t.tallies.get o).count = (s.tallies.get o).count
          ∧ (t.tallies.get o).delay = (s.tallies.get o).delay
          ∧ (t.tallies.get o).onTime = (s.tallies.get o).onTime
          ∧ (t.tallies.get o).period = (s.tallies.get o).period
          ∧ (t.tallies.get o).polarity = (s.tallies.get o).polarity

/-- The invariants hold right after a full reset. -/
def Obligations.InvariantsHoldAtReset : Prop :=
  LanesOk State.reset ∧ MemoriesOk State.reset ∧ AttentionOk State.reset ∧ GapOk State.reset
    ∧ TableOk State.reset ∧ ChannelsOk State.reset ∧ PidsOk State.reset ∧ TimebasesOk State.reset
    ∧ AlertsOk State.reset ∧ ActivationsOk State.reset ∧ CoverageOk State.reset

/-- Every step keeps the lanes in order. -/
def Obligations.StepKeepsLanes : Prop :=
  ∀ s t : State, step s = .next t → LanesOk s → LanesOk t

/-- Every step keeps the continuity memories canonical. -/
def Obligations.StepKeepsMemories : Prop :=
  ∀ s t : State, step s = .next t → MemoriesOk s → MemoriesOk t

/-- Every step keeps the attention set legal, and the gap with it. -/
def Obligations.StepKeepsAttention : Prop :=
  ∀ s t : State, step s = .next t → (AttentionOk s → AttentionOk t) ∧ (GapOk s → GapOk t)

/-- Every step keeps the bounds and the keys of the Avail Table. -/
def Obligations.StepKeepsAvailTable : Prop :=
  ∀ s t : State, step s = .next t → TableOk s → TableOk t

/-- Every step keeps the Service Table's PIDs apart and its timebases in order, and every channel on a defined service of
its port's input, no pair twice. -/
def Obligations.StepKeepsServicesAndChannels : Prop :=
  (∀ s t : State, step s = .next t → (PidsOk s → PidsOk t) ∧ (TimebasesOk s → TimebasesOk t))
  ∧ (∀ s t : State, step s = .next t → ChannelsOk s → ChannelsOk t)

/-- Every step keeps each zone covered by exactly the record R148 names, each alert record in order, and the
activations of the covering-capable records apart, each with its own place in their order (R144). The record R148
names is the covering-capable one of the zone that has a higher priority, or the same priority and an earlier
activation, than every other; there is none exactly when no covering-capable record has the zone. The earlier
activation has the lower stamp, and of equal stamps the lower place in the order in which they were taken (R144). -/
def Obligations.StepKeepsAlertCoverage : Prop :=
  (∀ s t : State, step s = .next t → AlertsOk s → CoverageOk s → AlertsOk t ∧ CoverageOk t)
  ∧ (∀ s t : State, step s = .next t → ActivationsOk s → ActivationsOk t)
  ∧ (∀ (s : State) (z : Fin 8), AlertsOk s → ActivationsOk s →
    let capable (a : Fin 16) : Prop := ((s.alerts.get a).state = .active ∨ (s.alerts.get a).state = .releasing)
      ∧ (s.alerts.get a).zones.getLsbD z.val = true
    let earlier (a b : Alert) : Prop := ∃ x y, a.stamp = some x ∧ b.stamp = some y
      ∧ (x.toNat < y.toNat ∨ (x = y ∧ a.seq < b.seq))
    (∀ a, bestCover s z = some a ↔ capable a ∧ ∀ b, b ≠ a → capable b →
      let r := s.alerts.get a
      let q := s.alerts.get b
      q.priority < r.priority ∨ (q.priority = r.priority ∧ earlier r q))
    ∧ (bestCover s z = none ↔ ∀ a, ¬ capable a))

end
end

