-- ==== Sys2Proof/Laws/State.lean ====
section
/-! SUPPORT. One lemma per field per update: what the named updates leave unchanged, and what the changed
field then holds. -/

namespace Sys2Proof.Machine

/-! ### updSvc -/

@[simp] theorem pending_updSvc (i : Fin 64) (f : Service → Service) (s : State) :
    (updSvc i f s).pending = s.pending := rfl

@[simp] theorem resetLow_updSvc (i : Fin 64) (f : Service → Service) (s : State) :
    (updSvc i f s).resetLow = s.resetLow := rfl

@[simp] theorem refCount_updSvc (i : Fin 64) (f : Service → Service) (s : State) :
    (updSvc i f s).refCount = s.refCount := rfl

@[simp] theorem reqSlot_updSvc (i : Fin 64) (f : Service → Service) (s : State) :
    (updSvc i f s).reqSlot = s.reqSlot := rfl

@[simp] theorem respSlot_updSvc (i : Fin 64) (f : Service → Service) (s : State) :
    (updSvc i f s).respSlot = s.respSlot := rfl

@[simp] theorem spiOut_updSvc (i : Fin 64) (f : Service → Service) (s : State) :
    (updSvc i f s).spiOut = s.spiOut := rfl

@[simp] theorem avails_updSvc (i : Fin 64) (f : Service → Service) (s : State) :
    (updSvc i f s).avails = s.avails := rfl

@[simp] theorem created_updSvc (i : Fin 64) (f : Service → Service) (s : State) :
    (updSvc i f s).created = s.created := rfl

@[simp] theorem walk_updSvc (i : Fin 64) (f : Service → Service) (s : State) :
    (updSvc i f s).walk = s.walk := rfl

@[simp] theorem netIn_updSvc (i : Fin 64) (f : Service → Service) (s : State) :
    (updSvc i f s).netIn = s.netIn := rfl

@[simp] theorem laneIn_updSvc (i : Fin 64) (f : Service → Service) (s : State) :
    (updSvc i f s).laneIn = s.laneIn := rfl

@[simp] theorem lanes_updSvc (i : Fin 64) (f : Service → Service) (s : State) :
    (updSvc i f s).lanes = s.lanes := rfl

@[simp] theorem groupGuard_updSvc (i : Fin 64) (f : Service → Service) (s : State) :
    (updSvc i f s).groupGuard = s.groupGuard := rfl

@[simp] theorem channels_updSvc (i : Fin 64) (f : Service → Service) (s : State) :
    (updSvc i f s).channels = s.channels := rfl

@[simp] theorem ports_updSvc (i : Fin 64) (f : Service → Service) (s : State) :
    (updSvc i f s).ports = s.ports := rfl

@[simp] theorem zones_updSvc (i : Fin 64) (f : Service → Service) (s : State) :
    (updSvc i f s).zones = s.zones := rfl

@[simp] theorem ains_updSvc (i : Fin 64) (f : Service → Service) (s : State) :
    (updSvc i f s).ains = s.ains := rfl

@[simp] theorem rflags_updSvc (i : Fin 64) (f : Service → Service) (s : State) :
    (updSvc i f s).rflags = s.rflags := rfl

@[simp] theorem alerts_updSvc (i : Fin 64) (f : Service → Service) (s : State) :
    (updSvc i f s).alerts = s.alerts := rfl

@[simp] theorem activations_updSvc (i : Fin 64) (f : Service → Service) (s : State) :
    (updSvc i f s).activations = s.activations := rfl

@[simp] theorem tallies_updSvc (i : Fin 64) (f : Service → Service) (s : State) :
    (updSvc i f s).tallies = s.tallies := rfl

@[simp] theorem attn_updSvc (i : Fin 64) (f : Service → Service) (s : State) :
    (updSvc i f s).attn = s.attn := rfl

@[simp] theorem mask_updSvc (i : Fin 64) (f : Service → Service) (s : State) :
    (updSvc i f s).mask = s.mask := rfl

@[simp] theorem lineMode_updSvc (i : Fin 64) (f : Service → Service) (s : State) :
    (updSvc i f s).lineMode = s.lineMode := rfl

@[simp] theorem gap_updSvc (i : Fin 64) (f : Service → Service) (s : State) :
    (updSvc i f s).gap = s.gap := rfl

@[simp] theorem freeCount_updSvc (i : Fin 64) (f : Service → Service) (s : State) :
    (updSvc i f s).freeCount = s.freeCount := rfl

/-! ### updRec -/

@[simp] theorem pending_updRec (k : Key) (f : Avail → Avail) (s : State) :
    (updRec k f s).pending = s.pending := rfl

@[simp] theorem resetLow_updRec (k : Key) (f : Avail → Avail) (s : State) :
    (updRec k f s).resetLow = s.resetLow := rfl

@[simp] theorem refCount_updRec (k : Key) (f : Avail → Avail) (s : State) :
    (updRec k f s).refCount = s.refCount := rfl

@[simp] theorem reqSlot_updRec (k : Key) (f : Avail → Avail) (s : State) :
    (updRec k f s).reqSlot = s.reqSlot := rfl

@[simp] theorem respSlot_updRec (k : Key) (f : Avail → Avail) (s : State) :
    (updRec k f s).respSlot = s.respSlot := rfl

@[simp] theorem spiOut_updRec (k : Key) (f : Avail → Avail) (s : State) :
    (updRec k f s).spiOut = s.spiOut := rfl

@[simp] theorem services_updRec (k : Key) (f : Avail → Avail) (s : State) :
    (updRec k f s).services = s.services := rfl

@[simp] theorem created_updRec (k : Key) (f : Avail → Avail) (s : State) :
    (updRec k f s).created = s.created := rfl

@[simp] theorem walk_updRec (k : Key) (f : Avail → Avail) (s : State) :
    (updRec k f s).walk = s.walk := rfl

@[simp] theorem netIn_updRec (k : Key) (f : Avail → Avail) (s : State) :
    (updRec k f s).netIn = s.netIn := rfl

@[simp] theorem laneIn_updRec (k : Key) (f : Avail → Avail) (s : State) :
    (updRec k f s).laneIn = s.laneIn := rfl

@[simp] theorem lanes_updRec (k : Key) (f : Avail → Avail) (s : State) :
    (updRec k f s).lanes = s.lanes := rfl

@[simp] theorem groupGuard_updRec (k : Key) (f : Avail → Avail) (s : State) :
    (updRec k f s).groupGuard = s.groupGuard := rfl

@[simp] theorem channels_updRec (k : Key) (f : Avail → Avail) (s : State) :
    (updRec k f s).channels = s.channels := rfl

@[simp] theorem ports_updRec (k : Key) (f : Avail → Avail) (s : State) :
    (updRec k f s).ports = s.ports := rfl

@[simp] theorem zones_updRec (k : Key) (f : Avail → Avail) (s : State) :
    (updRec k f s).zones = s.zones := rfl

@[simp] theorem ains_updRec (k : Key) (f : Avail → Avail) (s : State) :
    (updRec k f s).ains = s.ains := rfl

@[simp] theorem rflags_updRec (k : Key) (f : Avail → Avail) (s : State) :
    (updRec k f s).rflags = s.rflags := rfl

@[simp] theorem alerts_updRec (k : Key) (f : Avail → Avail) (s : State) :
    (updRec k f s).alerts = s.alerts := rfl

@[simp] theorem activations_updRec (k : Key) (f : Avail → Avail) (s : State) :
    (updRec k f s).activations = s.activations := rfl

@[simp] theorem tallies_updRec (k : Key) (f : Avail → Avail) (s : State) :
    (updRec k f s).tallies = s.tallies := rfl

@[simp] theorem attn_updRec (k : Key) (f : Avail → Avail) (s : State) :
    (updRec k f s).attn = s.attn := rfl

@[simp] theorem mask_updRec (k : Key) (f : Avail → Avail) (s : State) :
    (updRec k f s).mask = s.mask := rfl

@[simp] theorem lineMode_updRec (k : Key) (f : Avail → Avail) (s : State) :
    (updRec k f s).lineMode = s.lineMode := rfl

@[simp] theorem gap_updRec (k : Key) (f : Avail → Avail) (s : State) :
    (updRec k f s).gap = s.gap := rfl

@[simp] theorem freeCount_updRec (k : Key) (f : Avail → Avail) (s : State) :
    (updRec k f s).freeCount = s.freeCount := rfl

/-! ### updPlacement -/

@[simp] theorem pending_updPlacement (p : PRef) (f : Placement → Placement) (s : State) :
    (updPlacement p f s).pending = s.pending := rfl

@[simp] theorem resetLow_updPlacement (p : PRef) (f : Placement → Placement) (s : State) :
    (updPlacement p f s).resetLow = s.resetLow := rfl

@[simp] theorem refCount_updPlacement (p : PRef) (f : Placement → Placement) (s : State) :
    (updPlacement p f s).refCount = s.refCount := rfl

@[simp] theorem reqSlot_updPlacement (p : PRef) (f : Placement → Placement) (s : State) :
    (updPlacement p f s).reqSlot = s.reqSlot := rfl

@[simp] theorem respSlot_updPlacement (p : PRef) (f : Placement → Placement) (s : State) :
    (updPlacement p f s).respSlot = s.respSlot := rfl

@[simp] theorem spiOut_updPlacement (p : PRef) (f : Placement → Placement) (s : State) :
    (updPlacement p f s).spiOut = s.spiOut := rfl

@[simp] theorem services_updPlacement (p : PRef) (f : Placement → Placement) (s : State) :
    (updPlacement p f s).services = s.services := rfl

@[simp] theorem created_updPlacement (p : PRef) (f : Placement → Placement) (s : State) :
    (updPlacement p f s).created = s.created := rfl

@[simp] theorem walk_updPlacement (p : PRef) (f : Placement → Placement) (s : State) :
    (updPlacement p f s).walk = s.walk := rfl

@[simp] theorem netIn_updPlacement (p : PRef) (f : Placement → Placement) (s : State) :
    (updPlacement p f s).netIn = s.netIn := rfl

@[simp] theorem laneIn_updPlacement (p : PRef) (f : Placement → Placement) (s : State) :
    (updPlacement p f s).laneIn = s.laneIn := rfl

@[simp] theorem lanes_updPlacement (p : PRef) (f : Placement → Placement) (s : State) :
    (updPlacement p f s).lanes = s.lanes := rfl

@[simp] theorem groupGuard_updPlacement (p : PRef) (f : Placement → Placement) (s : State) :
    (updPlacement p f s).groupGuard = s.groupGuard := rfl

@[simp] theorem channels_updPlacement (p : PRef) (f : Placement → Placement) (s : State) :
    (updPlacement p f s).channels = s.channels := rfl

@[simp] theorem ports_updPlacement (p : PRef) (f : Placement → Placement) (s : State) :
    (updPlacement p f s).ports = s.ports := rfl

@[simp] theorem zones_updPlacement (p : PRef) (f : Placement → Placement) (s : State) :
    (updPlacement p f s).zones = s.zones := rfl

@[simp] theorem ains_updPlacement (p : PRef) (f : Placement → Placement) (s : State) :
    (updPlacement p f s).ains = s.ains := rfl

@[simp] theorem rflags_updPlacement (p : PRef) (f : Placement → Placement) (s : State) :
    (updPlacement p f s).rflags = s.rflags := rfl

@[simp] theorem alerts_updPlacement (p : PRef) (f : Placement → Placement) (s : State) :
    (updPlacement p f s).alerts = s.alerts := rfl

@[simp] theorem activations_updPlacement (p : PRef) (f : Placement → Placement) (s : State) :
    (updPlacement p f s).activations = s.activations := rfl

@[simp] theorem tallies_updPlacement (p : PRef) (f : Placement → Placement) (s : State) :
    (updPlacement p f s).tallies = s.tallies := rfl

@[simp] theorem attn_updPlacement (p : PRef) (f : Placement → Placement) (s : State) :
    (updPlacement p f s).attn = s.attn := rfl

@[simp] theorem mask_updPlacement (p : PRef) (f : Placement → Placement) (s : State) :
    (updPlacement p f s).mask = s.mask := rfl

@[simp] theorem lineMode_updPlacement (p : PRef) (f : Placement → Placement) (s : State) :
    (updPlacement p f s).lineMode = s.lineMode := rfl

@[simp] theorem gap_updPlacement (p : PRef) (f : Placement → Placement) (s : State) :
    (updPlacement p f s).gap = s.gap := rfl

@[simp] theorem freeCount_updPlacement (p : PRef) (f : Placement → Placement) (s : State) :
    (updPlacement p f s).freeCount = s.freeCount := rfl

/-! ### updLane -/

@[simp] theorem pending_updLane (l : Fin 16) (f : Lane → Lane) (s : State) :
    (updLane l f s).pending = s.pending := rfl

@[simp] theorem resetLow_updLane (l : Fin 16) (f : Lane → Lane) (s : State) :
    (updLane l f s).resetLow = s.resetLow := rfl

@[simp] theorem refCount_updLane (l : Fin 16) (f : Lane → Lane) (s : State) :
    (updLane l f s).refCount = s.refCount := rfl

@[simp] theorem reqSlot_updLane (l : Fin 16) (f : Lane → Lane) (s : State) :
    (updLane l f s).reqSlot = s.reqSlot := rfl

@[simp] theorem respSlot_updLane (l : Fin 16) (f : Lane → Lane) (s : State) :
    (updLane l f s).respSlot = s.respSlot := rfl

@[simp] theorem spiOut_updLane (l : Fin 16) (f : Lane → Lane) (s : State) :
    (updLane l f s).spiOut = s.spiOut := rfl

@[simp] theorem services_updLane (l : Fin 16) (f : Lane → Lane) (s : State) :
    (updLane l f s).services = s.services := rfl

@[simp] theorem avails_updLane (l : Fin 16) (f : Lane → Lane) (s : State) :
    (updLane l f s).avails = s.avails := rfl

@[simp] theorem created_updLane (l : Fin 16) (f : Lane → Lane) (s : State) :
    (updLane l f s).created = s.created := rfl

@[simp] theorem walk_updLane (l : Fin 16) (f : Lane → Lane) (s : State) :
    (updLane l f s).walk = s.walk := rfl

@[simp] theorem netIn_updLane (l : Fin 16) (f : Lane → Lane) (s : State) :
    (updLane l f s).netIn = s.netIn := rfl

@[simp] theorem laneIn_updLane (l : Fin 16) (f : Lane → Lane) (s : State) :
    (updLane l f s).laneIn = s.laneIn := rfl

@[simp] theorem groupGuard_updLane (l : Fin 16) (f : Lane → Lane) (s : State) :
    (updLane l f s).groupGuard = s.groupGuard := rfl

@[simp] theorem channels_updLane (l : Fin 16) (f : Lane → Lane) (s : State) :
    (updLane l f s).channels = s.channels := rfl

@[simp] theorem ports_updLane (l : Fin 16) (f : Lane → Lane) (s : State) :
    (updLane l f s).ports = s.ports := rfl

@[simp] theorem zones_updLane (l : Fin 16) (f : Lane → Lane) (s : State) :
    (updLane l f s).zones = s.zones := rfl

@[simp] theorem ains_updLane (l : Fin 16) (f : Lane → Lane) (s : State) :
    (updLane l f s).ains = s.ains := rfl

@[simp] theorem rflags_updLane (l : Fin 16) (f : Lane → Lane) (s : State) :
    (updLane l f s).rflags = s.rflags := rfl

@[simp] theorem alerts_updLane (l : Fin 16) (f : Lane → Lane) (s : State) :
    (updLane l f s).alerts = s.alerts := rfl

@[simp] theorem activations_updLane (l : Fin 16) (f : Lane → Lane) (s : State) :
    (updLane l f s).activations = s.activations := rfl

@[simp] theorem tallies_updLane (l : Fin 16) (f : Lane → Lane) (s : State) :
    (updLane l f s).tallies = s.tallies := rfl

@[simp] theorem attn_updLane (l : Fin 16) (f : Lane → Lane) (s : State) :
    (updLane l f s).attn = s.attn := rfl

@[simp] theorem mask_updLane (l : Fin 16) (f : Lane → Lane) (s : State) :
    (updLane l f s).mask = s.mask := rfl

@[simp] theorem lineMode_updLane (l : Fin 16) (f : Lane → Lane) (s : State) :
    (updLane l f s).lineMode = s.lineMode := rfl

@[simp] theorem gap_updLane (l : Fin 16) (f : Lane → Lane) (s : State) :
    (updLane l f s).gap = s.gap := rfl

@[simp] theorem freeCount_updLane (l : Fin 16) (f : Lane → Lane) (s : State) :
    (updLane l f s).freeCount = s.freeCount := rfl

/-! ### updChan -/

@[simp] theorem pending_updChan (c : Fin 128) (f : Channel → Channel) (s : State) :
    (updChan c f s).pending = s.pending := rfl

@[simp] theorem resetLow_updChan (c : Fin 128) (f : Channel → Channel) (s : State) :
    (updChan c f s).resetLow = s.resetLow := rfl

@[simp] theorem refCount_updChan (c : Fin 128) (f : Channel → Channel) (s : State) :
    (updChan c f s).refCount = s.refCount := rfl

@[simp] theorem reqSlot_updChan (c : Fin 128) (f : Channel → Channel) (s : State) :
    (updChan c f s).reqSlot = s.reqSlot := rfl

@[simp] theorem respSlot_updChan (c : Fin 128) (f : Channel → Channel) (s : State) :
    (updChan c f s).respSlot = s.respSlot := rfl

@[simp] theorem spiOut_updChan (c : Fin 128) (f : Channel → Channel) (s : State) :
    (updChan c f s).spiOut = s.spiOut := rfl

@[simp] theorem services_updChan (c : Fin 128) (f : Channel → Channel) (s : State) :
    (updChan c f s).services = s.services := rfl

@[simp] theorem avails_updChan (c : Fin 128) (f : Channel → Channel) (s : State) :
    (updChan c f s).avails = s.avails := rfl

@[simp] theorem created_updChan (c : Fin 128) (f : Channel → Channel) (s : State) :
    (updChan c f s).created = s.created := rfl

@[simp] theorem walk_updChan (c : Fin 128) (f : Channel → Channel) (s : State) :
    (updChan c f s).walk = s.walk := rfl

@[simp] theorem netIn_updChan (c : Fin 128) (f : Channel → Channel) (s : State) :
    (updChan c f s).netIn = s.netIn := rfl

@[simp] theorem laneIn_updChan (c : Fin 128) (f : Channel → Channel) (s : State) :
    (updChan c f s).laneIn = s.laneIn := rfl

@[simp] theorem lanes_updChan (c : Fin 128) (f : Channel → Channel) (s : State) :
    (updChan c f s).lanes = s.lanes := rfl

@[simp] theorem groupGuard_updChan (c : Fin 128) (f : Channel → Channel) (s : State) :
    (updChan c f s).groupGuard = s.groupGuard := rfl

@[simp] theorem ports_updChan (c : Fin 128) (f : Channel → Channel) (s : State) :
    (updChan c f s).ports = s.ports := rfl

@[simp] theorem zones_updChan (c : Fin 128) (f : Channel → Channel) (s : State) :
    (updChan c f s).zones = s.zones := rfl

@[simp] theorem ains_updChan (c : Fin 128) (f : Channel → Channel) (s : State) :
    (updChan c f s).ains = s.ains := rfl

@[simp] theorem rflags_updChan (c : Fin 128) (f : Channel → Channel) (s : State) :
    (updChan c f s).rflags = s.rflags := rfl

@[simp] theorem alerts_updChan (c : Fin 128) (f : Channel → Channel) (s : State) :
    (updChan c f s).alerts = s.alerts := rfl

@[simp] theorem activations_updChan (c : Fin 128) (f : Channel → Channel) (s : State) :
    (updChan c f s).activations = s.activations := rfl

@[simp] theorem tallies_updChan (c : Fin 128) (f : Channel → Channel) (s : State) :
    (updChan c f s).tallies = s.tallies := rfl

@[simp] theorem attn_updChan (c : Fin 128) (f : Channel → Channel) (s : State) :
    (updChan c f s).attn = s.attn := rfl

@[simp] theorem mask_updChan (c : Fin 128) (f : Channel → Channel) (s : State) :
    (updChan c f s).mask = s.mask := rfl

@[simp] theorem lineMode_updChan (c : Fin 128) (f : Channel → Channel) (s : State) :
    (updChan c f s).lineMode = s.lineMode := rfl

@[simp] theorem gap_updChan (c : Fin 128) (f : Channel → Channel) (s : State) :
    (updChan c f s).gap = s.gap := rfl

@[simp] theorem freeCount_updChan (c : Fin 128) (f : Channel → Channel) (s : State) :
    (updChan c f s).freeCount = s.freeCount := rfl

/-! ### updPort -/

@[simp] theorem pending_updPort (p : Fin 8) (f : Port → Port) (s : State) :
    (updPort p f s).pending = s.pending := rfl

@[simp] theorem resetLow_updPort (p : Fin 8) (f : Port → Port) (s : State) :
    (updPort p f s).resetLow = s.resetLow := rfl

@[simp] theorem refCount_updPort (p : Fin 8) (f : Port → Port) (s : State) :
    (updPort p f s).refCount = s.refCount := rfl

@[simp] theorem reqSlot_updPort (p : Fin 8) (f : Port → Port) (s : State) :
    (updPort p f s).reqSlot = s.reqSlot := rfl

@[simp] theorem respSlot_updPort (p : Fin 8) (f : Port → Port) (s : State) :
    (updPort p f s).respSlot = s.respSlot := rfl

@[simp] theorem spiOut_updPort (p : Fin 8) (f : Port → Port) (s : State) :
    (updPort p f s).spiOut = s.spiOut := rfl

@[simp] theorem services_updPort (p : Fin 8) (f : Port → Port) (s : State) :
    (updPort p f s).services = s.services := rfl

@[simp] theorem avails_updPort (p : Fin 8) (f : Port → Port) (s : State) :
    (updPort p f s).avails = s.avails := rfl

@[simp] theorem created_updPort (p : Fin 8) (f : Port → Port) (s : State) :
    (updPort p f s).created = s.created := rfl

@[simp] theorem walk_updPort (p : Fin 8) (f : Port → Port) (s : State) :
    (updPort p f s).walk = s.walk := rfl

@[simp] theorem netIn_updPort (p : Fin 8) (f : Port → Port) (s : State) :
    (updPort p f s).netIn = s.netIn := rfl

@[simp] theorem laneIn_updPort (p : Fin 8) (f : Port → Port) (s : State) :
    (updPort p f s).laneIn = s.laneIn := rfl

@[simp] theorem lanes_updPort (p : Fin 8) (f : Port → Port) (s : State) :
    (updPort p f s).lanes = s.lanes := rfl

@[simp] theorem groupGuard_updPort (p : Fin 8) (f : Port → Port) (s : State) :
    (updPort p f s).groupGuard = s.groupGuard := rfl

@[simp] theorem channels_updPort (p : Fin 8) (f : Port → Port) (s : State) :
    (updPort p f s).channels = s.channels := rfl

@[simp] theorem zones_updPort (p : Fin 8) (f : Port → Port) (s : State) :
    (updPort p f s).zones = s.zones := rfl

@[simp] theorem ains_updPort (p : Fin 8) (f : Port → Port) (s : State) :
    (updPort p f s).ains = s.ains := rfl

@[simp] theorem rflags_updPort (p : Fin 8) (f : Port → Port) (s : State) :
    (updPort p f s).rflags = s.rflags := rfl

@[simp] theorem alerts_updPort (p : Fin 8) (f : Port → Port) (s : State) :
    (updPort p f s).alerts = s.alerts := rfl

@[simp] theorem activations_updPort (p : Fin 8) (f : Port → Port) (s : State) :
    (updPort p f s).activations = s.activations := rfl

@[simp] theorem tallies_updPort (p : Fin 8) (f : Port → Port) (s : State) :
    (updPort p f s).tallies = s.tallies := rfl

@[simp] theorem attn_updPort (p : Fin 8) (f : Port → Port) (s : State) :
    (updPort p f s).attn = s.attn := rfl

@[simp] theorem mask_updPort (p : Fin 8) (f : Port → Port) (s : State) :
    (updPort p f s).mask = s.mask := rfl

@[simp] theorem lineMode_updPort (p : Fin 8) (f : Port → Port) (s : State) :
    (updPort p f s).lineMode = s.lineMode := rfl

@[simp] theorem gap_updPort (p : Fin 8) (f : Port → Port) (s : State) :
    (updPort p f s).gap = s.gap := rfl

@[simp] theorem freeCount_updPort (p : Fin 8) (f : Port → Port) (s : State) :
    (updPort p f s).freeCount = s.freeCount := rfl

/-! ### updZone -/

@[simp] theorem pending_updZone (z : Fin 8) (f : Zone → Zone) (s : State) :
    (updZone z f s).pending = s.pending := rfl

@[simp] theorem resetLow_updZone (z : Fin 8) (f : Zone → Zone) (s : State) :
    (updZone z f s).resetLow = s.resetLow := rfl

@[simp] theorem refCount_updZone (z : Fin 8) (f : Zone → Zone) (s : State) :
    (updZone z f s).refCount = s.refCount := rfl

@[simp] theorem reqSlot_updZone (z : Fin 8) (f : Zone → Zone) (s : State) :
    (updZone z f s).reqSlot = s.reqSlot := rfl

@[simp] theorem respSlot_updZone (z : Fin 8) (f : Zone → Zone) (s : State) :
    (updZone z f s).respSlot = s.respSlot := rfl

@[simp] theorem spiOut_updZone (z : Fin 8) (f : Zone → Zone) (s : State) :
    (updZone z f s).spiOut = s.spiOut := rfl

@[simp] theorem services_updZone (z : Fin 8) (f : Zone → Zone) (s : State) :
    (updZone z f s).services = s.services := rfl

@[simp] theorem avails_updZone (z : Fin 8) (f : Zone → Zone) (s : State) :
    (updZone z f s).avails = s.avails := rfl

@[simp] theorem created_updZone (z : Fin 8) (f : Zone → Zone) (s : State) :
    (updZone z f s).created = s.created := rfl

@[simp] theorem walk_updZone (z : Fin 8) (f : Zone → Zone) (s : State) :
    (updZone z f s).walk = s.walk := rfl

@[simp] theorem netIn_updZone (z : Fin 8) (f : Zone → Zone) (s : State) :
    (updZone z f s).netIn = s.netIn := rfl

@[simp] theorem laneIn_updZone (z : Fin 8) (f : Zone → Zone) (s : State) :
    (updZone z f s).laneIn = s.laneIn := rfl

@[simp] theorem lanes_updZone (z : Fin 8) (f : Zone → Zone) (s : State) :
    (updZone z f s).lanes = s.lanes := rfl

@[simp] theorem groupGuard_updZone (z : Fin 8) (f : Zone → Zone) (s : State) :
    (updZone z f s).groupGuard = s.groupGuard := rfl

@[simp] theorem channels_updZone (z : Fin 8) (f : Zone → Zone) (s : State) :
    (updZone z f s).channels = s.channels := rfl

@[simp] theorem ports_updZone (z : Fin 8) (f : Zone → Zone) (s : State) :
    (updZone z f s).ports = s.ports := rfl

@[simp] theorem ains_updZone (z : Fin 8) (f : Zone → Zone) (s : State) :
    (updZone z f s).ains = s.ains := rfl

@[simp] theorem rflags_updZone (z : Fin 8) (f : Zone → Zone) (s : State) :
    (updZone z f s).rflags = s.rflags := rfl

@[simp] theorem alerts_updZone (z : Fin 8) (f : Zone → Zone) (s : State) :
    (updZone z f s).alerts = s.alerts := rfl

@[simp] theorem activations_updZone (z : Fin 8) (f : Zone → Zone) (s : State) :
    (updZone z f s).activations = s.activations := rfl

@[simp] theorem tallies_updZone (z : Fin 8) (f : Zone → Zone) (s : State) :
    (updZone z f s).tallies = s.tallies := rfl

@[simp] theorem attn_updZone (z : Fin 8) (f : Zone → Zone) (s : State) :
    (updZone z f s).attn = s.attn := rfl

@[simp] theorem mask_updZone (z : Fin 8) (f : Zone → Zone) (s : State) :
    (updZone z f s).mask = s.mask := rfl

@[simp] theorem lineMode_updZone (z : Fin 8) (f : Zone → Zone) (s : State) :
    (updZone z f s).lineMode = s.lineMode := rfl

@[simp] theorem gap_updZone (z : Fin 8) (f : Zone → Zone) (s : State) :
    (updZone z f s).gap = s.gap := rfl

@[simp] theorem freeCount_updZone (z : Fin 8) (f : Zone → Zone) (s : State) :
    (updZone z f s).freeCount = s.freeCount := rfl

/-! ### updTally -/

@[simp] theorem pending_updTally (o : Fin 4) (f : Tally → Tally) (s : State) :
    (updTally o f s).pending = s.pending := rfl

@[simp] theorem resetLow_updTally (o : Fin 4) (f : Tally → Tally) (s : State) :
    (updTally o f s).resetLow = s.resetLow := rfl

@[simp] theorem refCount_updTally (o : Fin 4) (f : Tally → Tally) (s : State) :
    (updTally o f s).refCount = s.refCount := rfl

@[simp] theorem reqSlot_updTally (o : Fin 4) (f : Tally → Tally) (s : State) :
    (updTally o f s).reqSlot = s.reqSlot := rfl

@[simp] theorem respSlot_updTally (o : Fin 4) (f : Tally → Tally) (s : State) :
    (updTally o f s).respSlot = s.respSlot := rfl

@[simp] theorem spiOut_updTally (o : Fin 4) (f : Tally → Tally) (s : State) :
    (updTally o f s).spiOut = s.spiOut := rfl

@[simp] theorem services_updTally (o : Fin 4) (f : Tally → Tally) (s : State) :
    (updTally o f s).services = s.services := rfl

@[simp] theorem avails_updTally (o : Fin 4) (f : Tally → Tally) (s : State) :
    (updTally o f s).avails = s.avails := rfl

@[simp] theorem created_updTally (o : Fin 4) (f : Tally → Tally) (s : State) :
    (updTally o f s).created = s.created := rfl

@[simp] theorem walk_updTally (o : Fin 4) (f : Tally → Tally) (s : State) :
    (updTally o f s).walk = s.walk := rfl

@[simp] theorem netIn_updTally (o : Fin 4) (f : Tally → Tally) (s : State) :
    (updTally o f s).netIn = s.netIn := rfl

@[simp] theorem laneIn_updTally (o : Fin 4) (f : Tally → Tally) (s : State) :
    (updTally o f s).laneIn = s.laneIn := rfl

@[simp] theorem lanes_updTally (o : Fin 4) (f : Tally → Tally) (s : State) :
    (updTally o f s).lanes = s.lanes := rfl

@[simp] theorem groupGuard_updTally (o : Fin 4) (f : Tally → Tally) (s : State) :
    (updTally o f s).groupGuard = s.groupGuard := rfl

@[simp] theorem channels_updTally (o : Fin 4) (f : Tally → Tally) (s : State) :
    (updTally o f s).channels = s.channels := rfl

@[simp] theorem ports_updTally (o : Fin 4) (f : Tally → Tally) (s : State) :
    (updTally o f s).ports = s.ports := rfl

@[simp] theorem zones_updTally (o : Fin 4) (f : Tally → Tally) (s : State) :
    (updTally o f s).zones = s.zones := rfl

@[simp] theorem ains_updTally (o : Fin 4) (f : Tally → Tally) (s : State) :
    (updTally o f s).ains = s.ains := rfl

@[simp] theorem rflags_updTally (o : Fin 4) (f : Tally → Tally) (s : State) :
    (updTally o f s).rflags = s.rflags := rfl

@[simp] theorem alerts_updTally (o : Fin 4) (f : Tally → Tally) (s : State) :
    (updTally o f s).alerts = s.alerts := rfl

@[simp] theorem activations_updTally (o : Fin 4) (f : Tally → Tally) (s : State) :
    (updTally o f s).activations = s.activations := rfl

@[simp] theorem attn_updTally (o : Fin 4) (f : Tally → Tally) (s : State) :
    (updTally o f s).attn = s.attn := rfl

@[simp] theorem mask_updTally (o : Fin 4) (f : Tally → Tally) (s : State) :
    (updTally o f s).mask = s.mask := rfl

@[simp] theorem lineMode_updTally (o : Fin 4) (f : Tally → Tally) (s : State) :
    (updTally o f s).lineMode = s.lineMode := rfl

@[simp] theorem gap_updTally (o : Fin 4) (f : Tally → Tally) (s : State) :
    (updTally o f s).gap = s.gap := rfl

@[simp] theorem freeCount_updTally (o : Fin 4) (f : Tally → Tally) (s : State) :
    (updTally o f s).freeCount = s.freeCount := rfl

/-! ### deliverLevels -/

@[simp] theorem pending_deliverLevels (old : Table Alert 16) (s : State) :
    (deliverLevels old s).pending = s.pending := rfl

@[simp] theorem resetLow_deliverLevels (old : Table Alert 16) (s : State) :
    (deliverLevels old s).resetLow = s.resetLow := rfl

@[simp] theorem refCount_deliverLevels (old : Table Alert 16) (s : State) :
    (deliverLevels old s).refCount = s.refCount := rfl

@[simp] theorem reqSlot_deliverLevels (old : Table Alert 16) (s : State) :
    (deliverLevels old s).reqSlot = s.reqSlot := rfl

@[simp] theorem respSlot_deliverLevels (old : Table Alert 16) (s : State) :
    (deliverLevels old s).respSlot = s.respSlot := rfl

@[simp] theorem spiOut_deliverLevels (old : Table Alert 16) (s : State) :
    (deliverLevels old s).spiOut = s.spiOut := rfl

@[simp] theorem services_deliverLevels (old : Table Alert 16) (s : State) :
    (deliverLevels old s).services = s.services := rfl

@[simp] theorem avails_deliverLevels (old : Table Alert 16) (s : State) :
    (deliverLevels old s).avails = s.avails := rfl

@[simp] theorem created_deliverLevels (old : Table Alert 16) (s : State) :
    (deliverLevels old s).created = s.created := rfl

@[simp] theorem walk_deliverLevels (old : Table Alert 16) (s : State) :
    (deliverLevels old s).walk = s.walk := rfl

@[simp] theorem netIn_deliverLevels (old : Table Alert 16) (s : State) :
    (deliverLevels old s).netIn = s.netIn := rfl

@[simp] theorem laneIn_deliverLevels (old : Table Alert 16) (s : State) :
    (deliverLevels old s).laneIn = s.laneIn := rfl

@[simp] theorem lanes_deliverLevels (old : Table Alert 16) (s : State) :
    (deliverLevels old s).lanes = s.lanes := rfl

@[simp] theorem groupGuard_deliverLevels (old : Table Alert 16) (s : State) :
    (deliverLevels old s).groupGuard = s.groupGuard := rfl

@[simp] theorem channels_deliverLevels (old : Table Alert 16) (s : State) :
    (deliverLevels old s).channels = s.channels := rfl

@[simp] theorem ports_deliverLevels (old : Table Alert 16) (s : State) :
    (deliverLevels old s).ports = s.ports := rfl

@[simp] theorem zones_deliverLevels (old : Table Alert 16) (s : State) :
    (deliverLevels old s).zones = s.zones := rfl

@[simp] theorem ains_deliverLevels (old : Table Alert 16) (s : State) :
    (deliverLevels old s).ains = s.ains := rfl

@[simp] theorem rflags_deliverLevels (old : Table Alert 16) (s : State) :
    (deliverLevels old s).rflags = s.rflags := rfl

@[simp] theorem alerts_deliverLevels (old : Table Alert 16) (s : State) :
    (deliverLevels old s).alerts = s.alerts := rfl

@[simp] theorem activations_deliverLevels (old : Table Alert 16) (s : State) :
    (deliverLevels old s).activations = s.activations := rfl

@[simp] theorem attn_deliverLevels (old : Table Alert 16) (s : State) :
    (deliverLevels old s).attn = s.attn := rfl

@[simp] theorem mask_deliverLevels (old : Table Alert 16) (s : State) :
    (deliverLevels old s).mask = s.mask := rfl

@[simp] theorem lineMode_deliverLevels (old : Table Alert 16) (s : State) :
    (deliverLevels old s).lineMode = s.lineMode := rfl

@[simp] theorem gap_deliverLevels (old : Table Alert 16) (s : State) :
    (deliverLevels old s).gap = s.gap := rfl

@[simp] theorem freeCount_deliverLevels (old : Table Alert 16) (s : State) :
    (deliverLevels old s).freeCount = s.freeCount := rfl

/-! ### deliverTrigger -/

@[simp] theorem pending_deliverTrigger (k : TallyKind) (i : Fin 64) (s : State) :
    (deliverTrigger k i s).pending = s.pending := rfl

@[simp] theorem resetLow_deliverTrigger (k : TallyKind) (i : Fin 64) (s : State) :
    (deliverTrigger k i s).resetLow = s.resetLow := rfl

@[simp] theorem refCount_deliverTrigger (k : TallyKind) (i : Fin 64) (s : State) :
    (deliverTrigger k i s).refCount = s.refCount := rfl

@[simp] theorem reqSlot_deliverTrigger (k : TallyKind) (i : Fin 64) (s : State) :
    (deliverTrigger k i s).reqSlot = s.reqSlot := rfl

@[simp] theorem respSlot_deliverTrigger (k : TallyKind) (i : Fin 64) (s : State) :
    (deliverTrigger k i s).respSlot = s.respSlot := rfl

@[simp] theorem spiOut_deliverTrigger (k : TallyKind) (i : Fin 64) (s : State) :
    (deliverTrigger k i s).spiOut = s.spiOut := rfl

@[simp] theorem services_deliverTrigger (k : TallyKind) (i : Fin 64) (s : State) :
    (deliverTrigger k i s).services = s.services := rfl

@[simp] theorem avails_deliverTrigger (k : TallyKind) (i : Fin 64) (s : State) :
    (deliverTrigger k i s).avails = s.avails := rfl

@[simp] theorem created_deliverTrigger (k : TallyKind) (i : Fin 64) (s : State) :
    (deliverTrigger k i s).created = s.created := rfl

@[simp] theorem walk_deliverTrigger (k : TallyKind) (i : Fin 64) (s : State) :
    (deliverTrigger k i s).walk = s.walk := rfl

@[simp] theorem netIn_deliverTrigger (k : TallyKind) (i : Fin 64) (s : State) :
    (deliverTrigger k i s).netIn = s.netIn := rfl

@[simp] theorem laneIn_deliverTrigger (k : TallyKind) (i : Fin 64) (s : State) :
    (deliverTrigger k i s).laneIn = s.laneIn := rfl

@[simp] theorem lanes_deliverTrigger (k : TallyKind) (i : Fin 64) (s : State) :
    (deliverTrigger k i s).lanes = s.lanes := rfl

@[simp] theorem groupGuard_deliverTrigger (k : TallyKind) (i : Fin 64) (s : State) :
    (deliverTrigger k i s).groupGuard = s.groupGuard := rfl

@[simp] theorem channels_deliverTrigger (k : TallyKind) (i : Fin 64) (s : State) :
    (deliverTrigger k i s).channels = s.channels := rfl

@[simp] theorem ports_deliverTrigger (k : TallyKind) (i : Fin 64) (s : State) :
    (deliverTrigger k i s).ports = s.ports := rfl

@[simp] theorem zones_deliverTrigger (k : TallyKind) (i : Fin 64) (s : State) :
    (deliverTrigger k i s).zones = s.zones := rfl

@[simp] theorem ains_deliverTrigger (k : TallyKind) (i : Fin 64) (s : State) :
    (deliverTrigger k i s).ains = s.ains := rfl

@[simp] theorem rflags_deliverTrigger (k : TallyKind) (i : Fin 64) (s : State) :
    (deliverTrigger k i s).rflags = s.rflags := rfl

@[simp] theorem alerts_deliverTrigger (k : TallyKind) (i : Fin 64) (s : State) :
    (deliverTrigger k i s).alerts = s.alerts := rfl

@[simp] theorem activations_deliverTrigger (k : TallyKind) (i : Fin 64) (s : State) :
    (deliverTrigger k i s).activations = s.activations := rfl

@[simp] theorem attn_deliverTrigger (k : TallyKind) (i : Fin 64) (s : State) :
    (deliverTrigger k i s).attn = s.attn := rfl

@[simp] theorem mask_deliverTrigger (k : TallyKind) (i : Fin 64) (s : State) :
    (deliverTrigger k i s).mask = s.mask := rfl

@[simp] theorem lineMode_deliverTrigger (k : TallyKind) (i : Fin 64) (s : State) :
    (deliverTrigger k i s).lineMode = s.lineMode := rfl

@[simp] theorem gap_deliverTrigger (k : TallyKind) (i : Fin 64) (s : State) :
    (deliverTrigger k i s).gap = s.gap := rfl

@[simp] theorem freeCount_deliverTrigger (k : TallyKind) (i : Fin 64) (s : State) :
    (deliverTrigger k i s).freeCount = s.freeCount := rfl

/-! ### raise -/

@[simp] theorem pending_raise (src : Fin 96) (c : Cause) (s : State) :
    (raise src c s).pending = s.pending := by
  unfold raise; split <;> rfl

@[simp] theorem resetLow_raise (src : Fin 96) (c : Cause) (s : State) :
    (raise src c s).resetLow = s.resetLow := by
  unfold raise; split <;> rfl

@[simp] theorem refCount_raise (src : Fin 96) (c : Cause) (s : State) :
    (raise src c s).refCount = s.refCount := by
  unfold raise; split <;> rfl

@[simp] theorem reqSlot_raise (src : Fin 96) (c : Cause) (s : State) :
    (raise src c s).reqSlot = s.reqSlot := by
  unfold raise; split <;> rfl

@[simp] theorem respSlot_raise (src : Fin 96) (c : Cause) (s : State) :
    (raise src c s).respSlot = s.respSlot := by
  unfold raise; split <;> rfl

@[simp] theorem spiOut_raise (src : Fin 96) (c : Cause) (s : State) :
    (raise src c s).spiOut = s.spiOut := by
  unfold raise; split <;> rfl

@[simp] theorem services_raise (src : Fin 96) (c : Cause) (s : State) :
    (raise src c s).services = s.services := by
  unfold raise; split <;> rfl

@[simp] theorem avails_raise (src : Fin 96) (c : Cause) (s : State) :
    (raise src c s).avails = s.avails := by
  unfold raise; split <;> rfl

@[simp] theorem created_raise (src : Fin 96) (c : Cause) (s : State) :
    (raise src c s).created = s.created := by
  unfold raise; split <;> rfl

@[simp] theorem walk_raise (src : Fin 96) (c : Cause) (s : State) :
    (raise src c s).walk = s.walk := by
  unfold raise; split <;> rfl

@[simp] theorem netIn_raise (src : Fin 96) (c : Cause) (s : State) :
    (raise src c s).netIn = s.netIn := by
  unfold raise; split <;> rfl

@[simp] theorem laneIn_raise (src : Fin 96) (c : Cause) (s : State) :
    (raise src c s).laneIn = s.laneIn := by
  unfold raise; split <;> rfl

@[simp] theorem lanes_raise (src : Fin 96) (c : Cause) (s : State) :
    (raise src c s).lanes = s.lanes := by
  unfold raise; split <;> rfl

@[simp] theorem groupGuard_raise (src : Fin 96) (c : Cause) (s : State) :
    (raise src c s).groupGuard = s.groupGuard := by
  unfold raise; split <;> rfl

@[simp] theorem channels_raise (src : Fin 96) (c : Cause) (s : State) :
    (raise src c s).channels = s.channels := by
  unfold raise; split <;> rfl

@[simp] theorem ports_raise (src : Fin 96) (c : Cause) (s : State) :
    (raise src c s).ports = s.ports := by
  unfold raise; split <;> rfl

@[simp] theorem zones_raise (src : Fin 96) (c : Cause) (s : State) :
    (raise src c s).zones = s.zones := by
  unfold raise; split <;> rfl

@[simp] theorem ains_raise (src : Fin 96) (c : Cause) (s : State) :
    (raise src c s).ains = s.ains := by
  unfold raise; split <;> rfl

@[simp] theorem rflags_raise (src : Fin 96) (c : Cause) (s : State) :
    (raise src c s).rflags = s.rflags := by
  unfold raise; split <;> rfl

@[simp] theorem alerts_raise (src : Fin 96) (c : Cause) (s : State) :
    (raise src c s).alerts = s.alerts := by
  unfold raise; split <;> rfl

@[simp] theorem activations_raise (src : Fin 96) (c : Cause) (s : State) :
    (raise src c s).activations = s.activations := by
  unfold raise; split <;> rfl

@[simp] theorem tallies_raise (src : Fin 96) (c : Cause) (s : State) :
    (raise src c s).tallies = s.tallies := by
  unfold raise; split <;> rfl

@[simp] theorem mask_raise (src : Fin 96) (c : Cause) (s : State) :
    (raise src c s).mask = s.mask := by
  unfold raise; split <;> rfl

@[simp] theorem lineMode_raise (src : Fin 96) (c : Cause) (s : State) :
    (raise src c s).lineMode = s.lineMode := by
  unfold raise; split <;> rfl

@[simp] theorem gap_raise (src : Fin 96) (c : Cause) (s : State) :
    (raise src c s).gap = s.gap := by
  unfold raise; split <;> rfl

@[simp] theorem freeCount_raise (src : Fin 96) (c : Cause) (s : State) :
    (raise src c s).freeCount = s.freeCount := by
  unfold raise; split <;> rfl

/-! ### reachMs -/

@[simp] theorem pending_reachMs (n : Nat) (s : State) :
    (reachMs n s).pending = s.pending := by
  unfold reachMs; split <;> rfl

@[simp] theorem resetLow_reachMs (n : Nat) (s : State) :
    (reachMs n s).resetLow = s.resetLow := by
  unfold reachMs; split <;> rfl

@[simp] theorem reqSlot_reachMs (n : Nat) (s : State) :
    (reachMs n s).reqSlot = s.reqSlot := by
  unfold reachMs; split <;> rfl

@[simp] theorem respSlot_reachMs (n : Nat) (s : State) :
    (reachMs n s).respSlot = s.respSlot := by
  unfold reachMs; split <;> rfl

@[simp] theorem spiOut_reachMs (n : Nat) (s : State) :
    (reachMs n s).spiOut = s.spiOut := by
  unfold reachMs; split <;> rfl

@[simp] theorem services_reachMs (n : Nat) (s : State) :
    (reachMs n s).services = s.services := by
  unfold reachMs; split <;> rfl

@[simp] theorem avails_reachMs (n : Nat) (s : State) :
    (reachMs n s).avails = s.avails := by
  unfold reachMs; split <;> rfl

@[simp] theorem created_reachMs (n : Nat) (s : State) :
    (reachMs n s).created = s.created := by
  unfold reachMs; split <;> rfl

@[simp] theorem walk_reachMs (n : Nat) (s : State) :
    (reachMs n s).walk = s.walk := by
  unfold reachMs; split <;> rfl

@[simp] theorem netIn_reachMs (n : Nat) (s : State) :
    (reachMs n s).netIn = s.netIn := by
  unfold reachMs; split <;> rfl

@[simp] theorem laneIn_reachMs (n : Nat) (s : State) :
    (reachMs n s).laneIn = s.laneIn := by
  unfold reachMs; split <;> rfl

@[simp] theorem lanes_reachMs (n : Nat) (s : State) :
    (reachMs n s).lanes = s.lanes := by
  unfold reachMs; split <;> rfl

@[simp] theorem groupGuard_reachMs (n : Nat) (s : State) :
    (reachMs n s).groupGuard = s.groupGuard := by
  unfold reachMs; split <;> rfl

@[simp] theorem channels_reachMs (n : Nat) (s : State) :
    (reachMs n s).channels = s.channels := by
  unfold reachMs; split <;> rfl

@[simp] theorem ports_reachMs (n : Nat) (s : State) :
    (reachMs n s).ports = s.ports := by
  unfold reachMs; split <;> rfl

@[simp] theorem zones_reachMs (n : Nat) (s : State) :
    (reachMs n s).zones = s.zones := by
  unfold reachMs; split <;> rfl

@[simp] theorem ains_reachMs (n : Nat) (s : State) :
    (reachMs n s).ains = s.ains := by
  unfold reachMs; split <;> rfl

@[simp] theorem rflags_reachMs (n : Nat) (s : State) :
    (reachMs n s).rflags = s.rflags := by
  unfold reachMs; split <;> rfl

@[simp] theorem alerts_reachMs (n : Nat) (s : State) :
    (reachMs n s).alerts = s.alerts := by
  unfold reachMs; split <;> rfl

@[simp] theorem activations_reachMs (n : Nat) (s : State) :
    (reachMs n s).activations = s.activations := by
  unfold reachMs; split <;> rfl

@[simp] theorem tallies_reachMs (n : Nat) (s : State) :
    (reachMs n s).tallies = s.tallies := by
  unfold reachMs; split <;> rfl

@[simp] theorem attn_reachMs (n : Nat) (s : State) :
    (reachMs n s).attn = s.attn := by
  unfold reachMs; split <;> rfl

@[simp] theorem mask_reachMs (n : Nat) (s : State) :
    (reachMs n s).mask = s.mask := by
  unfold reachMs; split <;> rfl

@[simp] theorem lineMode_reachMs (n : Nat) (s : State) :
    (reachMs n s).lineMode = s.lineMode := by
  unfold reachMs; split <;> rfl

@[simp] theorem gap_reachMs (n : Nat) (s : State) :
    (reachMs n s).gap = s.gap := by
  unfold reachMs; split <;> rfl

@[simp] theorem freeCount_reachMs (n : Nat) (s : State) :
    (reachMs n s).freeCount = s.freeCount := by
  unfold reachMs; split <;> rfl

/-! ### reachCount -/

@[simp] theorem pending_reachCount (n : Nat) (s : State) :
    (reachCount n s).pending = s.pending := by
  unfold reachCount; split <;> rfl

@[simp] theorem resetLow_reachCount (n : Nat) (s : State) :
    (reachCount n s).resetLow = s.resetLow := by
  unfold reachCount; split <;> rfl

@[simp] theorem reqSlot_reachCount (n : Nat) (s : State) :
    (reachCount n s).reqSlot = s.reqSlot := by
  unfold reachCount; split <;> rfl

@[simp] theorem respSlot_reachCount (n : Nat) (s : State) :
    (reachCount n s).respSlot = s.respSlot := by
  unfold reachCount; split <;> rfl

@[simp] theorem spiOut_reachCount (n : Nat) (s : State) :
    (reachCount n s).spiOut = s.spiOut := by
  unfold reachCount; split <;> rfl

@[simp] theorem services_reachCount (n : Nat) (s : State) :
    (reachCount n s).services = s.services := by
  unfold reachCount; split <;> rfl

@[simp] theorem avails_reachCount (n : Nat) (s : State) :
    (reachCount n s).avails = s.avails := by
  unfold reachCount; split <;> rfl

@[simp] theorem created_reachCount (n : Nat) (s : State) :
    (reachCount n s).created = s.created := by
  unfold reachCount; split <;> rfl

@[simp] theorem walk_reachCount (n : Nat) (s : State) :
    (reachCount n s).walk = s.walk := by
  unfold reachCount; split <;> rfl

@[simp] theorem netIn_reachCount (n : Nat) (s : State) :
    (reachCount n s).netIn = s.netIn := by
  unfold reachCount; split <;> rfl

@[simp] theorem laneIn_reachCount (n : Nat) (s : State) :
    (reachCount n s).laneIn = s.laneIn := by
  unfold reachCount; split <;> rfl

@[simp] theorem lanes_reachCount (n : Nat) (s : State) :
    (reachCount n s).lanes = s.lanes := by
  unfold reachCount; split <;> rfl

@[simp] theorem groupGuard_reachCount (n : Nat) (s : State) :
    (reachCount n s).groupGuard = s.groupGuard := by
  unfold reachCount; split <;> rfl

@[simp] theorem channels_reachCount (n : Nat) (s : State) :
    (reachCount n s).channels = s.channels := by
  unfold reachCount; split <;> rfl

@[simp] theorem ports_reachCount (n : Nat) (s : State) :
    (reachCount n s).ports = s.ports := by
  unfold reachCount; split <;> rfl

@[simp] theorem zones_reachCount (n : Nat) (s : State) :
    (reachCount n s).zones = s.zones := by
  unfold reachCount; split <;> rfl

@[simp] theorem ains_reachCount (n : Nat) (s : State) :
    (reachCount n s).ains = s.ains := by
  unfold reachCount; split <;> rfl

@[simp] theorem rflags_reachCount (n : Nat) (s : State) :
    (reachCount n s).rflags = s.rflags := by
  unfold reachCount; split <;> rfl

@[simp] theorem alerts_reachCount (n : Nat) (s : State) :
    (reachCount n s).alerts = s.alerts := by
  unfold reachCount; split <;> rfl

@[simp] theorem activations_reachCount (n : Nat) (s : State) :
    (reachCount n s).activations = s.activations := by
  unfold reachCount; split <;> rfl

@[simp] theorem tallies_reachCount (n : Nat) (s : State) :
    (reachCount n s).tallies = s.tallies := by
  unfold reachCount; split <;> rfl

@[simp] theorem attn_reachCount (n : Nat) (s : State) :
    (reachCount n s).attn = s.attn := by
  unfold reachCount; split <;> rfl

@[simp] theorem mask_reachCount (n : Nat) (s : State) :
    (reachCount n s).mask = s.mask := by
  unfold reachCount; split <;> rfl

@[simp] theorem lineMode_reachCount (n : Nat) (s : State) :
    (reachCount n s).lineMode = s.lineMode := by
  unfold reachCount; split <;> rfl

@[simp] theorem gap_reachCount (n : Nat) (s : State) :
    (reachCount n s).gap = s.gap := by
  unfold reachCount; split <;> rfl

@[simp] theorem freeCount_reachCount (n : Nat) (s : State) :
    (reachCount n s).freeCount = s.freeCount := by
  unfold reachCount; split <;> rfl

/-! ### The changed fields -/

@[simp] theorem services_updSvc (i : Fin 64) (f : Service → Service) (s : State) :
    (updSvc i f s).services = s.services.set i ((s.services.get i).map f) := rfl

@[simp] theorem avails_updRec (k : Key) (f : Avail → Avail) (s : State) :
    (updRec k f s).avails = s.avails.map fun r => if r.key = k then f r else r := rfl

@[simp] theorem lanes_updLane (l : Fin 16) (f : Lane → Lane) (s : State) :
    (updLane l f s).lanes = s.lanes.set l (f (s.lanes.get l)) := rfl

@[simp] theorem channels_updChan (c : Fin 128) (f : Channel → Channel) (s : State) :
    (updChan c f s).channels = s.channels.set c ((s.channels.get c).map f) := rfl

@[simp] theorem ports_updPort (p : Fin 8) (f : Port → Port) (s : State) :
    (updPort p f s).ports = s.ports.set p (f (s.ports.get p)) := rfl

@[simp] theorem zones_updZone (z : Fin 8) (f : Zone → Zone) (s : State) :
    (updZone z f s).zones = s.zones.set z (f (s.zones.get z)) := rfl

@[simp] theorem tallies_updTally (o : Fin 4) (f : Tally → Tally) (s : State) :
    (updTally o f s).tallies = s.tallies.set o (f (s.tallies.get o)) := rfl

theorem attn_raise (src : Fin 96) (c : Cause) (s : State) :
    (raise src c s).attn =
      if s.mask.getLsbD c.bit then s.attn.set src (s.attn.get src ||| c.flag) else s.attn := by
  unfold raise; split <;> rfl

theorem refCount_reachMs (n : Nat) (s : State) :
    (reachMs n s).refCount = if n ≤ nowMs s then s.refCount else n * 27000 := by
  unfold reachMs; split <;> rfl

end Sys2Proof.Machine
end

