-- ==== Sys2Proof/Laws/Basics.lean ====
section
/-! SUPPORT. Lemmas about the shared operations of Machine/Ops.lean: tables, loops over lists of indexes, sorting
and the continuity memory. -/

namespace Sys2Proof

/-! ## Tables -/

theorem Table.ext {α : Type} {n : Nat} {t u : Table α n} (h : ∀ i, t.get i = u.get i) : t = u := by
  obtain ⟨l, hl⟩ := t
  obtain ⟨m, hm⟩ := u
  have : l = m := by
    apply List.ext_getElem (by omega)
    intro k h₁ h₂
    have := h ⟨k, by omega⟩
    simpa [Table.get] using this
  subst this
  rfl

theorem Table.set_get_self {α : Type} {n : Nat} (t : Table α n) (i : Fin n) : t.set i (t.get i) = t := by
  apply Table.ext
  intro j
  rw [Table.get_set]
  split
  · next h => rw [h]
  · rfl

theorem Table.set_set {α : Type} {n : Nat} (t : Table α n) (i : Fin n) (a b : α) :
    (t.set i a).set i b = t.set i b := by
  apply Table.ext
  intro j
  simp only [Table.get_set]
  split <;> rfl

theorem Table.set_comm {α : Type} {n : Nat} (t : Table α n) {i j : Fin n} (h : i ≠ j) (a b : α) :
    (t.set i a).set j b = (t.set j b).set i a := by
  apply Table.ext
  intro k
  simp only [Table.get_set]
  split <;> split <;> simp_all

namespace Machine

/-! ## Loops -/

theorem overList_nil {α : Type} (f : α → State → State) (s : State) : overList [] f s = s := rfl

theorem overList_cons {α : Type} (a : α) (l : List α) (f : α → State → State) (s : State) :
    overList (a :: l) f s = overList l f (f a s) := rfl

/-- What every round of a loop keeps, the loop keeps. -/
theorem overList_keeps {α : Type} (P : State → Prop) {l : List α} {f : α → State → State}
    (h : ∀ a ∈ l, ∀ s, P s → P (f a s)) {s : State} (hs : P s) : P (overList l f s) := by
  induction l generalizing s with
  | nil => exact hs
  | cons a l ih =>
    rw [overList_cons]
    exact ih (fun b hb => h b (List.mem_cons_of_mem _ hb)) (h a List.mem_cons_self s hs)

theorem overFin_eq_overList (n : Nat) (f : Fin n → State → State) (s : State) :
    overFin n f s = overList (List.finRange n) f s := rfl

theorem overFin_keeps {n : Nat} (P : State → Prop) {f : Fin n → State → State}
    (h : ∀ i s, P s → P (f i s)) {s : State} (hs : P s) : P (overFin n f s) :=
  overList_keeps P (fun i _ s => h i s) hs

/-- A value that no round of a loop changes is unchanged after it. -/
theorem overList_same {α β : Type} (g : State → β) {l : List α} {f : α → State → State}
    (h : ∀ a ∈ l, ∀ s, g (f a s) = g s) (s : State) : g (overList l f s) = g s :=
  overList_keeps (fun t => g t = g s) (fun a ha t ht => (h a ha t).trans ht) rfl

theorem overFin_same {n : Nat} {β : Type} (g : State → β) {f : Fin n → State → State}
    (h : ∀ i s, g (f i s) = g s) (s : State) : g (overFin n f s) = g s :=
  overList_same g (fun i _ s => h i s) s

/-- What round `a` of a loop makes true of `a`, and no other round undoes, holds at its end. -/
theorem overList_each {α : Type} {l : List α} (nd : l.Nodup) {f : α → State → State} (P Q : α → State → Prop)
    (est : ∀ a u, P a u → Q a (f a u)) (pre : ∀ a b u, b ≠ a → P a u → P a (f b u))
    (post : ∀ a b u, b ≠ a → Q a u → Q a (f b u)) {s : State} (hs : ∀ a ∈ l, P a s) :
    ∀ a ∈ l, Q a (overList l f s) := by
  induction l generalizing s with
  | nil => exact fun a ha => nomatch ha
  | cons b l ih =>
    obtain ⟨hb, nd⟩ := List.nodup_cons.mp nd
    have keep (u : State) (hu : Q b u) : Q b (overList l f u) :=
      overList_keeps (fun u => Q b u) (fun c hc u hu => post b c u (by rintro rfl; exact hb hc) hu) hu
    intro a ha
    rw [overList_cons]
    rcases List.mem_cons.mp ha with rfl | ha
    · exact keep _ (est a s (hs a List.mem_cons_self))
    · exact ih nd (fun c hc => pre c b s (by rintro rfl; exact hb hc) (hs c (List.mem_cons_of_mem _ hc))) a ha

theorem overFin_each {n : Nat} {f : Fin n → State → State} (P Q : Fin n → State → Prop)
    (est : ∀ a u, P a u → Q a (f a u)) (pre : ∀ a b u, b ≠ a → P a u → P a (f b u))
    (post : ∀ a b u, b ≠ a → Q a u → Q a (f b u)) {s : State} (hs : ∀ a, P a s) (a : Fin n) : Q a (overFin n f s) :=
  overList_each (List.nodup_finRange n) P Q est pre post (fun a _ => hs a) a (List.mem_finRange a)
/-- A loop of updates of channels changes each channel of the list by its function, and nothing else. -/
theorem overList_updChan {l : List (Fin 128)} (hl : l.Nodup) (f : Channel → Channel) (s : State) :
    overList l (fun c => updChan c f) s =
      { s with channels := s.channels.mapIdx fun c o => if c ∈ l then o.map f else o } := by
  induction l generalizing s with
  | nil =>
    have : s.channels = s.channels.mapIdx fun _ o => o := Table.ext (by simp)
    simp only [overList_nil, List.not_mem_nil, if_false]
    rw [← this]
  | cons a l ih =>
    rw [overList_cons, ih (List.nodup_cons.mp hl).2]
    have ha := (List.nodup_cons.mp hl).1
    have : ((updChan a f s).channels.mapIdx fun c o => if c ∈ l then o.map f else o) =
        s.channels.mapIdx fun c o => if c ∈ a :: l then o.map f else o := by
      apply Table.ext
      intro c
      simp only [channels_updChan, Table.get_mapIdx, Table.get_set, List.mem_cons]
      by_cases h : a = c
      · subst h; simp [ha]
      · simp [h, Ne.symm h]
    rw [this]
    rfl

theorem chansWhere_nodup (s : State) (f : Channel → Bool) : (chansWhere s f).Nodup :=
  (List.nodup_finRange 128).filter _

theorem mem_chansWhere {s : State} {f : Channel → Bool} {c : Fin 128} :
    c ∈ chansWhere s f ↔ ∃ ch, s.channels.get c = some ch ∧ f ch = true := by
  unfold chansWhere
  simp only [List.mem_filter, List.mem_finRange, true_and]
  cases s.channels.get c <;> simp

/-! ## Sorting -/

theorem mem_insertBy {α : Type} (lt : α → α → Bool) (x y : α) (l : List α) :
    y ∈ insertBy lt x l ↔ y = x ∨ y ∈ l := by
  induction l with
  | nil => simp [insertBy]
  | cons a l ih =>
    simp only [insertBy]
    split
    · simp
    · simp only [List.mem_cons, ih]
      constructor <;> intro h <;> rcases h with h | h | h <;> simp [h]

theorem mem_sortBy {α : Type} (lt : α → α → Bool) (y : α) (l : List α) : y ∈ sortBy lt l ↔ y ∈ l := by
  induction l with
  | nil => simp [sortBy]
  | cons a l ih => simp [sortBy, mem_insertBy, ih]

theorem insertBy_perm {α : Type} (lt : α → α → Bool) (x : α) (l : List α) :
    (insertBy lt x l).Perm (x :: l) := by
  induction l with
  | nil => exact List.Perm.refl _
  | cons a l ih =>
    simp only [insertBy]
    split
    · exact List.Perm.refl _
    · exact (ih.cons a).trans (List.Perm.swap x a l)

theorem sortBy_perm {α : Type} (lt : α → α → Bool) (l : List α) : (sortBy lt l).Perm l := by
  induction l with
  | nil => exact List.Perm.refl _
  | cons a l ih => exact (insertBy_perm _ a _).trans (ih.cons a)

/-- Nothing in a sorted list comes before an element that stands before it. -/
theorem sortBy_sorted {α : Type} {lt : α → α → Bool} (asymm : ∀ a b, lt a b = true → lt b a = false)
    (trans : ∀ a b c, lt b a = false → lt c b = false → lt c a = false) (l : List α) :
    (sortBy lt l).Pairwise fun a b => lt b a = false := by
  induction l with
  | nil => exact List.Pairwise.nil
  | cons x l ih =>
    simp only [sortBy]
    generalize sortBy lt l = m at ih
    induction m with
    | nil => exact List.pairwise_singleton _ _
    | cons y m ihm =>
      simp only [insertBy]
      obtain ⟨hy, hm⟩ := List.pairwise_cons.mp ih
      split
      · next h =>
        have hxy : lt y x = false := by simpa using h
        refine List.pairwise_cons.mpr ⟨?_, ih⟩
        intro b hb
        rcases List.mem_cons.mp hb with rfl | hb
        · exact hxy
        · exact trans _ _ _ hxy (hy b hb)
      · next h =>
        have hxy : lt y x = true := by simpa using h
        refine List.pairwise_cons.mpr ⟨?_, ihm hm⟩
        intro b hb
        rcases (mem_insertBy _ _ _ _).mp hb with rfl | hb
        · exact asymm _ _ hxy
        · exact hy b hb

theorem lexLt_irrefl (a : List Nat) : lexLt a a = false := by
  induction a with
  | nil => rfl
  | cons x l ih => simp [lexLt, ih]

theorem lexLt_asymm (a b : List Nat) (h : lexLt a b = true) : lexLt b a = false := by
  induction a generalizing b with
  | nil => cases b <;> simp_all [lexLt]
  | cons x l ih =>
    cases b with
    | nil => simp [lexLt] at h
    | cons y m =>
      simp only [lexLt] at h ⊢
      split at h
      · next hxy => simp [Nat.not_lt.mpr (Nat.le_of_lt hxy), hxy]
      · split at h
        · cases h
        · next h₁ h₂ => simp [h₁, h₂, ih m h]

theorem lexLt_trans_false (a b c : List Nat) (hba : lexLt b a = false) (hcb : lexLt c b = false) :
    lexLt c a = false := by
  induction a generalizing b c with
  | nil =>
    cases c with
    | nil => rfl
    | cons z n => rfl
  | cons x l ih =>
    cases b with
    | nil => simp [lexLt] at hba
    | cons y m =>
      cases c with
      | nil => simp [lexLt] at hcb
      | cons z n =>
        simp only [lexLt] at hba hcb ⊢
        split at hba
        · cases hba
        · split at hcb
          · cases hcb
          · next h₁ h₂ =>
            split at hba
            · next h₃ =>
              have : ¬ z < x := by omega
              have h₄ : x < z := by omega
              simp [this, h₄]
            · next h₃ =>
              have e₁ : x = y := by omega
              subst e₁
              split at hcb
              · next h₄ =>
                have : ¬ z < x := by omega
                simp [this, h₄]
              · next h₄ =>
                simp [h₂, h₄, ih m n hba hcb]

/-- The table order holds exactly the records of the table. -/
theorem mem_tableOrder (s : State) (r : Avail) : r ∈ tableOrder s ↔ r ∈ s.avails := mem_sortBy _ _ _

/-- No record sorts before one that stands before it in the table order. -/
theorem tableOrder_sorted (s : State) :
    (tableOrder s).Pairwise fun a b => lexLt (b.sortKey s) (a.sortKey s) = false :=
  sortBy_sorted (lt := fun a b : Avail => lexLt (a.sortKey s) (b.sortKey s))
    (fun _ _ => lexLt_asymm _ _) (fun _ _ _ => lexLt_trans_false _ _ _) _

/-! ## The continuity memory -/

theorem contWf_cons (p : Nat) (c : BitVec 4) (m : ContMem) :
    contWf ((p, c) :: m) = (m.all (fun e => decide (p < e.1)) && contWf m) := by
  induction m generalizing p c with
  | nil => rfl
  | cons e m ih =>
    obtain ⟨q, d⟩ := e
    show (decide (p < q) && contWf ((q, d) :: m)) = _
    rw [ih]
    simp only [List.all_cons]
    by_cases h : p < q
    · have : (m.all fun e => decide (q < e.1)) = true → (m.all fun e => decide (p < e.1)) = true := by
        simp only [List.all_eq_true, decide_eq_true_eq]
        intro h' e he
        exact Nat.lt_trans h (h' e he)
      cases h₁ : (m.all fun e => decide (q < e.1)) with
      | false => simp
      | true => simp [h, this h₁]
    · simp [h]

theorem contWrite_all (P : Nat → Bool) (pid : Nat) (cc : BitVec 4) (m : ContMem) (hp : P pid = true)
    (hm : m.all (fun e => P e.1) = true) : (contWrite pid cc m).all (fun e => P e.1) = true := by
  induction m with
  | nil => simp [contWrite, hp]
  | cons e m ih =>
    obtain ⟨q, d⟩ := e
    simp only [List.all_cons, Bool.and_eq_true] at hm
    simp only [contWrite]
    split
    · simp [hp, hm]
    · split
      · simp [hp, hm.2]
      · simp [hm.1, ih hm.2]

/-- A write keeps the canonical form. -/
theorem contWf_contWrite (pid : Nat) (cc : BitVec 4) (m : ContMem) (h : contWf m = true) :
    contWf (contWrite pid cc m) = true := by
  induction m with
  | nil => rfl
  | cons e m ih =>
    obtain ⟨q, d⟩ := e
    have hq := h
    rw [contWf_cons, Bool.and_eq_true] at hq
    simp only [contWrite]
    split
    · next hlt =>
      rw [contWf_cons, Bool.and_eq_true]
      refine ⟨?_, h⟩
      simp only [List.all_cons, Bool.and_eq_true, decide_eq_true_eq]
      refine ⟨hlt, ?_⟩
      have := hq.1
      simp only [List.all_eq_true, decide_eq_true_eq] at this ⊢
      intro e he
      exact Nat.lt_trans hlt (this e he)
    · split
      · next heq => subst heq; rw [contWf_cons, Bool.and_eq_true]; exact hq
      · next h₁ h₂ =>
        rw [contWf_cons, Bool.and_eq_true]
        exact ⟨contWrite_all (fun k => decide (q < k)) pid cc m (by simp; omega) hq.1, ih hq.2⟩

/-- What a write reads back, and that no other PID's counter changes. -/
theorem contRead_contWrite (pid : Nat) (cc : BitVec 4) (m : ContMem) (k : Nat) :
    contRead (contWrite pid cc m) k = if k = pid then some cc else contRead m k := by
  have cons (x : Nat) (c : BitVec 4) (n : ContMem) (y : Nat) :
      contRead ((x, c) :: n) y = if y = x then some c else contRead n y := by
    by_cases hxy : x = y
    · subst hxy; simp [contRead]
    · have : ¬ y = x := fun e => hxy e.symm
      simp [contRead, hxy, this]
  induction m with
  | nil => exact cons pid cc [] k
  | cons e m ih =>
    obtain ⟨q, d⟩ := e
    simp only [contWrite]
    split
    · exact cons pid cc _ k
    · split
      · next heq =>
        subst heq
        simp only [cons]
        split <;> rfl
      · next h =>
        simp only [cons, ih]
        by_cases hk : k = q
        · have : ¬ q = pid := fun e => h e.symm
          simp [hk, this]
        · simp [hk]

end Machine

end Sys2Proof
end

