-- ==== Sys2Proof/Laws/Frames.lean ====
section
/-! SUPPORT. What each shared operation may change. `OnlyRecords s t` says that `t` is `s` but for the avail
records and the lanes, and so on; `<operation>_only` says which of these an operation is. A proof that a field survives
an operation cites the frame and never unfolds the operation. -/

namespace Sys2Proof.Machine

/-! ## Which fields two states may differ in -/

def OnlyRecords (s t : State) : Prop := t = { s with avails := t.avails, lanes := t.lanes }

theorem OnlyRecords.refl (s : State) : OnlyRecords s s := rfl

theorem OnlyRecords.trans {s t u : State} (h₁ : OnlyRecords s t) (h₂ : OnlyRecords t u) : OnlyRecords s u :=
  Eq.trans h₂ (congrArg (fun x : State => { x with avails := u.avails, lanes := u.lanes }) h₁)

theorem updRec_only (k : Key) (f : Avail → Avail) (s : State) : OnlyRecords s (updRec k f s) := rfl
theorem updPlacement_only (p : PRef) (f : Placement → Placement) (s : State) :
    OnlyRecords s (updPlacement p f s) := rfl
theorem updLane_only (l : Fin 16) (f : Lane → Lane) (s : State) : OnlyRecords s (updLane l f s) := rfl

theorem overList_onlyRecords {α : Type} {l : List α} {f : α → State → State}
    (h : ∀ a s, OnlyRecords s (f a s)) (s : State) : OnlyRecords s (overList l f s) :=
  overList_keeps (OnlyRecords s) (fun a _ _ ht => ht.trans (h a _)) (OnlyRecords.refl s)

theorem handBack_only (l : Fin 16) (p : PRef) (s : State) : OnlyRecords s (handBack l p s) := rfl
theorem grant_only (l : Fin 16) (p : PRef) (s : State) : OnlyRecords s (grant l p s) := rfl
theorem freeLane_only (l : Fin 16) (s : State) : OnlyRecords s (freeLane l s) := rfl

theorem readerLeave_only (l : Fin 16) (c : Fin 128) (s : State) : OnlyRecords s (readerLeave l c s) := by
  unfold readerLeave; dsimp only; split <;> rfl

theorem finishPlacement_only (o : Outcome) (p : PRef) (s : State) :
    OnlyRecords s (finishPlacement o p s) := by
  unfold finishPlacement
  split
  · rfl
  · split
    · rfl
    · dsimp only; split <;> rfl

theorem finishAll_only (o : Outcome) (k : Key) (s : State) : OnlyRecords s (finishAll o k s) :=
  overList_onlyRecords (finishPlacement_only o) s

theorem reportLeave_only (p : PRef) (o : Outcome) (s : State) : OnlyRecords s (reportLeave p o s) := rfl

theorem requestLane_only (p : PRef) (s : State) : OnlyRecords s (requestLane p s) := by
  unfold requestLane; split
  · split
    · split <;> rfl
    · rfl
  · rfl

theorem armPlacement_only (p : PRef) (s : State) : OnlyRecords s (armPlacement p s) := by
  unfold armPlacement; split
  · rfl
  · split
    · exact requestLane_only p s
    · exact finishPlacement_only _ p s

theorem arm_only (k : Key) (s : State) : OnlyRecords s (arm k s) :=
  (updRec_only k _ s).trans (overList_onlyRecords armPlacement_only _)

theorem treatPending_only (v : Service) (t : Time) (locked : Bool) (k : Key) (s : State) :
    OnlyRecords s (treatPending v t locked k s) := by
  unfold treatPending; split
  · rfl
  · split
    · exact finishAll_only _ k s
    · split
      · exact arm_only k s
      · rfl

theorem treatHeld_only (v : Service) (t : Time) (locked : Bool) (k : Key) (s : State) :
    OnlyRecords s (treatHeld v t locked k s) := by
  unfold treatHeld; split
  · rfl
  · split
    · split
      · exact (updRec_only k _ s).trans (treatPending_only v t locked k _)
      · exact finishAll_only _ k s
    · rfl

theorem missLane_only (p : PRef) (s : State) : OnlyRecords s (missLane p s) := by
  unfold missLane; split
  · split
    · exact finishPlacement_only _ p s
    · rfl
  · rfl

theorem retryLane_only (p : PRef) (s : State) : OnlyRecords s (retryLane p s) := by
  unfold retryLane; split
  · split
    · exact requestLane_only p s
    · rfl
  · rfl

theorem treatArmed_only (v : Service) (t : Time) (locked : Bool) (k : Key) (s : State) :
    OnlyRecords s (treatArmed v t locked k s) := by
  unfold treatArmed; split
  · rfl
  · split
    · exact finishAll_only _ k s
    · split
      · exact overList_onlyRecords missLane_only s
      · exact overList_onlyRecords retryLane_only s

theorem treatRecord_only (v : Service) (t : Time) (locked : Bool) (k : Key) (s : State) :
    OnlyRecords s (treatRecord v t locked k s) := by
  unfold treatRecord; split
  · rfl
  · split
    · exact treatHeld_only v t locked k s
    · exact treatPending_only v t locked k s
    · exact treatArmed_only v t locked k s
    · rfl

theorem retestGuard_only (p : PRef) (s : State) : OnlyRecords s (retestGuard p s) := by
  unfold retestGuard; split
  · split
    · split
      · rfl
      · exact OnlyRecords.trans (t := updPlacement p _ (handBack _ p s)) rfl (requestLane_only p _)
    · rfl
  · rfl

theorem amendArmedE_only (k : Key) (e : Time) (s : State) : OnlyRecords s (amendArmedE k e s) :=
  (updRec_only k _ s).trans (overList_onlyRecords retestGuard_only _)

/-! ## Retiring and the time update -/

def OnlySchedule (s t : State) : Prop :=
  t = { s with services := t.services, avails := t.avails, lanes := t.lanes, attn := t.attn }

theorem OnlySchedule.refl (s : State) : OnlySchedule s s := rfl

theorem OnlySchedule.trans {s t u : State} (h₁ : OnlySchedule s t) (h₂ : OnlySchedule t u) :
    OnlySchedule s u :=
  Eq.trans h₂ (congrArg (fun x : State =>
    { x with services := u.services, avails := u.avails, lanes := u.lanes, attn := u.attn }) h₁)

theorem OnlyRecords.schedule {s t : State} (h : OnlyRecords s t) : OnlySchedule s t := by
  unfold OnlySchedule; rw [h]

theorem updSvc_only (i : Fin 64) (f : Service → Service) (s : State) : OnlySchedule s (updSvc i f s) := rfl

theorem raise_only (src : Fin 96) (k : Cause) (s : State) : OnlySchedule s (raise src k s) := by
  unfold raise; split <;> rfl

theorem overList_onlySchedule {α : Type} {l : List α} {f : α → State → State}
    (h : ∀ a s, OnlySchedule s (f a s)) (s : State) : OnlySchedule s (overList l f s) :=
  overList_keeps (OnlySchedule s) (fun a _ _ ht => ht.trans (h a _)) (OnlySchedule.refl s)

theorem retire_only (r : Avail) (s : State) : OnlySchedule s (retire r s) :=
  OnlySchedule.trans (t := updSvc r.key.svc _ { s with avails := s.avails.filter _ }) rfl (raise_only _ _ _)

theorem retireDone_only (i : Fin 64) (s : State) : OnlySchedule s (retireDone i s) :=
  overList_onlySchedule (fun k s => by
    split
    · split
      · exact retire_only _ s
      · rfl
    · rfl) s

theorem timeUpdate_only (i : Fin 64) (s : State) : OnlySchedule s (timeUpdate i s) := by
  unfold timeUpdate; split
  · rfl
  · split
    · rfl
    · exact (overList_onlyRecords (treatRecord_only _ _ _) s).schedule.trans (retireDone_only i _)

/-! ## Channels -/

def OnlyChannels (s t : State) : Prop := t = { s with channels := t.channels }

theorem OnlyChannels.refl (s : State) : OnlyChannels s s := rfl

theorem OnlyChannels.trans {s t u : State} (h₁ : OnlyChannels s t) (h₂ : OnlyChannels t u) :
    OnlyChannels s u :=
  Eq.trans h₂ (congrArg (fun x : State => { x with channels := u.channels }) h₁)

theorem updChan_only (c : Fin 128) (f : Channel → Channel) (s : State) : OnlyChannels s (updChan c f s) := rfl

theorem overList_onlyChannels {α : Type} {l : List α} {f : α → State → State}
    (h : ∀ a s, OnlyChannels s (f a s)) (s : State) : OnlyChannels s (overList l f s) :=
  overList_keeps (OnlyChannels s) (fun a _ _ ht => ht.trans (h a _)) (OnlyChannels.refl s)

theorem askReturnHeld_only (o : Outcome) (preempt : Bool) (c : Fin 128) (s : State) :
    OnlyChannels s (askReturnHeld o preempt c s) := rfl

theorem giveCoverage_only (t : Target) (c : Fin 128) (s : State) : OnlyChannels s (giveCoverage t c s) := rfl

theorem setReturn_only (k : Key) (r : Option Time) (s : State) : OnlyChannels s (setReturn k r s) :=
  overList_onlyChannels (fun c s => updChan_only c _ s) s

theorem setCueReturn_only (k : Key) (t : Time) (s : State) : OnlyChannels s (setCueReturn k t s) :=
  overList_onlyChannels (fun c s => updChan_only c _ s) s

theorem targetZone_only (t : Target) (z : Fin 8) (s : State) : OnlyChannels s (targetZone t z s) :=
  overList_onlyChannels (giveCoverage_only t) s

/-! ## Splices -/

def OnlySplice (s t : State) : Prop :=
  t = { s with
    avails := t.avails, lanes := t.lanes, channels := t.channels, tallies := t.tallies
    freeCount := t.freeCount }

theorem OnlySplice.refl (s : State) : OnlySplice s s := rfl

theorem OnlySplice.trans {s t u : State} (h₁ : OnlySplice s t) (h₂ : OnlySplice t u) : OnlySplice s u :=
  Eq.trans h₂ (congrArg (fun x : State =>
    { x with
      avails := u.avails, lanes := u.lanes, channels := u.channels, tallies := u.tallies
      freeCount := u.freeCount }) h₁)

theorem OnlyRecords.splice {s t : State} (h : OnlyRecords s t) : OnlySplice s t := by
  unfold OnlySplice; rw [h]

theorem OnlyChannels.splice {s t : State} (h : OnlyChannels s t) : OnlySplice s t := by
  unfold OnlySplice; rw [h]

theorem overList_onlySplice {α : Type} {l : List α} {f : α → State → State}
    (h : ∀ a s, OnlySplice s (f a s)) (s : State) : OnlySplice s (overList l f s) :=
  overList_keeps (OnlySplice s) (fun a _ _ ht => ht.trans (h a _)) (OnlySplice.refl s)

theorem leaveLane_only (l : Fin 16) (h : Option Holder) (o : Option Outcome) (c : Fin 128) (s : State) :
    OnlyRecords s (leaveLane l h o c s) := by
  unfold leaveLane; dsimp only; split
  · exact (readerLeave_only l c s).trans (reportLeave_only _ _ _)
  · exact readerLeave_only l c s

theorem settleDeparting_only (c : Fin 128) (s : State) : OnlySplice s (settleDeparting c s) := by
  unfold settleDeparting; split
  · rfl
  · split
    · rfl
    · split
      · rfl
      · exact (updChan_only c _ s).splice.trans (leaveLane_only _ _ _ c _).splice

theorem settleRetaken_only (l : Fin 16) (c : Fin 128) (s : State) : OnlySplice s (settleRetaken l c s) := by
  unfold settleRetaken; split
  · rfl
  · split
    · dsimp only; split <;> rfl
    · rfl

theorem videoTake_only (p : Time) (c : Fin 128) (t : Target) (o : Option Outcome)
    (keep : Option PendingTarget) (s : State) : OnlySplice s (videoTake p c t o keep s) := by
  unfold videoTake
  dsimp only
  refine OnlySplice.trans ?_ (settleDeparting_only c _)
  cases t with
  | network => dsimp only; split <;> rfl
  | lane l h =>
    dsimp only
    refine OnlySplice.trans ?_ (freeLane_only _ _).splice
    refine OnlySplice.trans ?_ (settleRetaken_only _ c _)
    split <;> rfl

theorem switchChannel_only (p : Time) (w : Option Candidate) (c : Fin 128) (s : State) :
    OnlySplice s (switchChannel p w c s) := by
  unfold switchChannel; split
  · rfl
  · split
    · exact videoTake_only _ _ _ _ _ _
    · rfl

theorem placementResult_only (ready : Bool) (rep : Report) (ref : PRef) (q : Placement) (s : State) :
    OnlyRecords s (placementResult ready rep ref q s) := by
  unfold placementResult; split
  · exact finishPlacement_only _ _ _
  · split
    · exact finishPlacement_only _ _ _
    · split
      · exact finishPlacement_only _ _ _
      · split
        · exact finishPlacement_only _ _ _
        · rfl
  · rfl

theorem applySpliceOut_only (p : Time) (s₀ : State) (cands : List Candidate) (r : Avail) (s : State) :
    OnlySplice s (applySpliceOut p s₀ cands r s) := by
  unfold applySpliceOut
  dsimp only
  have h : ∀ s, OnlyRecords s (overList (List.range r.placements.length) (fun i s =>
      match r.placements[i]? with
      | some q => placementResult (wasReady s₀ q) (reportOf s₀ cands ⟨r.key, i⟩ q.zones) ⟨r.key, i⟩ q s
      | none => s) s) := overList_onlyRecords fun i s => by
    split
    · exact placementResult_only _ _ _ _ _
    · rfl
  refine OnlySplice.trans (h s).splice ?_
  split
  · split
    · exact (updRec_only _ _ _).splice.trans (setReturn_only _ _ _).splice
    · rfl
  · rfl

theorem deliverTrigger_only (k : TallyKind) (i : Fin 64) (s : State) : OnlySplice s (deliverTrigger k i s) := rfl

theorem beat_only (i : Fin 64) (p : Time) (s : State) : OnlySplice s (beat i p s) := by
  unfold beat; split
  · rfl
  · dsimp only
    have trig : ∀ (b : Bool) k u, OnlySplice s u → OnlySplice s (if b then deliverTrigger k i u else u) := by
      intro b k u h
      split
      · exact h.trans (deliverTrigger_only k i u)
      · exact h
    refine trig _ _ _ (trig _ _ _ ?_)
    refine OnlySplice.trans (OnlySplice.trans ?_ (overList_onlySplice ?_ _)) (overList_onlySplice ?_ _)
    · exact overList_onlySplice (fun c s => switchChannel_only _ _ _ _) s
    · intro r s
      split
      · exact applySpliceOut_only _ _ _ _ _
      · exact (finishAll_only _ _ _).splice
    · intro r s
      exact (finishAll_only _ _ _).splice

/-! ## Ports -/

def OnlyPorts (s t : State) : Prop :=
  t = { s with
    avails := t.avails, lanes := t.lanes, channels := t.channels, tallies := t.tallies
    freeCount := t.freeCount, ports := t.ports }

theorem OnlyPorts.refl (s : State) : OnlyPorts s s := rfl

theorem OnlyPorts.trans {s t u : State} (h₁ : OnlyPorts s t) (h₂ : OnlyPorts t u) : OnlyPorts s u :=
  Eq.trans h₂ (congrArg (fun x : State =>
    { x with
      avails := u.avails, lanes := u.lanes, channels := u.channels, tallies := u.tallies
      freeCount := u.freeCount, ports := u.ports }) h₁)

theorem OnlySplice.port {s t : State} (h : OnlySplice s t) : OnlyPorts s t := by
  unfold OnlyPorts; rw [h]

theorem followCursor_only (l : Fin 16) (c : Fin 128) (x : Role) (s : State) :
    OnlySplice s (followCursor l c x s) := by
  unfold followCursor; split
  · rfl
  · split <;> rfl

theorem follow_only (c : Fin 128) (x : Role) (s : State) : OnlySplice s (follow c x s) := by
  unfold follow; split
  · rfl
  · dsimp only
    refine OnlySplice.trans ?_ (settleDeparting_only c _)
    have h₁ : ∀ (r : RoleSource) (u : State), OnlySplice s u → OnlySplice s (match r with
        | .lane l => freeLane l (updLane l (Lane.setCursor c x none) u)
        | _ => u) := by
      intro r u h
      cases r <;> first | exact h | exact h.trans (OnlyRecords.splice rfl)
    have h₂ : ∀ (o : Option (Fin 16)) (u : State), OnlySplice s u → OnlySplice s (match o with
        | some l => freeLane l (followCursor l c x u)
        | none => u) := by
      intro o u h
      cases o with
      | none => exact h
      | some l => exact h.trans ((followCursor_only l c x u).trans (freeLane_only _ _).splice)
    exact h₂ _ _ (h₁ _ _ (updChan_only c _ s).splice)

theorem emit_only (port : Fin 8) (pk : Packet) (s : State) : OnlyPorts s (emit port pk s) := rfl

theorem updRole_only (c : Fin 128) (x : Role) (f : RoleState → RoleState) (s : State) :
    OnlyChannels s (updRole c x f s) := rfl

theorem passNetwork_only (port : Fin 8) (c : Fin 128) (x : Role) (r : RoleState) (pk : Packet) (s : State) :
    OnlyPorts s (passNetwork port c x r pk s) := by
  unfold passNetwork; dsimp only; split <;> rfl

theorem fillSlot_only (port : Fin 8) (c : Fin 128) (x : Role) (v : Service) (ch : Channel) (r : RoleState)
    (pid : Pid) (pk : Packet) (s : State) : OnlyPorts s (fillSlot port c x v ch r pid pk s) := rfl

theorem slot_only (port : Fin 8) (c : Fin 128) (x : Role) (l : Fin 16) (v : Service) (ch : Channel)
    (r : RoleState) (pid : Pid) (s : State) : OnlyPorts s (slot port c x l v ch r pid s) := by
  unfold slot; split
  · rfl
  · dsimp only; split
    · rename_i pk eos _
      have h : OnlyPorts s (fillSlot port c x v ch r pid pk
          (freeLane l (updLane l (fun _ => (Lane.take (nowMs s) c x (s.lanes.get l)).1) s))) :=
        OnlyPorts.trans ((updLane_only l _ s).trans (freeLane_only l _)).splice.port
          (fillSlot_only _ _ _ _ _ _ _ _ _)
      split
      · exact h.trans (askReturnHeld_only _ _ _ _).splice.port
      · exact h
    · rfl
    · rfl

theorem govern_only (port : Fin 8) (c : Fin 128) (x : Role) (v : Service) (pk : Packet) (s : State) :
    OnlyPorts s (govern port c x v pk s) := by
  unfold govern
  dsimp only
  have h : ∀ u, OnlyPorts u (match u.channels.get c with
      | none => emit port pk u
      | some ch => match (ch.roles.get x).source with
        | .network => passNetwork port c x (ch.roles.get x) pk u
        | .lane l => slot port c x l v ch (ch.roles.get x) pk.pid u
        | .muted => emit port nullPacket u) := by
    intro u
    split
    · rfl
    · split
      · exact passNetwork_only _ _ _ _ _ _
      · exact slot_only _ _ _ _ _ _ _ _ _
      · rfl
  refine OnlyPorts.trans ?_ (h _)
  split
  · split
    · exact (follow_only c x s).port
    · rfl
  · rfl

theorem portPacket_only (port : Fin 8) (pk : Packet) (s : State) : OnlyPorts s (portPacket port pk s) := by
  unfold portPacket; split
  · exact govern_only _ _ _ _ _ _
  · rfl

theorem dispatchPorts_only (m : Fin 4) (pk : Packet) (s : State) : OnlyPorts s (dispatchPorts m pk s) :=
  overList_keeps (OnlyPorts s) (fun port _ u hu => by
    split
    · exact hu.trans (portPacket_only port pk u)
    · exact hu) (OnlyPorts.refl s)

/-- The ports of `t` are those of `s`, but for one packet emitted on one of them and recorded there (R114). -/
def Emitted (port : Fin 8) (s t : State) : Prop := ∃ q, t.ports = (emit port q s).ports

/-- A packet enters a port's continuity memory under its PID when it bears a payload and is no null packet (R114). -/
theorem contRead_emit (port : Fin 8) (q : Packet) (s : State) (pid : Nat) :
    contRead ((emit port q s).ports.get port).cont pid =
      if q.payload.isSome = true ∧ q.pid ≠ 0x1FFF#13 ∧ pid = q.pid.toNat then some q.cc
      else contRead (s.ports.get port).cont pid := by
  unfold emit updPort hasPayload
  dsimp only
  rw [Table.get_set, if_pos rfl]
  dsimp only
  by_cases h : q.payload.isSome = true ∧ q.pid ≠ 0x1FFF#13
  · rw [if_pos (by simpa using h), contRead_contWrite]
    by_cases hp : pid = q.pid.toNat
    · rw [if_pos hp, if_pos ⟨h.1, h.2, hp⟩]
    · rw [if_neg hp, if_neg (fun x => hp x.2.2)]
  · rw [if_neg (by simpa using h), if_neg (fun x => h ⟨x.1, x.2.1⟩)]

theorem Emitted.of_ports {port : Fin 8} {s u t : State} (hu : u.ports = s.ports) (h : Emitted port u t) :
    Emitted port s t := by
  obtain ⟨q, h⟩ := h
  exact ⟨q, h.trans (by unfold emit updPort; rw [hu])⟩

theorem passNetwork_emits (port : Fin 8) (c : Fin 128) (x : Role) (r : RoleState) (pk : Packet) (s : State) :
    Emitted port s (passNetwork port c x r pk s) := by
  unfold passNetwork; dsimp only; split
  · exact ⟨_, rfl⟩
  · exact ⟨_, rfl⟩

theorem slot_emits (port : Fin 8) (c : Fin 128) (x : Role) (l : Fin 16) (v : Service) (ch : Channel)
    (r : RoleState) (pid : Pid) (s : State) : Emitted port s (slot port c x l v ch r pid s) := by
  unfold slot; split
  · exact ⟨_, rfl⟩
  · dsimp only; split
    · rename_i pk eos _
      have h : Emitted port s (fillSlot port c x v ch r pid pk
          (freeLane l (updLane l (fun _ => (Lane.take (nowMs s) c x (s.lanes.get l)).1) s))) :=
        Emitted.of_ports rfl ⟨_, rfl⟩
      split
      · obtain ⟨q, h⟩ := h
        exact ⟨q, h⟩
      · exact h
    · exact ⟨_, rfl⟩
    · exact ⟨_, rfl⟩

theorem govern_emits (port : Fin 8) (c : Fin 128) (x : Role) (v : Service) (pk : Packet) (s : State) :
    Emitted port s (govern port c x v pk s) := by
  unfold govern
  dsimp only
  have h : ∀ u : State, u.ports = s.ports → Emitted port s (match u.channels.get c with
      | none => emit port pk u
      | some ch => match (ch.roles.get x).source with
        | .network => passNetwork port c x (ch.roles.get x) pk u
        | .lane l => slot port c x l v ch (ch.roles.get x) pk.pid u
        | .muted => emit port nullPacket u) := by
    intro u hu
    refine Emitted.of_ports hu ?_
    split
    · exact ⟨_, rfl⟩
    · split
      · exact passNetwork_emits _ _ _ _ _ _
      · exact slot_emits _ _ _ _ _ _ _ _ _
      · exact ⟨_, rfl⟩
  refine h _ ?_
  split
  · split
    · have h := follow_only c x s
      unfold OnlySplice at h
      rw [h]
    · rfl
  · rfl

/-- A port emits exactly one packet for a packet it is given, and no other port emits any (R114). -/
theorem portPacket_emits (port : Fin 8) (pk : Packet) (s : State) : Emitted port s (portPacket port pk s) := by
  unfold portPacket; split
  · exact govern_emits _ _ _ _ _ _
  · exact ⟨pk, rfl⟩

/-! ## Timebases and cues -/

def OnlyCues (s t : State) : Prop :=
  t = { s with
    services := t.services, avails := t.avails, created := t.created, lanes := t.lanes
    channels := t.channels, attn := t.attn, tallies := t.tallies }

theorem OnlyCues.refl (s : State) : OnlyCues s s := rfl

theorem OnlyCues.trans {s t u : State} (h₁ : OnlyCues s t) (h₂ : OnlyCues t u) : OnlyCues s u :=
  Eq.trans h₂ (congrArg (fun x : State =>
    { x with
      services := u.services, avails := u.avails, created := u.created, lanes := u.lanes
      channels := u.channels, attn := u.attn, tallies := u.tallies }) h₁)

theorem OnlySchedule.cues {s t : State} (h : OnlySchedule s t) : OnlyCues s t := by
  unfold OnlyCues; rw [h]

theorem OnlyRecords.cues {s t : State} (h : OnlyRecords s t) : OnlyCues s t := h.schedule.cues

theorem OnlyChannels.cues {s t : State} (h : OnlyChannels s t) : OnlyCues s t := by
  unfold OnlyCues; rw [h]

theorem lossOfLock_only (i : Fin 64) (s : State) : OnlyCues s (lossOfLock i s) :=
  (raise_only _ _ s).cues.trans (overList_onlyChannels (askReturnHeld_only _ _) _).cues

theorem pcrArrive_only (i : Fin 64) (c : Pcr) (disc : Bool) (s : State) : OnlyCues s (pcrArrive i c disc s) := by
  unfold pcrArrive; split
  · rfl
  · dsimp only
    refine OnlyCues.trans ?_ (timeUpdate_only i _).cues
    split
    · exact (updSvc_only i _ s).cues.trans (lossOfLock_only i _)
    · rfl

theorem expireTimebase_only (i : Fin 64) (s : State) : OnlyCues s (expireTimebase i s) := by
  unfold expireTimebase; dsimp only; split
  · exact (updSvc_only i _ s).cues.trans (lossOfLock_only i _)
  · rfl

theorem addRecord_only (k : Key) (o : Origin) (ts : TimeSource) (e : Option Time) (d : Option (BitVec 32))
    (ps : List TPlacement) (st : AvailState) (s : State) : OnlyCues s (addRecord k o ts e d ps st s) := rfl

theorem amendActiveD_only (k : Key) (d : Option (BitVec 32)) (s : State) : OnlyCues s (amendActiveD k d s) := by
  unfold amendActiveD; split
  · rfl
  · exact (updRec_only k _ s).cues.trans (setReturn_only _ _ _).cues

theorem returnNow_only (k : Key) (s : State) : OnlyCues s (returnNow k s) := by
  unfold returnNow; split
  · rfl
  · split
    · rfl
    · exact (updRec_only k _ s).cues.trans (overList_onlyChannels (askReturnHeld_only _ _) _).cues

theorem cancelRecord_only (k : Key) (s : State) : OnlyCues s (cancelRecord k s) := by
  unfold cancelRecord; split
  · rfl
  · split
    · exact returnNow_only k s
    · exact (finishAll_only _ k s).cues.trans (retireDone_only _ _).cues

theorem createFromCue_only (i : Fin 64) (v : Service) (c : Cue) (e : Time) (s : State) :
    OnlyCues s (createFromCue i v c e s) := by
  unfold createFromCue; dsimp only; split
  · refine OnlyCues.trans (t := raise (svcSource i) .cueHeld _) ?_ rfl
    exact OnlyCues.trans (addRecord_only _ _ _ _ _ _ _ s) (raise_only _ _ _).cues
  · rfl

theorem insertNew_only (i : Fin 64) (v : Service) (c : Cue) (s : State) : OnlyCues s (insertNew i v c s) := by
  unfold insertNew
  split
  · rfl
  · split
    · rfl
    · split
      · exact (raise_only _ _ s).cues
      · split
        · exact (raise_only _ _ s).cues
        · split
          · exact (raise_only _ _ s).cues
          · exact createFromCue_only _ _ _ _ _

theorem insertKnown_only (i : Fin 64) (v : Service) (c : Cue) (r : Avail) (s : State) :
    OnlyCues s (insertKnown i v c r s) := by
  unfold insertKnown
  split
  · split
    · exact (raise_only _ _ s).cues
    · rfl
  · dsimp only
    have h : ∀ u, OnlyCues s u → OnlyCues s (match cueE v c with
        | some e => if r.e = some e then u else amendArmedE r.key e u
        | none => u) := by
      intro u hu
      split
      · split
        · exact hu
        · exact hu.trans (amendArmedE_only _ _ _).cues
      · exact hu
    refine h _ ?_
    split <;> rfl
  · split
    · exact amendActiveD_only _ _ _
    · rfl
  · rfl

theorem returnCue_only (v : Service) (c : Cue) (r : Avail) (s : State) : OnlyCues s (returnCue v c r s) := by
  unfold returnCue; split
  · split
    · exact returnNow_only _ _
    · split
      · rfl
      · exact (setCueReturn_only _ _ _).cues
  · rfl

theorem takeCue_only (i : Fin 64) (v : Service) (c : Cue) (s : State) : OnlyCues s (takeCue i v c s) := by
  unfold takeCue; split
  · exact insertNew_only _ _ _ _
  · exact insertKnown_only _ _ _ _ _
  · exact cancelRecord_only _ _
  · exact returnCue_only _ _ _ _
  · rfl

theorem cuePacket_only (i : Fin 64) (pk : Packet) (s : State) : OnlyCues s (cuePacket i pk s) := by
  unfold cuePacket; split
  · split
    · split
      · exact takeCue_only _ _ _ _
      · exact (raise_only _ _ s).cues
    · rfl
  · rfl

theorem overList_onlyCues {α : Type} {l : List α} {f : α → State → State}
    (h : ∀ a s, OnlyCues s (f a s)) (s : State) : OnlyCues s (overList l f s) :=
  overList_keeps (OnlyCues s) (fun a _ _ ht => ht.trans (h a _)) (OnlyCues.refl s)

theorem dispatchPcr_only (m : Fin 4) (pk : Packet) (s : State) : OnlyCues s (dispatchPcr m pk s) := by
  unfold dispatchPcr; split
  · exact overList_onlyCues (fun i s => pcrArrive_only i _ _ s) s
  · rfl

theorem dispatchCue_only (m : Fin 4) (pk : Packet) (s : State) : OnlyCues s (dispatchCue m pk s) :=
  overList_onlyCues (fun i s => cuePacket_only i pk s) s

theorem dispatchBeat_only (m : Fin 4) (pk : Packet) (s : State) : OnlySplice s (dispatchBeat m pk s) := by
  unfold dispatchBeat; split
  · exact overList_onlySplice (fun i s => beat_only i _ s) s
  · rfl

theorem settleRecords_only (m : Fin 4) (pk : Packet) (s : State) : OnlySchedule s (settleRecords m pk s) :=
  overList_onlySchedule (fun i s => retireDone_only i s) s

def OnlyStreams (s t : State) : Prop :=
  t = { s with
    services := t.services, avails := t.avails, created := t.created, lanes := t.lanes
    channels := t.channels, attn := t.attn, tallies := t.tallies, freeCount := t.freeCount
    ports := t.ports }

theorem OnlyStreams.refl (s : State) : OnlyStreams s s := rfl

theorem OnlyStreams.trans {s t u : State} (h₁ : OnlyStreams s t) (h₂ : OnlyStreams t u) : OnlyStreams s u :=
  Eq.trans h₂ (congrArg (fun x : State =>
    { x with
      services := u.services, avails := u.avails, created := u.created, lanes := u.lanes
      channels := u.channels, attn := u.attn, tallies := u.tallies, freeCount := u.freeCount
      ports := u.ports }) h₁)

theorem OnlyCues.streams {s t : State} (h : OnlyCues s t) : OnlyStreams s t := by
  unfold OnlyStreams; rw [h]

theorem OnlyPorts.streams {s t : State} (h : OnlyPorts s t) : OnlyStreams s t := by
  unfold OnlyStreams; rw [h]

theorem networkPacket_only (m : Fin 4) (pk : Packet) (s : State) :
    OnlyStreams { s with netIn := s.netIn.set m (s.netIn.get m).accept } (networkPacket m pk s) := by
  unfold networkPacket
  dsimp only
  refine OnlyStreams.trans ?_ (settleRecords_only m pk _).cues.streams
  refine OnlyStreams.trans ?_ (dispatchPorts_only m pk _).streams
  split
  · exact OnlyStreams.refl _
  · exact ((dispatchPcr_only m pk _).trans (dispatchCue_only m pk _)).streams.trans
      (dispatchBeat_only m pk _).port.streams

/-! ## Alerts -/

def OnlyAlerts (s t : State) : Prop :=
  t = { s with
    alerts := t.alerts, activations := t.activations, zones := t.zones, lanes := t.lanes
    channels := t.channels, attn := t.attn, tallies := t.tallies }

theorem OnlyAlerts.refl (s : State) : OnlyAlerts s s := rfl

theorem OnlyAlerts.trans {s t u : State} (h₁ : OnlyAlerts s t) (h₂ : OnlyAlerts t u) : OnlyAlerts s u :=
  Eq.trans h₂ (congrArg (fun x : State =>
    { x with
      alerts := u.alerts, activations := u.activations, zones := u.zones, lanes := u.lanes
      channels := u.channels, attn := u.attn, tallies := u.tallies }) h₁)

theorem OnlyChannels.alerts {s t : State} (h : OnlyChannels s t) : OnlyAlerts s t := by
  unfold OnlyAlerts; rw [h]

theorem overList_onlyAlerts {α : Type} {l : List α} {f : α → State → State}
    (h : ∀ a s, OnlyAlerts s (f a s)) (s : State) : OnlyAlerts s (overList l f s) :=
  overList_keeps (OnlyAlerts s) (fun a _ _ ht => ht.trans (h a _)) (OnlyAlerts.refl s)

theorem overFin_onlyAlerts {n : Nat} {f : Fin n → State → State} (h : ∀ a s, OnlyAlerts s (f a s)) (s : State) :
    OnlyAlerts s (overFin n f s) := overList_onlyAlerts h s

theorem raise_onlyAlerts (src : Fin 96) (k : Cause) (s : State) : OnlyAlerts s (raise src k s) := by
  unfold raise; split <;> rfl

theorem updAlert_only (a : Fin 16) (f : Alert → Alert) (s : State) : OnlyAlerts s (updAlert a f s) := rfl

theorem coverServing_only (a : Fin 16) (z : Fin 8) (s : State) : OnlyAlerts s (coverServing a z s) := by
  unfold coverServing
  exact OnlyAlerts.trans (t := updZone z _ s) rfl (targetZone_only _ _ _).alerts

theorem coverWaiting_only (a : Fin 16) (z : Fin 8) (s : State) : OnlyAlerts s (coverWaiting a z s) := by
  unfold coverWaiting
  refine OnlyAlerts.trans ?_ (raise_onlyAlerts _ _ _)
  exact OnlyAlerts.trans (t := updZone z _ s) rfl (overList_onlyChannels (askReturnHeld_only _ _) _).alerts

theorem coverChange_only (new : Option (Fin 16)) (z : Fin 8) (s : State) :
    OnlyAlerts s (coverChange new z s) := by
  unfold coverChange
  dsimp only
  refine OnlyAlerts.trans (t := updZone z (fun q => { q with cover := new }) s) rfl ?_
  split
  · exact OnlyAlerts.trans (t := updZone z _ _) rfl (targetZone_only _ _ _).alerts
  · split
    · exact coverServing_only _ _ _
    · exact coverWaiting_only _ _ _

theorem evalZone_only (z : Fin 8) (s : State) : OnlyAlerts s (evalZone z s) := by
  unfold evalZone; dsimp only; split
  · rfl
  · exact coverChange_only _ _ _

theorem evalZones_only (zs : ZoneSet) (s : State) : OnlyAlerts s (evalZones zs s) :=
  overFin_onlyAlerts (fun z s => by
    split
    · exact evalZone_only z s
    · rfl) s

theorem laneServes_only (l : Fin 16) (s : State) : OnlyAlerts s (laneServes l s) :=
  overFin_onlyAlerts (fun z s => by
    split
    · split
      · exact coverServing_only _ _ _
      · rfl
    · rfl) s

theorem standingStarved_only (l : Fin 16) (s : State) : OnlyAlerts s (standingStarved l s) := by
  unfold standingStarved
  dsimp only
  refine OnlyAlerts.trans (overList_onlyChannels (l := chansWhere s (Channel.onOrToLane l))
    (giveCoverage_only .network) s).alerts ?_
  refine overFin_onlyAlerts (fun z s => ?_) _
  split
  · split
    · exact OnlyAlerts.trans (t := updZone z _ s) rfl (raise_onlyAlerts _ _ _)
    · rfl
  · rfl

theorem enterActive_only (a : Fin 16) (s : State) : OnlyAlerts s (enterActive a s) := by
  unfold enterActive
  dsimp only
  refine OnlyAlerts.trans ?_ (evalZones_only _ _)
  refine OnlyAlerts.trans ?_ (raise_onlyAlerts _ _ _)
  rfl

theorem endAlert_only (after : AlertState) (a : Fin 16) (s : State) : OnlyAlerts s (endAlert after a s) := by
  unfold endAlert
  dsimp only
  refine OnlyAlerts.trans ?_ (evalZones_only _ _)
  refine OnlyAlerts.trans ?_ (raise_onlyAlerts _ _ _)
  rfl

theorem alertAct_only (a : Fin 16) (s : State) : OnlyAlerts s (alertAct a s) := by
  unfold alertAct
  dsimp only
  split
  · split
    · exact enterActive_only _ _
    · rfl
  · rfl
  · split
    · exact endAlert_only _ _ _
    · rfl
  · rfl
  · rfl
  · rfl

theorem rejudgeHold_only (a : Fin 16) (s : State) : OnlyAlerts s (rejudgeHold a s) := by
  unfold rejudgeHold
  dsimp only
  split
  · split
    · exact enterActive_only _ _
    · rfl
  · rfl

theorem deliverLevel_only (src : TermSource) (s : State) : OnlyAlerts s (deliverLevel src s) :=
  overFin_onlyAlerts (fun a s => by
    split
    · exact alertAct_only _ _
    · rfl) s

theorem laneNamed_only (l : Fin 16) (s : State) : OnlyAlerts s (laneNamed l s) := by
  unfold laneNamed
  dsimp only
  split
  · exact OnlyAlerts.trans (t := updLane l _ s) rfl (laneServes_only _ _)
  · rfl

theorem laneUnnamed_only (l : Fin 16) (s : State) : OnlyAlerts s (laneUnnamed l s) := by
  unfold laneUnnamed
  exact OnlyAlerts.trans (t := updLane l _ s) rfl (overList_onlyChannels (giveCoverage_only _) _).alerts

theorem configureAlert_only (a : Fin 16) (f : Alert → Alert) (s : State) :
    OnlyAlerts s (configureAlert a f s) := by
  unfold configureAlert
  dsimp only
  refine OnlyAlerts.trans ?_ (rejudgeHold_only _ _)
  refine OnlyAlerts.trans ?_ (alertAct_only _ _)
  have h₁ : ∀ (b : Bool) l u, OnlyAlerts s u → OnlyAlerts s (if b then laneUnnamed l u else u) := by
    intro b l u h
    split
    · exact h.trans (laneUnnamed_only l u)
    · exact h
  have h₂ : ∀ (b : Bool) l u, OnlyAlerts s u → OnlyAlerts s (if b then laneNamed l u else u) := by
    intro b l u h
    split
    · exact h.trans (laneNamed_only l u)
    · exact h
  exact h₂ _ _ _ (h₁ _ _ _ rfl)

theorem updAin_only (i : Fin 6) (f : Ain → Ain) (s : State) :
    OnlyAlerts { s with ains := s.ains.set i (f (s.ains.get i)) } (updAin i f s) := by
  unfold updAin
  dsimp only
  split
  · rfl
  · exact deliverLevel_only _ _

theorem lanePacket_only (l : Fin 16) (pk : Packet) (s : State) :
    OnlyAlerts { s with laneIn := s.laneIn.set l (s.laneIn.get l).accept } (lanePacket l pk s) := by
  unfold lanePacket
  dsimp only
  split
  · rfl
  · split
    · exact OnlyAlerts.trans (t := updLane l _ _) rfl (laneServes_only _ _)
    · rfl

/-! ## Timers -/

theorem laneTimesOut_only (l : Fin 16) (s : State) : OnlySchedule s (laneTimesOut l s) := by
  unfold laneTimesOut
  dsimp only
  have h : OnlySchedule s (raise (laneSource l) .laneFault (updLane l (fun ln =>
      Lane.enterClosing (nowMs s) { ln with lastFault := .openTimeout, bound := none }) s)) :=
    OnlySchedule.trans (t := updLane l _ s) rfl (raise_only _ _ _)
  split
  · exact h.trans ((finishPlacement_only _ _ _).schedule.trans (retireDone_only _ _))
  · exact h

theorem laneStarves_only (l : Fin 16) (s : State) : OnlyAlerts s (laneStarves l s) := by
  unfold laneStarves
  dsimp only
  split
  · rfl
  · have h : ∀ u, OnlyAlerts s u → OnlyAlerts s (if isStanding u l then standingStarved l u else u) := by
      intro u h
      split
      · exact h.trans (standingStarved_only l u)
      · exact h
    refine h _ ?_
    refine OnlyAlerts.trans ?_ (overList_onlyChannels (askReturnHeld_only _ _) _).alerts
    exact OnlyAlerts.trans (t := updLane l _ s) rfl (raise_onlyAlerts _ _ _)

end Sys2Proof.Machine
end

