-- ==== Sys2Proof/Laws/Coverage.lean ====
section
/-! SUPPORT. The coverage of zones (section 7.5) and the levels of alert records: what an evaluation settles and what
it leaves alone. -/

namespace Sys2Proof.Machine

/-- Record `i` may cover zone `z`. -/
def mayCover (s : State) (z : Fin 8) (i : Fin 16) : Bool := (s.alerts.get i).capable && zoneIn
    (s.alerts.get i).zones z

/-- What orders the records that may cover a zone (R148). -/
def coverOrder (a : Alert) := (a.priority, a.stamp, a.seq)

theorem before_congr {a b a' b' : Alert} (h : coverOrder a' = coverOrder a) (h' : coverOrder b' = coverOrder b) :
    a'.before b' = a.before b := by
  unfold coverOrder at h h'
  have h1 := congrArg Prod.fst h; have h2 := congrArg (fun x => x.2.1) h; have h3 := congrArg (fun x => x.2.2) h
  have g1 := congrArg Prod.fst h'; have g2 := congrArg (fun x => x.2.1) h'; have g3 := congrArg (fun x => x.2.2) h'
  dsimp only at h1 h2 h3 g1 g2 g3
  unfold Alert.before; rw [h1, h2, h3, g1, g2, g3]

/-- The covering record of a zone depends on nothing but which records may cover it, and on their order (R148). -/
theorem bestCover_congr {s t : State} {z : Fin 8} (h1 : ∀ i, mayCover t z i = mayCover s z i)
    (h2 : ∀ i, mayCover s z i = true → coverOrder (t.alerts.get i) = coverOrder (s.alerts.get i)) :
        bestCover t z = bestCover s z := by
  unfold bestCover
  have gen : ∀ (l : List (Fin 16)) (b : Option (Fin 16)), (∀ j, b = some j → mayCover s z j = true) →
      l.foldl (fun best i => let a := t.alerts.get i
        if a.capable && zoneIn a.zones z then
          match best with
          | none => some i
          | some j => if a.before (t.alerts.get j) then some i else best
        else best) b =
      l.foldl (fun best i => let a := s.alerts.get i
        if a.capable && zoneIn a.zones z then
          match best with
          | none => some i
          | some j => if a.before (s.alerts.get j) then some i else best
        else best) b := by
    intro l
    induction l with
    | nil => intro b _; rfl
    | cons i l ih =>
      intro b hb
      simp only [List.foldl_cons]
      have hi := h1 i
      unfold mayCover at hi
      rw [hi]
      by_cases hc : ((s.alerts.get i).capable && zoneIn (s.alerts.get i).zones z) = true
      · rw [if_pos hc, if_pos hc]
        cases b with
        | none => exact ih _ (fun j e => by cases e; exact hc)
        | some j =>
          dsimp only
          rw [before_congr (h2 i hc) (h2 j (hb j rfl))]
          refine ih _ (fun k e => ?_)
          split at e
          · cases e; exact hc
          · exact hb k e
      · rw [if_neg hc, if_neg hc]; exact ih b hb
  exact gen _ none (fun j e => by cases e)

theorem lexLt_pair (a b c d : Nat) : lexLt [a, b] [c, d] = true ↔ a < c ∨ (a = c ∧ b < d) := by
  simp only [lexLt]
  split
  · simp_all
  · split
    · simp; omega
    · split
      · simp; omega
      · simp; omega

/-- What it is to cover in preference to another record (R148, R144). -/
theorem before_iff (a b : Alert) : a.before b = true ↔ b.priority < a.priority ∨ (b.priority = a.priority
    ∧ ((a.stamp.getD 0).toNat < (b.stamp.getD 0).toNat
      ∨ ((a.stamp.getD 0).toNat = (b.stamp.getD 0).toNat ∧ a.seq < b.seq))) := by
  unfold Alert.before
  rw [Bool.or_eq_true, Bool.and_eq_true, lexLt_pair, decide_eq_true_eq, decide_eq_true_eq]

theorem not_before_trans {a b c : Alert} (h : ¬ a.before b = true) (h' : ¬ b.before c = true) :
    ¬ a.before c = true := by
  rw [before_iff] at *; omega

/-- The covering record of a zone is one that may cover it and that no other comes before; there is none exactly when none
may (R148). -/
theorem bestCover_spec (s : State) (z : Fin 8) : (bestCover s z = none → ∀ i, ¬ mayCover s z i = true)
    ∧ ∀ a, bestCover s z = some a → mayCover s z a = true
      ∧ ∀ i, mayCover s z i = true → ¬ (s.alerts.get i).before (s.alerts.get a) = true := by
  let pick (best : Option (Fin 16)) (i : Fin 16) : Option (Fin 16) :=
    if mayCover s z i then
      match best with
      | none => some i
      | some j => if (s.alerts.get i).before (s.alerts.get j) then some i else best
    else best
  have gen : ∀ (l : List (Fin 16)) (best : Option (Fin 16)), (∀ j, best = some j → mayCover s z j = true) →
      (l.foldl pick best = none → best = none ∧ ∀ i ∈ l, ¬ mayCover s z i = true)
      ∧ ∀ a, l.foldl pick best = some a → mayCover s z a = true
        ∧ (∀ i ∈ l, mayCover s z i = true → ¬ (s.alerts.get i).before (s.alerts.get a) = true)
        ∧ ∀ j, best = some j → ¬ (s.alerts.get j).before (s.alerts.get a) = true := by
    intro l
    induction l with
    | nil =>
      intro best hb
      refine ⟨fun h => ⟨h, by simp⟩, fun a h => ⟨hb a h, by simp, fun j e => ?_⟩⟩
      obtain rfl : j = a := Option.some.inj (e.symm.trans h)
      rw [before_iff]; omega
    | cons i l ih =>
      intro best hb
      rw [List.foldl_cons]
      by_cases hi : mayCover s z i = true
      · obtain ⟨k, hk, hm, below, old⟩ : ∃ k, pick best i = some k ∧ mayCover s z k = true
            ∧ ¬ (s.alerts.get i).before (s.alerts.get k) = true
            ∧ ∀ j, best = some j → ¬ (s.alerts.get j).before (s.alerts.get k) = true := by
          cases best with
          | none => exact ⟨i, if_pos hi, hi, by rw [before_iff]; omega, by simp⟩
          | some j =>
            by_cases hj : (s.alerts.get i).before (s.alerts.get j) = true
            · refine ⟨i, (if_pos hi).trans (if_pos hj), hi, by rw [before_iff]; omega, fun k e => ?_⟩
              cases e
              rw [before_iff] at *; omega
            · refine ⟨j, (if_pos hi).trans (if_neg hj), hb j rfl, hj, fun k e => ?_⟩
              cases e
              rw [before_iff]; omega
        have rest := ih (pick best i) (fun j e => by rw [hk] at e; cases e; exact hm)
        refine ⟨fun h => ?_, fun a h => ?_⟩
        · rw [hk] at rest; exact absurd (rest.1 (by rw [← hk]; exact h)).1 (by simp)
        · obtain ⟨ha, tail, last⟩ := rest.2 a h
          refine ⟨ha, fun j hj mj => ?_, fun j e => not_before_trans (old j e) (last k hk)⟩
          rcases List.mem_cons.mp hj with rfl | hj
          · exact not_before_trans below (last k hk)
          · exact tail j hj mj
      · rw [show pick best i = best from if_neg hi]
        have rest := ih best hb
        refine ⟨fun h => ⟨(rest.1 h).1, fun j hj => ?_⟩, fun a h => ?_⟩
        · rcases List.mem_cons.mp hj with rfl | hj
          · exact hi
          · exact (rest.1 h).2 j hj
        · obtain ⟨ha, tail, last⟩ := rest.2 a h
          refine ⟨ha, fun j hj mj => ?_, last⟩
          rcases List.mem_cons.mp hj with rfl | hj
          · exact absurd mj hi
          · exact tail j hj mj
  have all := gen (List.finRange 16) none (by simp)
  exact ⟨fun h i => (all.1 h).2 i (List.mem_finRange i), fun a h =>
    ⟨(all.2 a h).1, fun i mi => (all.2 a h).2.1 i (List.mem_finRange i) mi⟩⟩

/-- What an evaluation of coverage leaves alone beside the zones, the channels and the attention set. -/
structure CoverFrame (s t : State) : Prop where
  alerts : t.alerts = s.alerts
  lanes : t.lanes = s.lanes
  avails : t.avails = s.avails

theorem CoverFrame.refl (s) : CoverFrame s s := ⟨rfl, rfl, rfl⟩

theorem CoverFrame.trans {s t u} (a : CoverFrame s t) (b : CoverFrame t u) : CoverFrame s u := ⟨b.1.trans a.1,
    b.2.trans a.2, b.3.trans a.3⟩

theorem CoverFrame.ch {s t} (h : OnlyChannels s t) : CoverFrame s t := ⟨by rw [h], by rw [h], by rw [h]⟩

theorem CoverFrame.raise (a b s) : CoverFrame s (raise a b s) := ⟨alerts_raise _ _ _, lanes_raise _ _ _,
    avails_raise _ _ _⟩

theorem zones_targetZone (t z s) : (targetZone t z s).zones = s.zones := by rw [targetZone_only t z s]

theorem coverChange_spec (n z s) : CoverFrame s (coverChange n z s) ∧ ((coverChange n z s).zones.get z).cover = n
    ∧ ∀ z', z' ≠ z → (coverChange n z s).zones.get z' = s.zones.get z' := by
  unfold coverChange
  cases n with
  | none =>
    dsimp only
    refine ⟨(⟨rfl, rfl, rfl⟩ : CoverFrame s (updZone z _ (updZone z _ s))).trans (.ch (targetZone_only _ _ _)), ?_,
        fun z' h => ?_⟩
    · rw [zones_targetZone]; simp [Table.get_set]
    · rw [zones_targetZone]; simp [Table.get_set, Ne.symm h]
  | some a =>
    dsimp only; split
    · unfold coverServing
      refine ⟨(⟨rfl, rfl, rfl⟩ : CoverFrame s (updZone z _ (updZone z _ s))).trans (.ch (targetZone_only _ _ _)),
          ?_, fun z' h => ?_⟩
      · rw [zones_targetZone]; simp [Table.get_set]
      · rw [zones_targetZone]; simp [Table.get_set, Ne.symm h]
    · unfold coverWaiting
      refine ⟨((⟨rfl, rfl, rfl⟩ : CoverFrame s (updZone z _ (updZone z _ s))).trans (.ch (overList_onlyChannels
          (askReturnHeld_only _ _) _))).trans (.raise _ _ _), ?_, fun z' h => ?_⟩
      · rw [zones_raise, overList_onlyChannels (askReturnHeld_only _ _) _]; simp [Table.get_set]
      · rw [zones_raise, overList_onlyChannels (askReturnHeld_only _ _) _]; simp [Table.get_set, Ne.symm h]

/-- One zone is evaluated: it gets the record of R148, and no other zone changes. -/
theorem evalZone_spec (z s) : CoverFrame s (evalZone z s) ∧ ((evalZone z s).zones.get z).cover = bestCover s z
    ∧ ∀ z', z' ≠ z → (evalZone z s).zones.get z' = s.zones.get z' := by
  unfold evalZone; dsimp only
  split
  · next h => exact ⟨.refl _, h.symm, fun _ _ => rfl⟩
  · exact coverChange_spec _ _ _

theorem bestCover_of_alerts {s t : State} (h : t.alerts = s.alerts) (z) :
    bestCover t z = bestCover s z := by unfold bestCover; rw [h]

/-- A set of zones is evaluated: each gets the record of R148, and no other zone changes. -/
theorem evalZones_spec (zs) (s : State) : CoverFrame s (evalZones zs s) ∧ ∀ z, (zoneIn zs z = true →
    ((evalZones zs s).zones.get z).cover = bestCover s z) ∧ (zoneIn zs z = false →
    (evalZones zs s).zones.get z = s.zones.get z) := by
  unfold evalZones overFin
  have gen : ∀ (l : List (Fin 8)) (u : State), CoverFrame s u → (∀ z, zoneIn zs z = true → z ∈ l ∨
      (u.zones.get z).cover = bestCover s z) → (∀ z, zoneIn zs z = false → u.zones.get z = s.zones.get z) →
     let t := l.foldl (fun s z => if zoneIn zs z then evalZone z s else s) u
     CoverFrame s t ∧ ∀ z, (zoneIn zs z = true → (t.zones.get z).cover = bestCover s z) ∧ (zoneIn zs z = false →
         t.zones.get z = s.zones.get z) := by
    intro l
    induction l with
    | nil => intro u h1 h2 h3; exact ⟨h1, fun z => ⟨fun h => (h2 z h).resolve_left (by simp), h3 z⟩⟩
    | cons x l ih =>
      intro u h1 h2 h3
      rw [List.foldl_cons]
      have e := evalZone_spec x u
      split
      · next hx =>
        refine ih _ (h1.trans e.1) (fun z hz => ?_) (fun z hz => ?_)
        · by_cases q : z = x
          · subst q; right; rw [e.2.1]; exact bestCover_of_alerts h1.1 _
          · rw [e.2.2 z q]; rcases h2 z hz with h | h
            · left; simpa [q] using h
            · exact Or.inr h
        · have q : z ≠ x := by rintro rfl; rw [hx] at hz; cases hz
          rw [e.2.2 z q]; exact h3 z hz
      · next hx =>
        refine ih _ h1 (fun z hz => ?_) h3
        rcases h2 z hz with h | h
        · rcases List.mem_cons.mp h with rfl | h
          · exact absurd hz hx
          · exact Or.inl h
        · exact Or.inr h
  exact gen _ s (.refl s) (fun z _ => Or.inl (List.mem_finRange z)) (fun z _ => rfl)

/-- Levels that have not changed change no tally. -/
theorem deliverLevels_same {s t : State} (h : ∀ k a, alertLevel k (t.alerts.get a) = alertLevel k
    (s.alerts.get a)) : deliverLevels s.alerts t = t := by
  unfold deliverLevels
  have : t.tallies.mapIdx (fun _ x => tallyFollow (nowMs t) s.alerts t.alerts x) = t.tallies := by
    apply Table.ext; intro o; rw [Table.get_mapIdx]
    have hs : ∀ x, sourceLevel x t.alerts = sourceLevel x s.alerts := by
      intro x; unfold sourceLevel; simp only [h]
    unfold tallyFollow
    simp only [hs, h, if_true]
    split
    · split
      · rw [if_neg]; simp
      · split <;> simp_all
      · rfl
    · rfl
  rw [this]

/-- A lane is STANDING exactly while an enabled alert record names it (R70). -/
theorem isStanding_iff {s : State} {l : Fin 16} :
    isStanding s l = true ↔ ∃ a, (s.alerts.get a).enabled = true ∧ (s.alerts.get a).lane = l := by
  have mem (a : Fin 16) : a ∈ namingAlerts s l ↔ (s.alerts.get a).enabled = true ∧ (s.alerts.get a).lane = l := by
    unfold namingAlerts; simp
  constructor
  · intro h
    obtain ⟨a, ha⟩ := List.exists_mem_of_ne_nil (namingAlerts s l) (by simpa [isStanding] using h)
    exact ⟨a, (mem a).1 ha⟩
  · rintro ⟨a, h⟩
    have := List.ne_nil_of_mem ((mem a).2 h)
    simpa [isStanding] using this

theorem isStanding_congr {s t : State} {m} (h : ∀ a, ((t.alerts.get a).enabled && decide
    ((t.alerts.get a).lane = m)) = ((s.alerts.get a).enabled && decide ((s.alerts.get a).lane = m))) :
    isStanding t m = isStanding s m := by
  unfold isStanding namingAlerts; congr 2; congr 1; funext a; exact h a

theorem updAlert_of_same_levels {s : State} {i : Fin 16} {f : Alert → Alert} (h : ∀ k, alertLevel k (f
    (s.alerts.get i)) = alertLevel k (s.alerts.get i)) :
    updAlert i f s = { s with alerts := s.alerts.set i (f (s.alerts.get i)) } := by
  unfold updAlert
  apply deliverLevels_same
  intro k a
  rw [Table.get_set]
  split
  · next e => subst e; exact h k
  · rfl

theorem get_updAlert (a f s i) : (updAlert a f s).alerts.get i = if a = i then f
    (s.alerts.get a) else s.alerts.get i := by
  show (Table.set s.alerts a _).get i = _
  rw [Table.get_set]

/-! ## Coverage gives targets and switches no component -/

/-- The components of every defined channel. -/
def channelRoles (s : State) (c : Fin 128) : Option (PerRole RoleState) := (s.channels.get c).map fun ch => ch.roles

theorem roles_updChan {f : Channel → Channel} (h : ∀ ch, (f ch).roles = ch.roles) (c : Fin 128) (s : State) :
    channelRoles (updChan c f s) = channelRoles s := by
  funext d
  unfold channelRoles
  rw [show (updChan c f s).channels = s.channels.set c ((s.channels.get c).map f) from rfl, Table.get_set]
  split
  · next e =>
    subst e
    cases s.channels.get c with
    | none => rfl
    | some ch => exact congrArg some (h ch)
  · rfl

theorem roles_giveCoverage (x : Target) (c : Fin 128) (s : State) :
    channelRoles (giveCoverage x c s) = channelRoles s :=
  roles_updChan (fun ch => by
    unfold Channel.cover
    split <;> split <;> rfl) c s

theorem roles_askReturnHeld (o : Outcome) (preempt : Bool) (c : Fin 128) (s : State) :
    channelRoles (askReturnHeld o preempt c s) = channelRoles s :=
  roles_updChan (fun ch => by
    split
    · unfold Channel.askReturn
      repeat (split <;> try rfl)
    · rfl) c s

theorem roles_raise (src : Fin 96) (k : Cause) (s : State) : channelRoles (raise src k s) = channelRoles s := by
  unfold raise
  split <;> rfl

theorem roles_coverChange (new : Option (Fin 16)) (z : Fin 8) (s : State) :
    channelRoles (coverChange new z s) = channelRoles s := by
  have targets (x : Target) (u : State) : channelRoles (targetZone x z u) = channelRoles u :=
    overList_same channelRoles (fun c _ u => roles_giveCoverage x c u) u
  unfold coverChange
  split
  · exact targets _ _
  · dsimp only
    split
    · exact targets _ _
    · exact (roles_raise _ _ _).trans (overList_same channelRoles (fun c _ u => roles_askReturnHeld _ _ c u) _)

theorem roles_evalZones (zs : ZoneSet) (s : State) : channelRoles (evalZones zs s) = channelRoles s :=
  overFin_same channelRoles (fun z s => by
    split
    · unfold evalZone; dsimp only; split
      · rfl
      · exact roles_coverChange _ _ _
    · rfl) s

/-- A record that acts on its condition switches no component: its zones give targets, which wait for a beat (R119). -/
theorem roles_alertAct (a : Fin 16) (s : State) : channelRoles (alertAct a s) = channelRoles s := by
  unfold alertAct
  dsimp only
  split
  · split
    · exact (roles_evalZones _ _).trans (roles_raise _ _ _)
    · rfl
  · rfl
  · split
    · exact (roles_evalZones _ _).trans (roles_raise _ _ _)
    · rfl
  · rfl
  · rfl
  · rfl

end Sys2Proof.Machine
end

