-- ==== Sys2Proof/Laws/Alerts.lean ====
section
/-! SUPPORT. What acting on its condition makes of an alert record, and that it leaves the other records alone. -/

namespace Sys2Proof.Machine

/-- A condition depends on the levels and on the record's terms and combine alone (R139). -/
theorem condition_congr {s t : State} {a b : Alert} (h₁ : t.ains = s.ains) (h₂ : t.rflags = s.rflags)
    (h₃ : b.terms = a.terms) (h₄ : b.combine = a.combine) : condition t b = condition s a := by
  unfold condition termTrue levelOf; rw [h₁, h₂, h₃, h₄]

/-- What a record becomes as it acts on its condition (R143, R145, R146). -/
def Alert.acted (now seq : Nat) (cond : Bool) (r : Alert) : Alert :=
  match r.state, cond with
  | .idle, true =>
    if r.hold = 0 then
      { r with
        state := .active, stamp := some (BitVec.ofNat 48 now), seq := seq, holdStart := none, releaseStart := none }
    else { r with state := .qualifying, holdStart := some now }
  | .qualifying, false => { r with state := .idle, holdStart := none }
  | .active, false =>
    if r.release = 0 then { r with state := .idle, stamp := none, releaseStart := none }
    else { r with state := .releasing, releaseStart := some now }
  | .releasing, true => { r with state := .active, releaseStart := none }
  | .spent, false => { r with state := .idle }
  | _, _ => r

theorem alertAct_get (a : Fin 16) (s : State) :
    (alertAct a s).alerts.get a =
      (s.alerts.get a).acted (nowMs s) s.activations (condition s (s.alerts.get a)) := by
  have own (f : Alert → Alert) (u : State) : (updAlert a f u).alerts.get a = f (u.alerts.get a) := by
    rw [get_updAlert, if_pos rfl]
  have active (u : State) : (enterActive a u).alerts.get a = { u.alerts.get a with
      state := .active, stamp := some (BitVec.ofNat 48 (nowMs u)), seq := u.activations, holdStart := none
      releaseStart := none } := by
    unfold enterActive
    dsimp only
    rw [(evalZones_spec _ _).1.alerts, alerts_raise, own]
  have ended (u : State) : (endAlert .idle a u).alerts.get a =
      { u.alerts.get a with state := .idle, stamp := none, releaseStart := none } := by
    unfold endAlert
    dsimp only
    rw [(evalZones_spec _ _).1.alerts, alerts_raise, own]
  unfold alertAct Alert.acted
  dsimp only
  generalize condition s (s.alerts.get a) = c
  cases (s.alerts.get a).state <;> cases c <;> dsimp only
  case idle.true => split; exact active s; exact own _ _
  case active.false => split; exact ended s; exact own _ _
  all_goals first | rfl | exact own _ _

theorem alertAct_other {a b : Fin 16} (h : b ≠ a) (s : State) : (alertAct a s).alerts.get b = s.alerts.get b := by
  have other (f : Alert → Alert) (u : State) : (updAlert a f u).alerts.get b = u.alerts.get b := by
    rw [get_updAlert, if_neg (Ne.symm h)]
  unfold alertAct
  dsimp only
  split
  · split
    · unfold enterActive
      dsimp only
      rw [(evalZones_spec _ _).1.alerts, alerts_raise, other]
    · exact other _ _
  · exact other _ _
  · split
    · unfold endAlert
      dsimp only
      rw [(evalZones_spec _ _).1.alerts, alerts_raise, other]
    · exact other _ _
  · exact other _ _
  · exact other _ _
  · rfl

end Sys2Proof.Machine
end

