-- ==== Sys2Proof/Laws/Settings.lean ====
section
/-! SUPPORT. The configuration, as one projection of the state, and one lemma per shared operation that leaves it
alone: what `SERVICE_SET`, `LANE_SET`, `PORT_SET`, `CHAN_SET`, `ZONE_LOCK`, `AIN_SET`, `ALERT_SET` and `TALLY_SET`
wrote is changed by no packet, pin or timer. -/

namespace Sys2Proof.Machine

def Service.settings (v : Service) : Service := { v with tb := Timebase.reset, lastT := 0, last := none }
def Alert.settings (a : Alert) : Alert :=
  { a with state := .disabled, stamp := none, seq := 0, holdStart := none, releaseStart := none }

structure Settings where
  services : Fin 64 → Option Service
  lanes : Fin 16 → LaneCfg
  channels : Fin 128 → Option (Fin 64 × Fin 8)
  ports : Fin 8 → Fin 4 × Fin 8
  locks : Fin 8 → Bool
  alerts : Fin 16 → Alert
  ains : Fin 6 → Polarity × Nat
  tallies : Fin 4 → Tally

def settings (s : State) : Settings :=
  { services := fun i => (s.services.get i).map Service.settings
    lanes := fun l => (s.lanes.get l).cfg
    channels := fun c => (s.channels.get c).map fun ch => (ch.service, ch.port)
    ports := fun p => ((s.ports.get p).baseInput, (s.ports.get p).zone)
    locks := fun z => (s.zones.get z).locked
    alerts := fun a => (s.alerts.get a).settings
    ains := fun i => ((s.ains.get i).polarity, (s.ains.get i).debounce)
    tallies := fun o => (s.tallies.get o).stop }

/-! ## Tally operations: a stopped record is its configuration -/

theorem stop_startPulse (now : Nat) (t : Tally) : (startPulse now t).stop = t.stop := by
  unfold startPulse; dsimp only; split <;> rfl
theorem stop_startTrain (now : Nat) (t : Tally) : (startTrain now t).stop = t.stop := by
  unfold startTrain; split
  · exact stop_startPulse now _
  · rfl
theorem stop_countTrigger (now : Nat) (t : Tally) : (countTrigger now t).stop = t.stop := by
  unfold countTrigger; split
  · exact stop_startTrain now t
  · rfl
theorem stop_repeatRise (now : Nat) (t : Tally) : (repeatRise now t).stop = t.stop := by
  unfold repeatRise; split <;> first | rfl | exact stop_startTrain now t
theorem stop_repeatFall (t : Tally) : (repeatFall t).stop = t.stop := by
  unfold repeatFall; repeat (split <;> try rfl)
theorem stop_steadyFollow (now : Nat) (b : Bool) (t : Tally) : (steadyFollow now b t).stop = t.stop := by
  unfold steadyFollow; repeat (split <;> try rfl)
theorem stop_tallyFollow (now : Nat) (old new : Table Alert 16) (t : Tally) :
    (tallyFollow now old new t).stop = t.stop := by
  unfold tallyFollow
  split
  · split
    · split
      · exact stop_countTrigger now t
      · rfl
    · split
      · exact stop_repeatRise now t
      · exact stop_repeatFall t
      · rfl
    · split
      · rfl
      · exact stop_steadyFollow now _ t
  · rfl
theorem stop_phaseExpiry (now : Nat) (t : Tally) : (phaseExpiry now t).stop = t.stop := by
  unfold phaseExpiry; split
  · exact stop_startPulse now t
  · split
    · exact stop_startPulse now t
    · rfl
  · split
    · exact stop_startPulse now t
    · rfl
  · rfl
theorem stop_pulseEnd (t : Tally) : (pulseEnd t).stop = t.stop := by
  unfold pulseEnd; repeat (split <;> try rfl)
theorem stop_edgeExpiry (t : Tally) : (edgeExpiry t).stop = t.stop := by
  unfold edgeExpiry; split <;> rfl

/-! ## Primitive updates -/

theorem settings_updSvc (i : Fin 64) {f : Service → Service} (h : ∀ v, (f v).settings = v.settings) (s : State) :
    settings (updSvc i f s) = settings s := by
  have : (fun j => ((updSvc i f s).services.get j).map Service.settings) =
      fun j => (s.services.get j).map Service.settings := by
    funext j
    simp only [services_updSvc, Table.get_set]
    split
    · next e => subst e; cases s.services.get i <;> simp [h]
    · rfl
  show ({ settings s with services := _ } : Settings) = _
  rw [this]; rfl

theorem settings_updLane (l : Fin 16) {f : Lane → Lane} (s : State)
    (h : (f (s.lanes.get l)).cfg = (s.lanes.get l).cfg) : settings (updLane l f s) = settings s := by
  have : (fun m => ((updLane l f s).lanes.get m).cfg) = fun m => (s.lanes.get m).cfg := by
    funext m
    simp only [lanes_updLane, Table.get_set]
    split
    · next e => subst e; exact h
    · rfl
  show ({ settings s with lanes := _ } : Settings) = _
  rw [this]; rfl

theorem settings_updChan (c : Fin 128) {f : Channel → Channel}
    (h : ∀ ch, (f ch).service = ch.service ∧ (f ch).port = ch.port) (s : State) :
    settings (updChan c f s) = settings s := by
  have : (fun d => ((updChan c f s).channels.get d).map fun ch => (ch.service, ch.port)) =
      fun d => (s.channels.get d).map fun ch => (ch.service, ch.port) := by
    funext d
    simp only [channels_updChan, Table.get_set]
    split
    · next e => subst e; cases s.channels.get c <;> simp [h]
    · rfl
  show ({ settings s with channels := _ } : Settings) = _
  rw [this]; rfl

theorem settings_updPort (p : Fin 8) {f : Port → Port}
    (h : ∀ q, (f q).baseInput = q.baseInput ∧ (f q).zone = q.zone) (s : State) :
    settings (updPort p f s) = settings s := by
  have : (fun d => (((updPort p f s).ports.get d).baseInput, ((updPort p f s).ports.get d).zone)) =
      fun d => ((s.ports.get d).baseInput, (s.ports.get d).zone) := by
    funext d
    simp only [ports_updPort, Table.get_set]
    split
    · next e => subst e; simp [h]
    · rfl
  show ({ settings s with ports := _ } : Settings) = _
  rw [this]; rfl

theorem settings_updZone (z : Fin 8) {f : Zone → Zone} (h : ∀ q, (f q).locked = q.locked) (s : State) :
    settings (updZone z f s) = settings s := by
  have : (fun d => ((updZone z f s).zones.get d).locked) = fun d => (s.zones.get d).locked := by
    funext d
    simp only [zones_updZone, Table.get_set]
    split
    · next e => subst e; simp [h]
    · rfl
  show ({ settings s with locks := _ } : Settings) = _
  rw [this]; rfl

theorem settings_updAlert (a : Fin 16) {f : Alert → Alert} (h : ∀ r, (f r).settings = r.settings) (s : State) :
    settings (updAlert a f s) = settings s := by
  have : (fun b => ((updAlert a f s).alerts.get b).settings) = fun b => (s.alerts.get b).settings := by
    funext b
    show ((s.alerts.set a (f (s.alerts.get a))).get b).settings = _
    rw [Table.get_set]
    split
    · next e => subst e; exact h _
    · rfl
  have tal : (fun o => ((updAlert a f s).tallies.get o).stop) = fun o => (s.tallies.get o).stop := by
    funext o
    show ((s.tallies.mapIdx fun _ t => tallyFollow _ _ _ t).get o).stop = _
    rw [Table.get_mapIdx]
    exact stop_tallyFollow _ _ _ _
  show ({ settings s with alerts := _, tallies := _ } : Settings) = _
  rw [this, tal]; rfl

theorem settings_updTally (o : Fin 4) {f : Tally → Tally} (h : ∀ t, (f t).stop = t.stop) (s : State) :
    settings (updTally o f s) = settings s := by
  have : (fun b => ((updTally o f s).tallies.get b).stop) = fun b => (s.tallies.get b).stop := by
    funext b
    show ((s.tallies.set o (f (s.tallies.get o))).get b).stop = _
    rw [Table.get_set]
    split
    · next e => subst e; exact h _
    · rfl
  show ({ settings s with tallies := _ } : Settings) = _
  rw [this]; rfl

theorem settings_deliverTrigger (k : TallyKind) (i : Fin 64) (s : State) :
    settings (deliverTrigger k i s) = settings s := by
  have : (fun b => ((deliverTrigger k i s).tallies.get b).stop) = fun b => (s.tallies.get b).stop := by
    funext b
    show Tally.stop ((s.tallies.mapIdx fun _ t => _).get b) = _
    rw [Table.get_mapIdx]
    split
    · exact stop_countTrigger _ _
    · rfl
  show ({ settings s with tallies := _ } : Settings) = _
  rw [this]; rfl

theorem settings_setAin (i : Fin 6) {f : Ain → Ain} (s : State)
    (h : (f (s.ains.get i)).polarity = (s.ains.get i).polarity
      ∧ (f (s.ains.get i)).debounce = (s.ains.get i).debounce) :
    settings { s with ains := s.ains.set i (f (s.ains.get i)) } = settings s := by
  have : (fun j => (((s.ains.set i (f (s.ains.get i))).get j).polarity,
      ((s.ains.set i (f (s.ains.get i))).get j).debounce)) =
      fun j => ((s.ains.get j).polarity, (s.ains.get j).debounce) := by
    funext j
    simp only [Table.get_set]
    split
    · next e => subst e; rw [h.1, h.2]
    · rfl
  show ({ settings s with ains := _ } : Settings) = _
  rw [this]; rfl

theorem settings_raise (src : Fin 96) (k : Cause) (s : State) : settings (raise src k s) = settings s := by
  unfold raise; split <;> rfl

theorem settings_overList {α : Type} {l : List α} {f : α → State → State}
    (h : ∀ a s, settings (f a s) = settings s) (s : State) : settings (overList l f s) = settings s :=
  overList_same settings (fun a _ s => h a s) s

theorem settings_overFin {n : Nat} {f : Fin n → State → State}
    (h : ∀ a s, settings (f a s) = settings s) (s : State) : settings (overFin n f s) = settings s :=
  overFin_same settings h s

/-! ## Lane operations -/

theorem Lane.cfg_holdAfterLeaving (ln : Lane) : ln.holdAfterLeaving.cfg = ln.cfg := by
  unfold Lane.holdAfterLeaving; split <;> rfl
theorem Lane.cfg_holdAfterArrival (ln : Lane) : ln.holdAfterArrival.cfg = ln.cfg := by
  unfold Lane.holdAfterArrival; split <;> rfl
theorem Lane.cfg_remark (ln : Lane) : ln.remark.cfg = ln.cfg := by
  unfold Lane.remark; repeat (split <;> try rfl)
theorem Lane.cfg_free (d : Fin 128 → Role → Bool) (st : Bool) (ln : Lane) : (ln.free d st).cfg = ln.cfg := by
  unfold Lane.free; dsimp only; split
  · rfl
  · split
    · rw [Lane.cfg_remark, Lane.cfg_holdAfterLeaving]
    · rw [Lane.cfg_holdAfterLeaving]
theorem Lane.cfg_append (cls : PktClass) (p : Packet) (ln : Lane) : (ln.append cls p).cfg = ln.cfg := by
  unfold Lane.append; split
  · rw [Lane.cfg_holdAfterArrival]
  · rfl
theorem Lane.cfg_markEntry (cls : PktClass) (ln ln' : Lane) : (ln.markEntry cls ln').cfg = ln'.cfg := by
  unfold Lane.markEntry; split
  · split <;> rfl
  · rfl
theorem Lane.cfg_roll (ln : Lane) : ln.roll.cfg = ln.cfg := by
  unfold Lane.roll; split
  · rfl
  · split
    · rfl
    · rw [Lane.cfg_holdAfterLeaving]
theorem Lane.cfg_rollIfDue (st : Bool) (ln : Lane) : (ln.rollIfDue st).cfg = ln.cfg := by
  unfold Lane.rollIfDue; split
  · exact Lane.cfg_roll ln
  · rfl
theorem Lane.cfg_openingStep (ln : Lane) : (Lane.offer.openingStep ln).cfg = ln.cfg := by
  unfold Lane.offer.openingStep; split <;> rfl
theorem Lane.cfg_offer (d : Fin 128 → Role → Bool) (st : Bool) (cls : PktClass) (p : Packet) (ln : Lane) :
    (ln.offer d st cls p).cfg = ln.cfg := by
  unfold Lane.offer; dsimp only; split
  · rfl
  · rfl
  · split
    · rw [Lane.cfg_openingStep, Lane.cfg_markEntry, Lane.cfg_append]
    · rfl
    · rw [Lane.cfg_openingStep, Lane.cfg_append]
  · split
    · rw [Lane.cfg_markEntry, Lane.cfg_append, Lane.cfg_rollIfDue]
    · rw [Lane.cfg_append, Lane.cfg_rollIfDue]
  · rw [Lane.cfg_free]; split
    · rw [Lane.cfg_markEntry, Lane.cfg_append, Lane.cfg_rollIfDue]
    · rw [Lane.cfg_append, Lane.cfg_rollIfDue]
theorem Lane.cfg_startReader (c : Fin 128) (ln : Lane) : (ln.startReader c).cfg = ln.cfg := by
  unfold Lane.startReader; dsimp only; split <;> rfl
theorem Lane.cfg_take (now : Nat) (c : Fin 128) (x : Role) (ln : Lane) : (ln.take now c x).1.cfg = ln.cfg := by
  unfold Lane.take; repeat (split <;> try rfl)
theorem Lane.cfg_lastReaderLeft (now : Nat) (st keep : Bool) (ln : Lane) :
    (ln.lastReaderLeft now st keep).cfg = ln.cfg := by
  unfold Lane.lastReaderLeft; split
  · split <;> rfl
  · split <;> rfl

theorem settings_freeLane (l : Fin 16) (s : State) : settings (freeLane l s) = settings s :=
  settings_updLane l s (Lane.cfg_free _ _ _)

theorem settings_readerLeave (l : Fin 16) (c : Fin 128) (s : State) :
    settings (readerLeave l c s) = settings s := by
  unfold readerLeave; dsimp only; split
  · exact settings_updLane l s (Lane.cfg_lastReaderLeft _ _ _ _)
  · rw [settings_freeLane]; exact settings_updLane l s rfl

theorem settings_handBack (l : Fin 16) (p : PRef) (s : State) : settings (handBack l p s) = settings s :=
  settings_updLane l s (by split; · split <;> rfl
                           · rfl)

theorem settings_grant (l : Fin 16) (p : PRef) (s : State) : settings (grant l p s) = settings s :=
  settings_updLane l s (by split <;> rfl)

/-! ## Scheduler -/

theorem settings_updRec (k : Key) (f : Avail → Avail) (s : State) : settings (updRec k f s) = settings s := rfl
theorem settings_updPlacement (p : PRef) (f : Placement → Placement) (s : State) :
    settings (updPlacement p f s) = settings s := rfl

theorem settings_finishPlacement (o : Outcome) (p : PRef) (s : State) :
    settings (finishPlacement o p s) = settings s := by
  unfold finishPlacement; split
  · rfl
  · split
    · rfl
    · dsimp only; rw [settings_updPlacement]; split
      · exact settings_handBack _ _ _
      · rfl

theorem settings_finishAll (o : Outcome) (k : Key) (s : State) : settings (finishAll o k s) = settings s :=
  settings_overList (settings_finishPlacement o) s

theorem settings_retire (r : Avail) (s : State) : settings (retire r s) = settings s := by
  unfold retire; dsimp only; rw [settings_raise, settings_updSvc] <;> first | rfl | (intro _; first | rfl | exact ⟨rfl, rfl⟩)

theorem settings_retireDone (i : Fin 64) (s : State) : settings (retireDone i s) = settings s :=
  settings_overList (fun k s => by
    split
    · split
      · exact settings_retire _ s
      · rfl
    · rfl) s

theorem settings_requestLane (p : PRef) (s : State) : settings (requestLane p s) = settings s := by
  unfold requestLane; split
  · split
    · split
      · rw [settings_grant]; rfl
      · rfl
    · rfl
  · rfl

theorem settings_arm (k : Key) (s : State) : settings (arm k s) = settings s := by
  refine (settings_overList (fun p s => ?_) _).trans (settings_updRec k _ s)
  unfold armPlacement; split
  · rfl
  · split
    · exact settings_requestLane p s
    · exact settings_finishPlacement _ p s

theorem settings_treatPending (v : Service) (t : Time) (locked : Bool) (k : Key) (s : State) :
    settings (treatPending v t locked k s) = settings s := by
  unfold treatPending; split
  · rfl
  · split
    · exact settings_finishAll _ k s
    · split
      · exact settings_arm k s
      · rfl

theorem settings_treatRecord (v : Service) (t : Time) (locked : Bool) (k : Key) (s : State) :
    settings (treatRecord v t locked k s) = settings s := by
  unfold treatRecord; split
  · rfl
  · split
    · unfold treatHeld; split
      · rfl
      · split
        · split
          · exact settings_treatPending v t locked k _
          · exact settings_finishAll _ k s
        · rfl
    · exact settings_treatPending v t locked k s
    · unfold treatArmed; split
      · rfl
      · split
        · exact settings_finishAll _ k s
        · split
          · refine settings_overList (fun p s => ?_) s
            unfold missLane; split
            · split
              · exact settings_finishPlacement _ p s
              · rfl
            · rfl
          · refine settings_overList (fun p s => ?_) s
            unfold retryLane; split
            · split
              · exact settings_requestLane p s
              · rfl
            · rfl
    · rfl

theorem settings_timeUpdate (i : Fin 64) (s : State) : settings (timeUpdate i s) = settings s := by
  unfold timeUpdate; split
  · rfl
  · split
    · rfl
    · rw [settings_retireDone]; exact settings_overList (settings_treatRecord _ _ _) s

theorem settings_amendArmedE (k : Key) (e : Time) (s : State) : settings (amendArmedE k e s) = settings s := by
  refine (settings_overList (fun p s => ?_) _).trans (settings_updRec k _ s)
  unfold retestGuard; split
  · split
    · split
      · rfl
      · rw [settings_requestLane, settings_updPlacement, settings_handBack]
    · rfl
  · rfl

/-! ## Channels -/

theorem settings_askReturnHeld (o : Outcome) (preempt : Bool) (c : Fin 128) (s : State) :
    settings (askReturnHeld o preempt c s) = settings s :=
  settings_updChan c (fun ch => by
    split
    · unfold Channel.askReturn; repeat (split <;> try exact ⟨rfl, rfl⟩)
    · exact ⟨rfl, rfl⟩) s

theorem settings_giveCoverage (t : Target) (c : Fin 128) (s : State) :
    settings (giveCoverage t c s) = settings s :=
  settings_updChan c (fun ch => by
    unfold Channel.cover; split
    · split <;> exact ⟨rfl, rfl⟩
    · split <;> exact ⟨rfl, rfl⟩) s

theorem settings_setReturn (k : Key) (r : Option Time) (s : State) : settings (setReturn k r s) = settings s :=
  settings_overList (fun c s => by exact settings_updChan c (by intro _; exact ⟨rfl, rfl⟩) s) s

theorem settings_setCueReturn (k : Key) (t : Time) (s : State) : settings (setCueReturn k t s) = settings s :=
  settings_overList (fun c s => by exact settings_updChan c (by intro _; exact ⟨rfl, rfl⟩) s) s

theorem settings_returnNow (k : Key) (s : State) : settings (returnNow k s) = settings s := by
  unfold returnNow; split
  · rfl
  · split
    · rfl
    · exact settings_overList (settings_askReturnHeld _ _) _

theorem settings_amendActiveD (k : Key) (d : Option (BitVec 32)) (s : State) :
    settings (amendActiveD k d s) = settings s := by
  unfold amendActiveD; split
  · rfl
  · exact settings_setReturn _ _ _

theorem settings_cancelRecord (k : Key) (s : State) : settings (cancelRecord k s) = settings s := by
  unfold cancelRecord; split
  · rfl
  · split
    · exact settings_returnNow k s
    · rw [settings_retireDone, settings_finishAll]

/-! ## Cues and timebases -/

theorem settings_lossOfLock (i : Fin 64) (s : State) : settings (lossOfLock i s) = settings s :=
  (settings_overList (settings_askReturnHeld _ _) _).trans (settings_raise _ _ s)

theorem settings_pcrArrive (i : Fin 64) (c : Pcr) (disc : Bool) (s : State) :
    settings (pcrArrive i c disc s) = settings s := by
  unfold pcrArrive; split
  · rfl
  · dsimp only; rw [settings_timeUpdate]; split
    · rw [settings_lossOfLock, settings_updSvc] <;> first | rfl | (intro _; first | rfl | exact ⟨rfl, rfl⟩)
    · rw [settings_updSvc] <;> first | rfl | (intro _; first | rfl | exact ⟨rfl, rfl⟩)

theorem settings_expireTimebase (i : Fin 64) (s : State) : settings (expireTimebase i s) = settings s := by
  unfold expireTimebase; dsimp only; split
  · rw [settings_lossOfLock, settings_updSvc] <;> first | rfl | (intro _; first | rfl | exact ⟨rfl, rfl⟩)
  · rw [settings_updSvc] <;> first | rfl | (intro _; first | rfl | exact ⟨rfl, rfl⟩)

theorem settings_takeCue (i : Fin 64) (v : Service) (c : Cue) (s : State) :
    settings (takeCue i v c s) = settings s := by
  unfold takeCue; split
  · unfold insertNew; split
    · rfl
    · split
      · rfl
      · split
        · exact settings_raise _ _ s
        · split
          · exact settings_raise _ _ s
          · split
            · exact settings_raise _ _ s
            · unfold createFromCue; dsimp only; split
              · rw [settings_deliverTrigger, settings_raise]; rfl
              · rfl
  · unfold insertKnown; split
    · split
      · exact settings_raise _ _ s
      · rfl
    · dsimp only
      have h : ∀ u, settings u = settings s → settings (match cueE v c with
          | some e => if (‹Avail›).e = some e then u else amendArmedE (‹Avail›).key e u
          | none => u) = settings s := by
        intro u hu
        split
        · split
          · exact hu
          · rw [settings_amendArmedE, hu]
        · exact hu
      refine h _ ?_
      split <;> rfl
    · split
      · exact settings_amendActiveD _ _ _
      · rfl
    · rfl
  · exact settings_cancelRecord _ _
  · unfold returnCue; split
    · split
      · exact settings_returnNow _ _
      · split
        · rfl
        · exact settings_setCueReturn _ _ _
    · rfl
  · rfl

theorem settings_cuePacket (i : Fin 64) (pk : Packet) (s : State) : settings (cuePacket i pk s) = settings s := by
  unfold cuePacket; split
  · split
    · split
      · exact settings_takeCue _ _ _ _
      · exact settings_raise _ _ s
    · rfl
  · rfl

/-! ## Splices -/

theorem settings_leaveLane (l : Fin 16) (h : Option Holder) (o : Option Outcome) (c : Fin 128) (s : State) :
    settings (leaveLane l h o c s) = settings s := by
  unfold leaveLane; dsimp only; split
  · show settings (reportLeave _ _ _) = _
    unfold reportLeave; rw [settings_updPlacement, settings_readerLeave]
  · exact settings_readerLeave l c s

theorem settings_settleDeparting (c : Fin 128) (s : State) : settings (settleDeparting c s) = settings s := by
  unfold settleDeparting; split
  · rfl
  · split
    · rfl
    · split
      · rfl
      · rw [settings_leaveLane, settings_updChan] <;> first | rfl | (intro _; first | rfl | exact ⟨rfl, rfl⟩)

theorem settings_settleRetaken (l : Fin 16) (c : Fin 128) (s : State) :
    settings (settleRetaken l c s) = settings s := by
  unfold settleRetaken; split
  · rfl
  · split
    · dsimp only; split
      · unfold reportLeave; rw [settings_updPlacement, settings_updChan] <;> first | rfl | (intro _; first | rfl | exact ⟨rfl, rfl⟩)
      · rw [settings_updChan] <;> first | rfl | (intro _; first | rfl | exact ⟨rfl, rfl⟩)
    · rfl

theorem Channel.place_takeTarget (now : Nat) (has : Role → Bool) (t : Target) (lp : Option Time) (p : Time)
    (o : Option Outcome) (ch : Channel) :
    (ch.takeTarget now has t lp p o).service = ch.service ∧ (ch.takeTarget now has t lp p o).port = ch.port := by
  cases t <;> exact ⟨rfl, rfl⟩

theorem settings_videoTake (p : Time) (c : Fin 128) (t : Target) (o : Option Outcome)
    (keep : Option PendingTarget) (s : State) : settings (videoTake p c t o keep s) = settings s := by
  unfold videoTake
  dsimp only
  rw [settings_settleDeparting]
  have h₁ : ∀ lp, settings (updChan c (fun ch =>
      { Channel.takeTarget (nowMs s) (chanHas s c) t lp p o ch with pending := keep }) s) = settings s :=
    fun lp => settings_updChan c (by intro ch; exact Channel.place_takeTarget _ _ _ _ _ _ ch) s
  cases t with
  | network =>
    dsimp only
    split
    · exact (settings_updLane _ _ rfl).trans (h₁ _)
    · exact h₁ _
  | lane l h =>
    dsimp only
    rw [settings_freeLane, settings_settleRetaken, settings_updLane _ _ (Lane.cfg_startReader _ _)]
    split
    · exact (settings_updLane _ _ rfl).trans (h₁ _)
    · exact h₁ _

theorem settings_switchChannel (p : Time) (w : Option Candidate) (c : Fin 128) (s : State) :
    settings (switchChannel p w c s) = settings s := by
  unfold switchChannel; split
  · rfl
  · split
    · exact settings_videoTake _ _ _ _ _ _
    · rfl

theorem settings_placementResult (ready : Bool) (rep : Report) (ref : PRef) (q : Placement) (s : State) :
    settings (placementResult ready rep ref q s) = settings s := by
  unfold placementResult; split
  · exact settings_finishPlacement _ _ _
  · split
    · exact settings_finishPlacement _ _ _
    · split
      · exact settings_finishPlacement _ _ _
      · split
        · exact settings_finishPlacement _ _ _
        · rfl
  · rfl

theorem settings_applySpliceOut (p : Time) (s₀ : State) (cands : List Candidate) (r : Avail) (s : State) :
    settings (applySpliceOut p s₀ cands r s) = settings s := by
  unfold applySpliceOut
  dsimp only
  have h : settings (overList (List.range r.placements.length) (fun i s =>
      match r.placements[i]? with
      | some q => placementResult (wasReady s₀ q) (reportOf s₀ cands ⟨r.key, i⟩ q.zones) ⟨r.key, i⟩ q s
      | none => s) s) = settings s := settings_overList (fun i s => by
    split
    · exact settings_placementResult _ _ _ _ _
    · rfl) s
  split
  · split
    · rw [settings_setReturn, settings_updRec]; exact h
    · exact h
  · exact h

theorem settings_beat (i : Fin 64) (p : Time) (s : State) : settings (beat i p s) = settings s := by
  unfold beat; split
  · rfl
  · dsimp only
    have trig : ∀ (b : Bool) k u, settings u = settings s →
        settings (if b then deliverTrigger k i u else u) = settings s := by
      intro b k u h
      split
      · exact (settings_deliverTrigger k i u).trans h
      · exact h
    refine trig _ _ _ (trig _ _ _ ?_)
    rw [settings_overList, settings_overList, settings_overList]
    · exact fun c s => settings_switchChannel _ _ _ _
    · intro r s
      split
      · exact settings_applySpliceOut _ _ _ _ _
      · exact settings_finishAll _ _ _
    · intro r s
      exact settings_finishAll _ _ _

theorem settings_follow (c : Fin 128) (x : Role) (s : State) : settings (follow c x s) = settings s := by
  unfold follow; split
  · rfl
  · dsimp only
    rw [settings_settleDeparting]
    have h₁ : ∀ (r : RoleSource) (u : State), settings u = settings s → settings (match r with
        | .lane l => freeLane l (updLane l (Lane.setCursor c x none) u)
        | _ => u) = settings s := by
      intro r u h
      cases r with
      | lane l => rw [settings_freeLane, settings_updLane _ _ (by rfl), h]
      | _ => exact h
    have h₂ : ∀ (o : Option (Fin 16)) (u : State), settings u = settings s → settings (match o with
        | some l => freeLane l (followCursor l c x u)
        | none => u) = settings s := by
      intro o u h
      cases o with
      | none => exact h
      | some l =>
        rw [settings_freeLane]
        unfold followCursor
        split
        · exact h
        · split
          · exact (settings_updLane _ _ rfl).trans h
          · exact Eq.trans (settings_updLane l u (f := Lane.setCursor c x _) rfl) h
    refine h₂ _ _ (h₁ _ _ ?_)
    refine settings_updChan c (fun ch => ?_) s
    unfold Channel.follow
    dsimp only
    split <;> split <;> exact ⟨rfl, rfl⟩

theorem settings_emit (port : Fin 8) (pk : Packet) (s : State) : settings (emit port pk s) = settings s :=
  settings_updPort port (by intro _; exact ⟨rfl, rfl⟩) s

theorem settings_updRole (c : Fin 128) (x : Role) (f : RoleState → RoleState) (s : State) :
    settings (updRole c x f s) = settings s := settings_updChan c (by intro _; exact ⟨rfl, rfl⟩) s

theorem settings_slot (port : Fin 8) (c : Fin 128) (x : Role) (l : Fin 16) (v : Service) (ch : Channel)
    (r : RoleState) (pid : Pid) (s : State) : settings (slot port c x l v ch r pid s) = settings s := by
  unfold slot
  split
  · exact settings_emit _ _ _
  · dsimp only
    have h : settings (updLane l (fun _ => (Lane.take (nowMs s) c x (s.lanes.get l)).1) s) = settings s :=
      settings_updLane l s (Lane.cfg_take _ _ _ _)
    split
    · rename_i pk eos _
      have h' : settings (fillSlot port c x v ch r pid pk
          (freeLane l (updLane l (fun _ => (Lane.take (nowMs s) c x (s.lanes.get l)).1) s))) = settings s := by
        unfold fillSlot
        dsimp only
        rw [settings_emit, settings_updRole, settings_freeLane, h]
      split
      · exact (settings_askReturnHeld _ _ _ _).trans h'
      · exact h'
    · rw [settings_emit, settings_updChan, h] <;> first | rfl | (intro _; first | rfl | exact ⟨rfl, rfl⟩)
    · rw [settings_emit, h]

theorem settings_govern (port : Fin 8) (c : Fin 128) (x : Role) (v : Service) (pk : Packet) (s : State) :
    settings (govern port c x v pk s) = settings s := by
  unfold govern
  dsimp only
  have h : ∀ u, settings u = settings s → settings (match u.channels.get c with
      | none => emit port pk u
      | some ch => match (ch.roles.get x).source with
        | .network => passNetwork port c x (ch.roles.get x) pk u
        | .lane l => slot port c x l v ch (ch.roles.get x) pk.pid u
        | .muted => emit port nullPacket u) = settings s := by
    intro u hu
    split
    · rw [settings_emit, hu]
    · split
      · unfold passNetwork
        dsimp only
        split
        · rw [settings_emit, settings_updRole, hu]
        · rw [settings_emit, settings_updRole, hu]
      · rw [settings_slot, hu]
      · rw [settings_emit, hu]
  refine h _ ?_
  split
  · split
    · exact settings_follow c x s
    · rfl
  · rfl

theorem settings_portPacket (port : Fin 8) (pk : Packet) (s : State) :
    settings (portPacket port pk s) = settings s := by
  unfold portPacket; split
  · exact settings_govern _ _ _ _ _ _
  · exact settings_emit _ _ _

theorem settings_networkPacket (m : Fin 4) (pk : Packet) (s : State) :
    settings (networkPacket m pk s) = settings s := by
  unfold networkPacket
  dsimp only
  unfold settleRecords
  rw [settings_overList settings_retireDone]
  unfold dispatchPorts
  rw [settings_overFin]
  · split
    · rfl
    · unfold dispatchBeat
      have h : settings (dispatchCue m pk (dispatchPcr m pk
          { s with netIn := s.netIn.set m (s.netIn.get m).accept })) = settings s := by
        unfold dispatchCue
        rw [settings_overList (fun i => settings_cuePacket i pk)]
        unfold dispatchPcr
        split
        · rw [settings_overList (fun i => settings_pcrArrive i _ _)]; rfl
        · rfl
      split
      · rw [settings_overList (fun i => settings_beat i _), h]
      · exact h
  · intro port u
    split
    · exact settings_portPacket _ _ _
    · rfl

/-! ## Alerts -/

theorem settings_targetZone (t : Target) (z : Fin 8) (s : State) : settings (targetZone t z s) = settings s :=
  settings_overList (settings_giveCoverage t) s

theorem settings_coverServing (a : Fin 16) (z : Fin 8) (s : State) :
    settings (coverServing a z s) = settings s := by
  unfold coverServing
  rw [settings_targetZone, settings_updZone] <;> first | rfl | (intro _; first | rfl | exact ⟨rfl, rfl⟩)

theorem settings_coverChange (new : Option (Fin 16)) (z : Fin 8) (s : State) :
    settings (coverChange new z s) = settings s := by
  unfold coverChange
  dsimp only
  have h : settings (updZone z (fun q => { q with cover := new }) s) = settings s :=
    settings_updZone _ (by intro _; exact rfl) s
  split
  · rw [settings_targetZone, settings_updZone, h] <;> first | rfl | (intro _; first | rfl | exact ⟨rfl, rfl⟩)
  · split
    · rw [settings_coverServing, h]
    · unfold coverWaiting
      dsimp only
      rw [settings_raise, settings_overList (settings_askReturnHeld _ _), settings_updZone, h] <;> first | rfl | (intro _; first | rfl | exact ⟨rfl, rfl⟩)

theorem settings_evalZones (zs : ZoneSet) (s : State) : settings (evalZones zs s) = settings s :=
  settings_overFin (fun z s => by
    split
    · unfold evalZone; dsimp only; split
      · rfl
      · exact settings_coverChange _ _ _
    · rfl) s

theorem settings_laneServes (l : Fin 16) (s : State) : settings (laneServes l s) = settings s :=
  settings_overFin (fun z s => by
    split
    · split
      · exact settings_coverServing _ _ _
      · rfl
    · rfl) s

theorem settings_standingStarved (l : Fin 16) (s : State) : settings (standingStarved l s) = settings s := by
  unfold standingStarved
  dsimp only
  rw [settings_overFin, settings_overList (settings_giveCoverage _)]
  intro z s
  split
  · split
    · rw [settings_raise, settings_updZone] <;> first | rfl | (intro _; first | rfl | exact ⟨rfl, rfl⟩)
    · rfl
  · rfl

theorem settings_enterActive (a : Fin 16) (s : State) : settings (enterActive a s) = settings s := by
  unfold enterActive
  dsimp only
  rw [settings_evalZones, settings_raise, settings_updAlert] <;> first | rfl | (intro _; first | rfl | exact ⟨rfl, rfl⟩)

theorem settings_endAlert (after : AlertState) (a : Fin 16) (s : State) :
    settings (endAlert after a s) = settings s := by
  unfold endAlert
  dsimp only
  rw [settings_evalZones, settings_raise, settings_updAlert] <;> first | rfl | (intro _; first | rfl | exact ⟨rfl, rfl⟩)

theorem settings_alertAct (a : Fin 16) (s : State) : settings (alertAct a s) = settings s := by
  unfold alertAct
  dsimp only
  split
  · split
    · exact settings_enterActive _ _
    · rw [settings_updAlert]; intro _; rfl
  · rw [settings_updAlert]; intro _; rfl
  · split
    · exact settings_endAlert _ _ _
    · rw [settings_updAlert]; intro _; rfl
  all_goals first | rfl | (rw [settings_updAlert]; intro _; rfl)

theorem settings_deliverLevel (src : TermSource) (s : State) : settings (deliverLevel src s) = settings s :=
  settings_overFin (fun a s => by
    split
    · exact settings_alertAct _ _
    · rfl) s

theorem settings_updAin (i : Fin 6) {f : Ain → Ain} (s : State)
    (h : (f (s.ains.get i)).polarity = (s.ains.get i).polarity
      ∧ (f (s.ains.get i)).debounce = (s.ains.get i).debounce) : settings (updAin i f s) = settings s := by
  unfold updAin; dsimp only; split
  · exact settings_setAin i s h
  · rw [settings_deliverLevel]; exact settings_setAin i s h

theorem Ain.kept_settle (now : Nat) (old : Bool) (a : Ain) :
    (a.settle now old).polarity = a.polarity ∧ (a.settle now old).debounce = a.debounce := by
  unfold Ain.settle; repeat (split <;> try exact ⟨rfl, rfl⟩)

theorem settings_lanePacket (l : Fin 16) (pk : Packet) (s : State) :
    settings (lanePacket l pk s) = settings s := by
  unfold lanePacket; dsimp only; split
  · rfl
  · split
    · rw [settings_laneServes, settings_updLane _ _ (Lane.cfg_offer _ _ _ _ _)]; rfl
    · rw [settings_updLane _ _ (Lane.cfg_offer _ _ _ _ _)]; rfl

/-! ## Timers -/

theorem settings_reachMs (n : Nat) (s : State) : settings (reachMs n s) = settings s := by
  unfold reachMs; split <;> rfl

theorem settings_laneTimesOut (l : Fin 16) (s : State) : settings (laneTimesOut l s) = settings s := by
  unfold laneTimesOut; dsimp only; split
  · rw [settings_retireDone, settings_finishPlacement, settings_raise, settings_updLane _ _ rfl]
  · rw [settings_raise, settings_updLane _ _ rfl]

theorem settings_laneStarves (l : Fin 16) (s : State) : settings (laneStarves l s) = settings s := by
  unfold laneStarves; dsimp only; split
  · exact settings_updLane _ _ rfl
  · split
    · rw [settings_standingStarved, settings_overList (settings_askReturnHeld _ _), settings_raise,
        settings_updLane _ _ rfl]
    · rw [settings_overList (settings_askReturnHeld _ _), settings_raise, settings_updLane _ _ rfl]

end Sys2Proof.Machine
end

