-- ==== Sys2Proof/Laws/Attention.lean ====
section
/-! SUPPORT. The attention set under the shared operations: it only grows, and by the kinds that each source may
hold. -/

namespace Sys2Proof.Machine

/-- The attention set has only grown, by kinds that each source may hold. -/
def Grows (s t : State) : Prop :=
  ∀ src, ∃ m : BitVec 9, t.attn.get src = s.attn.get src ||| m ∧ m &&& ~~~(allowedCauses src) = 0#9

theorem Grows.same {s t : State} (h : t.attn = s.attn) : Grows s t := fun src => ⟨0#9, by rw [h]; simp, by simp⟩

theorem Grows.refl (s : State) : Grows s s := Grows.same rfl

theorem Grows.trans {s t u : State} (h₁ : Grows s t) (h₂ : Grows t u) : Grows s u := by
  intro src
  obtain ⟨m, e, hm⟩ := h₁ src
  obtain ⟨n, e', hn⟩ := h₂ src
  refine ⟨m ||| n, by rw [e', e, BitVec.or_assoc], ?_⟩
  apply BitVec.eq_of_getLsbD_eq
  intro j _
  have a := congrArg (fun x : BitVec 9 => x.getLsbD j) hm
  have b := congrArg (fun x : BitVec 9 => x.getLsbD j) hn
  simp only [BitVec.getLsbD_and, BitVec.getLsbD_or, BitVec.getLsbD_zero] at a b ⊢
  rw [Bool.and_or_distrib_right, a, b]; rfl

/-- After a change that left the set alone. -/
theorem Grows.after {s t u : State} (h : Grows t u) (e : t.attn = s.attn) : Grows s u := (Grows.same e).trans h

theorem Grows.records {s t : State} (h : OnlyRecords s t) : Grows s t := Grows.same (by rw [h])
theorem Grows.channels {s t : State} (h : OnlyChannels s t) : Grows s t := Grows.same (by rw [h])
theorem Grows.splice {s t : State} (h : OnlySplice s t) : Grows s t := Grows.same (by rw [h])
theorem Grows.ports {s t : State} (h : OnlyPorts s t) : Grows s t := Grows.same (by rw [h])

theorem grows_overList {α : Type} {l : List α} {f : α → State → State} (h : ∀ a s, Grows s (f a s)) (s : State) :
    Grows s (overList l f s) :=
  overList_keeps (Grows s) (fun a _ _ ht => ht.trans (h a _)) (Grows.refl s)

theorem grows_overFin {n : Nat} {f : Fin n → State → State} (h : ∀ a s, Grows s (f a s)) (s : State) :
    Grows s (overFin n f s) := grows_overList h s

theorem grows_raise (src : Fin 96) (k : Cause) (h : k.flag &&& ~~~(allowedCauses src) = 0#9) (s : State) :
    Grows s (raise src k s) := by
  intro src'
  rw [attn_raise]
  split
  · rw [Table.get_set]
    split
    · next e => subst e; exact ⟨_, rfl, h⟩
    · exact ⟨0#9, by simp, by simp⟩
  · exact ⟨0#9, by simp, by simp⟩

theorem allowed_svc (i : Fin 64) : allowedCauses (svcSource i) = 0x01F#9 := by
  unfold allowedCauses svcSource; simp

theorem allowed_lane (l : Fin 16) : allowedCauses (laneSource l) = 0x020#9 := by
  unfold allowedCauses laneSource
  have := l.isLt
  simp only
  rw [if_neg (by omega), if_pos (by omega)]

theorem allowed_alert (a : Fin 16) : allowedCauses (alertSource a) = 0x1C0#9 := by
  unfold allowedCauses alertSource
  simp only
  rw [if_neg (by omega), if_neg (by omega)]

theorem grows_svc (i : Fin 64) (k : Cause) (h : k.flag &&& ~~~0x01F#9 = 0#9) (s : State) :
    Grows s (raise (svcSource i) k s) := grows_raise _ _ (by rw [allowed_svc]; exact h) s

theorem grows_lane (l : Fin 16) (s : State) : Grows s (raise (laneSource l) .laneFault s) :=
  grows_raise _ _ (by rw [allowed_lane]; decide) s

theorem grows_alert (a : Fin 16) (k : Cause) (h : k.flag &&& ~~~0x1C0#9 = 0#9) (s : State) :
    Grows s (raise (alertSource a) k s) := grows_raise _ _ (by rw [allowed_alert]; exact h) s

/-! ## Services -/

theorem grows_retire (r : Avail) (s : State) : Grows s (retire r s) :=
  Grows.trans (t := updSvc r.key.svc (fun v => { v with last := some r.result })
    { s with avails := s.avails.filter fun q => decide (q.key ≠ r.key) }) (Grows.same rfl)
    (grows_svc _ _ (by decide) _)

theorem grows_retireDone (i : Fin 64) (s : State) : Grows s (retireDone i s) :=
  grows_overList (fun k s => by
    split
    · split
      · exact grows_retire _ s
      · exact Grows.refl s
    · exact Grows.refl s) s

theorem grows_timeUpdate (i : Fin 64) (s : State) : Grows s (timeUpdate i s) := by
  unfold timeUpdate; split
  · exact Grows.refl s
  · split
    · exact Grows.refl s
    · exact (Grows.records (overList_onlyRecords (treatRecord_only _ _ _) s)).trans (grows_retireDone i _)

theorem grows_lossOfLock (i : Fin 64) (s : State) : Grows s (lossOfLock i s) :=
  (grows_svc i .timebaseLost (by decide) s).trans (Grows.channels (overList_onlyChannels (askReturnHeld_only _ _) _))

theorem grows_pcrArrive (i : Fin 64) (c : Pcr) (disc : Bool) (s : State) : Grows s (pcrArrive i c disc s) := by
  unfold pcrArrive; split
  · exact Grows.refl s
  · dsimp only
    refine Grows.trans ?_ (grows_timeUpdate i _)
    split
    · exact (Grows.same rfl).trans (grows_lossOfLock i (updSvc i _ s))
    · exact Grows.same rfl

theorem grows_expireTimebase (i : Fin 64) (s : State) : Grows s (expireTimebase i s) := by
  unfold expireTimebase; dsimp only; split
  · exact (Grows.same rfl).trans (grows_lossOfLock i (updSvc i _ s))
  · exact Grows.same rfl

theorem grows_returnNow (k : Key) (s : State) : Grows s (returnNow k s) := by
  unfold returnNow; split
  · exact Grows.refl s
  · split
    · exact Grows.refl s
    · exact Grows.trans (t := updRec k _ s) (Grows.same rfl)
        (Grows.channels (overList_onlyChannels (askReturnHeld_only _ _) _))

theorem grows_amendActiveD (k : Key) (d : Option (BitVec 32)) (s : State) : Grows s (amendActiveD k d s) := by
  unfold amendActiveD; split
  · exact Grows.refl s
  · exact Grows.trans (t := updRec k _ s) (Grows.same rfl) (Grows.channels (setReturn_only _ _ _))

theorem grows_cancelRecord (k : Key) (s : State) : Grows s (cancelRecord k s) := by
  unfold cancelRecord; split
  · exact Grows.refl s
  · split
    · exact grows_returnNow k s
    · exact (Grows.records (finishAll_only _ k s)).trans (grows_retireDone _ _)

theorem grows_takeCue (i : Fin 64) (v : Service) (c : Cue) (s : State) : Grows s (takeCue i v c s) := by
  have drop : Grows s (dropCue i s) := grows_svc i .cueDropped (by decide) s
  unfold takeCue; split
  · unfold insertNew
    repeat (split <;> try first | exact Grows.refl s | exact drop)
    unfold createFromCue; dsimp only; split
    · exact (Grows.same rfl).trans (grows_svc i .cueHeld (by decide) (addRecord _ _ _ _ _ _ _ s))
    · exact Grows.same rfl
  · unfold insertKnown; split
    · split
      · exact drop
      · exact Grows.same rfl
    · dsimp only
      have h : ∀ u, Grows s u → Grows s (match cueE v c with
          | some e => if (‹Avail›).e = some e then u else amendArmedE (‹Avail›).key e u
          | none => u) := by
        intro u hu
        split
        · split
          · exact hu
          · exact hu.trans (Grows.records (amendArmedE_only _ _ _))
        · exact hu
      refine h _ ?_
      split <;> exact Grows.same rfl
    · split
      · exact grows_amendActiveD _ _ _
      · exact Grows.refl s
    · exact Grows.same rfl
  · exact grows_cancelRecord _ s
  · unfold returnCue; split
    · split
      · exact grows_returnNow _ _
      · split
        · exact Grows.refl s
        · exact Grows.channels (setCueReturn_only _ _ _)
    · exact Grows.refl s
  · exact Grows.refl s

theorem grows_cuePacket (i : Fin 64) (pk : Packet) (s : State) : Grows s (cuePacket i pk s) := by
  unfold cuePacket; split
  · split
    · split
      · exact grows_takeCue _ _ _ _
      · exact grows_svc i .cueCorrupt (by decide) s
    · exact Grows.refl s
  · exact Grows.refl s

theorem grows_networkPacket (m : Fin 4) (pk : Packet) (s : State) : Grows s (networkPacket m pk s) := by
  unfold networkPacket
  dsimp only
  refine Grows.trans ?_ (grows_overList (fun i => grows_retireDone i) _)
  refine Grows.trans ?_ (Grows.ports (dispatchPorts_only m pk _))
  refine Grows.trans (t := { s with netIn := s.netIn.set m (s.netIn.get m).accept }) (Grows.same rfl) ?_
  split
  · exact Grows.refl _
  · refine Grows.trans ?_ (Grows.splice (dispatchBeat_only m pk _))
    refine Grows.trans ?_ (grows_overList (fun i => grows_cuePacket i pk) _)
    unfold dispatchPcr; split
    · exact grows_overList (fun i => grows_pcrArrive i _ _) _
    · exact Grows.refl _

/-! ## Alerts -/

theorem grows_coverServing (a : Fin 16) (z : Fin 8) (s : State) : Grows s (coverServing a z s) :=
  Grows.trans (t := updZone z _ s) (Grows.same rfl) (Grows.channels (targetZone_only _ _ _))

theorem grows_coverChange (new : Option (Fin 16)) (z : Fin 8) (s : State) : Grows s (coverChange new z s) := by
  unfold coverChange
  dsimp only
  refine Grows.trans (t := updZone z (fun q => { q with cover := new }) s) (Grows.same rfl) ?_
  split
  · exact (Grows.channels (targetZone_only _ _ _)).after rfl
  · split
    · exact grows_coverServing _ _ _
    · unfold coverWaiting
      dsimp only
      refine Grows.trans ?_ (grows_alert _ _ (by decide) _)
      exact (Grows.channels (overList_onlyChannels (askReturnHeld_only _ _) _)).after rfl

theorem grows_evalZones (zs : ZoneSet) (s : State) : Grows s (evalZones zs s) :=
  grows_overFin (fun z s => by
    split
    · unfold evalZone; dsimp only; split
      · exact Grows.refl s
      · exact grows_coverChange _ _ _
    · exact Grows.refl s) s

theorem grows_laneServes (l : Fin 16) (s : State) : Grows s (laneServes l s) :=
  grows_overFin (fun z s => by
    split
    · split
      · exact grows_coverServing _ _ _
      · exact Grows.refl s
    · exact Grows.refl s) s

theorem grows_standingStarved (l : Fin 16) (s : State) : Grows s (standingStarved l s) := by
  unfold standingStarved
  dsimp only
  refine (Grows.channels (overList_onlyChannels (l := chansWhere s (Channel.onOrToLane l))
    (giveCoverage_only .network) s)).trans (grows_overFin (fun z s => ?_) _)
  split
  · split
    · exact Grows.trans (t := updZone z _ s) (Grows.same rfl) (grows_alert _ _ (by decide) _)
    · exact Grows.refl s
  · exact Grows.refl s

theorem grows_enterActive (a : Fin 16) (s : State) : Grows s (enterActive a s) := by
  unfold enterActive
  dsimp only
  refine Grows.trans ?_ (grows_evalZones _ _)
  refine Grows.trans ?_ (grows_alert _ _ (by decide) _)
  exact Grows.same rfl

theorem grows_endAlert (after : AlertState) (a : Fin 16) (s : State) : Grows s (endAlert after a s) := by
  unfold endAlert
  dsimp only
  refine Grows.trans ?_ (grows_evalZones _ _)
  refine Grows.trans ?_ (grows_alert _ _ (by decide) _)
  exact Grows.same rfl

theorem grows_alertAct (a : Fin 16) (s : State) : Grows s (alertAct a s) := by
  unfold alertAct
  dsimp only
  split
  · split
    · exact grows_enterActive _ _
    · exact Grows.same rfl
  · exact Grows.same rfl
  · split
    · exact grows_endAlert _ _ _
    · exact Grows.same rfl
  · exact Grows.same rfl
  · exact Grows.same rfl
  · exact Grows.refl s

theorem grows_rejudgeHold (a : Fin 16) (s : State) : Grows s (rejudgeHold a s) := by
  unfold rejudgeHold
  dsimp only
  split
  · split
    · exact grows_enterActive _ _
    · exact Grows.refl s
  · exact Grows.refl s

theorem grows_deliverLevel (src : TermSource) (s : State) : Grows s (deliverLevel src s) :=
  grows_overFin (fun a s => by
    split
    · exact grows_alertAct _ _
    · exact Grows.refl s) s

theorem grows_updAin (i : Fin 6) (f : Ain → Ain) (s : State) : Grows s (updAin i f s) := by
  unfold updAin; dsimp only; split
  · exact Grows.same rfl
  · exact (grows_deliverLevel _ _).after rfl

theorem grows_laneNamed (l : Fin 16) (s : State) : Grows s (laneNamed l s) := by
  unfold laneNamed
  dsimp only
  split
  · exact Grows.trans (t := updLane l _ s) (Grows.same rfl) (grows_laneServes _ _)
  · exact Grows.same rfl

theorem grows_laneUnnamed (l : Fin 16) (s : State) : Grows s (laneUnnamed l s) := by
  unfold laneUnnamed
  exact Grows.trans (t := updLane l _ s) (Grows.same rfl)
    (Grows.channels (overList_onlyChannels (giveCoverage_only _) _))

theorem grows_configureAlert (a : Fin 16) (f : Alert → Alert) (s : State) : Grows s (configureAlert a f s) := by
  unfold configureAlert
  dsimp only
  refine Grows.trans ?_ (grows_rejudgeHold _ _)
  refine Grows.trans ?_ (grows_alertAct _ _)
  have h₁ : ∀ (b : Bool) l u, Grows s u → Grows s (if b then laneUnnamed l u else u) := by
    intro b l u h
    split
    · exact h.trans (grows_laneUnnamed l u)
    · exact h
  have h₂ : ∀ (b : Bool) l u, Grows s u → Grows s (if b then laneNamed l u else u) := by
    intro b l u h
    split
    · exact h.trans (grows_laneNamed l u)
    · exact h
  exact h₂ _ _ _ (h₁ _ _ _ (Grows.same rfl))

theorem grows_lanePacket (l : Fin 16) (pk : Packet) (s : State) : Grows s (lanePacket l pk s) := by
  unfold lanePacket; dsimp only; split
  · exact Grows.same rfl
  · split
    · exact (grows_laneServes _ _).after rfl
    · exact Grows.same rfl

/-! ## Timers -/

theorem grows_laneTimesOut (l : Fin 16) (s : State) : Grows s (laneTimesOut l s) := by
  unfold laneTimesOut; dsimp only
  have h : Grows s (raise (laneSource l) .laneFault (updLane l (fun ln =>
      Lane.enterClosing (nowMs s) { ln with lastFault := .openTimeout, bound := none }) s)) :=
    Grows.trans (t := updLane l _ s) (Grows.same rfl) (grows_lane l _)
  split
  · exact h.trans ((Grows.records (finishPlacement_only _ _ _)).trans (grows_retireDone _ _))
  · exact h

theorem grows_laneStarves (l : Fin 16) (s : State) : Grows s (laneStarves l s) := by
  unfold laneStarves; dsimp only
  split
  · exact Grows.same rfl
  · have h : ∀ u, Grows s u → Grows s (if isStanding u l then standingStarved l u else u) := by
      intro u h
      split
      · exact h.trans (grows_standingStarved l u)
      · exact h
    refine h _ (Grows.trans ?_ (Grows.channels (overList_onlyChannels (askReturnHeld_only _ _) _)))
    exact Grows.trans (t := updLane l _ s) (Grows.same rfl) (grows_lane l _)

end Sys2Proof.Machine
end

