-- ==== Sys2Proof/Laws/Records.lean ====
section
/-! SUPPORT. The avail table under the shared operations: which records it holds, and all of a record but its
placements. -/

namespace Sys2Proof.Machine

/-- A record without its placements. -/
def Avail.bare (r : Avail) : Avail := { r with placements := [] }

/-- Every record of the table without its placements. -/
def bares (s : State) : List Avail := s.avails.map Avail.bare

def keys (s : State) : List Key := s.avails.map fun r => r.key

theorem keys_of_bares {s t : State} (h : bares t = bares s) : keys t = keys s := by
  have := congrArg (List.map fun r : Avail => r.key) h
  simpa [bares, keys, List.map_map, Function.comp_def, Avail.bare] using this

theorem findRec_isSome {k : Key} {s : State} : (findRec k s).isSome = true ↔ k ∈ keys s := by
  unfold findRec keys
  rw [List.find?_isSome, List.mem_map]
  constructor
  · rintro ⟨r, hr, hk⟩; exact ⟨r, hr, by simpa using hk⟩
  · rintro ⟨r, hr, hk⟩; exact ⟨r, hr, by simpa using hk⟩

theorem keys_updRec (k : Key) {f : Avail → Avail} (h : ∀ r, (f r).key = r.key) (s : State) :
    keys (updRec k f s) = keys s := by
  unfold keys
  rw [avails_updRec, List.map_map]
  refine List.map_congr_left fun r _ => ?_
  simp only [Function.comp]
  split
  · exact h r
  · rfl

theorem bares_updRec (k : Key) {f : Avail → Avail} (h : ∀ r, (f r).bare = r.bare) (s : State) :
    bares (updRec k f s) = bares s := by
  unfold bares
  rw [avails_updRec, List.map_map]
  refine List.map_congr_left fun r _ => ?_
  simp only [Function.comp]
  split
  · exact h r
  · rfl

theorem bares_updPlacement (p : PRef) (f : Placement → Placement) (s : State) :
    bares (updPlacement p f s) = bares s := bares_updRec _ (by intro r; rfl) s

theorem bares_overList {α : Type} {l : List α} {f : α → State → State} (h : ∀ a s, bares (f a s) = bares s)
    (s : State) : bares (overList l f s) = bares s := overList_same bares (fun a _ s => h a s) s

theorem bares_finishPlacement (o : Outcome) (p : PRef) (s : State) :
    bares (finishPlacement o p s) = bares s := by
  unfold finishPlacement; split
  · rfl
  · split
    · rfl
    · dsimp only; rw [bares_updPlacement]; split <;> rfl

theorem bares_finishAll (o : Outcome) (k : Key) (s : State) : bares (finishAll o k s) = bares s :=
  bares_overList (bares_finishPlacement o) s

theorem bares_requestLane (p : PRef) (s : State) : bares (requestLane p s) = bares s := by
  unfold requestLane; split
  · split
    · split
      · exact bares_updPlacement p _ s
      · rfl
    · rfl
  · rfl

theorem bares_armPlacement (p : PRef) (s : State) : bares (armPlacement p s) = bares s := by
  unfold armPlacement; split
  · rfl
  · split
    · exact bares_requestLane p s
    · exact bares_finishPlacement _ p s

/-- Entry to ARMED changes no record but for its state and placements. -/
theorem bares_arm (k : Key) (s : State) :
    bares (arm k s) = bares (updRec k (fun r => { r with state := .armed }) s) :=
  bares_overList bares_armPlacement _

theorem bares_missLane (p : PRef) (s : State) : bares (missLane p s) = bares s := by
  unfold missLane; split
  · split
    · exact bares_finishPlacement _ p s
    · rfl
  · rfl

theorem bares_retryLane (p : PRef) (s : State) : bares (retryLane p s) = bares s := by
  unfold retryLane; split
  · split
    · exact bares_requestLane p s
    · rfl
  · rfl

theorem bares_treatArmed (v : Service) (t : Time) (locked : Bool) (k : Key) (s : State) :
    bares (treatArmed v t locked k s) = bares s := by
  unfold treatArmed; split
  · rfl
  · split
    · exact bares_finishAll _ k s
    · split
      · exact bares_overList bares_missLane s
      · exact bares_overList bares_retryLane s

theorem bares_retestGuard (p : PRef) (s : State) : bares (retestGuard p s) = bares s := by
  unfold retestGuard; split
  · split
    · split
      · rfl
      · rw [bares_requestLane, bares_updPlacement]; rfl
    · rfl
  · rfl

theorem bares_amendArmedE (k : Key) (e : Time) (s : State) :
    bares (amendArmedE k e s) = bares (updRec k (fun r => { r with e := some e }) s) :=
  bares_overList bares_retestGuard _

theorem bares_reportLeave (p : PRef) (o : Outcome) (s : State) : bares (reportLeave p o s) = bares s :=
  bares_updPlacement p _ s

theorem avails_readerLeave (l : Fin 16) (c : Fin 128) (s : State) : (readerLeave l c s).avails = s.avails := by
  unfold readerLeave; dsimp only; split <;> rfl

theorem bares_leaveLane (l : Fin 16) (h : Option Holder) (o : Option Outcome) (c : Fin 128) (s : State) :
    bares (leaveLane l h o c s) = bares s := by
  have h' : bares (readerLeave l c s) = bares s := by unfold bares; rw [avails_readerLeave]
  unfold leaveLane; dsimp only; split
  · rw [bares_reportLeave, h']
  · exact h'

theorem bares_settleDeparting (c : Fin 128) (s : State) : bares (settleDeparting c s) = bares s := by
  unfold settleDeparting; split
  · rfl
  · split
    · rfl
    · split
      · rfl
      · rw [bares_leaveLane]; rfl

theorem bares_settleRetaken (l : Fin 16) (c : Fin 128) (s : State) : bares (settleRetaken l c s) = bares s := by
  unfold settleRetaken; split
  · rfl
  · split
    · dsimp only; split
      · rw [bares_reportLeave]; rfl
      · rfl
    · rfl

theorem bares_videoTake (p : Time) (c : Fin 128) (t : Target) (o : Option Outcome) (keep : Option PendingTarget)
    (s : State) : bares (videoTake p c t o keep s) = bares s := by
  unfold videoTake
  dsimp only
  rw [bares_settleDeparting]
  cases t with
  | network => dsimp only; split <;> rfl
  | lane l h =>
    dsimp only
    refine (bares_settleRetaken _ _ _).trans ?_
    split <;> rfl

theorem bares_switchChannel (p : Time) (w : Option Candidate) (c : Fin 128) (s : State) :
    bares (switchChannel p w c s) = bares s := by
  unfold switchChannel; split
  · rfl
  · split
    · exact bares_videoTake _ _ _ _ _ _
    · rfl

theorem bares_placementResult (ready : Bool) (rep : Report) (ref : PRef) (q : Placement) (s : State) :
    bares (placementResult ready rep ref q s) = bares s := by
  unfold placementResult; split
  · exact bares_finishPlacement _ _ _
  · split
    · exact bares_finishPlacement _ _ _
    · split
      · exact bares_finishPlacement _ _ _
      · split
        · exact bares_finishPlacement _ _ _
        · exact bares_updPlacement _ _ _
  · rfl

theorem bares_follow (c : Fin 128) (x : Role) (s : State) : bares (follow c x s) = bares s := by
  unfold follow; split
  · rfl
  · dsimp only
    rw [bares_settleDeparting]
    have h₁ : ∀ (r : RoleSource) (u : State), bares u = bares s → bares (match r with
        | .lane l => freeLane l (updLane l (Lane.setCursor c x none) u)
        | _ => u) = bares s := by
      intro r u h
      cases r <;> exact h
    have h₂ : ∀ (o : Option (Fin 16)) (u : State), bares u = bares s → bares (match o with
        | some l => freeLane l (followCursor l c x u)
        | none => u) = bares s := by
      intro o u h
      cases o with
      | none => exact h
      | some l =>
        show bares (followCursor l c x u) = _
        unfold followCursor
        split
        · exact h
        · split <;> exact h
    exact h₂ _ _ (h₁ _ _ rfl)

theorem avails_slot (port : Fin 8) (c : Fin 128) (x : Role) (l : Fin 16) (v : Service) (ch : Channel)
    (r : RoleState) (pid : Pid) (s : State) : (slot port c x l v ch r pid s).avails = s.avails := by
  unfold slot
  split
  · rfl
  · dsimp only
    split
    · rename_i pk eos _
      have h : ∀ u : State, (fillSlot port c x v ch r pid pk u).avails = u.avails := fun u => rfl
      split
      · exact h _
      · exact h _
    · rfl
    · rfl

theorem bares_portPacket (port : Fin 8) (pk : Packet) (s : State) : bares (portPacket port pk s) = bares s := by
  unfold portPacket; split
  · unfold govern
    dsimp only
    have h : ∀ (c : Fin 128) (x : Role) (v : Service) u, bares u = bares s → bares (match u.channels.get c with
        | none => emit port pk u
        | some ch => match (ch.roles.get x).source with
          | .network => passNetwork port c x (ch.roles.get x) pk u
          | .lane l => slot port c x l v ch (ch.roles.get x) pk.pid u
          | .muted => emit port nullPacket u) = bares s := by
      intro c x v u hu
      split
      · exact hu
      · split
        · unfold passNetwork; dsimp only; split <;> exact hu
        · exact (congrArg (List.map Avail.bare) (avails_slot _ _ _ _ _ _ _ _ u)).trans hu
        · exact hu
    refine h _ _ _ _ ?_
    split
    · split
      · exact bares_follow _ _ s
      · rfl
    · rfl
  · rfl

/-! ## Keys -/

theorem keys_arm (k : Key) (s : State) : keys (arm k s) = keys s :=
  (keys_of_bares (bares_arm k s)).trans (keys_updRec k (by intro r; rfl) s)

theorem keys_treatPending (v : Service) (t : Time) (locked : Bool) (k : Key) (s : State) :
    keys (treatPending v t locked k s) = keys s := by
  unfold treatPending; split
  · rfl
  · split
    · exact keys_of_bares (bares_finishAll _ k s)
    · split
      · exact keys_arm k s
      · rfl

theorem keys_treatHeld (v : Service) (t : Time) (locked : Bool) (k : Key) (s : State) :
    keys (treatHeld v t locked k s) = keys s := by
  unfold treatHeld; split
  · rfl
  · split
    · split
      · exact (keys_treatPending v t locked k _).trans (keys_updRec k (by intro r; rfl) s)
      · exact keys_of_bares (bares_finishAll _ k s)
    · rfl

theorem keys_treatRecord (v : Service) (t : Time) (locked : Bool) (k : Key) (s : State) :
    keys (treatRecord v t locked k s) = keys s := by
  unfold treatRecord; split
  · rfl
  · split
    · exact keys_treatHeld v t locked k s
    · exact keys_treatPending v t locked k s
    · exact keys_of_bares (bares_treatArmed v t locked k s)
    · rfl

theorem keys_amendArmedE (k : Key) (e : Time) (s : State) : keys (amendArmedE k e s) = keys s :=
  (keys_of_bares (bares_amendArmedE k e s)).trans (keys_updRec k (by intro r; rfl) s)

theorem avails_setReturn (k : Key) (r : Option Time) (s : State) : (setReturn k r s).avails = s.avails := by
  rw [setReturn_only k r s]

theorem keys_amendActiveD (k : Key) (d : Option (BitVec 32)) (s : State) : keys (amendActiveD k d s) = keys s := by
  unfold amendActiveD; split
  · rfl
  · unfold keys; rw [avails_setReturn]; exact keys_updRec k (by intro r; rfl) s

theorem keys_returnNow (k : Key) (s : State) : keys (returnNow k s) = keys s := by
  unfold returnNow; split
  · rfl
  · split
    · rfl
    · have := overList_onlyChannels (l := chansOfRecord s k) (askReturnHeld_only .cut false)
        (updRec k (fun r => { r with cutAsked := true }) s)
      unfold keys
      rw [this]
      exact keys_updRec k (by intro r; rfl) s

theorem keys_applySpliceOut (p : Time) (s₀ : State) (cands : List Candidate) (r : Avail) (s : State) :
    keys (applySpliceOut p s₀ cands r s) = keys s := by
  unfold applySpliceOut
  dsimp only
  have h : keys (overList (List.range r.placements.length) (fun i s =>
      match r.placements[i]? with
      | some q => placementResult (wasReady s₀ q) (reportOf s₀ cands ⟨r.key, i⟩ q.zones) ⟨r.key, i⟩ q s
      | none => s) s) = keys s := keys_of_bares (bares_overList (fun i s => by
    split
    · exact bares_placementResult _ _ _ _ _
    · rfl) s)
  split
  · split
    · refine Eq.trans ?_ h
      unfold keys
      rw [avails_setReturn]
      exact keys_updRec _ (by intro r; rfl) _
    · exact h
  · exact h

theorem keys_beat (i : Fin 64) (p : Time) (s : State) : keys (beat i p s) = keys s := by
  unfold beat; split
  · rfl
  · dsimp only
    have trig : ∀ (b : Bool) k u, keys u = keys s → keys (if b then deliverTrigger k i u else u) = keys s := by
      intro b k u h
      split <;> exact h
    refine trig _ _ _ (trig _ _ _ ?_)
    refine (overList_same keys (fun r _ s => keys_of_bares (bares_finishAll _ _ s)) _).trans ?_
    refine (overList_same keys (fun r _ s => ?_) _).trans ?_
    · split
      · exact keys_applySpliceOut _ _ _ _ _
      · exact keys_of_bares (bares_finishAll _ _ s)
    · exact keys_of_bares (bares_overList (fun c s => bares_switchChannel _ _ _ s) s)

/-! ## Retiring -/

theorem avails_retire (r : Avail) (s : State) :
    (retire r s).avails = s.avails.filter fun q => decide (q.key ≠ r.key) := by
  unfold retire; simp

/-- Retiring takes records out and changes none that stays. -/
theorem avails_retireDone_sublist (i : Fin 64) (s : State) : (retireDone i s).avails.Sublist s.avails :=
  overList_keeps (fun t => t.avails.Sublist s.avails) (fun k _ t ht => by
    split
    · split
      · rw [avails_retire]; exact (List.filter_sublist).trans ht
      · exact ht
    · exact ht) (List.Sublist.refl _)

end Sys2Proof.Machine
end

