-- ==== Sys2Proof/Laws/Requests.lean ====
section
/-! SUPPORT. What each request may answer. `Answers s P a` says that the answer is a refusal, which changes nothing
(R182), or OK with a state of which `P` holds; `<request>_answers` gives the `P` of each request, and
`exec_<request>` says that a request that can be served is completed with its block's answer. -/

namespace Sys2Proof.Machine

/-- An answer is a refusal, which changes nothing (R182), or OK with a state of which `P` holds. -/
def Answers (s : State) (P : State → Prop) (a : Answer) : Prop :=
  (∃ c, c ≠ Code.ok ∧ a = refuse c s) ∨ ∃ body t, a = accept body t ∧ P t

theorem answers_refuse {s : State} {P : State → Prop} {c : Code} (h : c ≠ .ok) : Answers s P (refuse c s) :=
  Or.inl ⟨c, h, rfl⟩

theorem answers_accept {s t : State} {P : State → Prop} (body : List Byte) (h : P t) :
    Answers s P (accept body t) := Or.inr ⟨body, t, rfl, h⟩

theorem Answers.state {s : State} {P : State → Prop} {a : Answer} (h : Answers s P a) : a.2 = s ∨ P a.2 := by
  rcases h with ⟨c, _, rfl⟩ | ⟨b, t, rfl, h⟩
  · exact Or.inl rfl
  · exact Or.inr h

/-- What holds of the state before, of every answer and without regard to the slots, holds after a request. -/
theorem Answers.serve {s : State} {P Q : State → Prop} {block : State → Answer} {tag kind : Byte}
    {same : List Byte → Bool} (hQ : ∀ u req resp, Q u → Q { u with reqSlot := req, respSlot := resp })
    (h : Answers s P (block s)) (hs : Q s) (hpq : ∀ t, P t → Q t) : Q (serve tag kind same block s) := by
  have hb : Q (block s).2 := by
    rcases h.state with e | e
    · rw [e]; exact hs
    · exact hpq _ e
  unfold Machine.serve
  split
  · exact hs
  · split
    · exact hQ _ _ _ hb
    · split
      · exact hQ _ _ _ hb
      · exact hs

theorem Answers.imp {s : State} {P Q : State → Prop} {a : Answer} (h : Answers s P a) (hpq : ∀ t, P t → Q t) :
    Answers s Q a := by
  rcases h with h | ⟨b, t, rfl, h⟩
  · exact Or.inl h
  · exact Or.inr ⟨b, t, rfl, hpq t h⟩

theorem Answers.keeps {s : State} {P Q : State → Prop} {a : Answer} (h : Answers s P a) (hs : Q s)
    (hpq : ∀ t, P t → Q t) : Q a.2 := by
  rcases h.state with e | e
  · rw [e]; exact hs
  · exact hpq _ e

/-! ## Services -/

theorem serviceSet_answers (a : ServiceSetArgs) (s : State) :
    Answers s (fun t => ∃ i v, mergeService (s.services.get i) a = some v ∧ pidsApart v = true
      ∧ pidsFree s i v = true
      ∧ ((s.services.get i = none ∧ t = putService i v s)
        ∨ ∃ o, s.services.get i = some o ∧ amendBlocked s i o v = false
            ∧ t = remeasure i o v (retime i o v (putService i v s)))) (serviceSet a s) := by
  unfold serviceSet
  split
  · exact answers_refuse nofun
  · rename_i i _
    unfold setService
    dsimp only
    split
    · exact answers_refuse nofun
    · rename_i v hv
      split
      · exact answers_refuse nofun
      · rename_i hp
        simp only [Bool.not_eq_true', Bool.not_eq_false, Bool.and_eq_true] at hp
        split
        · next hn => exact answers_accept _ ⟨i, v, hv, hp.1, hp.2, Or.inl ⟨hn, rfl⟩⟩
        · next o ho =>
          split
          · exact answers_refuse nofun
          · next hb => exact answers_accept _ ⟨i, v, hv, hp.1, hp.2, Or.inr ⟨o, ho, by simpa using hb, rfl⟩⟩

theorem onService_answers {b : Byte} {f : Fin 64 → Service → State → Answer} {s : State} {P : State → Prop}
    (h : ∀ i v, s.services.get i = some v → Answers s P (f i v s)) : Answers s P (onService b f s) := by
  unfold onService
  split
  · exact answers_refuse nofun
  · split
    · exact answers_refuse nofun
    · exact h _ _ ‹_›

theorem serviceGet_answers (b : Byte) (s : State) : Answers s (fun t => t = s) (serviceGet b s) :=
  onService_answers fun _ _ _ => answers_accept _ rfl

theorem serviceClear_answers (b : Byte) (s : State) :
    Answers s (fun t => ∃ i, chansOfService s i = [] ∧ recCount s i = 0
      ∧ t = { s with services := s.services.set i none }) (serviceClear b s) := by
  refine onService_answers fun i v _ => ?_
  split
  · exact answers_refuse nofun
  · next h =>
    simp only [Bool.or_eq_true, Bool.not_eq_true', decide_eq_true_eq, not_or, Bool.not_eq_false,
      List.isEmpty_iff, Nat.not_lt, Nat.le_zero] at h
    exact answers_accept _ ⟨i, h.1, h.2, rfl⟩

theorem templateSet_answers (a : TemplateSetArgs) (s : State) :
    Answers s (fun t => ∃ i k ts, checkPlacements s a.placements = some ts
      ∧ t = updSvc i (fun v => { v with templates := v.templates.set k ts }) s) (templateSet a s) := by
  refine onService_answers fun i v _ => ?_
  split
  · exact answers_refuse nofun
  · rename_i k _
    split
    · exact answers_refuse nofun
    · split
      · exact answers_refuse nofun
      · next ts h => exact answers_accept _ ⟨i, k, ts, h, rfl⟩

theorem outcomeGet_answers (b : Byte) (s : State) : Answers s (fun t => t = s) (outcomeGet b s) :=
  onService_answers fun _ _ _ => answers_accept _ rfl

/-! ## Avail records -/

theorem answerRecord_answers {s t : State} {k : Key} {P : State → Prop} (hP : P t)
    (h : (findRec k t).isSome = true) : Answers s P (answerRecord k t) := by
  unfold answerRecord
  split
  · exact answers_accept _ hP
  · next hn => rw [hn] at h; cases h

theorem findRec_append (k : Key) (s : State) (r : Avail) (h : r.key = k) :
    (findRec k { s with avails := s.avails ++ [r] }).isSome = true := by
  unfold findRec
  simp [h]

theorem availCreate_answers (a : AvailCreateArgs) (s : State) :
    Answers s (fun t => ∃ i v ts e ps st, s.services.get i = some v ∧ findRec ⟨i, a.event⟩ s = none
      ∧ s.avails.length < 512 ∧ recCount s i < 32 ∧ checkPlacements s a.placements = some ps
      ∧ (st = .awaitCue ∨ st = .pending)
      ∧ t = addRecord ⟨i, a.event⟩ .schedule ts e (durationArg a.duration) ps st s) (availCreate a s) := by
  unfold availCreate
  split
  · rename_i i t _ _
    unfold createRecord
    dsimp only
    split
    · exact answers_refuse nofun
    · rename_i v hv
      split
      · exact answers_refuse nofun
      · next hf =>
        split
        · exact answers_refuse nofun
        · next hb =>
          split
          · exact answers_refuse nofun
          · split
            · exact answers_refuse nofun
            · next ps hps =>
              split
              · next c hc =>
                refine answers_refuse ?_
                rintro rfl
                unfold timeCheck at hc
                repeat (split at hc <;> try cases hc)
              · refine answerRecord_answers ?_ (findRec_append _ _ _ rfl)
                refine ⟨i, v, _, _, ps, _, hv, by simpa using hf, by omega, by omega, hps, ?_, rfl⟩
                split
                · exact Or.inl rfl
                · exact Or.inr rfl
  · exact answers_refuse nofun

theorem findRec_key {k : Key} {s : State} {r : Avail} (h : findRec k s = some r) : r.key = k := by
  have := List.find?_some h
  simpa using this

theorem findRec_mem {k : Key} {s : State} {r : Avail} (h : findRec k s = some r) : r ∈ s.avails :=
  List.mem_of_find?_eq_some h

theorem keys_applyAmendment (r : Avail) (e : Option Time) (d : Option (Option (BitVec 32)))
    (ps : Option (List TPlacement)) (s : State) : keys (applyAmendment r e d ps s) = keys s := by
  unfold applyAmendment
  split
  · unfold amendArmed
    dsimp only
    split
    · split
      · exact keys_updRec _ (by intro r; rfl) s
      · exact (keys_amendArmedE _ _ _).trans (keys_updRec _ (by intro r; rfl) s)
    · exact keys_updRec _ (by intro r; rfl) s
  · split
    · exact keys_amendActiveD _ _ s
    · rfl
  · exact keys_updRec _ (by intro r; rfl) s

theorem availAmend_answers (a : AvailAmendArgs) (s : State) :
    Answers s (fun t => ∃ i r v m ps e, findRec ⟨i, a.event⟩ s = some r ∧ s.services.get i = some v
      ∧ amendmentOf a = some m ∧ mayAmend r.state m = true ∧ amendPlacements s m = some ps
      ∧ amendTime v m = .ok e ∧ t = applyAmendment r e m.duration ps s) (availAmend a s) := by
  unfold availAmend
  split
  · next i m _ hm =>
    unfold amendRecord
    split
    · next r v hr hv =>
      split
      · exact answers_refuse nofun
      · next hmay =>
        split
        · exact answers_refuse nofun
        · next ps hps =>
          split
          · next c hc =>
            refine answers_refuse ?_
            rintro rfl
            unfold amendTime timeCheck at hc
            repeat (split at hc <;> try cases hc)
          · next e he =>
            refine answerRecord_answers
              ⟨i, r, v, m, ps, e, hr, hv, hm, by simpa using hmay, hps, he, rfl⟩ ?_
            rw [findRec_isSome, keys_applyAmendment, ← findRec_isSome, findRec_key hr, hr]
            rfl
    · exact answers_refuse nofun
  · exact answers_refuse nofun

theorem onRecord_answers {a : KeyArgs} {absent : Fin 64 → State → Answer} {f : Avail → State → Answer} {s : State}
    {P : State → Prop} (h₀ : ∀ i, Answers s P (absent i s))
    (h : ∀ i r, findRec ⟨i, a.event⟩ s = some r → Answers s P (f r s)) : Answers s P (onRecord a absent f s) := by
  unfold onRecord
  split
  · exact answers_refuse nofun
  · split
    · exact h _ _ ‹_›
    · exact h₀ _

theorem notInTable_answers {s : State} {P : State → Prop} (i : Fin 64) : Answers s P (notInTable i s) :=
  answers_refuse nofun

theorem lateOrAbsent_answers {s : State} {P : State → Prop} (event : BitVec 32) (i : Fin 64) :
    Answers s P (lateOrAbsent event i s) := by
  unfold lateOrAbsent
  split <;> exact answers_refuse nofun

theorem availCancel_answers (a : KeyArgs) (s : State) :
    Answers s (fun t => ∃ r ∈ s.avails, r.key.event = a.event ∧ t = cancelRecord r.key s) (availCancel a s) :=
  onRecord_answers notInTable_answers fun i r h =>
    answers_accept _ ⟨r, findRec_mem h, by rw [findRec_key h], rfl⟩

theorem availReturn_answers (a : KeyArgs) (s : State) :
    Answers s (fun t => ∃ r ∈ s.avails, r.state = .active ∧ t = returnNow r.key s) (availReturn a s) :=
  onRecord_answers notInTable_answers fun i r h => by
    split
    · next hr => exact answers_accept _ ⟨r, findRec_mem h, hr, rfl⟩
    · exact answers_refuse nofun

theorem availConfirm_answers (a : KeyArgs) (s : State) :
    Answers s (fun t => ∃ r ∈ s.avails, r.state = .held
      ∧ t = updRec r.key (fun r => { r with state := .pending }) s) (availConfirm a s) :=
  onRecord_answers (lateOrAbsent_answers _) fun i r h => by
    split
    · next hr => exact answers_accept _ ⟨r, findRec_mem h, hr, rfl⟩
    · exact answers_refuse nofun

theorem availDecline_answers (a : KeyArgs) (s : State) :
    Answers s (fun t => ∃ r ∈ s.avails, r.state = .held
      ∧ t = retireDone r.key.svc (finishAll .declined r.key s)) (availDecline a s) :=
  onRecord_answers (lateOrAbsent_answers _) fun i r h => by
    split
    · next hr => exact answers_accept _ ⟨r, findRec_mem h, hr, rfl⟩
    · exact answers_refuse nofun

theorem availGet_answers (a : KeyArgs) (s : State) : Answers s (fun t => t = s) (availGet a s) :=
  onRecord_answers notInTable_answers fun _ _ _ => answers_accept _ rfl

theorem availWalk_answers (a : WalkArgs) (s : State) :
    Answers s (fun t => ∃ w, t = { s with walk := w }) (availWalk a s) := by
  have h : ∀ restart filter, Answers s (fun t => ∃ w, t = { s with walk := w }) (walkOn restart filter s) := by
    intro restart filter
    unfold walkOn
    split <;> exact answers_accept _ ⟨_, rfl⟩
  unfold availWalk
  split
  · exact answers_refuse nofun
  · split
    · exact h _ _
    · split
      · exact h _ _
      · exact answers_refuse nofun

/-! ## Lanes -/

theorem laneSet_answers (a : LaneSetArgs) (s : State) :
    Answers s (fun t => ∃ l c, laneCfgOf a = some c ∧ lanePlanOk c = true ∧ (s.lanes.get l).state = .idle
      ∧ t = updLane l (fun ln => { ln with cfg := c, lastFault := .none }) s) (laneSet a s) := by
  unfold laneSet
  split
  · next l c _ hc =>
    split
    · exact answers_refuse nofun
    · next hp =>
      split
      · exact answers_refuse nofun
      · next hs => exact answers_accept _ ⟨l, c, hc, by simpa using hp, by simpa using hs, rfl⟩
  · exact answers_refuse nofun

theorem laneGet_answers (b : Byte) (s : State) : Answers s (fun t => t = s) (laneGet b s) := by
  unfold laneGet onLaneArg
  split
  · exact answers_refuse nofun
  · exact answers_accept _ rfl

theorem laneClose_answers (b : Byte) (s : State) :
    Answers s (fun t => t = s ∨ ∃ l, isKeptOpen s l = true ∧ t = updLane l (Lane.enterClosing (nowMs s)) s)
      (laneClose b s) := by
  unfold laneClose onLaneArg
  split
  · exact answers_refuse nofun
  · next l _ =>
    dsimp only
    split
    · next hk => exact answers_accept _ (Or.inr ⟨l, hk, rfl⟩)
    · split
      · exact answers_accept _ (Or.inl rfl)
      · exact answers_accept _ (Or.inl rfl)
      · exact answers_refuse nofun

theorem laneGuardSet_answers (v : BitVec 32) (s : State) :
    Answers s (fun t => t = { s with groupGuard := clampNat 0 90000 v }) (laneGuardSet v s) := by
  unfold laneGuardSet
  dsimp only
  split
  · exact answers_refuse nofun
  · exact answers_accept _ rfl

/-! ## Ports, channels and zones -/

theorem portSet_answers (a : PortSetArgs) (s : State) :
    Answers s (fun t => ∃ p m z, chansOfPort s p = [] ∧ t = updPort p (Port.set m z) s) (portSet a s) := by
  unfold portSet
  split
  · next p m z _ _ _ =>
    split
    · exact answers_refuse nofun
    · next h => exact answers_accept _ ⟨p, m, z, by simpa using h, rfl⟩
  · exact answers_refuse nofun

theorem portGet_answers (b : Byte) (s : State) : Answers s (fun t => t = s) (portGet b s) := by
  unfold portGet
  split
  · exact answers_refuse nofun
  · exact answers_accept _ rfl

theorem chanSet_answers (a : ChanSetArgs) (s : State) :
    Answers s (fun t => ∃ c i p v, s.services.get i = some v ∧ v.input = (s.ports.get p).baseInput
      ∧ pairTaken s c i p = false ∧ (∀ ch, s.channels.get c = some ch → ch.atRest = true)
      ∧ t = joinCoverage c p
          { s with channels := s.channels.set c (some (Channel.fresh i p v (s.ports.get p).cont)) })
      (chanSet a s) := by
  unfold chanSet
  split
  · next c i p _ _ _ =>
    unfold defineChannel
    split
    · exact answers_refuse nofun
    · next v hv =>
      split
      · exact answers_refuse nofun
      · next hi =>
        split
        · exact answers_refuse nofun
        · next ht =>
          have done (hr : ∀ ch, s.channels.get c = some ch → ch.atRest = true) (body : List Byte) :=
            answers_accept (s := s) (P := fun t => ∃ c i p v, s.services.get i = some v
              ∧ v.input = (s.ports.get p).baseInput ∧ pairTaken s c i p = false
              ∧ (∀ ch, s.channels.get c = some ch → ch.atRest = true)
              ∧ t = joinCoverage c p
                  { s with channels := s.channels.set c (some (Channel.fresh i p v (s.ports.get p).cont)) })
              body ⟨c, i, p, v, hv, by simpa using hi, by simpa using ht, hr, rfl⟩
          split
          · next ch hch =>
            split
            · exact answers_refuse nofun
            · next hr => exact done (fun ch' h' => by rw [hch] at h'; cases h'; simpa using hr) _
          · next hch => exact done (fun ch' h' => by rw [hch] at h'; cases h') _
  · exact answers_refuse nofun

theorem onChannel_answers {b : Byte} {f : Fin 128 → Channel → State → Answer} {s : State} {P : State → Prop}
    (h : ∀ c ch, s.channels.get c = some ch → Answers s P (f c ch s)) : Answers s P (onChannel b f s) := by
  unfold onChannel
  split
  · exact answers_refuse nofun
  · split
    · exact answers_refuse nofun
    · exact h _ _ ‹_›

theorem chanGet_answers (b : Byte) (s : State) :
    Answers s (fun t => ∃ c, t = updChan c (fun ch => { ch with underrunSeen := false }) s) (chanGet b s) :=
  onChannel_answers fun c _ _ => answers_accept _ ⟨c, rfl⟩

theorem chanClear_answers (b : Byte) (s : State) :
    Answers s (fun t => ∃ c ch, s.channels.get c = some ch ∧ ch.atRest = true
      ∧ t = { s with channels := s.channels.set c none }) (chanClear b s) :=
  onChannel_answers fun c ch h => by
    split
    · next hr => exact answers_accept _ ⟨c, ch, h, hr, rfl⟩
    · exact answers_refuse nofun

theorem onZone_answers {b : Byte} {f : Fin 8 → State → Answer} {s : State} {P : State → Prop}
    (h : ∀ z, Answers s P (f z s)) : Answers s P (onZone b f s) := by
  unfold onZone
  split
  · exact answers_refuse nofun
  · exact h _

theorem zoneLock_answers (b : Byte) (s : State) :
    Answers s (fun t => ∃ z, t = lockZone z s) (zoneLock b s) :=
  onZone_answers fun z => answers_accept _ ⟨z, rfl⟩

theorem zoneUnlock_answers (b : Byte) (s : State) :
    Answers s (fun t => ∃ z, t = updZone z (fun q => { q with locked := false }) s) (zoneUnlock b s) :=
  onZone_answers fun z => answers_accept _ ⟨z, rfl⟩

theorem zoneGet_answers (b : Byte) (s : State) : Answers s (fun t => t = s) (zoneGet b s) :=
  onZone_answers fun _ => answers_accept _ rfl

/-! ## Alerts -/

theorem ainSet_answers (a : AinSetArgs) (s : State) :
    Answers s (fun t => ∃ i pol, t = updAin i (Ain.program (nowMs s) pol (debounceOf a.debounce)) s)
      (ainSet a s) := by
  unfold ainSet
  split
  · next i pol _ _ => exact answers_accept _ ⟨i, pol, rfl⟩
  · exact answers_refuse nofun

theorem ainGet_answers (b : Byte) (s : State) : Answers s (fun t => t = s) (ainGet b s) := by
  unfold ainGet
  split
  · exact answers_refuse nofun
  · exact answers_accept _ rfl

theorem flagSet_answers (a : FlagSetArgs) (s : State) :
    Answers s (fun t => ∃ j level, t = setFlag j level s) (flagSet a s) := by
  unfold flagSet
  split
  · next j level _ _ => exact answers_accept _ ⟨j, level, rfl⟩
  · exact answers_refuse nofun

theorem alertSet_answers (a : AlertSetArgs) (s : State) :
    Answers s (fun t => ∃ i c, alertCfgOf a = some c ∧ (s.alerts.get i).capable = false
      ∧ (c.enabled = true → (s.lanes.get c.lane).bound = none) ∧ t = configureAlert i c.apply s)
      (alertSet a s) := by
  unfold alertSet
  split
  · next i c _ hc =>
    unfold setAlert
    split
    · exact answers_refuse nofun
    · next hcap =>
      split
      · exact answers_refuse nofun
      · next hb =>
        refine answers_accept _ ⟨i, c, hc, by simpa using hcap, ?_, rfl⟩
        intro he
        simpa [he] using hb
  · exact answers_refuse nofun

theorem alertGet_answers (b : Byte) (s : State) : Answers s (fun t => t = s) (alertGet b s) := by
  unfold alertGet
  split
  · exact answers_refuse nofun
  · exact answers_accept _ rfl

theorem alertEnd_answers (b : Byte) (s : State) :
    Answers s (fun t => ∃ i, (s.alerts.get i).capable = true
      ∧ t = endAlert (if condition s (s.alerts.get i) then .spent else .idle) i s) (alertEnd b s) := by
  unfold alertEnd
  split
  · exact answers_refuse nofun
  · next i _ =>
    dsimp only
    split
    · next hc => exact answers_accept _ ⟨i, hc, rfl⟩
    · exact answers_refuse nofun

/-! ## Tallies and attention -/

theorem tallySet_answers (a : TallySetArgs) (s : State) :
    Answers s (fun t => ∃ o x, tallyOf a (s.tallies.get o) = some x
      ∧ t = updTally o (fun _ => tallyLook (nowMs s) s.alerts x) s) (tallySet a s) := by
  unfold tallySet
  split
  · exact answers_refuse nofun
  · next o _ =>
    split
    · exact answers_refuse nofun
    · next x hx => exact answers_accept _ ⟨o, x, hx, rfl⟩

theorem tallyGet_answers (b : Byte) (s : State) : Answers s (fun t => t = s) (tallyGet b s) := by
  unfold tallyGet
  split
  · exact answers_refuse nofun
  · exact answers_accept _ rfl

theorem attnMask_answers (a : AttnMaskArgs) (s : State) :
    Answers s (fun t => ∃ m, t = { s with
      mask := BitVec.ofNat 9 a.mask.toNat, lineMode := m, gap := if m = .level then none else s.gap })
      (attnMask a s) := by
  unfold attnMask
  split
  · exact answers_refuse nofun
  · next m _ => exact answers_accept _ ⟨m, rfl⟩

theorem poll_answers (s : State) :
    Answers s (fun t => (lowestSource s = none ∧ t = s) ∨ ∃ src, lowestSource s = some src
      ∧ t = { s with
          attn := s.attn.set src 0#9, gap := gapAfterPoll { s with attn := s.attn.set src 0#9 } }) (poll s) := by
  unfold poll
  split
  · next h => exact answers_accept _ (Or.inl ⟨h, rfl⟩)
  · next src h => exact answers_accept _ (Or.inr ⟨src, h, rfl⟩)

theorem resetStreams_answers (s : State) : Answers s (fun t => t = resetStreamsAll s) (resetStreams s) :=
  answers_accept _ rfl

theorem resetAll_answers (s : State) : Answers s (fun t => t = fullReset s) (resetAll s) := answers_accept _ rfl

theorem summary_answers (s : State) : Answers s (fun t => t = s) (summary s) := answers_accept _ rfl

/-! ## A request that executes -/

/-- With RESET_N high and the slot empty or holding the request, the block's answer is completed (R180). -/
theorem serve_runs {tag kind : Byte} {same : List Byte → Bool} {block : State → Answer} {s : State}
    (h : (!s.resetLow && match s.reqSlot with
      | none => true
      | some r => slotHolds r tag kind same) = true) :
    serve tag kind same block s = complete tag kind (block s) := by
  unfold serve
  cases hr : s.resetLow with
  | true => simp [hr] at h
  | false =>
    cases hq : s.reqSlot with
    | none => simp
    | some r => simp [hr, hq] at h; simp [h]

theorem complete_accept (tag kind : Byte) (body : List Byte) (t : State) :
    complete tag kind (accept body t) = answered tag kind .ok body t := rfl

theorem complete_refuse (tag kind : Byte) (c : Code) (s : State) :
    complete tag kind (refuse c s) = answered tag kind c [] s := rfl

theorem exec_serviceSet {tag : Byte} {a : ServiceSetArgs} {s : State} (h : canServe (.serviceSet tag a) s = true) :
    exec (.serviceSet tag a) s = .next (complete tag kServiceSet (serviceSet a s)) := congrArg Host.Outcome.next (serve_runs h)

theorem exec_serviceGet {tag : Byte} {a : Byte} {s : State} (h : canServe (.serviceGet tag a) s = true) :
    exec (.serviceGet tag a) s = .next (complete tag kServiceGet (serviceGet a s)) := congrArg Host.Outcome.next (serve_runs h)

theorem exec_serviceClear {tag : Byte} {a : Byte} {s : State} (h : canServe (.serviceClear tag a) s = true) :
    exec (.serviceClear tag a) s = .next (complete tag kServiceClear (serviceClear a s)) := congrArg Host.Outcome.next (serve_runs h)

theorem exec_templateSet {tag : Byte} {a : TemplateSetArgs} {s : State} (h : canServe (.templateSet tag a) s = true) :
    exec (.templateSet tag a) s = .next (complete tag kTemplateSet (templateSet a s)) := congrArg Host.Outcome.next (serve_runs h)

theorem exec_outcomeGet {tag : Byte} {a : Byte} {s : State} (h : canServe (.outcomeGet tag a) s = true) :
    exec (.outcomeGet tag a) s = .next (complete tag kOutcomeGet (outcomeGet a s)) := congrArg Host.Outcome.next (serve_runs h)

theorem exec_availCreate {tag : Byte} {a : AvailCreateArgs} {s : State} (h : canServe (.availCreate tag a) s = true) :
    exec (.availCreate tag a) s = .next (complete tag kAvailCreate (availCreate a s)) := congrArg Host.Outcome.next (serve_runs h)

theorem exec_availAmend {tag : Byte} {a : AvailAmendArgs} {s : State} (h : canServe (.availAmend tag a) s = true) :
    exec (.availAmend tag a) s = .next (complete tag kAvailAmend (availAmend a s)) := congrArg Host.Outcome.next (serve_runs h)

theorem exec_availCancel {tag : Byte} {a : KeyArgs} {s : State} (h : canServe (.availCancel tag a) s = true) :
    exec (.availCancel tag a) s = .next (complete tag kAvailCancel (availCancel a s)) := congrArg Host.Outcome.next (serve_runs h)

theorem exec_availReturn {tag : Byte} {a : KeyArgs} {s : State} (h : canServe (.availReturn tag a) s = true) :
    exec (.availReturn tag a) s = .next (complete tag kAvailReturn (availReturn a s)) := congrArg Host.Outcome.next (serve_runs h)

theorem exec_availConfirm {tag : Byte} {a : KeyArgs} {s : State} (h : canServe (.availConfirm tag a) s = true) :
    exec (.availConfirm tag a) s = .next (complete tag kAvailConfirm (availConfirm a s)) := congrArg Host.Outcome.next (serve_runs h)

theorem exec_availDecline {tag : Byte} {a : KeyArgs} {s : State} (h : canServe (.availDecline tag a) s = true) :
    exec (.availDecline tag a) s = .next (complete tag kAvailDecline (availDecline a s)) := congrArg Host.Outcome.next (serve_runs h)

theorem exec_availGet {tag : Byte} {a : KeyArgs} {s : State} (h : canServe (.availGet tag a) s = true) :
    exec (.availGet tag a) s = .next (complete tag kAvailGet (availGet a s)) := congrArg Host.Outcome.next (serve_runs h)

theorem exec_availWalk {tag : Byte} {a : WalkArgs} {s : State} (h : canServe (.availWalk tag a) s = true) :
    exec (.availWalk tag a) s = .next (complete tag kAvailWalk (availWalk a s)) := congrArg Host.Outcome.next (serve_runs h)

theorem exec_laneSet {tag : Byte} {a : LaneSetArgs} {s : State} (h : canServe (.laneSet tag a) s = true) :
    exec (.laneSet tag a) s = .next (complete tag kLaneSet (laneSet a s)) := congrArg Host.Outcome.next (serve_runs h)

theorem exec_laneGet {tag : Byte} {a : Byte} {s : State} (h : canServe (.laneGet tag a) s = true) :
    exec (.laneGet tag a) s = .next (complete tag kLaneGet (laneGet a s)) := congrArg Host.Outcome.next (serve_runs h)

theorem exec_laneClose {tag : Byte} {a : Byte} {s : State} (h : canServe (.laneClose tag a) s = true) :
    exec (.laneClose tag a) s = .next (complete tag kLaneClose (laneClose a s)) := congrArg Host.Outcome.next (serve_runs h)

theorem exec_laneGuardSet {tag : Byte} {a : BitVec 32} {s : State} (h : canServe (.laneGuardSet tag a) s = true) :
    exec (.laneGuardSet tag a) s = .next (complete tag kLaneGuardSet (laneGuardSet a s)) := congrArg Host.Outcome.next (serve_runs h)

theorem exec_portSet {tag : Byte} {a : PortSetArgs} {s : State} (h : canServe (.portSet tag a) s = true) :
    exec (.portSet tag a) s = .next (complete tag kPortSet (portSet a s)) := congrArg Host.Outcome.next (serve_runs h)

theorem exec_portGet {tag : Byte} {a : Byte} {s : State} (h : canServe (.portGet tag a) s = true) :
    exec (.portGet tag a) s = .next (complete tag kPortGet (portGet a s)) := congrArg Host.Outcome.next (serve_runs h)

theorem exec_chanSet {tag : Byte} {a : ChanSetArgs} {s : State} (h : canServe (.chanSet tag a) s = true) :
    exec (.chanSet tag a) s = .next (complete tag kChanSet (chanSet a s)) := congrArg Host.Outcome.next (serve_runs h)

theorem exec_chanGet {tag : Byte} {a : Byte} {s : State} (h : canServe (.chanGet tag a) s = true) :
    exec (.chanGet tag a) s = .next (complete tag kChanGet (chanGet a s)) := congrArg Host.Outcome.next (serve_runs h)

theorem exec_chanClear {tag : Byte} {a : Byte} {s : State} (h : canServe (.chanClear tag a) s = true) :
    exec (.chanClear tag a) s = .next (complete tag kChanClear (chanClear a s)) := congrArg Host.Outcome.next (serve_runs h)

theorem exec_zoneLock {tag : Byte} {a : Byte} {s : State} (h : canServe (.zoneLock tag a) s = true) :
    exec (.zoneLock tag a) s = .next (complete tag kZoneLock (zoneLock a s)) := congrArg Host.Outcome.next (serve_runs h)

theorem exec_zoneUnlock {tag : Byte} {a : Byte} {s : State} (h : canServe (.zoneUnlock tag a) s = true) :
    exec (.zoneUnlock tag a) s = .next (complete tag kZoneUnlock (zoneUnlock a s)) := congrArg Host.Outcome.next (serve_runs h)

theorem exec_zoneGet {tag : Byte} {a : Byte} {s : State} (h : canServe (.zoneGet tag a) s = true) :
    exec (.zoneGet tag a) s = .next (complete tag kZoneGet (zoneGet a s)) := congrArg Host.Outcome.next (serve_runs h)

theorem exec_ainSet {tag : Byte} {a : AinSetArgs} {s : State} (h : canServe (.ainSet tag a) s = true) :
    exec (.ainSet tag a) s = .next (complete tag kAinSet (ainSet a s)) := congrArg Host.Outcome.next (serve_runs h)

theorem exec_ainGet {tag : Byte} {a : Byte} {s : State} (h : canServe (.ainGet tag a) s = true) :
    exec (.ainGet tag a) s = .next (complete tag kAinGet (ainGet a s)) := congrArg Host.Outcome.next (serve_runs h)

theorem exec_flagSet {tag : Byte} {a : FlagSetArgs} {s : State} (h : canServe (.flagSet tag a) s = true) :
    exec (.flagSet tag a) s = .next (complete tag kFlagSet (flagSet a s)) := congrArg Host.Outcome.next (serve_runs h)

theorem exec_alertSet {tag : Byte} {a : AlertSetArgs} {s : State} (h : canServe (.alertSet tag a) s = true) :
    exec (.alertSet tag a) s = .next (complete tag kAlertSet (alertSet a s)) := congrArg Host.Outcome.next (serve_runs h)

theorem exec_alertGet {tag : Byte} {a : Byte} {s : State} (h : canServe (.alertGet tag a) s = true) :
    exec (.alertGet tag a) s = .next (complete tag kAlertGet (alertGet a s)) := congrArg Host.Outcome.next (serve_runs h)

theorem exec_alertEnd {tag : Byte} {a : Byte} {s : State} (h : canServe (.alertEnd tag a) s = true) :
    exec (.alertEnd tag a) s = .next (complete tag kAlertEnd (alertEnd a s)) := congrArg Host.Outcome.next (serve_runs h)

theorem exec_tallySet {tag : Byte} {a : TallySetArgs} {s : State} (h : canServe (.tallySet tag a) s = true) :
    exec (.tallySet tag a) s = .next (complete tag kTallySet (tallySet a s)) := congrArg Host.Outcome.next (serve_runs h)

theorem exec_tallyGet {tag : Byte} {a : Byte} {s : State} (h : canServe (.tallyGet tag a) s = true) :
    exec (.tallyGet tag a) s = .next (complete tag kTallyGet (tallyGet a s)) := congrArg Host.Outcome.next (serve_runs h)

theorem exec_attnMask {tag : Byte} {a : AttnMaskArgs} {s : State} (h : canServe (.attnMask tag a) s = true) :
    exec (.attnMask tag a) s = .next (complete tag kAttnMask (attnMask a s)) := congrArg Host.Outcome.next (serve_runs h)

theorem exec_poll {tag : Byte} {s : State} (h : canServe (.poll tag) s = true) :
    exec (.poll tag) s = .next (complete tag kPoll (poll s)) := congrArg Host.Outcome.next (serve_runs h)

theorem exec_summary {tag : Byte} {s : State} (h : canServe (.summary tag) s = true) :
    exec (.summary tag) s = .next (complete tag kSummary (summary s)) := congrArg Host.Outcome.next (serve_runs h)

theorem exec_resetStreams {tag : Byte} {s : State} (h : canServe (.resetStreams tag) s = true) :
    exec (.resetStreams tag) s = .next (complete tag kResetStreams (resetStreams s)) := congrArg Host.Outcome.next (serve_runs h)

theorem exec_resetAll {tag : Byte} {s : State} (h : canServe (.resetAll tag) s = true) :
    exec (.resetAll tag) s = .next (complete tag kResetAll (resetAll s)) := congrArg Host.Outcome.next (serve_runs h)

/-! ## Indexes -/

theorem fin?_eq_some {n : Nat} {b : Byte} {i : Fin n} (h : b.toNat = i.val) : fin? n b = some i := by
  unfold fin?; rw [dif_pos (by omega)]; simp [h]

theorem fin?_eq_none {n : Nat} {b : Byte} (h : n ≤ b.toNat) : fin? n b = none := by
  unfold fin?; rw [dif_neg (by omega)]

end Sys2Proof.Machine
end

