-- ==== Sys2Proof/Laws/Timers.lean ====
section
/-! SUPPORT. What the timers running out share: the clock, a raised cause, and the records that stay. -/

namespace Sys2Proof.Machine

/-- The clock after a timer that was due at `n` (log 3). -/
theorem reachMs_eq (n : Nat) (s : State) : reachMs n s = { s with refCount := countAt n s } := by
  unfold reachMs countAt nowMs
  split <;> rfl

theorem live_of_high {f : State → State} {s : State} (h : s.resetLow = false) :
    live f s = f s := by unfold live; rw [h]; rfl

/-- A cause that the mask lets through is held after the raise, and whatever follows keeps it (R168). -/
theorem held_after_raise {s : State} {src k t} (ht : Grows (raise src k s) t) (h : s.mask.getLsbD k.bit = true) (hf :
    k.flag.getLsbD k.bit = true) : (t.attn.get src).getLsbD k.bit = true := by
  obtain ⟨m, e, _⟩ := ht src
  rw [e, attn_raise, if_pos h, Table.get_set, if_pos rfl]
  simp [hf]

/-- A record with a placement that is not DONE outlives the retiring of its service (R27). -/
theorem findRec_retireDone {s : State} {k r} (i) (hr : findRec k s = some r) (hd : r.allDone = false) : findRec k
    (retireDone i s) = some r := by
  unfold retireDone
  refine overList_keeps (fun u => findRec k u = some r) (fun k' _ u hu => ?_) hr
  split
  · next r' hr' =>
    split
    · next ha =>
      have hk : k' ≠ k := by
        rintro rfl
        rw [hu] at hr'; cases hr'; rw [hd] at ha; cases ha
      have : findRec k (retire r' u) = (u.avails.filter fun q => decide (q.key ≠ r'.key)).find? fun r => decide
          (r.key = k) := by
        unfold findRec; rw [avails_retire]
      rw [this]
      have hk' : r'.key = k' := findRec_key hr'
      rw [List.find?_filter]
      rw [← hu]
      unfold findRec
      congr 1
      funext q
      by_cases e : q.key = k
      · simp [e, hk', Ne.symm hk]
      · simp [e]
    · exact hu
  · exact hu

theorem findRec_updRec {s : State} {k r} (f : Avail → Avail) (hf : ∀ r, (f r).key = r.key) (hr :
    findRec k s = some r) : findRec k (updRec k f s) = some (f r) := by
  unfold findRec at hr ⊢
  rw [avails_updRec]
  rw [List.find?_map]
  have : ((fun r : Avail => decide (r.key = k)) ∘ fun r => if r.key = k then f r else r) = fun r => decide
      (r.key = k) := by
    funext q; simp only [Function.comp]; split
    · next e => rw [hf]
    · rfl
  rw [this, hr]
  have := findRec_key hr
  simp [this]

end Sys2Proof.Machine
end

