-- ==== Sys2Proof/Laws/Table.lean ====
section
/-! SUPPORT. One record of the Avail Table, found by its key, under the shared operations: what becomes of it and of
each of its placements, and of the lanes they are bound to. -/

namespace Sys2Proof.Machine

/-! ## Finding a record -/

theorem findRec_of_avails {s t : State} (h : t.avails = s.avails) (k : Key) : findRec k t = findRec k s := by
  unfold findRec; rw [h]

theorem findRec_updRec_other {s : State} {k k' : Key} (f : Avail → Avail) (hf : ∀ r, (f r).key = r.key) (hk : k' ≠ k) :
    findRec k' (updRec k f s) = findRec k' s := by
  unfold findRec
  rw [avails_updRec]
  induction s.avails with
  | nil => rfl
  | cons r l ih =>
    rw [List.map_cons, List.find?_cons, List.find?_cons, ih]
    by_cases e : r.key = k
    · have hne : ¬ r.key = k' := fun e' => hk (e'.symm.trans e)
      rw [if_pos e, hf, decide_eq_false hne]
    · rw [if_neg e]

theorem findPlacement_eq {s : State} {p : PRef} {r : Avail} (h : findRec p.key s = some r) :
    findPlacement p s = r.placements[p.idx]? := by
  unfold findPlacement; rw [h]; rfl

theorem findRec_updPlacement {s : State} {p : PRef} {r : Avail} (f : Placement → Placement)
    (h : findRec p.key s = some r) :
    findRec p.key (updPlacement p f s) = some (r.updPlacement p.idx f) := findRec_updRec _ (fun _ => rfl) h

/-- With no key twice, a record of the table is the one that its key finds. -/
theorem findRec_of_mem {s : State} {r : Avail} (hn : (s.avails.map fun q => q.key).Nodup) (h : r ∈ s.avails) :
    findRec r.key s = some r := by
  unfold findRec
  generalize s.avails = l at hn h
  induction l with
  | nil => cases h
  | cons q l ih =>
    rw [List.map_cons, List.nodup_cons] at hn
    rw [List.find?_cons]
    by_cases e : q.key = r.key
    · rw [decide_eq_true e]
      rcases List.mem_cons.mp h with h | h
      · rw [h]
      · exact absurd (List.mem_map.mpr ⟨r, h, e.symm⟩) hn.1
    · rw [decide_eq_false e]
      rcases List.mem_cons.mp h with h | h
      · exact absurd (by rw [h]) e
      · exact ih hn.2 h

/-! ## Ending placements -/

/-- A placement that ends with an outcome (R34). -/
def Placement.ended (o : Outcome) (q : Placement) : Placement :=
  if q.state = .done then q else { q with state := .done, outcome := some o, bound := none }

/-- A lane that a placement hands back (R85). -/
def Lane.handedBack (now : Nat) (p : PRef) (ln : Lane) : Lane :=
  if ln.bound = some p then
    if ln.state = .opening ∨ ln.state = .ready then Lane.enterClosing now { ln with bound := none }
    else { ln with bound := none }
  else ln

theorem lanes_handBack (l : Fin 16) (p : PRef) (s : State) :
    (handBack l p s).lanes = s.lanes.set l ((s.lanes.get l).handedBack (nowMs s) p) := by
  unfold handBack
  rw [lanes_updLane]
  congr 1
  unfold Lane.handedBack
  split
  · cases (s.lanes.get l).state <;> simp
  · rfl

theorem modify_ended {q : Placement} {ps : List Placement} {i : Nat} (o : Outcome) (h : ps[i]? = some q) :
    ps.modify i (Placement.ended o) = if q.state = .done then ps
      else ps.modify i (fun q => { q with state := .done, outcome := some o, bound := none }) := by
  apply List.ext_getElem?
  intro j
  split
  · next hd =>
    rw [List.getElem?_modify]
    split
    · next e => subst e; rw [h]; simp [Placement.ended, hd]
    · simp
  · next hd =>
    rw [List.getElem?_modify, List.getElem?_modify]
    split
    · next e => subst e; rw [h]; simp [Placement.ended, hd]
    · rfl

/-- Ending one placement changes that placement of its record alone. -/
theorem findRec_finishPlacement {s : State} {p : PRef} {r : Avail} (o : Outcome) (h : findRec p.key s = some r) :
    findRec p.key (finishPlacement o p s) = some (r.updPlacement p.idx (Placement.ended o)) := by
  unfold finishPlacement
  rw [findPlacement_eq h]
  cases hq : r.placements[p.idx]? with
  | none =>
    rw [h]
    unfold Avail.updPlacement
    rw [List.modify_eq_self (by simpa using hq)]
  | some q =>
    dsimp only
    unfold Avail.updPlacement
    rw [modify_ended o hq]
    split
    · exact h
    · refine findRec_updPlacement _ ?_
      split
      · exact (findRec_of_avails rfl _).trans h
      · exact h

theorem findRec_finishPlacement_other {s : State} {p : PRef} {k : Key} (o : Outcome) (h : k ≠ p.key) :
    findRec k (finishPlacement o p s) = findRec k s := by
  unfold finishPlacement
  split
  · rfl
  · split
    · rfl
    · unfold updPlacement
      dsimp only
      rw [findRec_updRec_other _ (by intro r; rfl) h]
      split <;> rfl

/-- What a loop over a record's placements in order makes of it, when each round changes its own placement alone. -/
theorem findRec_overPlacements {k : Key} {f : PRef → State → State} {g : Placement → Placement}
    (h : ∀ (i : Nat) (s : State) (r : Avail), findRec k s = some r →
      findRec k (f ⟨k, i⟩ s) = some (r.updPlacement i g))
    {s : State} {r : Avail} (hr : findRec k s = some r) (n : Nat) :
    findRec k (overList ((List.range n).map fun i => ⟨k, i⟩) f s) =
      some { r with placements := r.placements.mapIdx fun j q => if j < n then g q else q } := by
  induction n with
  | zero =>
    refine hr.trans (congrArg some ?_)
    have : (r.placements.mapIdx fun j q => if j < 0 then g q else q) = r.placements := by
      apply List.ext_getElem? ; intro j; simp
    rw [this]
  | succ n ih =>
    rw [List.range_succ, List.map_append]
    unfold overList at ih ⊢
    rw [List.foldl_append]
    simp only [List.map_cons, List.map_nil, List.foldl_cons, List.foldl_nil]
    rw [h n _ _ ih]
    unfold Avail.updPlacement
    congr 2
    apply List.ext_getElem?
    intro j
    rw [List.getElem?_modify, List.getElem?_mapIdx, List.getElem?_mapIdx]
    cases r.placements[j]? with
    | none => rfl
    | some q =>
      simp only [Option.map_some, Option.map_eq_map]
      congr 1
      by_cases e : n = j
      · subst e; simp
      · rw [if_neg e]
        by_cases h' : j < n
        · rw [if_pos h', if_pos (by omega)]
        · rw [if_neg h', if_neg (by omega)]

theorem findRec_finishAll {s : State} {k : Key} {r : Avail} (o : Outcome) (h : findRec k s = some r) :
    findRec k (finishAll o k s) = some { r with placements := r.placements.map (Placement.ended o) } := by
  unfold finishAll placementRefs
  rw [h]
  dsimp only
  rw [findRec_overPlacements (g := Placement.ended o) (fun i s r hr => findRec_finishPlacement (p := ⟨k, i⟩) o hr) h]
  congr 2
  apply List.ext_getElem?
  intro j
  rw [List.getElem?_mapIdx, List.getElem?_map]
  cases hq : r.placements[j]? with
  | none => rfl
  | some q => simp [(List.getElem?_eq_some_iff.mp hq).1]

theorem findRec_finishAll_other {s : State} {k k' : Key} (o : Outcome) (h : k' ≠ k) :
    findRec k' (finishAll o k s) = findRec k' s := by
  unfold finishAll
  refine overList_keeps (fun t => findRec k' t = findRec k' s) (fun p hp t ht => ?_) rfl
  have : p.key = k := by
    unfold placementRefs at hp
    split at hp
    · obtain ⟨i, _, e⟩ := List.mem_map.mp hp
      rw [← e]
    · cases hp
  rw [findRec_finishPlacement_other o (by rw [this]; exact h)]
  exact ht

/-! ## One placement at a time -/

theorem findPlacement_of_avails {s t : State} (h : t.avails = s.avails) (p : PRef) :
    findPlacement p t = findPlacement p s := by
  unfold findPlacement; rw [findRec_of_avails h]

theorem findPlacement_updPlacement_other {s : State} {p q : PRef} (f : Placement → Placement) (h : q ≠ p) :
    findPlacement q (updPlacement p f s) = findPlacement q s := by
  unfold findPlacement
  by_cases e : q.key = p.key
  · cases hr : findRec q.key s with
    | none =>
      have : findRec q.key (updPlacement p f s) = none := by
        have hk : keys (updPlacement p f s) = keys s := keys_updRec _ (by intro r; rfl) s
        have : q.key ∉ keys (updPlacement p f s) := by
          rw [hk]; exact mt findRec_isSome.mpr (by rw [hr]; nofun)
        cases h' : findRec q.key (updPlacement p f s) with
        | none => rfl
        | some r => exact absurd (findRec_isSome.mp (by rw [h']; rfl)) this
      rw [this]
    | some r =>
      rw [e] at hr ⊢
      rw [findRec_updPlacement f hr]
      have hi : ¬ p.idx = q.idx := fun hi => h (by cases p; cases q; simp_all)
      simp [Avail.placement, Avail.updPlacement, hi]
  · rw [show findRec q.key (updPlacement p f s) = findRec q.key s from
      findRec_updRec_other _ (by intro r; rfl) e]

theorem findPlacement_updPlacement {s : State} {p : PRef} {q : Placement} (f : Placement → Placement)
    (h : findPlacement p s = some q) : findPlacement p (updPlacement p f s) = some (f q) := by
  unfold findPlacement at h ⊢
  cases hr : findRec p.key s with
  | none => rw [hr] at h; cases h
  | some r =>
    rw [hr] at h
    rw [findRec_updPlacement f hr]
    simp only [Option.bind_some, Avail.placement, Avail.updPlacement, List.getElem?_modify] at h ⊢
    rw [h]; simp

theorem findPlacement_finishPlacement_other {s : State} {p q : PRef} (o : Outcome) (h : q ≠ p) :
    findPlacement q (finishPlacement o p s) = findPlacement q s := by
  unfold finishPlacement
  split
  · rfl
  · split
    · rfl
    · dsimp only
      rw [findPlacement_updPlacement_other _ h]
      split
      · exact findPlacement_of_avails rfl _
      · rfl

theorem findPlacement_finishPlacement {s : State} {p : PRef} {q : Placement} (o : Outcome)
    (h : findPlacement p s = some q) : findPlacement p (finishPlacement o p s) = some (q.ended o) := by
  unfold finishPlacement
  rw [h]
  unfold Placement.ended
  dsimp only
  split
  · exact h
  · refine findPlacement_updPlacement _ ?_
    split
    · exact (findPlacement_of_avails rfl _).trans h
    · exact h

theorem findPlacement_requestLane_other {s : State} {p q : PRef} (h : q ≠ p) :
    findPlacement q (requestLane p s) = findPlacement q s := by
  unfold requestLane
  split
  · split
    · split
      · exact (findPlacement_of_avails rfl _).trans (findPlacement_updPlacement_other _ h)
      · rfl
    · rfl
  · rfl

/-- A request that is granted: the placement is LANED and the lane is bound to it; no other lane changes (R30, R91). -/
theorem requestLane_granted {s : State} {p : PRef} {r : Avail} {q : Placement} {e : Time} {l : Fin 16}
    (hr : findRec p.key s = some r) (hq : findPlacement p s = some q) (he : r.e = some e)
    (ha : allocate s p q.lane e = some l) :
    requestLane p s = grant l p (updPlacement p (fun q => { q with state := .laned, bound := some l }) s) := by
  unfold requestLane; rw [hr, hq]; dsimp only; rw [he]; dsimp only; rw [ha]

/-- A request that is refused changes nothing (R30). -/
theorem requestLane_refused {s : State} {p : PRef} {r : Avail} {q : Placement} {e : Time}
    (hr : findRec p.key s = some r) (hq : findPlacement p s = some q) (he : r.e = some e)
    (ha : allocate s p q.lane e = none) : requestLane p s = s := by
  unfold requestLane; rw [hr, hq]; dsimp only; rw [he]; dsimp only; rw [ha]

theorem bound_grant (l : Fin 16) (p : PRef) (s : State) : ((grant l p s).lanes.get l).bound = some p := by
  unfold grant
  rw [lanes_updLane, Table.get_set, if_pos rfl]
  split <;> rfl

theorem findPlacement_armPlacement_other {s : State} {p q : PRef} (h : q ≠ p) :
    findPlacement q (armPlacement p s) = findPlacement q s := by
  unfold armPlacement
  split
  · rfl
  · split
    · exact findPlacement_requestLane_other h
    · exact findPlacement_finishPlacement_other _ h

theorem findPlacement_retryLane_other {s : State} {p q : PRef} (h : q ≠ p) :
    findPlacement q (retryLane p s) = findPlacement q s := by
  unfold retryLane
  split
  · split
    · exact findPlacement_requestLane_other h
    · rfl
  · rfl

/-- In a loop over a record's placements in order, a round that changes its own placement alone finds its placement as
it was and leaves it as the round made it. -/
theorem findPlacement_overPlacements {k : Key} {f : PRef → State → State}
    (h : ∀ {s : State} {p q : PRef}, q ≠ p → findPlacement q (f p s) = findPlacement q s) (s : State) (j n : Nat) :
    (n ≤ j → findPlacement ⟨k, j⟩ (overList ((List.range n).map fun i => ⟨k, i⟩) f s) = findPlacement ⟨k, j⟩ s)
    ∧ (j < n → findPlacement ⟨k, j⟩ (overList ((List.range n).map fun i => ⟨k, i⟩) f s) =
        findPlacement ⟨k, j⟩ (f ⟨k, j⟩ (overList ((List.range j).map fun i => ⟨k, i⟩) f s))) := by
  have step (m : Nat) : overList ((List.range (m + 1)).map fun i => (⟨k, i⟩ : PRef)) f s =
      f ⟨k, m⟩ (overList ((List.range m).map fun i => ⟨k, i⟩) f s) := by
    rw [List.range_succ, List.map_append]
    unfold overList
    rw [List.foldl_append]
    rfl
  induction n with
  | zero => exact ⟨fun _ => rfl, fun h => absurd h (Nat.not_lt_zero _)⟩
  | succ n ih =>
    rw [step]
    have ne (hj : j ≠ n) : (⟨k, j⟩ : PRef) ≠ ⟨k, n⟩ := fun e => hj (by injection e)
    refine ⟨fun hj => ?_, fun hj => ?_⟩
    · rw [h (ne (by omega))]; exact ih.1 (by omega)
    · by_cases e : j = n
      · subst e; rfl
      · rw [h (ne e)]; exact ih.2 (by omega)

theorem overPlacements_succ (k : Key) (f : PRef → State → State) (s : State) (m : Nat) :
    overList ((List.range (m + 1)).map fun i => (⟨k, i⟩ : PRef)) f s =
      f ⟨k, m⟩ (overList ((List.range m).map fun i => ⟨k, i⟩) f s) := by
  rw [List.range_succ, List.map_append]
  unfold overList
  rw [List.foldl_append]
  rfl

/-- An operation that changes no record but for its placements keeps all of a record but its placements. -/
theorem findRec_of_bares {s t : State} {k : Key} {r : Avail} (hb : bares t = bares s) (hr : findRec k s = some r) :
    ∃ r', findRec k t = some r' ∧ r'.bare = r.bare := by
  have gen : ∀ l m : List Avail, l.map Avail.bare = m.map Avail.bare →
      m.find? (fun r => decide (r.key = k)) = some r →
      ∃ r', l.find? (fun r => decide (r.key = k)) = some r' ∧ r'.bare = r.bare := by
    intro l
    induction l with
    | nil => intro m hm hr; cases m; cases hr; cases hm
    | cons a l ih =>
      intro m hm hr
      cases m with
      | nil => cases hr
      | cons b m =>
        simp only [List.map_cons, List.cons.injEq] at hm
        have hk : a.key = b.key := by have := congrArg Avail.key hm.1; exact this
        rw [List.find?_cons] at hr ⊢
        rw [hk]
        split at hr
        · cases hr; exact ⟨a, rfl, hm.1⟩
        · exact ih m hm.2 hr
  exact gen _ _ hb hr

/-- Some zone of a set holds a port that carries a channel of the service (R30). -/
theorem serviceZones_any {s : State} {i : Fin 64} {zs : ZoneSet} :
    (serviceZones s i).any (fun z => zoneIn zs z) = true ↔
      ∃ c ch, s.channels.get c = some ch ∧ ch.service = i ∧ zoneIn zs (chanZone s ch) = true := by
  unfold serviceZones
  simp only [List.any_eq_true, List.mem_filterMap, chansOfService, mem_chansWhere]
  constructor
  · rintro ⟨z, ⟨c, ⟨ch, h1, h2⟩, h3⟩, h4⟩
    rw [h1] at h3; simp at h3 h2
    exact ⟨c, ch, h1, h2, by rw [h3]; exact h4⟩
  · rintro ⟨c, ch, h1, h2, h3⟩
    exact ⟨_, ⟨c, ⟨ch, h1, by simpa using h2⟩, by rw [h1]; rfl⟩, h3⟩

/-! ## Retiring -/

theorem mem_orderedKeys {s : State} {i : Fin 64} {k : Key} :
    k ∈ orderedKeys s i ↔ k.svc = i ∧ (findRec k s).isSome = true := by
  unfold orderedKeys
  rw [findRec_isSome]
  simp only [List.mem_map, List.mem_filter, mem_tableOrder, keys]
  constructor
  · rintro ⟨r, ⟨h1, h2⟩, rfl⟩
    exact ⟨by simpa using h2, r, h1, rfl⟩
  · rintro ⟨h, r, h1, rfl⟩
    exact ⟨r, ⟨h1, by simpa using h⟩, rfl⟩

theorem findRec_retire_self {s : State} {k : Key} {r : Avail} (h : r.key = k) : findRec k (retire r s) = none := by
  unfold findRec
  rw [avails_retire, h]
  simp

theorem findRec_retire_other {s : State} {k : Key} {r : Avail} (h : k ≠ r.key) :
    findRec k (retire r s) = findRec k s := by
  unfold findRec
  rw [avails_retire, List.find?_filter]
  congr 1
  funext q
  by_cases e : q.key = k
  · simp [e, h]
  · simp [e]

/-- One record of a service's table settled. -/
def retireIfDone (k : Key) (s : State) : State :=
  match findRec k s with
  | some r => if r.allDone then retire r s else s
  | none => s

theorem retireDone_eq (i : Fin 64) (s : State) : retireDone i s = overList (orderedKeys s i) retireIfDone s := rfl

theorem retireIfDone_done {s : State} {k : Key} {r : Avail} (h : findRec k s = some r) (hd : r.allDone = true) :
    retireIfDone k s = retire r s := by
  unfold retireIfDone
  rw [h]
  exact if_pos hd

theorem mask_retireIfDone (k : Key) (s : State) : (retireIfDone k s).mask = s.mask := by
  unfold retireIfDone
  split
  · split
    · unfold retire raise
      dsimp only
      split <;> rfl
    · rfl
  · rfl

theorem grows_retireIfDone (k : Key) (s : State) : Grows s (retireIfDone k s) := by
  unfold retireIfDone
  split
  · split
    · exact grows_retire _ _
    · exact Grows.refl _
  · exact Grows.refl _

theorem findRec_retireIfDone_other {s : State} {k k' : Key} (h : k ≠ k') :
    findRec k (retireIfDone k' s) = findRec k s := by
  unfold retireIfDone
  split
  · next r hr =>
    split
    · exact findRec_retire_other (by rw [findRec_key hr]; exact h)
    · rfl
  · rfl

theorem retireIfDone_absent {s : State} {k : Key} (h : findRec k s = none) : retireIfDone k s = s := by
  unfold retireIfDone; rw [h]

/-- A record with every placement DONE leaves the table when its service's records are settled, and OUTCOME is raised
(R27, R37). -/
theorem retireDone_retires {s : State} {k : Key} {r : Avail} (hr : findRec k s = some r) (hd : r.allDone = true) :
    findRec k (retireDone k.svc s) = none
      ∧ (s.mask.getLsbD 1 = true → ((retireDone k.svc s).attn.get (svcSource k.svc)).getLsbD 1 = true) := by
  have hk : k ∈ orderedKeys s k.svc := mem_orderedKeys.mpr ⟨rfl, by rw [hr]; rfl⟩
  obtain ⟨before, later, e, hb⟩ := List.eq_append_cons_of_mem hk
  let u := overList before retireIfDone s
  have hu : findRec k u = some r := overList_keeps (fun t => findRec k t = some r) (fun k' hk' t ht =>
    (findRec_retireIfDone_other (k := k) (k' := k') (fun e' : k = k' => hb (by rw [e']; exact hk'))).trans ht) hr
  have hm : u.mask = s.mask := overList_keeps (fun t => t.mask = s.mask) (fun k' _ t ht =>
    (mask_retireIfDone k' t).trans ht) rfl
  have et : retireDone k.svc s = overList later retireIfDone (retire r u) := by
    rw [retireDone_eq, e]
    unfold overList
    rw [List.foldl_append, List.foldl_cons]
    exact congrArg (List.foldl _ · later) (retireIfDone_done hu hd)
  rw [et]
  refine ⟨?_, fun h => ?_⟩
  · refine overList_keeps (fun t => findRec k t = none) (fun k' _ t ht => ?_) (findRec_retire_self (findRec_key hr))
    by_cases hkk : k = k'
    · rw [← hkk, retireIfDone_absent ht]; exact ht
    · exact (findRec_retireIfDone_other hkk).trans ht
  · have hg : Grows (retire r u) (overList later retireIfDone (retire r u)) := grows_overList grows_retireIfDone _
    unfold retire at hg
    dsimp only at hg
    rw [findRec_key hr] at hg
    have := held_after_raise (k := .outcome) hg (by
      show u.mask.getLsbD 1 = true
      rw [hm]; exact h) (by decide)
    unfold retire
    dsimp only
    rw [findRec_key hr]
    exact this

/-- Where no other record of the service is done, settling retires that one record and does nothing more. -/
theorem retireDone_alone {s : State} {k : Key} {r : Avail} (hr : findRec k s = some r) (hd : r.allDone = true)
    (ho : ∀ x ∈ s.avails, x.key.svc = k.svc → x.key ≠ k → x.allDone = false) : retireDone k.svc s = retire r s := by
  have hk : k ∈ orderedKeys s k.svc := mem_orderedKeys.mpr ⟨rfl, by rw [hr]; rfl⟩
  obtain ⟨before, later, e, hb⟩ := List.eq_append_cons_of_mem hk
  have same (k' : Key) (h : k' ∈ orderedKeys s k.svc) (hne : k' ≠ k) (t : State)
      (ht : findRec k' t = findRec k' s) : retireIfDone k' t = t := by
    unfold retireIfDone
    rw [ht]
    cases hx : findRec k' s with
    | none => rfl
    | some x =>
      dsimp only
      have hxk := findRec_key hx
      rw [ho x (findRec_mem hx) (by rw [hxk]; exact (mem_orderedKeys.mp h).1) (by rw [hxk]; exact hne)]
      rfl
  have hu : overList before retireIfDone s = s := overList_keeps (fun t => t = s) (fun k' hk' t ht => by
    rw [ht]
    exact same k' (by rw [e]; exact List.mem_append_left _ hk') (fun e' => hb (by rw [← e']; exact hk')) s rfl) rfl
  have et : retireDone k.svc s = overList later retireIfDone (retire r s) := by
    rw [retireDone_eq, e]
    unfold overList at hu ⊢
    rw [List.foldl_append, List.foldl_cons, hu]
    exact congrArg (List.foldl _ · later) (retireIfDone_done hr hd)
  rw [et]
  refine overList_keeps (fun t => t = retire r s) (fun k' hk' t ht => ?_) rfl
  rw [ht]
  by_cases hkk : k' = k
  · rw [hkk]; exact retireIfDone_absent (findRec_retire_self (findRec_key hr))
  · exact same k' (by rw [e]; exact List.mem_append_right _ (List.mem_cons_of_mem _ hk')) hkk _
      (findRec_retire_other (by rw [findRec_key hr]; exact hkk))

/-! ## Lanes handed back -/

/-- A placement that ends hands back the lane it is bound to, and touches no other (R85). -/
theorem lanes_finishPlacement {s : State} {p : PRef} {q : Placement} (o : Outcome) (h : findPlacement p s = some q) :
    (finishPlacement o p s).lanes = if q.state = .done then s.lanes else match q.bound with
      | some l => s.lanes.set l ((s.lanes.get l).handedBack (nowMs s) p)
      | none => s.lanes := by
  unfold finishPlacement
  rw [h]
  dsimp only
  split
  · rfl
  · cases q.bound with
    | none => rfl
    | some l => exact lanes_handBack l p s

/-- A lane bound to another placement, or to none, is not handed back. -/
theorem handedBack_other {p : PRef} {ln : Lane} (now : Nat) (h : ln.bound ≠ some p) : ln.handedBack now p = ln := by
  unfold Lane.handedBack
  rw [if_neg h]

/-- A lane handed back is bound no more. -/
theorem bound_handedBack {p : PRef} {ln : Lane} (now : Nat) (h : ln.bound = some p) :
    (ln.handedBack now p).bound = none := by
  unfold Lane.handedBack
  rw [if_pos h]
  split <;> rfl

/-- When a record's placements end, a lane still bound to one of them is handed back for closing (R85). -/
theorem lane_finishAll {s : State} {r : Avail} {j : Nat} {q : Placement} {l : Fin 16} (o : Outcome)
    (hr : findRec r.key s = some r) (hq : r.placements[j]? = some q) (hd : q.state ≠ .done) (hb : q.bound = some l)
    (hl : (s.lanes.get l).bound = some ⟨r.key, j⟩) :
    (finishAll o r.key s).lanes.get l = (s.lanes.get l).handedBack (nowMs s) ⟨r.key, j⟩ := by
  unfold finishAll placementRefs
  rw [hr]
  dsimp only
  have hj := (List.getElem?_eq_some_iff.mp hq).1
  have gen : ∀ n,
      (n ≤ j → (overList ((List.range n).map fun i => (⟨r.key, i⟩ : PRef)) (finishPlacement o) s).lanes.get l =
        s.lanes.get l)
      ∧ (j < n → (overList ((List.range n).map fun i => (⟨r.key, i⟩ : PRef)) (finishPlacement o) s).lanes.get l =
        (s.lanes.get l).handedBack (nowMs s) ⟨r.key, j⟩) := by
    intro n
    induction n with
    | zero => exact ⟨fun _ => rfl, fun h => absurd h (Nat.not_lt_zero _)⟩
    | succ n ih =>
      rw [overPlacements_succ]
      generalize hu : overList ((List.range n).map fun i => (⟨r.key, i⟩ : PRef)) (finishPlacement o) s = u at ih ⊢
      have hnow : nowMs u = nowMs s := by
        have h := overList_onlyRecords (l := (List.range n).map fun i => (⟨r.key, i⟩ : PRef)) (finishPlacement_only o) s
        rw [hu] at h
        rw [h]
        rfl
      have own := (findPlacement_overPlacements (k := r.key) (f := finishPlacement o)
        (findPlacement_finishPlacement_other _) s n n).1 (Nat.le_refl _)
      rw [hu, findPlacement_eq (p := ⟨r.key, n⟩) hr] at own
      have keep (x : Lane) (hx : u.lanes.get l = x) (hno : x.handedBack (nowMs u) ⟨r.key, n⟩ = x) :
          (finishPlacement o ⟨r.key, n⟩ u).lanes.get l = x := by
        cases hp : r.placements[n]? with
        | none =>
          unfold finishPlacement
          rw [own, show r.placements[(⟨r.key, n⟩ : PRef).idx]? = none from hp]
          exact hx
        | some q' =>
          rw [lanes_finishPlacement _ (own.trans hp)]
          split
          · exact hx
          · cases q'.bound with
            | none => exact hx
            | some m =>
              dsimp only
              rw [Table.get_set]
              split
              · next e => subst e; rw [hx, hno]
              · exact hx
      refine ⟨fun h => keep _ (ih.1 (by omega)) (handedBack_other _ ?_), fun h => ?_⟩
      · rw [hl]
        intro e
        injection e with e
        injection e with _ e
        omega
      · by_cases e : j = n
        · subst e
          rw [lanes_finishPlacement _ (own.trans hq), if_neg hd, hb]
          dsimp only
          rw [Table.get_set, if_pos rfl, ih.1 (Nat.le_refl _), hnow]
        · refine keep _ (ih.2 (by omega)) (handedBack_other _ ?_)
          rw [bound_handedBack _ hl]
          nofun
  exact (gen _).2 hj

end Sys2Proof.Machine
end

