-- ==== Sys2Proof/Laws/Resets.lean ====
section
/-! SUPPORT. RESET_STREAMS in its two halves: every block at rest, and the alert records evaluated anew (R158, R167,
R186). -/

namespace Sys2Proof.Machine

theorem abortRecords_only (i : Fin 64) (s : State) : OnlySchedule s (abortRecords i s) :=
  overList_onlySchedule (fun k s => by
    split
    · split
      · dsimp only
        split
        · exact (finishAll_only .aborted k s).schedule.trans (retire_only _ _)
        · exact (finishAll_only .aborted k s).schedule
      · exact .refl s
    · exact .refl s) s

/-- Every ARMED or ACTIVE record ends. -/
def abortedAll (s : State) : State := overFin 64 abortRecords s

theorem abortedAll_only (s : State) : OnlySchedule s (abortedAll s) :=
  overList_onlySchedule (l := List.finRange 64) abortRecords_only s

/-- The streams of `s` reset, and its alert records and tallies at rest, before any condition is evaluated; `u` has the
records that stay. -/
def quietedFrom (s u : State) : State :=
  { u with
    channels := s.channels.mapIdx fun _ (o : Option Channel) => o.map Channel.resetStreams
    lanes := u.lanes.mapIdx fun l (ln : Lane) => ln.resetStreams (s.refCount / 27000) (isStanding s l)
    services := u.services.mapIdx fun _ (o : Option Service) => o.map fun v => { v with tb := Timebase.reset }
    zones := s.zones.mapIdx fun _ (z : Zone) => { z with cover := none, waiting := false }
    alerts := s.alerts.mapIdx fun _ (a : Alert) => a.resetStreams
    tallies := s.tallies.mapIdx fun _ (t : Tally) => t.stop }

def quieted (s : State) : State := quietedFrom s (abortedAll s)

/-- The levels that fall and the stop of every tally leave the tallies stopped, in either order (R167). -/
theorem stopped_after_levels (old : Table Alert 16) (u : State) :
    (deliverLevels old u).tallies.mapIdx (fun _ (t : Tally) => t.stop) =
      u.tallies.mapIdx fun _ (t : Tally) => t.stop := by
  apply Table.ext
  intro o
  simp only [deliverLevels, Table.get_mapIdx]
  exact stop_tallyFollow _ _ _ _

theorem resetAlerts_eq (u : State) : resetAlerts u = overFin 16 alertAct
    { u with
      alerts := u.alerts.mapIdx fun _ (a : Alert) => a.resetStreams
      tallies := u.tallies.mapIdx fun _ (t : Tally) => t.stop } := by
  unfold resetAlerts
  dsimp only
  rw [stopped_after_levels]
  rfl

theorem quietedFrom_eq {s u : State} (h : OnlySchedule s u) : quietedFrom s u = quietedFrom u u := by
  have hc : s.channels = u.channels := by rw [h]
  have hz : s.zones = u.zones := by rw [h]
  have ha : s.alerts = u.alerts := by rw [h]
  have hts : s.tallies = u.tallies := by rw [h]
  have hr : s.refCount = u.refCount := by rw [h]
  have hs (l : Fin 16) : isStanding s l = isStanding u l := isStanding_congr (fun a => by rw [ha])
  unfold quietedFrom
  simp only [hs, hc, hz, ha, hts, hr]

theorem restFrom_eq (u : State) :
    (let s := { u with channels := u.channels.mapIdx fun _ (o : Option Channel) => o.map Channel.resetStreams }
     let s := { s with lanes := s.lanes.mapIdx fun l (ln : Lane) => ln.resetStreams (nowMs s) (isStanding s l) }
     let s := resetTimebases s
     let s := { s with zones := s.zones.mapIdx fun _ (z : Zone) => { z with cover := none, waiting := false } }
     resetAlerts s) = overFin 16 alertAct (quietedFrom u u) := by
  dsimp only
  rw [resetAlerts_eq]
  rfl

theorem resetStreamsAll_eq (s : State) : resetStreamsAll s = overFin 16 alertAct (quieted s) := by
  unfold quieted
  rw [quietedFrom_eq (abortedAll_only s), ← restFrom_eq]
  rfl

end Sys2Proof.Machine
end

