-- ==== Sys2Proof/Laws/Activations.lean ====
section
/-! SUPPORT. The order of activations (R144): each operation of the Alert Unit keeps the covering-capable records apart
in it. -/

namespace Sys2Proof.Machine

theorem ActivationsOk.congr {s t : State} (h : ActivationsOk s) (ha : t.alerts = s.alerts)
    (hn : t.activations = s.activations) : ActivationsOk t := by
  unfold ActivationsOk; rw [ha, hn]; exact h

/-- One record changes: it keeps its place, or takes the next one, or is not covering-capable. -/
theorem ActivationsOk.one {s t : State} (h : ActivationsOk s) (a : Fin 16)
    (other : ∀ b, b ≠ a → t.alerts.get b = s.alerts.get b) (le : s.activations ≤ t.activations)
    (own : (t.alerts.get a).capable = true →
      ((s.alerts.get a).capable = true ∧ (t.alerts.get a).seq = (s.alerts.get a).seq)
        ∨ ((t.alerts.get a).seq = s.activations ∧ s.activations < t.activations)) : ActivationsOk t := by
  have apart (b : Fin 16) (ne : b ≠ a) (ha : (t.alerts.get a).capable = true)
      (hb : (t.alerts.get b).capable = true) : (t.alerts.get b).seq ≠ (t.alerts.get a).seq := by
    rw [other b ne] at hb ⊢
    rcases own ha with ⟨c, e⟩ | ⟨e, -⟩ <;> rw [e]
    · exact h.2 b a ne hb c
    · exact Nat.ne_of_lt (h.1 b hb)
  refine ⟨fun b hb => ?_, fun b c ne hb hc => ?_⟩
  · by_cases e : b = a
    · subst e
      rcases own hb with ⟨c, e⟩ | ⟨e, lt⟩ <;> rw [e]
      · exact Nat.lt_of_lt_of_le (h.1 b c) le
      · exact lt
    · rw [other b e] at hb ⊢
      exact Nat.lt_of_lt_of_le (h.1 b hb) le
  · by_cases e : b = a
    · subst e
      exact (apart c (Ne.symm ne) hb hc).symm
    · by_cases e' : c = a
      · subst e'
        exact apart b e hc hb
      · rw [other b e] at hb ⊢
        rw [other c e'] at hc ⊢
        exact h.2 b c ne hb hc

theorem activations_evalZones (zs : ZoneSet) (s : State) : (evalZones zs s).activations = s.activations :=
  overFin_same State.activations (fun z s => by
    split
    · unfold evalZone coverChange coverServing coverWaiting
      dsimp only
      repeat' split
      all_goals first
        | rfl
        | (rw [targetZone_only]; rfl)
        | (rw [activations_raise, overList_onlyChannels (askReturnHeld_only _ _) _]; rfl)
    · rfl) s

/-- What an entry to ACTIVE makes of the records and of the count of activations (R144). -/
theorem enterActive_alerts (a : Fin 16) (s : State) : (enterActive a s).activations = s.activations + 1
    ∧ (∀ b, b ≠ a → (enterActive a s).alerts.get b = s.alerts.get b)
    ∧ ((enterActive a s).alerts.get a).seq = s.activations := by
  unfold enterActive
  dsimp only
  rw [(evalZones_spec _ _).1.alerts, alerts_raise, activations_evalZones, activations_raise]
  refine ⟨rfl, fun b h => ?_, ?_⟩
  · rw [get_updAlert, if_neg (Ne.symm h)]
  · rw [get_updAlert, if_pos rfl]

theorem activationsOk_enterActive (a : Fin 16) {s : State} (h : ActivationsOk s) : ActivationsOk (enterActive a s) := by
  obtain ⟨n, other, own⟩ := enterActive_alerts a s
  exact h.one a other (by omega) fun _ => .inr ⟨own, by omega⟩

theorem activationsOk_updAlert (a : Fin 16) (f : Alert → Alert) {s : State} (h : ActivationsOk s)
    (hf : (f (s.alerts.get a)).capable = true →
      (s.alerts.get a).capable = true ∧ (f (s.alerts.get a)).seq = (s.alerts.get a).seq) :
    ActivationsOk (updAlert a f s) := by
  refine h.one a (fun b e => ?_) (Nat.le_refl _) fun c => .inl ?_
  · rw [get_updAlert, if_neg (Ne.symm e)]
  · rw [get_updAlert, if_pos rfl] at c ⊢
    exact hf c

theorem activationsOk_endAlert (after : AlertState) (a : Fin 16) {s : State} (h : ActivationsOk s)
    (ha : after = .idle ∨ after = .spent) : ActivationsOk (endAlert after a s) := by
  unfold endAlert
  dsimp only
  refine ActivationsOk.congr ?_ (evalZones_spec _ _).1.alerts (activations_evalZones _ _)
  refine ActivationsOk.congr ?_ (alerts_raise _ _ _) (activations_raise _ _ _)
  exact activationsOk_updAlert a _ h fun c => by rcases ha with rfl | rfl <;> simp [Alert.capable] at c

theorem activationsOk_alertAct (a : Fin 16) {s : State} (h : ActivationsOk s) : ActivationsOk (alertAct a s) := by
  unfold alertAct
  dsimp only
  split
  · split
    · exact activationsOk_enterActive a h
    · exact activationsOk_updAlert a _ h (by simp [Alert.capable])
  · exact activationsOk_updAlert a _ h (by simp [Alert.capable])
  · next e _ =>
    split
    · exact activationsOk_endAlert _ a h (.inl rfl)
    · exact activationsOk_updAlert a _ h (by simp [Alert.capable, e])
  · next e _ => exact activationsOk_updAlert a _ h (by simp [Alert.capable, e])
  · exact activationsOk_updAlert a _ h (by simp [Alert.capable])
  · exact h

theorem activationsOk_rejudgeHold (a : Fin 16) {s : State} (h : ActivationsOk s) : ActivationsOk (rejudgeHold a s) := by
  unfold rejudgeHold
  dsimp only
  split
  · split
    · exact activationsOk_enterActive a h
    · exact h
  · exact h

theorem activationsOk_deliverLevel (src : TermSource) {s : State} (h : ActivationsOk s) :
    ActivationsOk (deliverLevel src s) :=
  overFin_keeps ActivationsOk (fun a s h => by
    split
    · exact activationsOk_alertAct a h
    · exact h) h

/-- What every channel of a zone is given, and what the zones of a lane are told, activates no record. -/
theorem activationsOk_laneServes (l : Fin 16) {s : State} (h : ActivationsOk s) : ActivationsOk (laneServes l s) :=
  overFin_keeps ActivationsOk (fun z s h => by
    unfold coverServing
    split
    · split
      · exact h.congr (by rw [targetZone_only]; rfl) (by rw [targetZone_only]; rfl)
      · exact h
    · exact h) h

theorem activationsOk_standingStarved (l : Fin 16) {s : State} (h : ActivationsOk s) :
    ActivationsOk (standingStarved l s) := by
  unfold standingStarved
  refine overFin_keeps ActivationsOk (fun z s h => ?_) ?_
  · split
    · split
      · exact h.congr (alerts_raise _ _ _) (activations_raise _ _ _)
      · exact h
    · exact h
  · have only := overList_onlyChannels (l := chansWhere s (Channel.onOrToLane l)) (giveCoverage_only .network) s
    exact h.congr (by rw [only]) (by rw [only])

/-- A configuration makes no record covering-capable but by the record's acting on its condition (R141). -/
theorem activationsOk_configureAlert (a : Fin 16) (f : Alert → Alert) {s : State} (h : ActivationsOk s)
    (hf : (f (s.alerts.get a)).capable = true →
      (s.alerts.get a).capable = true ∧ (f (s.alerts.get a)).seq = (s.alerts.get a).seq) :
    ActivationsOk (configureAlert a f s) := by
  have unnamed (l : Fin 16) {u : State} (h : ActivationsOk u) : ActivationsOk (laneUnnamed l u) := by
    unfold laneUnnamed
    dsimp only
    have only {l'} (v : State) := overList_onlyChannels (l := l') (giveCoverage_only .network) v
    exact h.congr (by rw [only]; rfl) (by rw [only]; rfl)
  have named (l : Fin 16) {u : State} (h : ActivationsOk u) : ActivationsOk (laneNamed l u) := by
    unfold laneNamed
    dsimp only
    split
    · exact activationsOk_laneServes l (h.congr rfl rfl)
    · exact h.congr rfl rfl
  unfold configureAlert
  dsimp only
  refine activationsOk_rejudgeHold a (activationsOk_alertAct a ?_)
  have start := activationsOk_updAlert a f h hf
  split
  · refine named _ ?_
    split
    · exact unnamed _ start
    · exact start
  · split
    · exact unnamed _ start
    · exact start

theorem activationsOk_resetStreams {s : State} : ActivationsOk (resetStreamsAll s) := by
  rw [resetStreamsAll_eq]
  refine overFin_keeps ActivationsOk (fun a s h => activationsOk_alertAct a h) ?_
  have calm (a) : ((quieted s).alerts.get a).capable = false := by
    show ((Table.mapIdx (fun _ (r : Alert) => r.resetStreams) s.alerts).get a).capable = false
    rw [Table.get_mapIdx]
    unfold Alert.resetStreams Alert.capable
    dsimp only
    split <;> rfl
  exact ⟨fun a h => absurd h (by simp [calm]), fun a _ _ h => absurd h (by simp [calm])⟩

end Sys2Proof.Machine
end

