-- ==== Sys2Proof/Laws/Bodies.lean ====
section
/-! SUPPORT. The lengths of request bodies (R178, R188): a layout of fields of fixed widths is read from bodies of one
length alone, and one with a list from those whose length its count byte gives. -/

namespace Sys2Proof.Machine

/-- A reader takes `k` bytes off the front, whatever they are, where there are so many. -/
def Takes {α : Type} (k : Nat) (u : List Byte → Option (α × List Byte)) : Prop :=
  ∀ bs, (bs.length < k → u bs = none) ∧ (k ≤ bs.length → ∃ v, u bs = some (v, bs.drop k))

/-- A layout is read from bodies of `n` bytes alone. -/
def OfLength {α : Type} (n : Nat) (p : List Byte → Option α) : Prop :=
  ∀ bs, (p bs).isSome = true ↔ bs.length = n

/-- A layout is read from bodies of `n` bytes and `each` more for each one that the byte at `place` counts. -/
def OfCount {α : Type} (n each place : Nat) (p : List Byte → Option α) : Prop :=
  ∀ bs, (p bs).isSome = true ↔ bs.length = n + each * (bs.getD place 0).toNat

theorem takes_u8 : Takes 1 u8 := fun bs => by cases bs <;> simp [u8]

theorem takes_uN (k w : Nat) : Takes k (uN k w) := fun bs => by
  unfold uN
  exact ⟨fun h => if_pos h, fun h => ⟨_, if_neg (Nat.not_lt.2 h)⟩⟩

theorem takes_u16 : Takes 2 u16 := takes_uN 2 16
theorem takes_u32 : Takes 4 u32 := takes_uN 4 32
theorem takes_u40 : Takes 5 u40 := takes_uN 5 40

theorem takes_uList {α : Type} {k : Nat} {one : List Byte → Option (α × List Byte)} (h : Takes k one) :
    ∀ n, Takes (k * n) (uList one n) := by
  intro n
  induction n with
  | zero => intro bs; simp [uList]
  | succ n ih =>
    intro bs
    have e : k * (n + 1) = k + k * n := by rw [Nat.mul_succ]; omega
    unfold uList
    by_cases hk : bs.length < k
    · rw [(h bs).1 hk]; exact ⟨fun _ => rfl, fun g => by omega⟩
    · obtain ⟨v, hv⟩ := (h bs).2 (by omega)
      have len : (bs.drop k).length = bs.length - k := List.length_drop
      rw [hv]
      dsimp only
      refine ⟨fun g => ?_, fun g => ?_⟩
      · rw [(ih _).1 (by omega)]
      · obtain ⟨vs, hvs⟩ := (ih (bs.drop k)).2 (by omega)
        rw [hvs]
        exact ⟨_, by rw [List.drop_drop, e]⟩

theorem ofLength_finish {α : Type} (a : α) : OfLength 0 fun bs => finish bs a := fun bs => by
  cases bs <;> simp [finish]

/-- One more field in front of a layout without a list. -/
theorem Takes.ofLength {α β : Type} {k n : Nat} {u : List Byte → Option (α × List Byte)}
    {p : α × List Byte → Option β} (hu : Takes k u) (hp : ∀ v, OfLength n fun rest => p (v, rest)) :
    OfLength (n + k) fun bs => (u bs).bind p := by
  intro bs
  dsimp only
  by_cases hk : bs.length < k
  · rw [(hu bs).1 hk]; simp; omega
  · obtain ⟨v, hv⟩ := (hu bs).2 (by omega)
    rw [hv, Option.bind_some]; refine (hp v _).trans ?_; rw [List.length_drop]
    omega

/-- One more field in front of a layout with a list. -/
theorem Takes.ofCount {α β : Type} {k n each place : Nat} {u : List Byte → Option (α × List Byte)}
    {p : α × List Byte → Option β} (hu : Takes k u) (hp : ∀ v, OfCount n each place fun rest => p (v, rest)) :
    OfCount (n + k) each (place + k) fun bs => (u bs).bind p := by
  intro bs
  dsimp only
  by_cases hk : bs.length < k
  · rw [(hu bs).1 hk]; simp; omega
  · obtain ⟨v, hv⟩ := (hu bs).2 (by omega)
    rw [hv, Option.bind_some]; refine (hp v _).trans ?_; rw [List.length_drop]
    have e : (bs.drop k).getD place 0 = bs.getD (place + k) 0 := by
      rw [List.getD_eq_getElem?_getD, List.getD_eq_getElem?_getD, List.getElem?_drop, Nat.add_comm]
    rw [e]
    omega

/-- A list, in front of a layout without one. -/
theorem Takes.counted {α β : Type} {k n : Nat} {one : List Byte → Option (α × List Byte)}
    {p : List α × List Byte → Option β} (h : Takes k one) (hp : ∀ v, OfLength n fun rest => p (v, rest)) :
    OfCount (n + 1) k 0 fun bs => (uCounted one bs).bind p := by
  intro bs
  cases bs with
  | nil => exact ⟨fun h => absurd h nofun, fun h => absurd h (by rw [List.length_nil]; omega)⟩
  | cons c rest =>
    show ((uList one c.toNat rest).bind p).isSome = true ↔ _
    rw [(takes_uList h c.toNat).ofLength hp]
    simp only [List.length_cons, List.getD_cons_zero]
    omega

theorem takes_placement : Takes 3 takePlacement := fun bs => by
  rcases bs with _ | ⟨a, _ | ⟨b, _ | ⟨c, rest⟩⟩⟩ <;> simp [takePlacement, u8]

theorem takes_term : Takes 2 takeTerm := fun bs => by
  rcases bs with _ | ⟨a, _ | ⟨b, rest⟩⟩ <;> simp [takeTerm, u8]

theorem ofLength_parseIndex : OfLength 1 parseIndex := by
  have h : OfLength _ parseIndex :=
    takes_u8.ofLength fun _ => ofLength_finish _
  exact h

theorem ofLength_parseKey : OfLength 5 parseKey := by
  have h : OfLength _ parseKey :=
    takes_u8.ofLength fun _ => takes_u32.ofLength fun _ => ofLength_finish _
  exact h

theorem ofLength_parseServiceSet : OfLength 42 parseServiceSet := by
  have h : OfLength _ parseServiceSet :=
    takes_u8.ofLength fun _ => takes_u16.ofLength fun _ => takes_u8.ofLength fun _ => takes_u16.ofLength fun _ =>
    takes_u16.ofLength fun _ => takes_u16.ofLength fun _ => takes_u16.ofLength fun _ => takes_u16.ofLength fun _ =>
    takes_u16.ofLength fun _ => takes_u8.ofLength fun _ => takes_u8.ofLength fun _ => takes_u32.ofLength fun _ =>
    takes_u32.ofLength fun _ => takes_u32.ofLength fun _ => takes_u32.ofLength fun _ => takes_u32.ofLength fun _ =>
    takes_u32.ofLength fun _ => ofLength_finish _
  exact h

theorem ofCount_parseTemplateSet : OfCount 3 3 2 parseTemplateSet := by
  have h : OfCount _ _ _ parseTemplateSet :=
    takes_u8.ofCount fun _ => takes_u8.ofCount fun _ => takes_placement.counted fun _ => ofLength_finish _
  exact h

theorem ofCount_parseAvailCreate : OfCount 16 3 15 parseAvailCreate := by
  have h : OfCount _ _ _ parseAvailCreate :=
    takes_u8.ofCount fun _ => takes_u32.ofCount fun _ => takes_u8.ofCount fun _ => takes_u40.ofCount fun _ =>
    takes_u32.ofCount fun _ => takes_placement.counted fun _ => ofLength_finish _
  exact h

theorem ofCount_parseAvailAmend : OfCount 18 3 17 parseAvailAmend := by
  have h : OfCount _ _ _ parseAvailAmend :=
    takes_u8.ofCount fun _ => takes_u32.ofCount fun _ => takes_u16.ofCount fun _ => takes_u8.ofCount fun _ =>
    takes_u40.ofCount fun _ => takes_u32.ofCount fun _ => takes_placement.counted fun _ => ofLength_finish _
  exact h

theorem ofLength_parseWalk : OfLength 2 parseWalk := by
  have h : OfLength _ parseWalk :=
    takes_u8.ofLength fun _ => takes_u8.ofLength fun _ => ofLength_finish _
  exact h

theorem ofLength_parseLaneSet : OfLength 24 parseLaneSet := by
  have h : OfLength _ parseLaneSet :=
    takes_u8.ofLength fun _ => takes_u16.ofLength fun _ => takes_u16.ofLength fun _ => takes_u16.ofLength fun _ =>
    takes_u16.ofLength fun _ => takes_u16.ofLength fun _ => takes_u16.ofLength fun _ => takes_u32.ofLength fun _ =>
    takes_u16.ofLength fun _ => takes_u8.ofLength fun _ => takes_u32.ofLength fun _ => ofLength_finish _
  exact h

theorem ofLength_parseGuard : OfLength 4 parseGuard := by
  have h : OfLength _ parseGuard :=
    takes_u32.ofLength fun _ => ofLength_finish _
  exact h

theorem ofLength_parsePortSet : OfLength 3 parsePortSet := by
  have h : OfLength _ parsePortSet :=
    takes_u8.ofLength fun _ => takes_u8.ofLength fun _ => takes_u8.ofLength fun _ => ofLength_finish _
  exact h

theorem ofLength_parseChanSet : OfLength 3 parseChanSet := by
  have h : OfLength _ parseChanSet :=
    takes_u8.ofLength fun _ => takes_u8.ofLength fun _ => takes_u8.ofLength fun _ => ofLength_finish _
  exact h

theorem ofLength_parseAinSet : OfLength 6 parseAinSet := by
  have h : OfLength _ parseAinSet :=
    takes_u8.ofLength fun _ => takes_u8.ofLength fun _ => takes_u32.ofLength fun _ => ofLength_finish _
  exact h

theorem ofLength_parseFlagSet : OfLength 2 parseFlagSet := by
  have h : OfLength _ parseFlagSet :=
    takes_u8.ofLength fun _ => takes_u8.ofLength fun _ => ofLength_finish _
  exact h

theorem ofCount_parseAlertSet : OfCount 15 2 3 parseAlertSet := by
  have h : OfCount _ _ _ parseAlertSet :=
    takes_u8.ofCount fun _ => takes_u8.ofCount fun _ => takes_u8.ofCount fun _ => takes_term.counted fun _ =>
    takes_u8.ofLength fun _ => takes_u32.ofLength fun _ => takes_u32.ofLength fun _ => takes_u8.ofLength fun _ =>
    takes_u8.ofLength fun _ => ofLength_finish _
  exact h

theorem ofLength_parseTallySet : OfLength 21 parseTallySet := by
  have h : OfLength _ parseTallySet :=
    takes_u8.ofLength fun _ => takes_u8.ofLength fun _ => takes_u8.ofLength fun _ => takes_u8.ofLength fun _ =>
    takes_u32.ofLength fun _ => takes_u32.ofLength fun _ => takes_u32.ofLength fun _ => takes_u32.ofLength fun _ =>
    takes_u8.ofLength fun _ => ofLength_finish _
  exact h

theorem ofLength_parseAttnMask : OfLength 3 parseAttnMask := by
  have h : OfLength _ parseAttnMask :=
    takes_u16.ofLength fun _ => takes_u8.ofLength fun _ => ofLength_finish _
  exact h

end Sys2Proof.Machine
end

