-- ==== Sys2Proof/Laws/Lanes.lean ====
section
/-! SUPPORT. The invariant of one lane under the operations on lanes, and the lanes under the operations that reach
them. -/

namespace Sys2Proof.Machine

/-! ## Requests -/

theorem serve_keeps (P : State → Prop) (hP : ∀ s req resp, P s → P { s with reqSlot := req, respSlot := resp })
    {tag kind : Byte} {same : List Byte → Bool} {block : State → Answer} {s : State} (hs : P s)
    (h : P (block s).2) : P (serve tag kind same block s) := by
  unfold serve
  split
  · exact hs
  · split
    · exact hP _ _ _ h
    · split
      · exact hP _ _ _ h
      · exact hs

/-! ## The lane invariant -/

theorem Lane.ok_emptied {ln : Lane} (st : LaneState) (hold : Bool) (h : st = .idle ∨ st = .closing → hold = true) :
    Lane.ok { ln.emptied with state := st, hold := hold, readers := [] } := by
  refine ⟨by simp [Lane.emptied], by simp [Lane.emptied], fun hs => ⟨rfl, h hs, rfl, rfl⟩, fun _ => rfl⟩

theorem Lane.ok_enterOpening (now : Nat) (ln : Lane) : (ln.enterOpening now).ok :=
  ⟨by simp [Lane.enterOpening, Lane.emptied], by simp [Lane.enterOpening, Lane.emptied],
    by simp [Lane.enterOpening], fun _ => rfl⟩

theorem Lane.ok_enterClosing (now : Nat) (ln : Lane) : (ln.enterClosing now).ok :=
  ⟨by simp [Lane.enterClosing, Lane.emptied], by simp [Lane.enterClosing],
    fun _ => ⟨rfl, rfl, rfl, rfl⟩, fun _ => rfl⟩

theorem Lane.ok_enterIdle (ln : Lane) : ln.enterIdle.ok :=
  ⟨by simp [Lane.enterIdle, Lane.emptied], by simp [Lane.enterIdle],
    fun _ => ⟨rfl, rfl, rfl, rfl⟩, fun _ => rfl⟩

/-- The buffer's bounds. -/
def Lane.fillOk (ln : Lane) : Prop := ln.buffer.length ≤ 4096 ∧ (4032 ≤ ln.buffer.length → ln.hold = true)

theorem Lane.ok.fill {ln : Lane} (h : ln.ok) : ln.fillOk := ⟨h.1, h.2.1⟩

theorem Lane.ok_of_fill {ln : Lane} (h : ln.fillOk) (hs : ln.state ≠ .idle ∧ ln.state ≠ .closing)
    (hr : ln.state ≠ .onAir → ln.readers = []) : ln.ok :=
  ⟨h.1, h.2, fun h' => (h'.elim hs.1 hs.2).elim, hr⟩

theorem Lane.fillOk_holdAfterLeaving {ln : Lane} (h : ln.fillOk) : ln.holdAfterLeaving.fillOk := by
  unfold Lane.holdAfterLeaving holdLow
  split
  · next hl => exact ⟨h.1, fun h' => by have : 4032 ≤ ln.buffer.length := h'; omega⟩
  · exact h

/-- Packets have left the buffer: HOLD stays high, or was. -/
theorem Lane.fillOk_leaving {ln : Lane} {b : List BufPkt} (h : ln.fillOk) (hb : b.length ≤ ln.buffer.length) :
    ({ ln with buffer := b } : Lane).fillOk :=
  ⟨Nat.le_trans hb h.1, fun h' => h.2 (Nat.le_trans h' hb)⟩

theorem Lane.fillOk_append {ln : Lane} (cls : PktClass) (p : Packet) (h : ln.fillOk) : (ln.append cls p).fillOk := by
  unfold Lane.append bufferLimit
  split
  · next hl =>
    unfold Lane.holdAfterArrival holdHigh
    split
    · refine ⟨?_, fun _ => rfl⟩
      simp only [List.length_append, List.length_singleton]; omega
    · next hh =>
      refine ⟨?_, fun h' => absurd h' hh⟩
      simp only [List.length_append, List.length_singleton]; omega
  · exact h

theorem Lane.state_append (cls : PktClass) (p : Packet) (ln : Lane) :
    (ln.append cls p).state = ln.state ∧ (ln.append cls p).readers = ln.readers := by
  unfold Lane.append Lane.holdAfterArrival; split
  · split <;> exact ⟨rfl, rfl⟩
  · exact ⟨rfl, rfl⟩

theorem Lane.fillOk_markEntry {ln ln' : Lane} (cls : PktClass) (h : ln'.fillOk) : (ln.markEntry cls ln').fillOk := by
  unfold Lane.markEntry; split
  · split <;> exact h
  · exact h

theorem Lane.state_markEntry (cls : PktClass) (ln ln' : Lane) :
    (ln.markEntry cls ln').state = ln'.state ∧ (ln.markEntry cls ln').readers = ln'.readers := by
  unfold Lane.markEntry; split
  · split <;> exact ⟨rfl, rfl⟩
  · exact ⟨rfl, rfl⟩

theorem Lane.fillOk_rollIfDue {ln : Lane} (st : Bool) (h : ln.fillOk) : (ln.rollIfDue st).fillOk := by
  unfold Lane.rollIfDue; split
  · unfold Lane.roll; split
    · exact h
    · split
      · exact h
      · exact Lane.fillOk_holdAfterLeaving (Lane.fillOk_leaving h ((List.dropWhile_sublist _).length_le))
  · exact h

theorem Lane.state_rollIfDue (st : Bool) (ln : Lane) :
    (ln.rollIfDue st).state = ln.state ∧ (ln.rollIfDue st).readers = ln.readers := by
  unfold Lane.rollIfDue Lane.roll Lane.holdAfterLeaving; repeat (split <;> try exact ⟨rfl, rfl⟩)

theorem Lane.remark_same (ln : Lane) : ln.remark.buffer = ln.buffer ∧ ln.remark.hold = ln.hold
    ∧ ln.remark.state = ln.state ∧ ln.remark.readers = ln.readers := by
  unfold Lane.remark; repeat (split <;> try exact ⟨rfl, rfl, rfl, rfl⟩)

theorem Lane.fillOk_free {ln : Lane} (d : Fin 128 → Role → Bool) (st : Bool) (h : ln.fillOk) :
    (ln.free d st).fillOk := by
  unfold Lane.free; dsimp only; split
  · exact h
  · have := Lane.fillOk_holdAfterLeaving (Lane.fillOk_leaving h
      (List.length_filter_le (fun b => !ln.freeable d b) ln.buffer))
    split
    · obtain ⟨a, b, _⟩ := Lane.remark_same (Lane.holdAfterLeaving { ln with buffer := ln.buffer.filter fun b => !ln.freeable d b })
      unfold Lane.fillOk; rw [a, b]; exact this
    · exact this

theorem Lane.state_free (d : Fin 128 → Role → Bool) (st : Bool) (ln : Lane) :
    (ln.free d st).state = ln.state ∧ (ln.free d st).readers = ln.readers := by
  have h : ∀ x : Lane, x.holdAfterLeaving.state = x.state ∧ x.holdAfterLeaving.readers = x.readers := by
    intro x; unfold Lane.holdAfterLeaving; split <;> exact ⟨rfl, rfl⟩
  unfold Lane.free; dsimp only; split
  · exact ⟨rfl, rfl⟩
  · split
    · obtain ⟨_, _, a, b⟩ := Lane.remark_same (Lane.holdAfterLeaving { ln with buffer := ln.buffer.filter fun b => !ln.freeable d b })
      rw [a, b]; exact h _
    · exact h _

theorem Lane.ok_free {ln : Lane} (d : Fin 128 → Role → Bool) (st : Bool) (h : ln.ok) : (ln.free d st).ok := by
  by_cases hr : ln.readers = []
  · have : ln.free d st = ln := by unfold Lane.free; simp [hr]
    rw [this]; exact h
  · have hs : ln.state = .onAir := Decidable.byContradiction fun h' => hr (h.2.2.2 h')
    have a := Lane.state_free d st ln
    refine Lane.ok_of_fill (Lane.fillOk_free d st h.fill) ?_ ?_
    · rw [a.1, hs]; exact ⟨by decide, by decide⟩
    · rw [a.1]; exact fun h' => (h' hs).elim

theorem Lane.ok_openingStep {ln : Lane} (h : ln.fillOk) (hs : ln.state = .opening) (hr : ln.readers = []) :
    (Lane.offer.openingStep ln).ok := by
  unfold Lane.offer.openingStep; split
  · exact Lane.ok_of_fill h ⟨nofun, nofun⟩ (fun _ => hr)
  · exact Lane.ok_of_fill h (by rw [hs]; exact ⟨by decide, by decide⟩) (fun _ => hr)

theorem Lane.ok_offer {ln : Lane} (d : Fin 128 → Role → Bool) (st : Bool) (cls : PktClass) (p : Packet) (h : ln.ok) :
    (ln.offer d st cls p).ok := by
  have ready (x : Lane) (hx : x.fillOk) (hs : x.state = ln.state ∧ x.readers = ln.readers)
      (hn : ln.state ≠ .idle ∧ ln.state ≠ .closing) : x.ok := by
    refine Lane.ok_of_fill hx ?_ ?_
    · rw [hs.1]; exact hn
    · rw [hs.1, hs.2]; exact h.2.2.2
  have stays : (if st then (ln.rollIfDue st).markEntry cls ((ln.rollIfDue st).append cls p)
      else (ln.rollIfDue st).append cls p).fillOk ∧
      (if st then (ln.rollIfDue st).markEntry cls ((ln.rollIfDue st).append cls p)
      else (ln.rollIfDue st).append cls p).state = ln.state ∧
      (if st then (ln.rollIfDue st).markEntry cls ((ln.rollIfDue st).append cls p)
      else (ln.rollIfDue st).append cls p).readers = ln.readers := by
    have a := Lane.fillOk_append cls p (Lane.fillOk_rollIfDue st h.fill)
    have b := Lane.state_append cls p (ln.rollIfDue st)
    have c := Lane.state_rollIfDue st ln
    split
    · have e := Lane.state_markEntry cls (ln.rollIfDue st) ((ln.rollIfDue st).append cls p)
      exact ⟨Lane.fillOk_markEntry cls a, e.1.trans (b.1.trans c.1), e.2.trans (b.2.trans c.2)⟩
    · exact ⟨a, b.1.trans c.1, b.2.trans c.2⟩
  unfold Lane.offer
  dsimp only
  split
  · exact h
  · exact h
  · next hs =>
    have hr := h.2.2.2 (by rw [hs]; decide)
    split
    · exact Lane.ok_openingStep (Lane.fillOk_markEntry _ (Lane.fillOk_append _ p h.fill))
        ((Lane.state_markEntry _ _ _).1.trans ((Lane.state_append _ p ln).1.trans hs))
        ((Lane.state_markEntry _ _ _).2.trans ((Lane.state_append _ p ln).2.trans hr))
    · exact h
    · exact Lane.ok_openingStep (Lane.fillOk_append _ p h.fill) ((Lane.state_append _ p ln).1.trans hs)
        ((Lane.state_append _ p ln).2.trans hr)
  · next hs => exact ready _ stays.1 stays.2 (by rw [hs]; exact ⟨by decide, by decide⟩)
  · next hs => exact Lane.ok_free d st (ready _ stays.1 stays.2 (by rw [hs]; exact ⟨by decide, by decide⟩))

theorem Lane.ok_updReader {ln : Lane} (c : Fin 128) (f : Reader → Reader) (h : ln.ok) : (ln.updReader c f).ok :=
  ⟨h.1, h.2.1, h.2.2.1, fun hs => by
    show List.map _ ln.readers = []
    rw [h.2.2.2 hs]; rfl⟩

theorem Lane.ok_startReader {ln : Lane} (c : Fin 128) (h : ln.ok) : (ln.startReader c).ok := by
  unfold Lane.startReader; dsimp only
  split <;> exact Lane.ok_of_fill h.fill ⟨nofun, nofun⟩ (fun hn => (hn rfl).elim)

theorem Lane.ok_take {ln : Lane} (now : Nat) (c : Fin 128) (x : Role) (h : ln.ok) : (ln.take now c x).1.ok := by
  unfold Lane.take; split
  · exact h
  · split
    · exact h
    · split
      · exact Lane.ok_updReader _ _ h
      · exact Lane.ok_updReader _ _ h

theorem Lane.ok_lastReaderLeft {ln : Lane} (now : Nat) (st keep : Bool) (h : ln.fillOk) (hr : ln.readers = []) :
    (ln.lastReaderLeft now st keep).ok := by
  unfold Lane.lastReaderLeft; split
  · split
    · exact Lane.ok_enterClosing _ _
    · exact Lane.ok_of_fill h ⟨nofun, nofun⟩ (fun _ => hr)
  · split
    · exact Lane.ok_enterOpening _ _
    · exact Lane.ok_enterClosing _ _

/-! ## Operations on lanes -/

theorem lanesOk_updLane {s : State} (l : Fin 16) {f : Lane → Lane} (hs : LanesOk s)
    (h : (f (s.lanes.get l)).ok) : LanesOk (updLane l f s) := by
  intro m
  rw [lanes_updLane, Table.get_set]
  split
  · exact h
  · exact hs m

theorem lanesOk_freeLane {s : State} (l : Fin 16) (hs : LanesOk s) : LanesOk (freeLane l s) :=
  lanesOk_updLane l hs (Lane.ok_free _ _ (hs l))

theorem lanesOk_readerLeave {s : State} (l : Fin 16) (c : Fin 128) (hs : LanesOk s) :
    LanesOk (readerLeave l c s) := by
  unfold readerLeave; dsimp only; split
  · refine lanesOk_updLane l hs ?_
    exact Lane.ok_lastReaderLeft _ _ _ (hs l).fill rfl
  · next hne =>
    refine lanesOk_freeLane l (lanesOk_updLane l hs ⟨(hs l).1, (hs l).2.1, (hs l).2.2.1, fun hn => ?_⟩)
    have := (hs l).2.2.2 hn
    simp [this] at hne

theorem lanesOk_handBack {s : State} (l : Fin 16) (p : PRef) (hs : LanesOk s) : LanesOk (handBack l p s) := by
  refine lanesOk_updLane l hs ?_
  split
  · split
    · exact Lane.ok_enterClosing _ _
    · exact Lane.ok_enterClosing _ _
    · exact hs l
  · exact hs l

theorem lanesOk_grant {s : State} (l : Fin 16) (p : PRef) (hs : LanesOk s) : LanesOk (grant l p s) := by
  refine lanesOk_updLane l hs ?_
  split
  · exact Lane.ok_enterOpening _ _
  · exact hs l

theorem lanesOk_overList {α : Type} {l : List α} {f : α → State → State}
    (h : ∀ a s, LanesOk s → LanesOk (f a s)) {s : State} (hs : LanesOk s) : LanesOk (overList l f s) :=
  overList_keeps LanesOk (fun a _ s => h a s) hs

theorem lanesOk_finishPlacement {s : State} (o : Outcome) (p : PRef) (hs : LanesOk s) :
    LanesOk (finishPlacement o p s) := by
  unfold finishPlacement; split
  · exact hs
  · split
    · exact hs
    · dsimp only; split
      · exact lanesOk_handBack _ _ hs
      · exact hs

theorem lanesOk_finishAll {s : State} (o : Outcome) (k : Key) (hs : LanesOk s) : LanesOk (finishAll o k s) :=
  lanesOk_overList (fun p _ => lanesOk_finishPlacement o p) hs

theorem lanes_retire (r : Avail) (s : State) : (retire r s).lanes = s.lanes := by
  unfold retire; simp

theorem lanes_retireDone (i : Fin 64) (s : State) : (retireDone i s).lanes = s.lanes :=
  overList_same (fun s => s.lanes) (fun k _ s => by
    split
    · split
      · exact lanes_retire _ s
      · rfl
    · rfl) s

theorem lanesOk_of_eq {s t : State} (h : t.lanes = s.lanes) (hs : LanesOk s) : LanesOk t := by
  intro l; rw [h]; exact hs l

theorem lanesOk_requestLane {s : State} (p : PRef) (hs : LanesOk s) : LanesOk (requestLane p s) := by
  unfold requestLane; split
  · split
    · split
      · exact lanesOk_grant _ _ hs
      · exact hs
    · exact hs
  · exact hs

theorem lanesOk_arm {s : State} (k : Key) (hs : LanesOk s) : LanesOk (arm k s) := by
  refine lanesOk_overList (fun p s hs => ?_) hs
  unfold armPlacement; split
  · exact hs
  · split
    · exact lanesOk_requestLane p hs
    · exact lanesOk_finishPlacement _ p hs

theorem lanesOk_treatPending {s : State} (v : Service) (t : Time) (locked : Bool) (k : Key) (hs : LanesOk s) :
    LanesOk (treatPending v t locked k s) := by
  unfold treatPending; split
  · exact hs
  · split
    · exact lanesOk_finishAll _ k hs
    · split
      · exact lanesOk_arm k hs
      · exact hs

theorem lanesOk_treatRecord {s : State} (v : Service) (t : Time) (locked : Bool) (k : Key) (hs : LanesOk s) :
    LanesOk (treatRecord v t locked k s) := by
  unfold treatRecord; split
  · exact hs
  · split
    · unfold treatHeld; split
      · exact hs
      · split
        · split
          · exact lanesOk_treatPending v t locked k hs
          · exact lanesOk_finishAll _ k hs
        · exact hs
    · exact lanesOk_treatPending v t locked k hs
    · unfold treatArmed; split
      · exact hs
      · split
        · exact lanesOk_finishAll _ k hs
        · split
          · refine lanesOk_overList (fun p s hs => ?_) hs
            unfold missLane; split
            · split
              · exact lanesOk_finishPlacement _ p hs
              · exact hs
            · exact hs
          · refine lanesOk_overList (fun p s hs => ?_) hs
            unfold retryLane; split
            · split
              · exact lanesOk_requestLane p hs
              · exact hs
            · exact hs
    · exact hs

theorem lanesOk_timeUpdate {s : State} (i : Fin 64) (hs : LanesOk s) : LanesOk (timeUpdate i s) := by
  unfold timeUpdate; split
  · exact hs
  · split
    · exact hs
    · exact lanesOk_of_eq (lanes_retireDone i _) (lanesOk_overList (fun k _ => lanesOk_treatRecord _ _ _ k) hs)

theorem lanesOk_amendArmedE {s : State} (k : Key) (e : Time) (hs : LanesOk s) : LanesOk (amendArmedE k e s) := by
  refine lanesOk_overList (fun p s hs => ?_) hs
  unfold retestGuard; split
  · split
    · split
      · exact hs
      · exact lanesOk_requestLane p (lanesOk_handBack _ p hs)
    · exact hs
  · exact hs

theorem lanesOk_channels {s t : State} (h : OnlyChannels s t) (hs : LanesOk s) : LanesOk t :=
  lanesOk_of_eq (congrArg State.lanes h) hs

theorem lanesOk_cancelRecord {s : State} (k : Key) (hs : LanesOk s) : LanesOk (cancelRecord k s) := by
  unfold cancelRecord; split
  · exact hs
  · split
    · unfold returnNow; split
      · exact hs
      · split
        · exact hs
        · exact lanesOk_channels (overList_onlyChannels (askReturnHeld_only _ _) _) hs
    · exact lanesOk_of_eq (lanes_retireDone _ _) (lanesOk_finishAll _ k hs)

theorem lanesOk_raise {s : State} (src : Fin 96) (k : Cause) (hs : LanesOk s) : LanesOk (raise src k s) :=
  lanesOk_of_eq (lanes_raise src k s) hs

theorem lanesOk_lossOfLock {s : State} (i : Fin 64) (hs : LanesOk s) : LanesOk (lossOfLock i s) :=
  lanesOk_channels (overList_onlyChannels (askReturnHeld_only _ _) _) (lanesOk_raise _ _ hs)

theorem lanesOk_pcrArrive {s : State} (i : Fin 64) (c : Pcr) (disc : Bool) (hs : LanesOk s) :
    LanesOk (pcrArrive i c disc s) := by
  unfold pcrArrive; split
  · exact hs
  · dsimp only
    refine lanesOk_timeUpdate i ?_
    split
    · exact lanesOk_lossOfLock i hs
    · exact hs

theorem lanesOk_expireTimebase {s : State} (i : Fin 64) (hs : LanesOk s) : LanesOk (expireTimebase i s) := by
  unfold expireTimebase; dsimp only; split
  · exact lanesOk_lossOfLock i hs
  · exact hs

theorem lanesOk_amendActiveD {s : State} (k : Key) (d : Option (BitVec 32)) (hs : LanesOk s) :
    LanesOk (amendActiveD k d s) := by
  unfold amendActiveD; split
  · exact hs
  · exact lanesOk_channels (setReturn_only _ _ _) hs

theorem lanesOk_takeCue {s : State} (i : Fin 64) (v : Service) (c : Cue) (hs : LanesOk s) :
    LanesOk (takeCue i v c s) := by
  unfold takeCue; split
  · unfold insertNew; repeat (split <;> try first | exact hs | exact lanesOk_raise _ _ hs)
    unfold createFromCue; dsimp only; split
    · exact lanesOk_raise (s := addRecord _ _ _ _ _ _ _ s) _ _ hs
    · exact hs
  · unfold insertKnown; split
    · split
      · exact lanesOk_raise _ _ hs
      · exact hs
    · dsimp only
      have h : ∀ u, LanesOk u → LanesOk (match cueE v c with
          | some e => if (‹Avail›).e = some e then u else amendArmedE (‹Avail›).key e u
          | none => u) := by
        intro u hu
        split
        · split
          · exact hu
          · exact lanesOk_amendArmedE _ _ hu
        · exact hu
      refine h _ ?_
      split <;> exact hs
    · split
      · exact lanesOk_amendActiveD _ _ hs
      · exact hs
    · exact hs
  · exact lanesOk_cancelRecord _ hs
  · unfold returnCue; split
    · split
      · unfold returnNow; split
        · exact hs
        · split
          · exact hs
          · exact lanesOk_channels (overList_onlyChannels (askReturnHeld_only _ _) _) hs
      · split
        · exact hs
        · exact lanesOk_channels (setCueReturn_only _ _ _) hs
    · exact hs
  · exact hs

theorem lanesOk_cuePacket {s : State} (i : Fin 64) (pk : Packet) (hs : LanesOk s) : LanesOk (cuePacket i pk s) := by
  unfold cuePacket; split
  · split
    · split
      · exact lanesOk_takeCue _ _ _ hs
      · exact lanesOk_raise _ _ hs
    · exact hs
  · exact hs

/-! ## Splices -/

theorem lanesOk_settleDeparting {s : State} (c : Fin 128) (hs : LanesOk s) : LanesOk (settleDeparting c s) := by
  unfold settleDeparting; split
  · exact hs
  · split
    · exact hs
    · split
      · exact hs
      · unfold leaveLane; dsimp only; split
        · exact lanesOk_readerLeave _ _ hs
        · exact lanesOk_readerLeave _ _ hs

theorem lanes_settleRetaken (l : Fin 16) (c : Fin 128) (s : State) :
    (settleRetaken l c s).lanes = s.lanes := by
  unfold settleRetaken; split
  · rfl
  · split
    · dsimp only; split <;> rfl
    · rfl

theorem lanesOk_videoTake {s : State} (p : Time) (c : Fin 128) (t : Target) (o : Option Outcome)
    (keep : Option PendingTarget) (hs : LanesOk s) : LanesOk (videoTake p c t o keep s) := by
  unfold videoTake
  dsimp only
  refine lanesOk_settleDeparting c ?_
  have start : ∀ l u, LanesOk u → LanesOk (freeLane l (settleRetaken l c (updLane l (Lane.startReader c) u))) :=
    fun l u hu => lanesOk_freeLane l (lanesOk_of_eq (lanes_settleRetaken l c _)
      (lanesOk_updLane l hu (Lane.ok_startReader c (hu l))))
  cases t with
  | network =>
    dsimp only; split
    · exact lanesOk_updLane _ (s := updChan c _ s) hs (Lane.ok_updReader _ _ (hs _))
    · exact hs
  | lane l h =>
    dsimp only; split
    · exact start l _ (lanesOk_updLane _ (s := updChan c _ s) hs (Lane.ok_updReader _ _ (hs _)))
    · exact start l _ hs

theorem lanesOk_applySpliceOut {s : State} (p : Time) (s₀ : State) (cands : List Candidate) (r : Avail)
    (hs : LanesOk s) : LanesOk (applySpliceOut p s₀ cands r s) := by
  unfold applySpliceOut
  dsimp only
  have h := lanesOk_overList (l := List.range r.placements.length) (f := fun i s =>
    match r.placements[i]? with
    | some q => placementResult (wasReady s₀ q) (reportOf s₀ cands ⟨r.key, i⟩ q.zones) ⟨r.key, i⟩ q s
    | none => s) (s := s) (fun i s hs => by
      split
      · unfold placementResult; repeat (split <;> try first | exact lanesOk_finishPlacement _ _ hs | exact hs)
      · exact hs) hs
  split
  · split
    · exact lanesOk_channels (setReturn_only _ _ _) h
    · exact h
  · exact h

theorem lanesOk_beat {s : State} (i : Fin 64) (p : Time) (hs : LanesOk s) : LanesOk (beat i p s) := by
  unfold beat; split
  · exact hs
  · dsimp only
    have trig : ∀ (b : Bool) k u, LanesOk u → LanesOk (if b then deliverTrigger k i u else u) := by
      intro b k u h
      split <;> exact h
    refine trig _ _ _ (trig _ _ _ ?_)
    refine lanesOk_overList (fun r _ => lanesOk_finishAll _ _) (lanesOk_overList (fun r s hs => ?_)
      (lanesOk_overList (fun c s hs => ?_) hs))
    · split
      · exact lanesOk_applySpliceOut _ _ _ _ hs
      · exact lanesOk_finishAll _ _ hs
    · unfold switchChannel; split
      · exact hs
      · split
        · exact lanesOk_videoTake _ _ _ _ _ hs
        · exact hs

theorem lanesOk_follow {s : State} (c : Fin 128) (x : Role) (hs : LanesOk s) : LanesOk (follow c x s) := by
  unfold follow; split
  · exact hs
  · dsimp only
    refine lanesOk_settleDeparting c ?_
    have h₁ : ∀ (r : RoleSource) (u : State), LanesOk u → LanesOk (match r with
        | .lane l => freeLane l (updLane l (Lane.setCursor c x none) u)
        | _ => u) := by
      intro r u h
      cases r with
      | lane l => exact lanesOk_freeLane l (lanesOk_updLane l h (Lane.ok_updReader _ _ (h l)))
      | _ => exact h
    have h₂ : ∀ (o : Option (Fin 16)) (u : State), LanesOk u → LanesOk (match o with
        | some l => freeLane l (followCursor l c x u)
        | none => u) := by
      intro o u h
      cases o with
      | none => exact h
      | some l =>
        refine lanesOk_freeLane l ?_
        unfold followCursor
        split
        · exact h
        · split
          · exact lanesOk_updLane l h (Lane.ok_updReader _ _ (h l))
          · exact lanesOk_of_eq (s := updLane l (Lane.setCursor c x _) u) rfl
              (lanesOk_updLane l h (Lane.ok_updReader _ _ (h l)))
    exact h₂ _ _ (h₁ _ _ hs)

theorem lanesOk_slot {s : State} (port : Fin 8) (c : Fin 128) (x : Role) (l : Fin 16) (v : Service) (ch : Channel)
    (r : RoleState) (pid : Pid) (hs : LanesOk s) : LanesOk (slot port c x l v ch r pid s) := by
  unfold slot
  split
  · exact hs
  · dsimp only
    have h : LanesOk (updLane l (fun _ => (Lane.take (nowMs s) c x (s.lanes.get l)).1) s) :=
      lanesOk_updLane l hs (Lane.ok_take _ _ _ (hs l))
    split
    · rename_i pk eos _
      have h' : LanesOk (fillSlot port c x v ch r pid pk
          (freeLane l (updLane l (fun _ => (Lane.take (nowMs s) c x (s.lanes.get l)).1) s))) :=
        lanesOk_of_eq (s := freeLane l _) rfl (lanesOk_freeLane l h)
      split
      · exact lanesOk_channels (askReturnHeld_only _ _ _ _) h'
      · exact h'
    · exact h
    · exact h

theorem lanesOk_portPacket {s : State} (port : Fin 8) (pk : Packet) (hs : LanesOk s) :
    LanesOk (portPacket port pk s) := by
  unfold portPacket; split
  · unfold govern
    dsimp only
    have h : ∀ (c : Fin 128) (x : Role) (v : Service) u, LanesOk u → LanesOk (match u.channels.get c with
        | none => emit port pk u
        | some ch => match (ch.roles.get x).source with
          | .network => passNetwork port c x (ch.roles.get x) pk u
          | .lane l => slot port c x l v ch (ch.roles.get x) pk.pid u
          | .muted => emit port nullPacket u) := by
      intro c x v u hu
      split
      · exact hu
      · split
        · unfold passNetwork; dsimp only; split <;> exact hu
        · exact lanesOk_slot _ _ _ _ _ _ _ _ hu
        · exact hu
    refine h _ _ _ _ ?_
    split
    · split
      · exact lanesOk_follow _ _ hs
      · exact hs
    · exact hs
  · exact hs

theorem lanesOk_networkPacket {s : State} (m : Fin 4) (pk : Packet) (hs : LanesOk s) :
    LanesOk (networkPacket m pk s) := by
  unfold networkPacket
  dsimp only
  refine lanesOk_overList (fun i s hs => lanesOk_of_eq (lanes_retireDone i s) hs) ?_
  refine lanesOk_overList (fun p s hs => ?_) ?_
  · split
    · exact lanesOk_portPacket p pk hs
    · exact hs
  · split
    · exact hs
    · have h : LanesOk (dispatchCue m pk (dispatchPcr m pk
          { s with netIn := s.netIn.set m (s.netIn.get m).accept })) := by
        refine lanesOk_overList (fun i s hs => lanesOk_cuePacket i pk hs) ?_
        unfold dispatchPcr; split
        · exact lanesOk_overList (fun i s hs => lanesOk_pcrArrive i _ _ hs) hs
        · exact hs
      unfold dispatchBeat; split
      · exact lanesOk_overList (fun i s hs => lanesOk_beat i _ hs) h
      · exact h

theorem OnlyChannels.lanes {s t : State} (h : OnlyChannels s t) : t.lanes = s.lanes := by rw [h]

/-! ## Alerts -/

theorem lanes_targetZone (t : Target) (z : Fin 8) (s : State) : (targetZone t z s).lanes = s.lanes :=
  (targetZone_only t z s).lanes

theorem lanes_coverServing (a : Fin 16) (z : Fin 8) (s : State) : (coverServing a z s).lanes = s.lanes := by
  unfold coverServing; rw [lanes_targetZone, lanes_updZone]

theorem lanes_coverChange (new : Option (Fin 16)) (z : Fin 8) (s : State) :
    (coverChange new z s).lanes = s.lanes := by
  unfold coverChange
  dsimp only
  split
  · rw [lanes_targetZone]; rfl
  · split
    · rw [lanes_coverServing]; rfl
    · unfold coverWaiting
      dsimp only
      rw [lanes_raise]
      exact (overList_onlyChannels (askReturnHeld_only _ _) _).lanes

theorem lanes_evalZones (zs : ZoneSet) (s : State) : (evalZones zs s).lanes = s.lanes :=
  overFin_same (fun s => s.lanes) (fun z s => by
    split
    · unfold evalZone; dsimp only; split
      · rfl
      · exact lanes_coverChange _ _ _
    · rfl) s

theorem lanes_laneServes (l : Fin 16) (s : State) : (laneServes l s).lanes = s.lanes :=
  overFin_same (fun s => s.lanes) (fun z s => by
    split
    · split
      · exact lanes_coverServing _ _ _
      · rfl
    · rfl) s

theorem lanes_standingStarved (l : Fin 16) (s : State) : (standingStarved l s).lanes = s.lanes := by
  unfold standingStarved
  dsimp only
  refine (overFin_same (fun s => s.lanes) (fun z s => ?_) _).trans
    (overList_onlyChannels (l := chansWhere s (Channel.onOrToLane l)) (giveCoverage_only .network) s).lanes
  split
  · split
    · rw [lanes_raise]; rfl
    · rfl
  · rfl

theorem lanes_enterActive (a : Fin 16) (s : State) : (enterActive a s).lanes = s.lanes := by
  unfold enterActive
  dsimp only
  rw [lanes_evalZones, lanes_raise]; rfl

theorem lanes_endAlert (after : AlertState) (a : Fin 16) (s : State) : (endAlert after a s).lanes = s.lanes := by
  unfold endAlert
  dsimp only
  rw [lanes_evalZones, lanes_raise]; rfl

theorem lanes_alertAct (a : Fin 16) (s : State) : (alertAct a s).lanes = s.lanes := by
  unfold alertAct
  dsimp only
  split
  · split
    · exact lanes_enterActive _ _
    · rfl
  · rfl
  · split
    · exact lanes_endAlert _ _ _
    · rfl
  · rfl
  · rfl
  · rfl

theorem lanes_deliverLevel (src : TermSource) (s : State) : (deliverLevel src s).lanes = s.lanes :=
  overFin_same (fun s => s.lanes) (fun a s => by
    split
    · exact lanes_alertAct _ _
    · rfl) s

theorem lanes_rejudgeHold (a : Fin 16) (s : State) : (rejudgeHold a s).lanes = s.lanes := by
  unfold rejudgeHold
  dsimp only
  split
  · split
    · exact lanes_enterActive _ _
    · rfl
  · rfl

theorem lanes_updAin (i : Fin 6) (f : Ain → Ain) (s : State) : (updAin i f s).lanes = s.lanes := by
  unfold updAin; dsimp only; split
  · rfl
  · rw [lanes_deliverLevel]

theorem lanesOk_laneNamed {s : State} (l : Fin 16) (hs : LanesOk s) : LanesOk (laneNamed l s) := by
  unfold laneNamed
  dsimp only
  have h : LanesOk (updLane l (fun ln => if ln.state = .idle then ln.enterOpening (nowMs s) else ln) s) := by
    refine lanesOk_updLane l hs ?_
    split
    · exact Lane.ok_enterOpening _ _
    · exact hs l
  split
  · exact lanesOk_of_eq (lanes_laneServes _ _) h
  · exact h

theorem lanesOk_laneUnnamed {s : State} (l : Fin 16) (hs : LanesOk s) : LanesOk (laneUnnamed l s) := by
  unfold laneUnnamed
  dsimp only
  refine lanesOk_channels (overList_onlyChannels (giveCoverage_only _) _) (lanesOk_updLane l hs ?_)
  split
  · exact Lane.ok_enterClosing _ _
  · exact Lane.ok_enterClosing _ _
  · exact hs l

theorem lanesOk_configureAlert {s : State} (a : Fin 16) (f : Alert → Alert) (hs : LanesOk s) :
    LanesOk (configureAlert a f s) := by
  unfold configureAlert
  dsimp only
  refine lanesOk_of_eq ((lanes_rejudgeHold _ _).trans (lanes_alertAct _ _)) ?_
  have h₁ : ∀ (b : Bool) l u, LanesOk u → LanesOk (if b then laneUnnamed l u else u) := by
    intro b l u h
    split
    · exact lanesOk_laneUnnamed l h
    · exact h
  have h₂ : ∀ (b : Bool) l u, LanesOk u → LanesOk (if b then laneNamed l u else u) := by
    intro b l u h
    split
    · exact lanesOk_laneNamed l h
    · exact h
  exact h₂ _ _ _ (h₁ _ _ _ hs)

theorem lanesOk_lanePacket {s : State} (l : Fin 16) (pk : Packet) (hs : LanesOk s) : LanesOk (lanePacket l pk s) := by
  unfold lanePacket; dsimp only; split
  · exact hs
  · rename_i cls _
    have h : ∀ st, LanesOk (updLane l (Lane.offer (draws { s with laneIn := s.laneIn.set l (s.laneIn.get l).accept } l) st cls pk)
        { s with laneIn := s.laneIn.set l (s.laneIn.get l).accept }) :=
      fun st => lanesOk_updLane l (s := { s with laneIn := s.laneIn.set l (s.laneIn.get l).accept }) hs (Lane.ok_offer _ _ _ _ (hs l))
    split
    · exact lanesOk_of_eq (lanes_laneServes _ _) (h _)
    · exact h _

theorem lanes_reachMs' (n s) : (reachMs n s).lanes = s.lanes := lanes_reachMs n s

theorem lanesOk_reach {s : State} (n : Nat) (hs : LanesOk s) : LanesOk (reachMs n s) := lanesOk_of_eq (lanes_reachMs n s) hs

theorem lanesOk_laneTimesOut {s : State} (l : Fin 16) (hs : LanesOk s) : LanesOk (laneTimesOut l s) := by
  unfold laneTimesOut; dsimp only
  have h := lanesOk_raise (laneSource l) .laneFault (lanesOk_updLane l hs
    (f := fun ln => Lane.enterClosing (nowMs s) { ln with lastFault := .openTimeout, bound := none }) (Lane.ok_enterClosing _ _))
  split
  · exact lanesOk_of_eq (lanes_retireDone _ _) (lanesOk_finishPlacement _ _ h)
  · exact h

theorem lanesOk_laneStarves {s : State} (l : Fin 16) (hs : LanesOk s) : LanesOk (laneStarves l s) := by
  unfold laneStarves; dsimp only
  have calm : ∀ ln : Lane, ln.ok → Lane.ok { ln with readers := ln.readers.map fun r => { r with starve := none } } := by
    intro ln h
    refine ⟨h.1, h.2.1, h.2.2.1, fun hn => ?_⟩
    show List.map _ ln.readers = []
    rw [h.2.2.2 hn]; rfl
  split
  · exact lanesOk_updLane l hs (calm _ (hs l))
  · have h : ∀ u, LanesOk u → LanesOk (if isStanding u l then standingStarved l u else u) := by
      intro u h
      split
      · exact lanesOk_of_eq (lanes_standingStarved l u) h
      · exact h
    refine h _ ?_
    refine lanesOk_channels (overList_onlyChannels (askReturnHeld_only _ _) _) ?_
    refine lanesOk_raise _ _ (lanesOk_updLane l hs ?_)
    exact calm { s.lanes.get l with faulted := true, lastFault := .starved } (hs l)

end Sys2Proof.Machine
end

