-- ==== Sys2Proof/Laws/Layouts.lean ====
section
/-! SUPPORT. Response bodies as fields in order (R187 to R190): what each field encoding writes, and the length of a body
given by its fields. -/

namespace Sys2Proof.Machine

/-! ## Fields in order -/

@[simp] theorem length_be (k n : Nat) : (be k n).length = k := by
  induction k with
  | zero => rfl
  | succ k ih => exact congrArg (· + 1) ih

/-- Byte j of a value's k bytes, most significant byte first (R187). -/
theorem getElem?_be {k j : Nat} (n : Nat) (h : j < k) :
    (be k n)[j]? = some (BitVec.ofNat 8 (n / 256 ^ (k - 1 - j))) := by
  induction k generalizing j with
  | zero => omega
  | succ k ih =>
    cases j with
    | zero => rfl
    | succ j =>
      rw [be, List.getElem?_cons_succ, ih (by omega), show k + 1 - 1 - (j + 1) = k - 1 - j by omega]

theorem be_one (n : Nat) : be 1 n = [BitVec.ofNat 8 n] := by
  rw [be, be, Nat.pow_zero, Nat.div_one]

theorem be_one_byte (b : Byte) : be 1 b.toNat = [b] := by
  rw [be_one, BitVec.ofNat_toNat, BitVec.setWidth_eq]

theorem be_one_bool (b : Bool) : be 1 b.toNat = [boolByte b] := by
  cases b <;> rfl

@[simp] theorem laidOut_nil : laidOut [] = [] := rfl

@[simp] theorem laidOut_cons (f : Nat × Nat) (fs : List (Nat × Nat)) :
    laidOut (f :: fs) = be f.1 f.2 ++ laidOut fs := rfl

theorem laidOut_append (fs gs : List (Nat × Nat)) : laidOut (fs ++ gs) = laidOut fs ++ laidOut gs :=
  List.flatMap_append

/-- Fields that a list of entries gives, entry by entry. -/
theorem laidOut_flatMap {α : Type} (l : List α) (f : α → List (Nat × Nat)) :
    laidOut (l.flatMap f) = l.flatMap fun a => laidOut (f a) := by
  induction l with
  | nil => rfl
  | cons a l ih => rw [List.flatMap_cons, laidOut_append, ih, List.flatMap_cons]

/-- A body is as long as its fields are wide (R188). -/
theorem length_laidOut (fs : List (Nat × Nat)) : (laidOut fs).length = (fs.map fun f => f.1).sum := by
  induction fs with
  | nil => rfl
  | cons f fs ih => rw [laidOut_cons, List.length_append, length_be, ih, List.map_cons, List.sum_cons]

/-! ## Absent codes (R188) -/

theorem optTime_eq (t : Option Time) : optTime t = be 5 ((t.map fun t => t.toNat).getD (256 ^ 5 - 1)) := by
  cases t with
  | none => decide
  | some t => rfl

theorem optPid_eq (p : Option Pid) : optPid p = be 2 ((p.map fun p => p.toNat).getD (256 ^ 2 - 1)) := by
  cases p with
  | none => decide
  | some p => rfl

theorem optIndex_eq {n : Nat} (i : Option (Fin n)) :
    optIndex i = be 1 ((i.map fun i => i.val).getD (256 ^ 1 - 1)) := by
  cases i with
  | none => exact (be_one 255).symm
  | some i => exact (be_one _).symm

theorem optOutcome_eq (o : Option Outcome) :
    optOutcome o = be 1 ((o.map fun o => o.byte.toNat).getD (256 ^ 1 - 1)) := by
  cases o with
  | none => rfl
  | some o => exact (be_one_byte _).symm

theorem durationBytes_eq (d : Option (BitVec 32)) : durationBytes d = be 4 ((d.map fun d => d.toNat).getD 0) := by
  cases d <;> rfl

theorem stampBytes_eq (t : Option (BitVec 48)) :
    stampBytes t = be 6 ((t.map fun t => t.toNat).getD (256 ^ 6 - 1)) := by
  cases t with
  | none => decide
  | some t => rfl

theorem laneReqByte_eq (l : LaneReq) : [laneReqByte l] = be 1 ((l.map fun l => l.val).getD 0xFE) := by
  cases l with
  | none => rfl
  | some l => exact (be_one _).symm

/-! ## Sets of indexes -/

theorem bitsOf_lt (f : Nat → Bool) (n : Nat) : bitsOf f n < 2 ^ n := by
  induction n with
  | zero => exact Nat.one_pos
  | succ n ih =>
    rw [bitsOf, Nat.pow_succ]
    split <;> omega

/-- Bit k of a set of indexes stands for index k. -/
theorem testBit_bitsOf (f : Nat → Bool) (n k : Nat) : (bitsOf f n).testBit k = (decide (k < n) && f k) := by
  induction n with
  | zero => simp [bitsOf]
  | succ n ih =>
    have lt := bitsOf_lt f n
    rw [bitsOf]
    by_cases hk : k = n
    · subst hk
      split
      · next h => rw [Nat.add_comm, Nat.testBit_two_pow_add_eq, Nat.testBit_lt_two_pow lt]; simp [h]
      · next h => rw [Nat.add_zero, Nat.testBit_lt_two_pow lt]; simp at h; simp [h]
    · have same : (bitsOf f n + if f n then 2 ^ n else 0).testBit k = (bitsOf f n).testBit k := by
        split
        · by_cases h : k < n
          · rw [Nat.add_comm, Nat.testBit_two_pow_add_gt h]
          · have big : 2 ^ (n + 1) ≤ 2 ^ k := Nat.pow_le_pow_right (by omega) (by omega)
            rw [Nat.testBit_lt_two_pow (by rw [Nat.pow_succ] at big; omega),
              Nat.testBit_lt_two_pow (by rw [Nat.pow_succ] at big; omega)]
        · rfl
      rw [same, ih]
      congr 1
      simp only [decide_eq_decide]
      omega

/-- Zone z is in the set of the zones that meet a test exactly when it meets it. -/
theorem zoneIn_zonesWhere (s : State) (f : Zone → Bool) (z : Fin 8) :
    zoneIn (zonesWhere s f) z = f (s.zones.get z) := by
  unfold zoneIn zonesWhere
  rw [BitVec.getLsbD_ofNat, testBit_bitsOf]
  have h : z.val < s.zones.entries.length := by rw [s.zones.size_eq]; exact z.isLt
  simp [z.isLt, List.getElem?_eq_getElem h, Table.get]

end Sys2Proof.Machine
end

