-- ==== Sys2Proof/Laws/PerInstr.lean ====
section
/-! SUPPORT. The family Sendable: a request that can be sent has a kind of the catalogue, and its body fits a
frame (R178). One lemma per command. -/

namespace Sys2Proof.Machine

/-! ## Lengths of body fields -/

@[simp] theorem length_maskBytes (bits : List Bool) : (maskBytes bits).length = 2 := length_be _ _

@[simp] theorem length_optBytes {w : Nat} (k : Nat) (v : Option (BitVec w)) : (optBytes k v).length = k := length_be _ _

@[simp] theorem length_placementListBytes (ps : List PlacementArg) :
    (placementListBytes ps).length = 1 + 3 * ps.length := by
  have : (ps.flatMap fun p => [p.zones, p.lane, p.keepOpen]).length = 3 * ps.length := by
    induction ps with
    | nil => rfl
    | cons p ps ih => simp only [List.flatMap_cons, List.length_append, List.length_cons, List.length_nil, ih]; omega
  simp only [placementListBytes, List.length_cons, this]
  omega

@[simp] theorem length_termBytes (ts : List (Byte × Byte)) : (ts.flatMap fun t => [t.1, t.2]).length = 2 * ts.length := by
  induction ts with
  | nil => rfl
  | cons t ts ih => simp only [List.flatMap_cons, List.length_append, List.length_cons, List.length_nil, ih]; omega

end Sys2Proof.Machine

namespace Sys2Proof.Laws.Sendable

set_option Elab.async false

open Sys2Proof.Machine

/-- A well-formed command that is a request has a kind of the catalogue, and a body of at most 240 bytes (R178). -/
def Statement (i : Instr) : Prop :=
  i.wellFormed = true →
    (∀ q, requestOf i = some q → kindKnown q.kind = true) ∧ (bodyOf i).length ≤ 240

theorem kindKnown_request (i : Instr) (q : RequestId) (h : requestOf i = some q) : kindKnown q.kind = true := by
  cases i <;> simp only [requestOf, Option.some.injEq, reduceCtorEq] at h <;> subst h <;> rfl

theorem requestTransaction (bytes : List Byte) : Statement (.requestTransaction bytes) := by
  intro _
  exact ⟨kindKnown_request _, by simp [bodyOf]⟩

theorem readTransaction (clocks : Nat) : Statement (.readTransaction clocks) := by
  intro _
  exact ⟨kindKnown_request _, by simp [bodyOf]⟩

theorem otherTransferByte (bytes : List Byte) : Statement (.otherTransferByte bytes) := by
  intro _
  exact ⟨kindKnown_request _, by simp [bodyOf]⟩

theorem resetNLow : Statement .resetNLow := by
  intro _
  exact ⟨kindKnown_request _, by simp [bodyOf]⟩

theorem resetNRise : Statement .resetNRise := by
  intro _
  exact ⟨kindKnown_request _, by simp [bodyOf]⟩

theorem powerOn : Statement .powerOn := by
  intro _
  exact ⟨kindKnown_request _, by simp [bodyOf]⟩

theorem serviceSet (tag : Byte) (a : ServiceSetArgs) : Statement (.serviceSet tag a) := by
  intro _
  refine ⟨kindKnown_request _, ?_⟩
  simp [bodyOf, serviceSetBody]

theorem serviceGet (tag : Byte) (service : Byte) : Statement (.serviceGet tag service) := by
  intro _
  exact ⟨kindKnown_request _, by simp [bodyOf]⟩

theorem serviceClear (tag : Byte) (service : Byte) : Statement (.serviceClear tag service) := by
  intro _
  exact ⟨kindKnown_request _, by simp [bodyOf]⟩

theorem templateSet (tag : Byte) (a : TemplateSetArgs) : Statement (.templateSet tag a) := by
  intro h
  have h' := of_decide_eq_true h
  refine ⟨kindKnown_request _, ?_⟩
  simp [bodyOf]
  omega

theorem outcomeGet (tag : Byte) (service : Byte) : Statement (.outcomeGet tag service) := by
  intro _
  exact ⟨kindKnown_request _, by simp [bodyOf]⟩

theorem availCreate (tag : Byte) (a : AvailCreateArgs) : Statement (.availCreate tag a) := by
  intro h
  have h' := of_decide_eq_true h
  refine ⟨kindKnown_request _, ?_⟩
  simp [bodyOf]
  omega

theorem availAmend (tag : Byte) (a : AvailAmendArgs) : Statement (.availAmend tag a) := by
  intro h
  have h' := of_decide_eq_true h
  refine ⟨kindKnown_request _, ?_⟩
  simp [bodyOf, availAmendBody]
  omega

theorem availCancel (tag : Byte) (a : KeyArgs) : Statement (.availCancel tag a) := by
  intro _
  refine ⟨kindKnown_request _, ?_⟩
  simp [bodyOf, keyBytes]

theorem availReturn (tag : Byte) (a : KeyArgs) : Statement (.availReturn tag a) := by
  intro _
  refine ⟨kindKnown_request _, ?_⟩
  simp [bodyOf, keyBytes]

theorem availConfirm (tag : Byte) (a : KeyArgs) : Statement (.availConfirm tag a) := by
  intro _
  refine ⟨kindKnown_request _, ?_⟩
  simp [bodyOf, keyBytes]

theorem availDecline (tag : Byte) (a : KeyArgs) : Statement (.availDecline tag a) := by
  intro _
  refine ⟨kindKnown_request _, ?_⟩
  simp [bodyOf, keyBytes]

theorem availGet (tag : Byte) (a : KeyArgs) : Statement (.availGet tag a) := by
  intro _
  refine ⟨kindKnown_request _, ?_⟩
  simp [bodyOf, keyBytes]

theorem availWalk (tag : Byte) (a : WalkArgs) : Statement (.availWalk tag a) := by
  intro _
  exact ⟨kindKnown_request _, by simp [bodyOf]⟩

theorem laneSet (tag : Byte) (a : LaneSetArgs) : Statement (.laneSet tag a) := by
  intro _
  refine ⟨kindKnown_request _, ?_⟩
  simp [bodyOf, laneSetBody]

theorem laneGet (tag : Byte) (lane : Byte) : Statement (.laneGet tag lane) := by
  intro _
  exact ⟨kindKnown_request _, by simp [bodyOf]⟩

theorem laneClose (tag : Byte) (lane : Byte) : Statement (.laneClose tag lane) := by
  intro _
  exact ⟨kindKnown_request _, by simp [bodyOf]⟩

theorem laneGuardSet (tag : Byte) (guard : BitVec 32) : Statement (.laneGuardSet tag guard) := by
  intro _
  refine ⟨kindKnown_request _, ?_⟩
  simp [bodyOf]

theorem portSet (tag : Byte) (a : PortSetArgs) : Statement (.portSet tag a) := by
  intro _
  exact ⟨kindKnown_request _, by simp [bodyOf]⟩

theorem portGet (tag : Byte) (port : Byte) : Statement (.portGet tag port) := by
  intro _
  exact ⟨kindKnown_request _, by simp [bodyOf]⟩

theorem chanSet (tag : Byte) (a : ChanSetArgs) : Statement (.chanSet tag a) := by
  intro _
  exact ⟨kindKnown_request _, by simp [bodyOf]⟩

theorem chanGet (tag : Byte) (channel : Byte) : Statement (.chanGet tag channel) := by
  intro _
  exact ⟨kindKnown_request _, by simp [bodyOf]⟩

theorem chanClear (tag : Byte) (channel : Byte) : Statement (.chanClear tag channel) := by
  intro _
  exact ⟨kindKnown_request _, by simp [bodyOf]⟩

theorem zoneLock (tag : Byte) (zone : Byte) : Statement (.zoneLock tag zone) := by
  intro _
  exact ⟨kindKnown_request _, by simp [bodyOf]⟩

theorem zoneUnlock (tag : Byte) (zone : Byte) : Statement (.zoneUnlock tag zone) := by
  intro _
  exact ⟨kindKnown_request _, by simp [bodyOf]⟩

theorem zoneGet (tag : Byte) (zone : Byte) : Statement (.zoneGet tag zone) := by
  intro _
  exact ⟨kindKnown_request _, by simp [bodyOf]⟩

theorem ainSet (tag : Byte) (a : AinSetArgs) : Statement (.ainSet tag a) := by
  intro _
  refine ⟨kindKnown_request _, ?_⟩
  simp [bodyOf]

theorem ainGet (tag : Byte) (input : Byte) : Statement (.ainGet tag input) := by
  intro _
  exact ⟨kindKnown_request _, by simp [bodyOf]⟩

theorem flagSet (tag : Byte) (a : FlagSetArgs) : Statement (.flagSet tag a) := by
  intro _
  exact ⟨kindKnown_request _, by simp [bodyOf]⟩

theorem alertSet (tag : Byte) (a : AlertSetArgs) : Statement (.alertSet tag a) := by
  intro h
  have h' := of_decide_eq_true h
  refine ⟨kindKnown_request _, ?_⟩
  simp [bodyOf, alertSetBody, -List.length_flatMap]
  omega

theorem alertGet (tag : Byte) (alert : Byte) : Statement (.alertGet tag alert) := by
  intro _
  exact ⟨kindKnown_request _, by simp [bodyOf]⟩

theorem alertEnd (tag : Byte) (alert : Byte) : Statement (.alertEnd tag alert) := by
  intro _
  exact ⟨kindKnown_request _, by simp [bodyOf]⟩

theorem tallySet (tag : Byte) (a : TallySetArgs) : Statement (.tallySet tag a) := by
  intro _
  refine ⟨kindKnown_request _, ?_⟩
  simp [bodyOf, tallySetBody]

theorem tallyGet (tag : Byte) (output : Byte) : Statement (.tallyGet tag output) := by
  intro _
  exact ⟨kindKnown_request _, by simp [bodyOf]⟩

theorem attnMask (tag : Byte) (a : AttnMaskArgs) : Statement (.attnMask tag a) := by
  intro _
  refine ⟨kindKnown_request _, ?_⟩
  simp [bodyOf]

theorem poll (tag : Byte) : Statement (.poll tag) := by
  intro _
  exact ⟨kindKnown_request _, by simp [bodyOf]⟩

theorem summary (tag : Byte) : Statement (.summary tag) := by
  intro _
  exact ⟨kindKnown_request _, by simp [bodyOf]⟩

theorem resetStreams (tag : Byte) : Statement (.resetStreams tag) := by
  intro _
  exact ⟨kindKnown_request _, by simp [bodyOf]⟩

theorem resetAll (tag : Byte) : Statement (.resetAll tag) := by
  intro _
  exact ⟨kindKnown_request _, by simp [bodyOf]⟩

theorem networkPacket (input : Fin 4) (p : Packet) : Statement (.networkPacket input p) := by
  intro _
  exact ⟨kindKnown_request _, by simp [bodyOf]⟩

theorem lanePacket (lane : Fin 16) (p : Packet) : Statement (.lanePacket lane p) := by
  intro _
  exact ⟨kindKnown_request _, by simp [bodyOf]⟩

theorem ainChange (input : Fin 6) (high : Bool) : Statement (.ainChange input high) := by
  intro _
  exact ⟨kindKnown_request _, by simp [bodyOf]⟩

theorem debounceExpiry (input : Fin 6) : Statement (.debounceExpiry input) := by
  intro _
  exact ⟨kindKnown_request _, by simp [bodyOf]⟩

theorem holdTimerExpiry (alert : Fin 16) : Statement (.holdTimerExpiry alert) := by
  intro _
  exact ⟨kindKnown_request _, by simp [bodyOf]⟩

theorem releaseTimerExpiry (alert : Fin 16) : Statement (.releaseTimerExpiry alert) := by
  intro _
  exact ⟨kindKnown_request _, by simp [bodyOf]⟩

theorem pcrAbsenceTimeout (service : Fin 64) : Statement (.pcrAbsenceTimeout service) := by
  intro _
  exact ⟨kindKnown_request _, by simp [bodyOf]⟩

theorem openTimeout (lane : Fin 16) : Statement (.openTimeout lane) := by
  intro _
  exact ⟨kindKnown_request _, by simp [bodyOf]⟩

theorem closingTimerExpiry (lane : Fin 16) : Statement (.closingTimerExpiry lane) := by
  intro _
  exact ⟨kindKnown_request _, by simp [bodyOf]⟩

theorem starvation (lane : Fin 16) (channel : Fin 128) : Statement (.starvation lane channel) := by
  intro _
  exact ⟨kindKnown_request _, by simp [bodyOf]⟩

theorem followTimeout (channel : Fin 128) : Statement (.followTimeout channel) := by
  intro _
  exact ⟨kindKnown_request _, by simp [bodyOf]⟩

theorem tallyPhaseTimerExpiry (output : Fin 4) : Statement (.tallyPhaseTimerExpiry output) := by
  intro _
  exact ⟨kindKnown_request _, by simp [bodyOf]⟩

theorem tallyPulseEnd (output : Fin 4) : Statement (.tallyPulseEnd output) := by
  intro _
  exact ⟨kindKnown_request _, by simp [bodyOf]⟩

theorem tallyPendingEdgeExpiry (output : Fin 4) : Statement (.tallyPendingEdgeExpiry output) := by
  intro _
  exact ⟨kindKnown_request _, by simp [bodyOf]⟩

theorem attnGapEnd : Statement .attnGapEnd := by
  intro _
  exact ⟨kindKnown_request _, by simp [bodyOf]⟩

theorem networkInputSearchOrMiss (input : Fin 4) (bytes : List Byte) : Statement (.networkInputSearchOrMiss input bytes) := by
  intro _
  exact ⟨kindKnown_request _, by simp [bodyOf]⟩

theorem laneInputSearchOrMiss (lane : Fin 16) (bytes : List Byte) : Statement (.laneInputSearchOrMiss lane bytes) := by
  intro _
  exact ⟨kindKnown_request _, by simp [bodyOf]⟩

end Sys2Proof.Laws.Sendable
end

