-- ==== Sys2Proof/Laws/Recovered.lean ====
section
/-! SUPPORT. What a change of a zone's coverage makes of its channels and of the attention set, and that an evaluation
of coverage is such a change for each zone whose covering alert changes, and nothing for every other (section 7.4). -/

namespace Sys2Proof.Machine

/-! ## One change of coverage -/

/-- What a change of its zone's coverage gives a channel (R149, R150, R153). -/
def Channel.recovered (new : Option (Fin 16)) (s : State) (ch : Channel) : Channel :=
  match new with
  | none => ch.cover .network
  | some a =>
    if isServing s (s.alerts.get a).lane then ch.cover (.lane (s.alerts.get a).lane (.alert a))
    else match ch.drawsFor with
      | some p => ch.askReturn p .preempted true
      | none => ch

/-- The causes that a change of coverage raises (R150). -/
def coverAttn (new : Option (Fin 16)) (s : State) : State :=
  match new with
  | none => s
  | some a => if isServing s (s.alerts.get a).lane then s else raise (alertSource a) .alertLaneNotReady s

theorem port_recovered (new s) (ch : Channel) : (ch.recovered new s).port = ch.port := by
  unfold Channel.recovered Channel.cover Channel.askReturn
  repeat' split
  all_goals rfl

theorem isServing_congr {s t : State} (ha : t.alerts = s.alerts) (hl : t.lanes = s.lanes) (l) :
    isServing t l = isServing s l := by
  unfold isServing isStanding namingAlerts; rw [ha, hl]

theorem recovered_congr {s t : State} (ha : t.alerts = s.alerts) (hl : t.lanes = s.lanes) (new) :
    Channel.recovered new t = Channel.recovered new s := by
  funext ch
  unfold Channel.recovered
  cases new with
  | none => rfl
  | some a => dsimp only; rw [isServing_congr ha hl, ha]

/-- A loop of updates over the channels of a zone. -/
theorem overZone_updChan (z) (s : State) (f : Channel → Channel) (u : State) (hc : u.channels = s.channels)
    (hp : u.ports = s.ports) (c ch) (h : s.channels.get c = some ch) :
    (overList (chansOfZone u z) (fun c => updChan c f) u).channels.get c =
      some (if chanZone s ch = z then f ch else ch) := by
  have : chansOfZone u z = chansOfZone s z := by unfold chansOfZone chansWhere chanZone; rw [hc, hp]
  rw [this, overList_updChan (by unfold chansOfZone chansWhere; exact (List.nodup_finRange 128).filter _)]
  simp only [Table.get_mapIdx, hc, h]
  by_cases e : chanZone s ch = z
  · rw [if_pos (by simp [chansOfZone, chansWhere, h, e]), if_pos e]; rfl
  · rw [if_neg (by simp [chansOfZone, chansWhere, h, e]), if_neg e]

/-- A change of a zone's coverage changes the channels of that zone alone. -/
theorem channels_coverChange (new z s c ch) (h : s.channels.get c = some ch) :
    (coverChange new z s).channels.get c = some (if chanZone s ch = z then ch.recovered new s else ch) := by
  unfold coverChange Channel.recovered
  cases new with
  | none =>
    dsimp only [targetZone]
    refine overZone_updChan z s (Channel.cover .network) _ ?_ ?_ c ch h <;> rfl
  | some a =>
    dsimp only
    rw [show isServing (updZone z (fun q => { q with cover := some a }) s)
      ((updZone z (fun q => { q with cover := some a }) s).alerts.get a).lane
        = isServing s (s.alerts.get a).lane from rfl]
    split
    · dsimp only [coverServing, targetZone]
      refine overZone_updChan z s (Channel.cover (.lane (s.alerts.get a).lane (.alert a))) _ ?_ ?_ c ch h <;> rfl
    · dsimp only [coverWaiting]
      rw [channels_raise]
      refine overZone_updChan z s (fun ch => match ch.drawsFor with
        | some p => ch.askReturn p .preempted true
        | none => ch) _ ?_ ?_ c ch h <;> rfl

theorem zone_coverChange (new z s) : (coverChange new z s).zones.get z =
    (match new with
      | none => { s.zones.get z with cover := none, waiting := false }
      | some a => { s.zones.get z with cover := some a, waiting := !isServing s (s.alerts.get a).lane }) := by
  unfold coverChange
  cases new with
  | none => dsimp only; rw [zones_targetZone]; simp [Table.get_set]
  | some a =>
    dsimp only
    rw [show isServing (updZone z (fun q => { q with cover := some a }) s)
      ((updZone z (fun q => { q with cover := some a }) s).alerts.get a).lane
        = isServing s (s.alerts.get a).lane from rfl]
    split
    · next h => dsimp only [coverServing]; rw [zones_targetZone]; simp [Table.get_set, h]
    · next h =>
      dsimp only [coverWaiting]
      rw [zones_raise, overList_onlyChannels (askReturnHeld_only _ _) _]
      simp [Table.get_set, h]

theorem OnlyChannels.attn {s t} (h : OnlyChannels s t) : t.attn = s.attn ∧ t.mask = s.mask ∧ t.ports = s.ports := by
  rw [h]; exact ⟨rfl, rfl, rfl⟩

theorem attn_raise_congr {s t : State} (h : t.attn = s.attn) (m : t.mask = s.mask) (a b) :
    (raise a b t).attn = (raise a b s).attn := by
  unfold raise; rw [h, m]; split
  · rfl
  · exact h

theorem attn_coverChange (new z s) : (coverChange new z s).attn = (coverAttn new s).attn
    ∧ (coverChange new z s).mask = s.mask ∧ (coverChange new z s).ports = s.ports := by
  unfold coverChange coverAttn
  cases new with
  | none =>
    have q := (targetZone_only .network z (updZone z (fun q => { q with waiting := false })
      (updZone z (fun q => { q with cover := none }) s))).attn
    exact ⟨q.1, q.2.1, q.2.2⟩
  | some a =>
    dsimp only
    rw [show isServing (updZone z (fun q => { q with cover := some a }) s)
      ((updZone z (fun q => { q with cover := some a }) s).alerts.get a).lane
        = isServing s (s.alerts.get a).lane from rfl]
    split
    · have q := (targetZone_only (.lane (s.alerts.get a).lane (.alert a)) z
        (updZone z (fun q => { q with waiting := false }) (updZone z (fun q => { q with cover := some a }) s))).attn
      exact ⟨q.1, q.2.1, q.2.2⟩
    · dsimp only [coverWaiting]
      generalize hu : updZone z (fun q => { q with waiting := true })
        (updZone z (fun q => { q with cover := some a }) s) = u
      have q := (overList_onlyChannels (askReturnHeld_only .preempted true) u (l := chansOfZone u z)).attn
      subst hu
      exact ⟨attn_raise_congr (s := s) q.1 q.2.1 _ _, (mask_raise _ _ _).trans q.2.1, (ports_raise _ _ _).trans q.2.2⟩

/-! ## The attention set only grows -/

/-- Every cause pending in `s` is pending in `t`, under the same mask. -/
def AttnLe (s t : State) : Prop :=
  t.mask = s.mask ∧ ∀ src k, (s.attn.get src).getLsbD k = true → (t.attn.get src).getLsbD k = true

theorem AttnLe.refl (s) : AttnLe s s := ⟨rfl, fun _ _ h => h⟩

theorem AttnLe.trans {s t u} (a : AttnLe s t) (b : AttnLe t u) : AttnLe s u :=
  ⟨b.1.trans a.1, fun x k h => b.2 x k (a.2 x k h)⟩

theorem attnLe_raise (a b s) : AttnLe s (raise a b s) := by
  refine ⟨mask_raise _ _ _, fun src k h => ?_⟩
  unfold raise
  split
  · rw [Table.get_set]
    split
    · next e => subst e; rw [BitVec.getLsbD_or, h]; rfl
    · exact h
  · exact h

theorem attnLe_raise_raise {s t} (h : AttnLe s t) (a b) : AttnLe (raise a b s) (raise a b t) := by
  refine ⟨(mask_raise _ _ _).trans (h.1.trans (mask_raise _ _ _).symm), fun src k => ?_⟩
  have := h.2 src k
  unfold raise
  rw [h.1]
  split
  · rw [Table.get_set, Table.get_set]
    split
    · next e =>
      subst e
      rw [BitVec.getLsbD_or, BitVec.getLsbD_or, Bool.or_eq_true, Bool.or_eq_true]
      exact Or.imp this id
    · exact this
  · exact this

theorem attnLe_coverAttn (n s) : AttnLe s (coverAttn n s) := by
  unfold coverAttn
  cases n with
  | none => exact .refl s
  | some a =>
    dsimp only
    split
    · exact .refl s
    · exact attnLe_raise _ _ _

theorem attnLe_coverAttn_coverAttn {s t} (h : AttnLe s t) (ha : t.alerts = s.alerts) (hl : t.lanes = s.lanes) (n) :
    AttnLe (coverAttn n s) (coverAttn n t) := by
  unfold coverAttn
  cases n with
  | none => exact h
  | some a =>
    dsimp only
    rw [isServing_congr ha hl, ha]
    split
    · exact h
    · exact attnLe_raise_raise h _ _

/-! ## An evaluation over a set of zones -/

/-- An evaluation that began in `s`, over the zones of `zs`, with the zones in `left` still to come, has reached `u`. -/
structure EvalStage (zs : ZoneSet) (s : State) (left : List (Fin 8)) (u : State) : Prop where
  frame : CoverFrame s u
  ports : u.ports = s.ports
  attn : AttnLe s u
  channel : ∀ c ch, s.channels.get c = some ch → ∃ ch', u.channels.get c = some ch' ∧ ch'.port = ch.port
  leftZone : ∀ z ∈ left, u.zones.get z = s.zones.get z
  leftChannel : ∀ c ch, s.channels.get c = some ch → chanZone s ch ∈ left → u.channels.get c = some ch
  changed : ∀ z, z ∉ left → zoneIn zs z = true → bestCover s z ≠ (s.zones.get z).cover →
    u.zones.get z = (coverChange (bestCover s z) z s).zones.get z ∧ AttnLe (coverAttn (bestCover s z) s) u
      ∧ ∀ c ch, s.channels.get c = some ch → chanZone s ch = z →
        u.channels.get c = (coverChange (bestCover s z) z s).channels.get c
  kept : ∀ z, z ∉ left → ¬ (zoneIn zs z = true ∧ bestCover s z ≠ (s.zones.get z).cover) →
    u.zones.get z = s.zones.get z
      ∧ ∀ c ch, s.channels.get c = some ch → chanZone s ch = z → u.channels.get c = some ch

/-- The next zone changes its covering alert. -/
theorem EvalStage.change {zs s x l u} (hx : x ∉ l) (h : EvalStage zs s (x :: l) u)
    (hc : zoneIn zs x = true ∧ bestCover s x ≠ (s.zones.get x).cover) :
    EvalStage zs s l (coverChange (bestCover s x) x u) := by
  have spec := coverChange_spec (bestCover s x) x u
  have at' := attn_coverChange (bestCover s x) x u
  have hz (ch) : chanZone u ch = chanZone s ch := by unfold chanZone; rw [h.ports]
  have new := recovered_congr h.frame.1 h.frame.2 (bestCover s x)
  have grows : AttnLe u (coverChange (bestCover s x) x u) :=
    ⟨at'.2.1, fun src k g => by rw [at'.1]; exact (attnLe_coverAttn _ u).2 src k g⟩
  have raised : AttnLe (coverAttn (bestCover s x) s) (coverChange (bestCover s x) x u) :=
    have le := attnLe_coverAttn_coverAttn h.attn h.frame.1 h.frame.2 (bestCover s x)
    ⟨at'.2.1.trans (h.attn.1.trans (attnLe_coverAttn _ s).1.symm), fun src k g => by rw [at'.1]; exact le.2 src k g⟩
  refine ⟨h.frame.trans spec.1, at'.2.2.trans h.ports, h.attn.trans grows, fun c ch hch => ?_, fun z hm => ?_,
    fun c ch hch hm => ?_, fun z h1 h2 h3 => ?_, fun z h1 h2 => ?_⟩
  · obtain ⟨ch', e, e'⟩ := h.channel c ch hch
    refine ⟨_, channels_coverChange _ x u c ch' e, ?_⟩
    split
    · rw [port_recovered, e']
    · exact e'
  · rw [spec.2.2 z (fun q => hx (q ▸ hm))]
    exact h.leftZone z (List.mem_cons_of_mem _ hm)
  · rw [channels_coverChange _ _ _ c ch (h.leftChannel c ch hch (List.mem_cons_of_mem _ hm)), hz,
      if_neg (fun q : chanZone s ch = x => hx (by rw [← q]; exact hm))]
  · by_cases q : z = x
    · subst q
      refine ⟨?_, raised, fun c ch hch hq => ?_⟩
      · rw [zone_coverChange, zone_coverChange, h.leftZone z List.mem_cons_self]
        cases bestCover s z with
        | none => rfl
        | some a => dsimp only; rw [isServing_congr h.frame.1 h.frame.2, h.frame.1]
      · rw [channels_coverChange _ _ _ c ch (h.leftChannel c ch hch (by rw [hq]; exact List.mem_cons_self)),
          channels_coverChange _ _ _ c ch hch, hz, new]
    · have old := h.changed z (List.not_mem_cons_of_ne_of_not_mem q h1) h2 h3
      refine ⟨by rw [spec.2.2 z q]; exact old.1, old.2.1.trans grows, fun c ch hch hq => ?_⟩
      obtain ⟨ch', e, e'⟩ := h.channel c ch hch
      have : chanZone s ch' = z := by rw [← hq]; unfold chanZone; rw [e']
      rw [channels_coverChange _ _ _ c ch' e, hz, this, if_neg q, ← e]
      exact old.2.2 c ch hch hq
  · have q : z ≠ x := by rintro rfl; exact h2 hc
    have old := h.kept z (List.not_mem_cons_of_ne_of_not_mem q h1) h2
    refine ⟨by rw [spec.2.2 z q]; exact old.1, fun c ch hch hq => ?_⟩
    rw [channels_coverChange _ _ _ c ch (old.2 c ch hch hq), hz, hq, if_neg q]

/-- The next zone keeps its covering alert, or is not of the set. -/
theorem EvalStage.keep {zs s x l u} (h : EvalStage zs s (x :: l) u)
    (hc : ¬ (zoneIn zs x = true ∧ bestCover s x ≠ (s.zones.get x).cover)) : EvalStage zs s l u := by
  refine ⟨h.frame, h.ports, h.attn, h.channel, fun z hz => h.leftZone z (List.mem_cons_of_mem _ hz),
    fun c ch a b => h.leftChannel c ch a (List.mem_cons_of_mem _ b), fun z h1 h2 h3 => ?_, fun z h1 h2 => ?_⟩
  · exact h.changed z (List.not_mem_cons_of_ne_of_not_mem (by rintro rfl; exact hc ⟨h2, h3⟩) h1) h2 h3
  · by_cases q : z = x
    · subst q
      exact ⟨h.leftZone z List.mem_cons_self,
        fun c ch a b => h.leftChannel c ch a (by rw [b]; exact List.mem_cons_self)⟩
    · exact h.kept z (List.not_mem_cons_of_ne_of_not_mem q h1) h2

theorem EvalStage.next {zs s x l u} (hx : x ∉ l) (h : EvalStage zs s (x :: l) u) :
    EvalStage zs s l (if zoneIn zs x then evalZone x u else u) := by
  have ev : evalZone x u = if bestCover s x = (s.zones.get x).cover then u else coverChange (bestCover s x) x u := by
    unfold evalZone; dsimp only; rw [bestCover_of_alerts h.frame.1, h.leftZone x List.mem_cons_self]
  by_cases hz : zoneIn zs x = true
  · rw [if_pos hz, ev]
    by_cases hb : bestCover s x = (s.zones.get x).cover
    · rw [if_pos hb]; exact h.keep fun q => q.2 hb
    · rw [if_neg hb]; exact h.change hx ⟨hz, hb⟩
  · rw [if_neg hz]; exact h.keep fun q => hz q.1

theorem evalZones_stage (zs s) : EvalStage zs s [] (evalZones zs s) := by
  unfold evalZones overFin
  have gen : ∀ l u, l.Nodup → EvalStage zs s l u →
      EvalStage zs s [] (l.foldl (fun s z => if zoneIn zs z then evalZone z s else s) u) := by
    intro l
    induction l with
    | nil => exact fun u _ h => h
    | cons x l ih => exact fun u nd h => ih _ (List.nodup_cons.mp nd).2 (h.next (List.nodup_cons.mp nd).1)
  exact gen _ s (List.nodup_finRange 8) ⟨.refl s, rfl, .refl s, fun c ch h => ⟨ch, h, rfl⟩, fun _ _ => rfl,
    fun _ _ h _ => h, fun z hz => absurd (List.mem_finRange z) hz, fun z hz => absurd (List.mem_finRange z) hz⟩

/-- An evaluation from a state `u` that has the zones, channels, lanes and ports of `s`, and at least its causes. -/
theorem evalZones_recovered {zs} {s u : State} (hz : u.zones = s.zones) (hc : u.channels = s.channels)
    (hl : u.lanes = s.lanes) (hp : u.ports = s.ports) (ha : AttnLe s u) : Recovered zs s (evalZones zs u) := by
  have st := evalZones_stage zs u
  have zone (ch) : chanZone s ch = chanZone u ch := by unfold chanZone; rw [hp]
  intro z
  generalize hv : ({ s with alerts := (evalZones zs u).alerts } : State) = v
  have va : v.alerts = u.alerts := by rw [← hv]; exact st.frame.1
  have vl : v.lanes = u.lanes := by rw [← hv]; exact hl.symm
  have vz : v.zones = u.zones := by rw [← hv]; exact hz.symm
  have vc : v.channels = u.channels := by rw [← hv]; exact hc.symm
  have vn (ch) : chanZone v ch = chanZone u ch := by rw [← hv]; exact zone ch
  have vt : AttnLe v u := by rw [← hv]; exact ha
  dsimp only
  rw [bestCover_of_alerts st.frame.1]
  have sameZone (n) : (coverChange n z v).zones.get z = (coverChange n z u).zones.get z := by
    rw [zone_coverChange, zone_coverChange, vz]
    cases n with
    | none => rfl
    | some a => dsimp only; rw [isServing_congr va vl, va]
  have sameChannel (n c ch) (h : u.channels.get c = some ch) :
      (coverChange n z v).channels.get c = (coverChange n z u).channels.get c := by
    rw [channels_coverChange n z v c ch (by rw [vc]; exact h), channels_coverChange n z u c ch h,
      recovered_congr va vl, vn]
  have fewer (n) : AttnLe (coverChange n z v) (coverAttn n u) :=
    have q := attn_coverChange n z v
    have le := attnLe_coverAttn_coverAttn vt va.symm vl.symm n
    ⟨((attnLe_coverAttn n u).1.trans vt.1).trans q.2.1.symm, fun src k g => le.2 src k (by rw [← q.1]; exact g)⟩
  refine ⟨fun h => ?_, fun h => ?_⟩
  · have y := st.changed z List.not_mem_nil h.1 (by rw [hz]; exact h.2)
    refine ⟨by rw [sameZone]; exact y.1, fun src k g => y.2.1.2 src k ((fewer _).2 src k g), fun c ch h1 h2 => ?_⟩
    rw [← hc] at h1
    rw [sameChannel _ c ch h1]
    exact y.2.2 c ch h1 (by rw [← zone]; exact h2)
  · have y := st.kept z List.not_mem_nil (by rw [hz]; exact h)
    exact ⟨by rw [y.1, hz], fun c ch h1 h2 => y.2 c ch (by rw [hc]; exact h1) (by rw [← zone]; exact h2)⟩

/-- A record that enters ACTIVE has the coverage of its zones evaluated (R144, R148). -/
theorem enterActive_recovered (a) (s : State) : Recovered (s.alerts.get a).zones s (enterActive a s) := by
  unfold enterActive
  dsimp only
  rw [alerts_raise, get_updAlert, if_pos rfl]
  refine evalZones_recovered ?_ ?_ ?_ ?_ ⟨(attnLe_raise _ _ _).1, fun x k h => (attnLe_raise _ _ _).2 x k h⟩
  · rw [zones_raise]; rfl
  · rw [channels_raise]; rfl
  · rw [lanes_raise]; rfl
  · rw [ports_raise]; rfl

/-- A record that leaves ACTIVE or RELEASING has the coverage of its zones evaluated (R145, R146, R148). -/
theorem endAlert_recovered (after a) (s : State) : Recovered (s.alerts.get a).zones s (endAlert after a s) := by
  unfold endAlert
  dsimp only
  rw [alerts_raise, get_updAlert, if_pos rfl]
  refine evalZones_recovered ?_ ?_ ?_ ?_ ⟨(attnLe_raise _ _ _).1, fun x k h => (attnLe_raise _ _ _).2 x k h⟩
  · rw [zones_raise]; rfl
  · rw [channels_raise]; rfl
  · rw [lanes_raise]; rfl
  · rw [ports_raise]; rfl

end Sys2Proof.Machine
end

