-- ==== Sys2Proof/Laws/Retest.lean ====
section
/-! SUPPORT. The guard for a placement that asks or is tested again (R88, R42), and what testing an ARMED record's
placements with its new E makes of them, one after the other. -/

namespace Sys2Proof.Machine

/-- The guard for a placement in a lane's group, said over the lanes of that group (R88). -/
theorem passesGuard_iff {s : State} {p : PRef} {e : Time} {l : Fin 16} :
    passesGuard s p e (groupOf l) = true ↔
      ∀ (m : Fin 16) (o : PRef) (other : Avail) (e' : Time), m.val / 4 = l.val / 4 →
        (s.lanes.get m).bound = some o → o ≠ p → findRec o.key s = some other → other.e = some e' →
        s.groupGuard ≤ absDiff e e' := by
  unfold passesGuard
  rw [List.all_eq_true]
  have mem : ∀ m : Fin 16, m ∈ groupLanes (groupOf l) ↔ m.val / 4 = l.val / 4 := by
    intro m
    unfold groupLanes groupOf
    simp only [List.mem_cons, List.not_mem_nil, or_false, Fin.ext_iff]
    omega
  constructor
  · intro h m o other e' hm h1 h2 h3 h4
    have := h m ((mem m).mpr hm)
    unfold boundE at this
    rw [h1] at this
    dsimp only at this
    rw [if_neg h2, h3] at this
    simp only [Option.bind_some, h4] at this
    simpa using this
  · intro h m hm
    unfold boundE
    cases h1 : (s.lanes.get m).bound with
    | none => rfl
    | some o =>
      dsimp only
      by_cases h2 : o = p
      · rw [if_pos h2]
      · rw [if_neg h2]
        cases h3 : findRec o.key s with
        | none => rfl
        | some other =>
          simp only [Option.bind_some]
          cases h4 : other.e with
          | none => rfl
          | some e' => simpa using h m o other e' ((mem m).mp hm) h1 h2 h3 h4

/-- Changing one element of a list that is known is setting it. -/
theorem modify_eq_set {ps : List Placement} {i : Nat} {q : Placement} (f : Placement → Placement) (h : ps[i]? = some q) :
    ps.modify i f = ps.set i (f q) := by
  have hl : i < ps.length := (List.getElem?_eq_some_iff.mp h).1
  apply List.ext_getElem?
  intro j
  rw [List.getElem?_modify, List.getElem?_set]
  by_cases hj : i = j
  · subst hj
    rw [if_pos rfl, if_pos hl, h]
    simp
  · simp [hj]

/-- A placement of the table rewritten, where every record of its key holds `q` there. -/
theorem updPlacement_stored {s : State} {p : PRef} {q : Placement} (f : Placement → Placement)
    (h : ∀ x ∈ s.avails, x.key = p.key → x.placements[p.idx]? = some q) :
    updPlacement p f s = { s with avails := s.avails.map fun x =>
      if x.key = p.key then { x with placements := x.placements.set p.idx (f q) } else x } := by
  unfold updPlacement updRec
  congr 1
  apply List.map_congr_left
  intro x hx
  split
  · next e =>
    unfold Avail.updPlacement
    rw [modify_eq_set f (h x hx e)]
  · rfl

theorem handBack_eq (l : Fin 16) (p : PRef) (s : State) :
    handBack l p s = { s with lanes := s.lanes.set l ((s.lanes.get l).handedBack (nowMs s) p) } := by
  have h := lanes_handBack l p s
  unfold handBack updLane at h ⊢
  exact congrArg (fun ls => { s with lanes := ls }) h

/-- What testing one placement again with its record's E makes of it and of the lanes (R42). -/
theorem retestGuard_retested {s : State} {p : PRef} {r : Avail} {q : Placement} {new : Time}
    (hr : findRec p.key s = some r) (hq : r.placements[p.idx]? = some q) (he : r.e = some new)
    (hu : ∀ x ∈ s.avails, x.key = p.key → x = r) : Retested p new q s (retestGuard p s) := by
  have hf : findPlacement p s = some q := (findPlacement_eq hr).trans hq
  refine ⟨fun h => ?_, fun l hl hb => ?_⟩
  · unfold retestGuard
    rw [hr, hf]
    dsimp only
    split
    · next h1 h2 _ =>
      rcases h with h | h
      · exact absurd h1 h
      · rw [h] at h2; cases h2
    · rfl
  intro ln given back
  have hg : retestGuard p s = if passesGuard s p new (groupOf l) then s else
      requestLane p (updPlacement p (fun q => { q with state := .waiting, bound := none }) (handBack l p s)) := by
    unfold retestGuard
    rw [hr, hf]
    dsimp only
    rw [hl, hb, he]
  have hb' : updPlacement p (fun q => { q with state := .waiting, bound := none }) (handBack l p s) = back := by
    have e : (s.lanes.get l).handedBack (nowMs s) p = given := by
      unfold Lane.handedBack
      dsimp only [given, ln]
      by_cases h : (s.lanes.get l).bound = some p
      · rw [if_pos h, if_neg (not_not_intro h)]
        by_cases h' : (s.lanes.get l).state = .opening ∨ (s.lanes.get l).state = .ready
        · rw [if_pos h', if_pos h']; rfl
        · rw [if_neg h', if_neg h']
      · rw [if_neg h, if_pos h]
    rw [handBack_eq, e]
    refine updPlacement_stored _ (fun x hx hk => ?_)
    rw [hu x hx hk]
    exact hq
  have hlen : p.idx < r.placements.length := (List.getElem?_eq_some_iff.mp hq).1
  have hrb : findRec p.key back = some { r with
      placements := r.placements.set p.idx { q with state := .waiting, bound := none } } := by
    have h1 : findRec p.key (handBack l p s) = some r :=
      (findRec_of_avails (by rw [handBack_eq]) _).trans hr
    have h2 := findRec_updPlacement (fun q => { q with state := .waiting, bound := none }) h1
    rw [hb'] at h2
    rw [h2]
    unfold Avail.updPlacement
    rw [modify_eq_set _ hq]
  have hqb : findPlacement p back = some { q with state := .waiting, bound := none } := by
    refine (findPlacement_eq hrb).trans ?_
    dsimp only
    rw [List.getElem?_set, if_pos rfl, if_pos hlen]
  refine ⟨fun h => ?_, fun h => ⟨fun ha => ?_, fun m ha => ?_⟩⟩
  · rw [hg, if_pos (passesGuard_iff.mpr h)]
  · rw [hg, if_neg (fun h' => h (passesGuard_iff.mp h')), hb']
    exact requestLane_refused hrb hqb he ha
  intro lm granted
  rw [hg, if_neg (fun h' => h (passesGuard_iff.mp h')), hb', requestLane_granted hrb hqb he ha]
  have hp : updPlacement p (fun q => { q with state := .laned, bound := some m }) back = { back with
      avails := back.avails.map fun x => if x.key = p.key then
        { x with placements := x.placements.set p.idx { q with state := .laned, bound := some m } } else x } := by
    refine updPlacement_stored (q := { q with state := .waiting, bound := none }) _ (fun x hx hk => ?_)
    obtain ⟨y, hy, e⟩ := List.mem_map.mp hx
    by_cases hyk : y.key = p.key
    · rw [if_pos hyk] at e
      rw [hu y hy hyk] at e
      rw [← e]
      dsimp only
      rw [List.getElem?_set, if_pos rfl, if_pos hlen]
    · rw [if_neg hyk] at e
      rw [e] at hyk
      exact absurd hk hyk
  rw [hp]
  unfold grant updLane
  dsimp only [granted, lm]
  by_cases h1 : (back.lanes.get m).state = .idle
  · rw [if_pos h1]
    simp only [h1, if_true]
    rfl
  · rw [if_neg h1]
    simp only [h1, if_false]

theorem findPlacement_retestGuard_other {s : State} {p q : PRef} (h : q ≠ p) :
    findPlacement q (retestGuard p s) = findPlacement q s := by
  unfold retestGuard
  split
  · split
    · split
      · rfl
      · rw [findPlacement_requestLane_other h, findPlacement_updPlacement_other _ h]
        exact findPlacement_of_avails (by rw [handBack_eq]) _
    · rfl
  · rfl

/-- An ARMED record's placements tested again with its E, one after the other, each in the state that those before it
left (R42). -/
theorem retest_stages {s : State} {k : Key} {r : Avail} {new : Time} (hr : findRec k s = some r) (he : r.e = some new)
    (hn : (s.avails.map fun q => q.key).Nodup) :
    ∃ stage : Nat → State, stage 0 = s
      ∧ (∀ j q, r.placements[j]? = some q → Retested ⟨k, j⟩ new q (stage j) (stage (j + 1)))
      ∧ stage r.placements.length = overList (placementRefs s k) retestGuard s
      ∧ ∀ j, bares (stage j) = bares s := by
  let stage (n : Nat) : State := overList ((List.range n).map fun i => (⟨k, i⟩ : PRef)) retestGuard s
  have hb (j : Nat) : bares (stage j) = bares s :=
    overList_keeps (fun t => bares t = bares s) (fun p _ t ht => (bares_retestGuard p t).trans ht) rfl
  refine ⟨stage, rfl, fun j q hq => ?_, ?_, hb⟩
  · obtain ⟨r', h1, h2⟩ := findRec_of_bares (hb j) hr
    have he' : r'.e = some new := (congrArg Avail.e h2).trans he
    have hpl : r'.placements[j]? = some q := by
      have h3 := (findPlacement_overPlacements (k := k) (f := retestGuard)
        (fun h => findPlacement_retestGuard_other h) s j j).1 (Nat.le_refl _)
      rw [findPlacement_eq (p := ⟨k, j⟩) h1, findPlacement_eq (p := ⟨k, j⟩) hr] at h3
      exact h3.trans hq
    have hs : stage (j + 1) = retestGuard ⟨k, j⟩ (stage j) := overPlacements_succ k retestGuard s j
    rw [hs]
    refine retestGuard_retested (p := ⟨k, j⟩) h1 hpl he' (fun x hx hk => ?_)
    have hnj : ((stage j).avails.map fun q => q.key).Nodup := by
      have e : ((stage j).avails.map fun q => q.key) = s.avails.map fun q => q.key := keys_of_bares (hb j)
      rw [e]
      exact hn
    have := findRec_of_mem hnj hx
    rw [show x.key = k from hk, h1] at this
    exact (Option.some.inj this).symm
  · show overList ((List.range r.placements.length).map fun i => (⟨k, i⟩ : PRef)) retestGuard s
      = overList (placementRefs s k) retestGuard s
    unfold placementRefs
    rw [hr]

end Sys2Proof.Machine
end

