-- ==== Sys2Proof/Laws/Splice.lean ====
section
/-! SUPPORT. What a RAP and a channel on NETWORK are. The Splice Engine's shared operations, one at a time: what freeing and
a new reader make of a lane, what a reader's leave, a settled departure and a leave report change, and what a splice-out
makes of a record's placements. -/

namespace Sys2Proof.Machine

/-! ## What a packet and a channel are -/

/-- A packet is a RAP with its PTS: payload start, random access, and a header whose timestamps lie whole within it (R67,
R104). -/
theorem rapPts_iff {p : Packet} {t : Time} : rapPts p = some t ↔ p.pusi = true
    ∧ (∃ a, p.af = some (.holds a) ∧ a.randomAccess = true)
    ∧ ∃ h rest, p.payload = some (.pes h rest) ∧ h.pts = .whole t ∧ h.dts ≠ .cut := by
  constructor
  · intro e
    unfold rapPts at e
    split at e
    · next open_ =>
      rw [Bool.and_eq_true] at open_
      obtain ⟨random, uncut⟩ := open_
      unfold randomAccessOf adaptationOf at random
      unfold headerCut at uncut
      unfold pktPts at e
      split at e
      · next h rest start pay =>
        split at e
        · next whole =>
          cases e
          obtain ⟨a, ha, access⟩ := Option.any_eq_true .. |>.1 random
          split at ha
          · next af =>
            cases ha
            refine ⟨start, ⟨_, af, access⟩, h, rest, pay, whole, fun cut => ?_⟩
            simp [pay, cut] at uncut
          · cases ha
        · cases e
      · cases e
    · cases e
  · rintro ⟨start, ⟨a, af, access⟩, h, rest, pay, whole, uncut⟩
    unfold rapPts randomAccessOf adaptationOf headerCut pktPts
    simp [start, af, access, pay, whole, uncut]

/-- A channel is NETWORK exactly when every component is (R117). -/
theorem isNetwork_iff {ch : Channel} : ch.isNetwork = true ↔ ∀ x, (ch.roles.get x).source = .network := by
  unfold Channel.isNetwork PerRole.toList
  simp only [List.all_cons, List.all_nil, Bool.and_true, Bool.and_eq_true, decide_eq_true_eq]
  exact ⟨fun ⟨a, b, c, d⟩ x => by cases x <;> assumption, fun h => ⟨h .video, h .audio1, h .audio2, h .audio3⟩⟩

/-! ## Lanes under freeing and readers -/

/-- Freeing keeps the readers and the state of a lane (R80). -/
theorem free_keeps (d : Fin 128 → Role → Bool) (standing : Bool) (ln : Lane) :
    (ln.free d standing).readers = ln.readers ∧ (ln.free d standing).state = ln.state
      ∧ (ln.free d standing).bound = ln.bound := by
  have hold : ∀ x : Lane, (Lane.holdAfterLeaving x).readers = x.readers ∧ (Lane.holdAfterLeaving x).state = x.state
      ∧ (Lane.holdAfterLeaving x).bound = x.bound := by
    intro x; unfold Lane.holdAfterLeaving; split <;> exact ⟨rfl, rfl, rfl⟩
  have mark : ∀ x : Lane, x.remark.readers = x.readers ∧ x.remark.state = x.state ∧ x.remark.bound = x.bound := by
    intro x; unfold Lane.remark; split
    · exact ⟨rfl, rfl, rfl⟩
    · split
      · exact ⟨rfl, rfl, rfl⟩
      · split <;> exact ⟨rfl, rfl, rfl⟩
  unfold Lane.free
  split
  · exact ⟨rfl, rfl, rfl⟩
  · dsimp only
    have h := hold { ln with buffer := ln.buffer.filter fun b => !ln.freeable d b }
    split
    · obtain ⟨m₁, m₂, m₃⟩ := mark (Lane.holdAfterLeaving { ln with buffer := ln.buffer.filter fun b => !ln.freeable d b })
      exact ⟨m₁.trans h.1, m₂.trans h.2.1, m₃.trans h.2.2⟩
    · exact h

/-- Freeing an AVAIL lane keeps its entry mark and L_pts (R78; log 12). -/
theorem free_keeps_entry (d : Fin 128 → Role → Bool) (ln : Lane) :
    (ln.free d false).entry = ln.entry ∧ (ln.free d false).lpts = ln.lpts := by
  have hold : ∀ x : Lane, (Lane.holdAfterLeaving x).entry = x.entry ∧ (Lane.holdAfterLeaving x).lpts = x.lpts := by
    intro x; unfold Lane.holdAfterLeaving; split <;> exact ⟨rfl, rfl⟩
  unfold Lane.free
  split
  · exact ⟨rfl, rfl⟩
  · exact hold _

/-- A new reader, or one that starts again, stands at the entry in an ON_AIR lane; the other readers stay (R79). -/
theorem startReader_spec (c : Fin 128) (ln : Lane) :
    (ln.startReader c).entry = ln.entry ∧ (ln.startReader c).lpts = ln.lpts ∧ (ln.startReader c).bound = ln.bound
      ∧ (ln.startReader c).state = .onAir
      ∧ (∃ r ∈ (ln.startReader c).readers, r.chan = c ∧ r.cursors = { PerRole.all none with video := ln.entry })
      ∧ ∀ r ∈ ln.readers, r.chan ≠ c → r ∈ (ln.startReader c).readers := by
  unfold Lane.startReader
  cases h : ln.reader c with
  | none =>
    exact ⟨rfl, rfl, rfl, rfl, ⟨_, List.mem_append_right _ (List.mem_singleton.mpr rfl), rfl, rfl⟩,
      fun r h _ => List.mem_append_left _ h⟩
  | some r =>
    have hm := List.mem_of_find?_eq_some h
    have hc : r.chan = c := by simpa using List.find?_some h
    exact ⟨rfl, rfl, rfl, rfl,
      ⟨{ r with cursors := { PerRole.all none with video := ln.entry } },
        List.mem_map.mpr ⟨r, hm, by rw [if_pos hc]⟩, hc, rfl⟩,
      fun q hq hne => List.mem_map.mpr ⟨q, hq, by rw [if_neg hne]⟩⟩

theorem lastReaderLeft_readers (now : Nat) (standing keep : Bool) {ln : Lane} (h : ln.readers = []) :
    (Lane.lastReaderLeft now standing keep ln).readers = [] := by
  unfold Lane.lastReaderLeft
  split
  · split
    · rfl
    · exact h
  · split <;> rfl

/-- A reader's leave changes no other lane (R83). -/
theorem readerLeave_other {l m : Fin 16} {c : Fin 128} {s : State} (h : m ≠ l) :
    (readerLeave l c s).lanes.get m = s.lanes.get m := by
  unfold readerLeave freeLane
  dsimp only
  split <;> simp [Table.get_set, Ne.symm h]

/-- After its leave the channel is no reader of the lane (R83). -/
theorem readerLeave_gone (l : Fin 16) (c : Fin 128) (s : State) :
    ∀ r ∈ ((readerLeave l c s).lanes.get l).readers, r.chan ≠ c := by
  intro r hr
  unfold readerLeave freeLane at hr
  dsimp only at hr
  split at hr
  · unfold updLane at hr
    dsimp only at hr
    rw [Table.get_set, if_pos rfl, lastReaderLeft_readers _ _ _ rfl] at hr
    cases hr
  · unfold updLane at hr
    dsimp only at hr
    rw [Table.get_set, if_pos rfl, (free_keeps _ _ _).1, Table.get_set, if_pos rfl] at hr
    simpa using (List.mem_filter.mp hr).2

/-- Settling a departure changes no lane but the one departed from (R122). -/
theorem settleDeparting_other {l : Fin 16} {c : Fin 128} {s : State}
    (h : ∀ ch d, s.channels.get c = some ch → ch.departing = some d → d.lane ≠ l) :
    (settleDeparting c s).lanes.get l = s.lanes.get l := by
  unfold settleDeparting
  split
  · rfl
  · next ch hc =>
    split
    · rfl
    · next d hd =>
      split
      · rfl
      · unfold leaveLane
        dsimp only
        split <;> exact readerLeave_other (Ne.symm (h ch d hc hd))

/-! ## Records -/

/-- A leave report leaves alone a record with no placement ON_AIR (R35). -/
theorem reportLeave_offAir {k : Key} {r : Avail} {s : State} (h : findRec k s = some r)
    (hn : ∀ q ∈ r.placements, q.state ≠ .onAir) (p : PRef) (o : Outcome) :
    findRec k (reportLeave p o s) = some r := by
  unfold reportLeave
  by_cases hk : k = p.key
  · subst hk
    rw [findRec_updPlacement _ h]
    congr 1
    unfold Avail.updPlacement
    have : r.placements.modify p.idx (fun q => if q.state = .onAir then q.leave o else q) = r.placements := by
      apply List.ext_getElem?
      intro j
      rw [List.getElem?_modify]
      split
      · cases hq : r.placements[j]? with
        | none => rfl
        | some q => simp [hn q (List.mem_of_getElem? hq)]
      · simp
    rw [this]
  · unfold updPlacement
    rw [findRec_updRec_other _ (by intro r; rfl) hk]
    exact h

/-- What a splice-out makes of one placement, by its report (R33, R129). -/
def resultOf (ready : Bool) (rep : Report) (q : Placement) : Placement :=
  match q.state with
  | .waiting => q.ended .missedNoLane
  | .laned =>
    if !ready then q.ended .missedNotReady
    else if rep.chans = 0 then q.ended .noChannel
    else if rep.taken = 0 then q.ended (if rep.lost = 0 then .lockedOut else .missedConflict)
    else { q with state := .onAir, count := rep.taken, part := q.part || decide (0 < rep.lost + rep.lockedOut) }
  | _ => q

/-- The result of a placement is `resultOf`, and no other placement of its record changes. -/
theorem findRec_placementResult {ready : Bool} {rep : Report} {k : Key} {i : Nat} {q : Placement} {r : Avail} {s : State}
    (hr : findRec k s = some r) (hq : r.placements[i]? = some q) :
    findRec k (placementResult ready rep ⟨k, i⟩ q s) = some (r.updPlacement i (resultOf ready rep)) := by
  have own {f : Placement → Placement} (he : resultOf ready rep q = f q) :
      r.updPlacement i f = r.updPlacement i (resultOf ready rep) := by
    unfold Avail.updPlacement
    congr 1
    apply List.ext_getElem?
    intro j
    rw [List.getElem?_modify, List.getElem?_modify]
    split
    · next e => subst e; rw [hq]; simp [he]
    · rfl
  have ends (o : Outcome) (he : resultOf ready rep q = q.ended o) :
      findRec k (finishPlacement o ⟨k, i⟩ s) = some (r.updPlacement i (resultOf ready rep)) := by
    rw [findRec_finishPlacement (p := ⟨k, i⟩) o hr, own he]
  have stays (he : resultOf ready rep q = q) : findRec k s = some (r.updPlacement i (resultOf ready rep)) := by
    rw [← own (f := id) he, hr]
    unfold Avail.updPlacement
    rw [List.modify_id]
  unfold placementResult
  cases hs : q.state with
  | waiting => exact ends _ (by unfold resultOf; rw [hs])
  | laned =>
    dsimp only
    split
    · next h => exact ends _ (by unfold resultOf; rw [hs]; dsimp only; rw [if_pos h])
    · next h =>
      split
      · next h' => exact ends _ (by unfold resultOf; rw [hs]; dsimp only; rw [if_neg h, if_pos h'])
      · next h' =>
        split
        · next h'' => exact ends _ (by unfold resultOf; rw [hs]; dsimp only; rw [if_neg h, if_neg h', if_pos h''])
        · next h'' =>
          rw [findRec_updPlacement (p := ⟨k, i⟩) _ hr]
          exact congrArg some
            (own (by unfold resultOf; rw [hs]; dsimp only; rw [if_neg h, if_neg h', if_neg h'']))
  | onAir => exact stays (by unfold resultOf; rw [hs])
  | done => exact stays (by unfold resultOf; rw [hs])

theorem findRec_placementResult_other {ready : Bool} {rep : Report} {p : PRef} {q : Placement} {k : Key} {s : State}
    (h : k ≠ p.key) : findRec k (placementResult ready rep p q s) = findRec k s := by
  unfold placementResult
  repeat' split
  all_goals first
    | exact findRec_finishPlacement_other _ h
    | exact findRec_updRec_other _ (by intro r; rfl) h
    | rfl

/-! ## Return targets -/

/-- The channels that draw for a placement of a record. -/
theorem mem_chansOfRecord {s : State} {k : Key} {c : Fin 128} {ch : Channel} (hc : s.channels.get c = some ch) :
    c ∈ chansOfRecord s k ↔ ∃ p, ch.drawsFor = some p ∧ p.key = k := by
  unfold chansOfRecord
  rw [mem_chansWhere]
  constructor
  · rintro ⟨ch', h, h'⟩
    rw [hc] at h
    cases h
    cases hd : ch.drawsFor with
    | none => rw [hd] at h'; cases h'
    | some p => rw [hd] at h'; exact ⟨p, rfl, by simpa using h'⟩
  · rintro ⟨p, hp, hk⟩
    exact ⟨ch, hc, by rw [hp]; simpa using hk⟩

/-- A record's return target is given to the channels that draw for it, and nothing else changes (R36). -/
theorem setReturn_eq (k : Key) (x : Option Time) (s : State) :
    setReturn k x s =
      { s with
        channels := s.channels.mapIdx fun c o =>
          if c ∈ chansOfRecord s k then o.map fun ch => { ch with ret := x } else o } :=
  overList_updChan (chansWhere_nodup _ _) _ _

end Sys2Proof.Machine
end

