-- ==== Sys2Proof/Tests/Slice0.lean ====
section
/-! SUPPORT. Tests: the well-formedness checks, small runs of single commands on small states, and for every
statement with hypotheses a state and operands that meet them. -/

namespace Sys2Proof.Tests

set_option Elab.async false

open Sys2Proof Sys2Proof.Machine

/-! ## Well-formedness: an ill-formed term for each check -/

def plainPacket : Packet :=
  { tei := false, pusi := false, priority := true, pid := 0x100, scrambling := 2, cc := 0, af := none
    payload := some (.bytes [9]) }

def fieldWith (pcr : Option Pcr) (rest : List Byte) : AdaptField :=
  .holds { discontinuity := false, randomAccess := false, others := 0b01010, pcr := pcr, rest := rest }

theorem test_wf_plain_packet : plainPacket.wellFormed = true := by decide +kernel

theorem test_wf_refuses_pcr_extension :
    (Instr.networkPacket 0 { plainPacket with af := some (fieldWith (some ⟨0, 300⟩) []) }).wellFormed = false
      ∧ (Instr.networkPacket 0 { plainPacket with af := some (fieldWith (some ⟨0, 299⟩) []) }).wellFormed = true := by
  decide +kernel

theorem test_wf_refuses_pes_without_start :
    (Instr.lanePacket 0 { plainPacket with payload := some (.pes ⟨.absent, .absent⟩ [])}).wellFormed = false := by
  decide +kernel

theorem test_wf_refuses_long_packet :
    (Instr.networkPacket 0 { plainPacket with payload := some (.bytes (List.replicate 185 9)) }).wellFormed = false
      ∧ (Instr.networkPacket 0 { plainPacket with payload := some (.bytes (List.replicate 184 9)) }).wellFormed = true
      ∧ (Instr.networkPacket 0 { plainPacket with af := some (fieldWith (some ⟨0, 0⟩) (List.replicate 176 9)) }).wellFormed
        = false := by
  decide +kernel

theorem test_wf_refuses_empty_payload :
    (Instr.networkPacket 0 { plainPacket with payload := some (.bytes []) }).wellFormed = false := by
  decide +kernel

theorem test_wf_refuses_plain_pes_header :
    (Instr.networkPacket 0 { plainPacket with pusi := true, payload := some (.bytes [0, 0, 1, 0xE0]) }).wellFormed
      = false := by
  decide +kernel

def somePlacement : PlacementArg := ⟨1, 0xFE, 0⟩

def createArgs (n : Nat) : AvailCreateArgs :=
  { service := 3, event := 77, timeKind := 1, s := 1200000, duration := 90000
    placements := List.replicate n somePlacement }

def amendArgs (n : Nat) : AvailAmendArgs :=
  { service := 3, event := 77, time := none, duration := none
    placements := some (List.replicate n somePlacement) }

def alertArgs (n : Nat) : AlertSetArgs :=
  { alert := 2, enabled := 1, priority := 7, terms := List.replicate n (0x08, 1), combine := 1, hold := 2
    release := 5, zones := 0x04, lane := 12 }

theorem test_wf_refuses_long_bodies :
    (Instr.templateSet 0 ⟨3, 0, List.replicate 80 somePlacement⟩).wellFormed = false
      ∧ (Instr.templateSet 0 ⟨3, 0, List.replicate 79 somePlacement⟩).wellFormed = true
      ∧ (Instr.availCreate 0 (createArgs 75)).wellFormed = false
      ∧ (Instr.availCreate 0 (createArgs 74)).wellFormed = true
      ∧ (Instr.availAmend 0 (amendArgs 75)).wellFormed = false
      ∧ (Instr.availAmend 0 (amendArgs 74)).wellFormed = true
      ∧ (Instr.alertSet 0 (alertArgs 113)).wellFormed = false
      ∧ (Instr.alertSet 0 (alertArgs 112)).wellFormed = true := by
  decide +kernel

theorem test_wf_refuses_known_transfer_bytes :
    (Instr.otherTransferByte [0xA5, 1]).wellFormed = false ∧ (Instr.otherTransferByte [0x5A]).wellFormed = false
      ∧ (Instr.otherTransferByte [0x00]).wellFormed = true := by
  decide +kernel

theorem test_wf_refuses_empty_deliveries :
    (Instr.networkInputSearchOrMiss 0 []).wellFormed = false
      ∧ (Instr.laneInputSearchOrMiss 0 []).wellFormed = false := by
  decide +kernel

/-! ## Small states -/

/-- The state a command leaves. -/
def after (c : Instr) (s : State) : State :=
  match exec c s with
  | .next t => t
  | _ => s

/-- The code and body in the response slot. -/
def reply (s : State) : Option (Code × List Byte) :=
  match s.respSlot with
  | .finished r => some (r.code, r.body)
  | _ => none

def lockedTb : Timebase :=
  { state := .locked, count := 4, ref := some ⟨300000000, 0⟩, t := some 1000000, absence := some 0 }

/-- A service on input 1 whose timebase is LOCKED at T = 1 000 000. -/
def svcA : Service :=
  { input := 1, video := 0x200, audio1 := some 0x201, audio2 := none, audio3 := none, pcrPid := 0x200
    cuePid := some 0x210, policy := .hold, holdDefault := .drop, armLead := 360000, immLead := 180000
    spliceAdjust := 0, spliceWindow := 9009, pcrTolerance := 2700, absenceTimeout := 150
    templates := Table.replicate 4 [⟨0x04, some 5, false⟩], tb := lockedTb, lastT := 1000000, last := none }

/-- A placement of zone 2 that asks for lane 5. -/
def plc (st : PlacementState) (bound : Option (Fin 16)) : Placement :=
  { zones := 0x04, lane := some 5, keepOpen := false, bound := bound, state := st, outcome := none
    part := false, firstCause := none, count := if st = .onAir then 1 else 0 }

/-- Record (3, 77) with E = 1 200 000. -/
def recA (st : AvailState) (ps : List Placement) : Avail :=
  { key := ⟨3, 77⟩, origin := .schedule, timeSource := .fixed, e := some 1200000, d := some 90000
    placements := ps, state := st, pOut := none, spliceErr := none, r := none, creation := 0
    cutAsked := false }

def onAirRec : Avail :=
  { recA .active [plc .onAir (some 5)] with pOut := some 1200000, spliceErr := some 0, r := some 1290000 }

def netRole : RoleState := { source := .network, switched := true, ccDelta := 0, lastCc := some 3, rejoin := false }

def chNet : Channel :=
  { service := 3, port := 2, underrunSeen := true, holder := none, departing := none, offset := none
    switchPts := none, followStart := none, followDue := false, roles := PerRole.all netRole, pending := none
    ret := none, cueRet := none }

/-- The channel on lane 5 for placement 0 of record (3, 77). -/
def chAir : Channel :=
  { chNet with
    holder := some (.placement ⟨⟨3, 77⟩, 0⟩), offset := some 0, switchPts := some 1200000, ret := some 1290000
    roles := { PerRole.all netRole with
      video := { netRole with source := .lane 5 }, audio1 := { netRole with source := .lane 5 } } }

def airLane : Lane :=
  { Lane.reset with
    state := .onAir, bound := some ⟨⟨3, 77⟩, 0⟩, entry := some 0, lpts := some 1200000, pcrSeen := true
    buffer := [⟨0, .role .video (some 1200000), plainPacket⟩], nextSeq := 1, hold := false
    readers := [{ chan := 9, cursors := PerRole.all none, dry := true, starve := some 0 }] }

def openLane : Lane := { Lane.enterOpening 0 Lane.reset with bound := some ⟨⟨3, 77⟩, 0⟩ }

/-- The part with sync on every input, service 3, the given records, channel 9 and lane 5. -/
def world (rs : List Avail) (ch : Option Channel) (ln : Lane) : State :=
  { State.reset with
    services := State.reset.services.set 3 (some svcA), avails := rs, created := rs.length
    channels := State.reset.channels.set 9 ch, lanes := State.reset.lanes.set 5 ln
    netIn := Table.replicate 4 { SyncState.reset with synced := true }
    laneIn := Table.replicate 16 { SyncState.reset with synced := true } }

def sSvc : State := world [] none Lane.reset
def sNet : State := world [] (some chNet) Lane.reset
def sPend : State := world [recA .pending [plc .waiting none]] (some chNet) Lane.reset
def sHeld : State := world [recA .held [plc .waiting none]] (some chNet) Lane.reset
def sAir : State := world [onAirRec] (some chAir) airLane
def sOpen : State := world [recA .armed [plc .laned (some 5), plc .waiting none]] (some chNet) openLane
def low (s : State) : State := { s with resetLow := true }
def busy (s : State) : State := { s with reqSlot := some ⟨9, kSummary, []⟩ }
def named (l : Fin 16) (s : State) : State :=
  { s with alerts := s.alerts.set 2 { Alert.reset 2 with enabled := true, state := .idle, lane := l } }

/-! ## Tables with one entry -/

theorem get_one {α : Type} {n : Nat} {i j : Fin n} {o : Option α} {w : α}
    (h : ((Table.replicate n (none : Option α)).set i o).get j = some w) : j = i ∧ o = some w := by
  rw [Table.get_set] at h
  split at h
  · next hij => exact ⟨hij.symm, h⟩
  · simp at h

theorem svc_world {rs : List Avail} {ch : Option Channel} {ln : Lane} {j : Fin 64} {w : Service}
    (h : (world rs ch ln).services.get j = some w) : j = 3 ∧ svcA = w := by
  have := get_one h
  simpa using this

theorem chan_world {rs : List Avail} {ch : Option Channel} {ln : Lane} {c : Fin 128} {x : Channel}
    (h : (world rs ch ln).channels.get c = some x) : c = 9 ∧ ch = some x := get_one h

theorem no_chan {rs : List Avail} {ln : Lane} {c : Fin 128} {x : Channel}
    (h : (world rs none ln).channels.get c = some x) : False := by
  simpa using (chan_world h).2

/-! ## Bytes and checks of the spec -/

/-- The check values of R188 and R51 for the nine digits. -/
theorem test_crc_check_values :
    crc16 [0x31, 0x32, 0x33, 0x34, 0x35, 0x36, 0x37, 0x38, 0x39] = 0x29B1
      ∧ crc32 [0x31, 0x32, 0x33, 0x34, 0x35, 0x36, 0x37, 0x38, 0x39] = 0x0376E6E7 := by decide +kernel

theorem test_frame_enters_slot :
    (after (.requestTransaction (requestFrame 7 0x61 [])) State.reset).reqSlot = some ⟨7, 0x61, []⟩ := by
  decide +kernel

theorem test_read_shifts_out :
    (after (.readTransaction 7) State.reset).spiOut = [0, 0, 0, 0, 0] ++ be 2 (crc16 [0, 0, 0, 0]).toNat ++ [0] := by
  decide +kernel

theorem test_other_byte : (after (.otherTransferByte [1, 2]) sSvc).spiOut = [0, 0] := by decide +kernel

theorem test_frame_then_request :
    reply (after (.poll 7) (after (.requestTransaction (requestFrame 7 0x61 [])) State.reset))
      = some (.ok, [0xFF, 0, 0, 0, 0, 0]) := by decide +kernel

/-! ## Resets -/

theorem test_reset_line :
    (after .resetNLow sAir).resetLow = true ∧ (after .resetNLow sAir).avails = []
      ∧ (after .resetNRise (low sAir)).resetLow = false ∧ (after .powerOn sAir).groupGuard = 27000 := by
  decide +kernel

theorem test_reset_streams :
    ((after (.resetStreams 1) sAir).services.get 3).bind (fun v => v.last.map fun o => o.placements)
      = some [(.aborted, false)] := by decide +kernel

theorem test_reset_all : reply (after (.resetAll 1) sAir) = some (.ok, []) := by decide +kernel

/-! ## Services -/

def setArgs : ServiceSetArgs :=
  { service := 4, input := some 1, pids := ⟨some 0x300, none, none, none⟩, pcrPid := some 0x300, cuePid := none
    policy := none, holdDefault := none, armLead := none, immLead := none, spliceAdjust := some 0xFFFFDCD8
    spliceWindow := some 90001, pcrTolerance := none, absenceTimeout := none }

theorem test_service_set :
    (((after (.serviceSet 1 setArgs) sSvc).services.get 4).map fun v => (v.spliceAdjust, v.spliceWindow))
      = some (-9000, 90000) := by decide +kernel

theorem test_service_set_pid_taken :
    reply (after (.serviceSet 1 { setArgs with pcrPid := some 0x201 }) sSvc) = some (.badArg, []) := by
  decide +kernel

theorem test_service_get :
    ((reply (after (.serviceGet 1 3) sSvc)).map fun r => r.2.drop (r.2.length - 8))
      = some [2, 4, 0, 0, 0x0F, 0x42, 0x40, 0] := by decide +kernel

theorem test_service_clear :
    (after (.serviceClear 1 3) sSvc).services.get 3 = none
      ∧ reply (after (.serviceClear 1 3) sNet) = some (.state, []) := by decide +kernel

theorem test_template_set :
    ((after (.templateSet 1 ⟨3, 2, [⟨0x03, 0xFE, 1⟩]⟩) sSvc).services.get 3).map (fun v => v.templates.get 2)
      = some [⟨0x03, none, true⟩] := by decide +kernel

theorem test_outcome_get : reply (after (.outcomeGet 1 3) sSvc) = some (.ok, [0]) := by decide +kernel

/-! ## Avail records -/

theorem test_avail_create :
    ((after (.availCreate 1 (createArgs 1)) sSvc).avails.map fun r => (r.key.event, r.e, r.state))
      = [(77, some 1200000, .pending)] := by decide +kernel

theorem test_avail_create_late :
    reply (after (.availCreate 1 { createArgs 1 with s := 999999 }) sSvc) = some (.late, []) := by decide +kernel

theorem test_avail_amend :
    ((after (.availAmend 1 { amendArgs 1 with time := some (1, 1300000), placements := none }) sPend).avails.map
      fun r => r.e) = [some 1300000] := by decide +kernel

theorem test_avail_cancel :
    (after (.availCancel 1 ⟨3, 77⟩) sPend).avails = []
      ∧ ((after (.availCancel 1 ⟨3, 77⟩) sAir).channels.get 9).bind (fun c => c.pending)
        = some ⟨.network, .asked, some .cut⟩ := by decide +kernel

theorem test_avail_return :
    ((after (.availReturn 1 ⟨3, 77⟩) sAir).avails.map fun r => r.cutAsked) = [true]
      ∧ reply (after (.availReturn 1 ⟨3, 77⟩) sPend) = some (.state, []) := by decide +kernel

theorem test_avail_confirm :
    ((after (.availConfirm 1 ⟨3, 77⟩) sHeld).avails.map fun r => r.state) = [.pending]
      ∧ reply (after (.availConfirm 1 ⟨3, 77⟩) sPend) = some (.late, []) := by decide +kernel

theorem test_avail_decline :
    (after (.availDecline 1 ⟨3, 77⟩) sHeld).avails = [] ∧ reply (after (.availDecline 1 ⟨3, 78⟩) sHeld)
      = some (.notFound, []) := by decide +kernel

theorem test_avail_get :
    ((reply (after (.availGet 1 ⟨3, 77⟩) sPend)).map fun r => r.2.take 14)
      = some [3, 0, 0, 0, 77, 1, 1, 3, 0x13, 0, 0, 0x12, 0x4F, 0x80] := by decide +kernel

theorem test_avail_walk :
    (after (.availWalk 1 ⟨0xFF, 0⟩) sPend).walk = some ⟨⟨3, 77⟩, some 1200000, 0⟩
      ∧ reply (after (.availWalk 1 ⟨4, 0⟩) sPend) = some (.ok, []) := by decide +kernel

/-! ## Lanes -/

def laneArgs : LaneSetArgs :=
  { lane := 6, pids := ⟨some 0x400, some 0x401, none, none⟩, pcrPid := some 0x401, preroll := some 10
    eos := none, openTimeout := some 5000 }

theorem test_lane_set :
    ((after (.laneSet 1 laneArgs) sSvc).lanes.get 6).cfg.preroll = 64
      ∧ reply (after (.laneSet 1 { laneArgs with lane := 5 }) sOpen) = some (.state, []) := by decide +kernel

theorem test_lane_get :
    ((reply (after (.laneGet 1 5) sOpen)).map fun r => (r.2.drop 22).take 9) = some [1, 0, 1, 3, 0, 0, 0, 77, 0] := by
  decide +kernel

theorem test_lane_close :
    ((after (.laneClose 1 5) (world [] none { openLane with bound := none })).lanes.get 5).state = .closing
      ∧ reply (after (.laneClose 1 5) sOpen) = some (.state, []) := by decide +kernel

theorem test_lane_guard_set : (after (.laneGuardSet 1 90001) sOpen).groupGuard = 90000 := by decide +kernel

/-! ## Ports, channels and zones -/

theorem test_port_set :
    ((after (.portSet 1 ⟨6, 0, 1⟩) sNet).ports.get 6).baseInput = 0
      ∧ reply (after (.portSet 1 ⟨2, 0, 1⟩) sNet) = some (.state, []) := by decide +kernel

theorem test_port_get : reply (after (.portGet 1 2) sNet) = some (.ok, [1, 2, 1, 9, 0]) := by decide +kernel

theorem test_chan_set :
    reply (after (.chanSet 1 ⟨127, 3, 3⟩) sNet) = some (.ok, [127, 3, 3, 0])
      ∧ reply (after (.chanSet 1 ⟨10, 3, 2⟩) sNet) = some (.exists_, []) := by decide +kernel

theorem test_chan_get :
    ((after (.chanGet 1 9) sNet).channels.get 9).map (fun c => c.underrunSeen) = some false := by decide +kernel

theorem test_chan_clear :
    (after (.chanClear 1 9) sNet).channels.get 9 = none
      ∧ reply (after (.chanClear 1 9) sAir) = some (.state, []) := by decide +kernel

theorem test_zone_lock :
    ((after (.zoneLock 1 2) sAir).channels.get 9).bind (fun c => c.pending)
      = some ⟨.network, .asked, some .aborted⟩ := by decide +kernel

theorem test_zone_unlock_get :
    reply (after (.zoneGet 1 2) (after (.zoneLock 1 2) sNet)) = some (.ok, [1, 0xFF])
      ∧ reply (after (.zoneGet 1 2) (after (.zoneUnlock 1 2) (after (.zoneLock 1 2) sNet)))
        = some (.ok, [0, 0xFF]) := by decide +kernel

/-! ## Alerts -/

theorem test_ain_set_get :
    reply (after (.ainSet 1 ⟨0, 1, 11⟩) State.reset) = some (.ok, [1, 0, 0, 0, 20])
      ∧ reply (after (.ainGet 1 5) State.reset) = some (.ok, [1, 0, 0, 0, 20, 0, 0, 0]) := by decide +kernel

theorem test_flag_set : reply (after (.flagSet 1 ⟨3, 1⟩) State.reset) = some (.ok, [0x08]) := by decide +kernel

theorem test_alert_set :
    ((after (.alertSet 1 (alertArgs 1)) State.reset).alerts.get 2).state = .idle
      ∧ ((after (.alertSet 1 (alertArgs 1)) State.reset).lanes.get 12).state = .opening := by decide +kernel

theorem test_alert_get :
    ((reply (after (.alertGet 1 2) State.reset)).map fun r => r.2.take 8) = some [2, 0, 0, 1, 0, 1, 1, 0] := by
  decide +kernel

def alertOn : State :=
  { State.reset with
    alerts := State.reset.alerts.set 2 { Alert.reset 2 with enabled := true, state := .active, stamp := some 0 } }

theorem test_alert_end :
    ((after (.alertEnd 1 2) alertOn).alerts.get 2).state = .idle
      ∧ reply (after (.alertEnd 1 3) alertOn) = some (.state, []) := by decide +kernel

theorem test_ain_change_debounced :
    ((after (.ainChange 0 false) State.reset).ains.get 0).timer = some 0
      ∧ ((after (.debounceExpiry 0) (after (.ainChange 0 false) State.reset)).ains.get 0).level = true := by
  decide +kernel

def qualifying : State :=
  { State.reset with
    alerts := State.reset.alerts.set 2
      { Alert.reset 2 with enabled := true, state := .qualifying, hold := 2, holdStart := some 0 } }

theorem test_hold_timer :
    ((after (.holdTimerExpiry 2) qualifying).alerts.get 2).stamp = some 200
      ∧ ((after (.holdTimerExpiry 2) qualifying).zones.get 7).waiting = true := by decide +kernel

def releasing : State :=
  { State.reset with
    alerts := State.reset.alerts.set 2
      { Alert.reset 2 with enabled := true, state := .releasing, stamp := some 0, release := 5, releaseStart := some 0 } }

theorem test_release_timer : ((after (.releaseTimerExpiry 2) releasing).alerts.get 2).state = .idle := by
  decide +kernel

/-! ## Tallies and attention -/

def tallyArgs : TallySetArgs := ⟨1, 5, 0xFE, 2, 300, 4, 0, 20, 1⟩

theorem test_tally_set :
    reply (after (.tallySet 1 tallyArgs) State.reset)
      = some (.ok, [1, 5, 0xFE, 2, 0, 0, 0, 15, 0, 0, 0, 4, 0, 0, 0, 1, 0, 0, 0, 20, 1,
          0, 0, 0, 0, 0, 0, 0, 0xFF, 0, 0, 0]) := by decide +kernel

theorem test_tally_get : (reply (after (.tallyGet 1 4) State.reset)) = some (.badArg, []) := by decide +kernel

def pulsing : Tally :=
  { Tally.reset with count := 2, phase := .pulsing, started := 1, pulses := [100], phaseDue := some 200 }

def withTally (t : Tally) : State := { State.reset with tallies := State.reset.tallies.set 0 t }

theorem test_tally_phase_timer :
    ((after (.tallyPhaseTimerExpiry 0) (withTally pulsing)).tallies.get 0).pulses = [100, 300] := by decide +kernel

theorem test_tally_pulse_end :
    ((after (.tallyPulseEnd 0) (withTally { pulsing with started := 2 })).tallies.get 0).phase = .idle := by
  decide +kernel

theorem test_tally_edge :
    ((after (.tallyPendingEdgeExpiry 0) (withTally { Tally.reset with edge := some ⟨true, 40⟩ })).tallies.get 0).pin
      = true := by decide +kernel

def raised : State :=
  { raise (svcSource 3) .outcome (raise (svcSource 5) .outcome sSvc) with lineMode := .pulse }

theorem test_poll :
    reply (after (.poll 1) raised) = some (.ok, [3, 0, 2, 2, 0, 1]) ∧ (after (.poll 1) raised).gap = some 0
      ∧ attnLine (after (.poll 1) raised) = false
      ∧ attnLine (after .attnGapEnd (after (.poll 1) raised)) = true := by decide +kernel

theorem test_attn_mask :
    reply (after (.attnMask 1 ⟨0xFFFE, 1⟩) State.reset) = some (.ok, [0x01, 0xFE, 1]) := by decide +kernel

theorem test_summary :
    ((reply (after (.summary 1) raised)).map fun r => (r.2.drop 6).take 6) = some [0, 2, 0, 0, 0, 2] := by
  decide +kernel

/-! ## Streams and timers -/

def pcrPacket : Packet :=
  { plainPacket with pid := 0x200, af := some (fieldWith (some ⟨1000000, 0⟩) []), payload := none }

theorem test_network_packet_pcr :
    ((after (.networkPacket 1 pcrPacket) sSvc).services.get 3).map (fun v => v.tb.ref)
      = some (some ⟨300000000, 0⟩) := by decide +kernel

theorem test_network_packet_emits :
    ((after (.networkPacket 1 plainPacket) sNet).ports.get 2).out = [plainPacket]
      ∧ ((after (.networkPacket 1 plainPacket) sNet).ports.get 4).out = [] := by decide +kernel

def rapPacket : Packet :=
  { tei := false, pusi := true, priority := false, pid := 0x100, scrambling := 0, cc := 0
    af := some (.holds { discontinuity := false, randomAccess := true, others := 0, pcr := some ⟨5, 0⟩, rest := [] })
    payload := some (.pes ⟨.whole 45000, .absent⟩ []) }

theorem test_lane_packet_entry :
    ((after (.lanePacket 5 rapPacket) sOpen).lanes.get 5).lpts = some 45000
      ∧ ((after (.lanePacket 5 plainPacket) sOpen).lanes.get 5).buffer = [] := by decide +kernel

theorem test_pcr_absence :
    ((after (.pcrAbsenceTimeout 3) sSvc).services.get 3).map (fun v => v.tb.state) = some .unlocked
      ∧ (after (.pcrAbsenceTimeout 3) sSvc).refCount = 150 * 27000 := by decide +kernel

theorem test_open_timeout :
    ((after (.openTimeout 5) sOpen).avails.map fun r => r.placements.map fun q => q.outcome)
      = [[some .laneFault, none]] := by decide +kernel

theorem test_closing_timer :
    ((after (.closingTimerExpiry 5) (world [] none (Lane.enterClosing 0 Lane.reset))).lanes.get 5).state = .idle
      ∧ ((after (.closingTimerExpiry 5) (named 5 (world [] none (Lane.enterClosing 0 Lane.reset)))).lanes.get 5).state
        = .opening := by decide +kernel

theorem test_starvation :
    ((after (.starvation 5 9) sAir).channels.get 9).bind (fun c => c.pending)
      = some ⟨.network, .asked, some .laneFault⟩ := by decide +kernel

theorem test_follow_timeout :
    ((after (.followTimeout 9) (world [] (some { chAir with followStart := some 0 }) airLane)).channels.get 9).map
      (fun c => c.followDue) = some true := by decide +kernel

/-- Two sync bytes 188 bytes apart have been seen, and 187 bytes after them. -/
def searching : SyncState :=
  { synced := false, misses := 0
    seen := List.replicate 187 0 ++ 0x47 :: List.replicate 187 0 ++ [0x47] }

theorem test_sync_search :
    ((after (.networkInputSearchOrMiss 0 [0x47]) { State.reset with
        netIn := State.reset.netIn.set 0 searching }).netIn.get 0).synced = true := by decide +kernel

theorem test_sync_misses :
    ((after (.laneInputSearchOrMiss 0 [1]) sSvc).laneIn.get 0).misses = 1
      ∧ (({ synced := true, seen := [], misses := 2 } : SyncState).bytes [1]).synced = false := by decide +kernel

/-! ## Witnesses: a state and operands that meet the hypotheses of each statement -/

theorem test_witness_StepRunsFrontCommand :
    ({ State.reset with pending := [.attnGapEnd, .poll 1] } : State).pending = [.attnGapEnd, .poll 1]
      ∧ State.reset.pending = [] ∧ (low State.reset).pending = [] := by decide +kernel

theorem test_witness_ReadShiftsOutResponseFrame : State.reset.resetLow = false ∧ 0 ≤ 0 := by decide +kernel

theorem test_witness_RequestFramesJudged :
    (let body : List Byte := [3, 0, 79] ++ List.replicate 237 0
     sSvc.resetLow = false ∧ sSvc.reqSlot = none ∧ body.length ≤ 240 ∧ kindKnown kTemplateSet = true
       ∧ bodyLengthOk kTemplateSet body = true)
      ∧ ([1, 2] : List Byte).length < 3
      ∧ 240 < (([1, 2, 241] : List Byte).getD 2 0).toNat
      ∧ ([1, 0x61, 0, 9] : List Byte).length < 3 + 0 + 2
      ∧ (([1, 0x61, 0, 0, 0] : List Byte).drop 3).take 2 ≠ be 2 (crc16 [1, 0x61, 0]).toNat
      ∧ kindKnown 0x63 = false ∧ bodyLengthOk kPoll [0] = false
      ∧ (busy sSvc).reqSlot = some ⟨9, kSummary, []⟩ := by decide +kernel

theorem test_witness_LinkCarriesEveryRequest :
    ∃ q, requestOf (.availCreate 1 (createArgs 74)) = some q
      ∧ (Instr.availCreate 1 (createArgs 74)).wellFormed = true ∧ sSvc.resetLow = false ∧ sSvc.reqSlot = none :=
  ⟨_, rfl, by decide +kernel, rfl, rfl⟩

theorem test_witness_RequestsAnswerOrAreDropped :
    (∃ q, requestOf (.poll 1) = some q) ∧ canServe (.poll 1) sSvc = true ∧ canServe (.summary 9) (busy sSvc) = true
      ∧ canServe (.poll 1) (busy sSvc) = false ∧ canServe (.poll 1) (low sSvc) = false :=
  ⟨⟨_, rfl⟩, by decide +kernel⟩

theorem test_witness_ResetLineHoldsThePart :
    (∀ i high, Instr.poll 1 ≠ .ainChange i high) ∧ (low sAir).resetLow = true ∧ Instr.poll 1 ≠ .resetNLow
      ∧ Instr.poll 1 ≠ .resetNRise ∧ Instr.poll 1 ≠ .powerOn ∧ sAir.resetLow = false
      ∧ canServe (.resetAll 1) sAir = true :=
  ⟨fun _ _ => nofun, by decide +kernel⟩

theorem test_witness_isFullReset :
    isFullReset .resetNLow sAir ∧ isFullReset .powerOn sAir ∧ isFullReset .resetNRise (low sAir)
      ∧ isFullReset (.resetAll 1) sAir :=
  ⟨.inl rfl, .inr (.inl rfl), .inr (.inr (.inl ⟨rfl, rfl⟩)), .inr (.inr (.inr ⟨1, rfl, by decide +kernel⟩))⟩

theorem test_witness_ResetStreams :
    TableOk sAir ∧ canServe (.resetStreams 1) sAir = true ∧ isStanding sAir 5 = false
      ∧ isStanding (named 5 sAir) 5 = true ∧ canServe (.resetStreams 1) (named 5 sAir) = true
      ∧ sAir.channels.get 9 = some chAir ∧ sAir.services.get 3 = some svcA
      ∧ (∃ r ∈ sAir.avails, r.key.svc = 3 ∧ (r.state = .armed ∨ r.state = .active))
      ∧ (∀ r ∈ sPend.avails, ¬ (r.key.svc = 3 ∧ (r.state = .armed ∨ r.state = .active)))
      ∧ ∀ q ∈ sAir.avails, q = onAirRec := by
  constructor
  · unfold TableOk
    decide +kernel
  · decide +kernel

/-- Alert 2 in a state, with a condition that is true by its term. -/
def alertIn (st : AlertState) (cond : Bool) (hold release : Nat) : State :=
  { State.reset with
    alerts := State.reset.alerts.set 2
      { Alert.reset 2 with
        enabled := true, terms := [(.ain 0, !cond)], state := st, hold := hold, release := release } }

/-- `alertIn` with tally 0 on the ALERT_ACTIVE level of any record. -/
def watched (m : TallyMode) (delay : Nat) : State :=
  { alertIn .active true 0 0 with
    alerts := (alertIn .active true 0 0).alerts.set 2
      { (alertIn .active true 0 0).alerts.get 2 with zones := 0x02 }
    tallies := State.reset.tallies.set 0 { Tally.reset with kind := .alertActive, mode := m, delay := delay } }

/-- What RESET_STREAMS finds and leaves there: alert 2 activates, zone 1 waits, and tally 0 follows the level that rises. -/
def restarts (s : State) (delay : Nat) : Bool :=
  let t := after (.resetStreams 1) s
  canServe (.resetStreams 1) s && (s.alerts.get 2).enabled && condition s (s.alerts.get 2)
    && !(s.alerts.get 3).enabled && decide ((t.alerts.get 2).state = .active) && (t.zones.get 1).waiting
    && sourceLevel (s.tallies.get 0) t.alerts && ((t.tallies.get 0).output == decide (delay = 0))

theorem test_witness_ResetStreamsReleasesStreams :
    restarts (watched .count 0) 0 = true ∧ restarts (watched .repeating 2) 2 = true
      ∧ restarts (watched .steady 0) 0 = true := by decide +kernel

theorem test_witness_TimeArithmetic :
    (2576980377599 : Nat) < 2576980377600 ∧ (0 : Nat) < 2576980377600
      ∧ ((1288490188800 : Int) - 0) % 2576980377600 = 1288490188800 ∧ (⟨5, 7⟩ : PcrRef).arrival ≤ 7 := by
  decide +kernel

theorem test_witness_ServiceSetCreatesWithDefaults :
    (∀ j w, sSvc.services.get j = some w → w.input = 1 →
        (0x300#13 ∉ w.ownPids ∧ 0x300#13 ≠ w.pcrPid ∧ 0x1FFE#13 ∉ w.ownPids))
      ∧ canServe (.serviceSet 1 { setArgs with service := 63 }) sSvc = true ∧ sSvc.services.get 63 = none
      ∧ (0x1FFE#16).toNat ≤ 0x1FFE := by
  refine ⟨fun j w h _ => ?_, by decide +kernel⟩
  obtain ⟨_, rfl⟩ := svc_world h
  decide +kernel

theorem test_witness_ServiceSetCreatesWithDefaults_refused :
    canServe (.serviceSet 1 { setArgs with service := 64 }) sSvc = true ∧ 64 ≤ (64 : Byte).toNat
      ∧ mergeService none { setArgs with input := none } = none ∧ sSvc.services.get 4 = none
      ∧ ((mergeService none setArgs).map fun v => (pidsApart v, pidsFree sSvc 4 v)) = some (true, true)
      ∧ ((mergeService none { setArgs with pcrPid := some 0x201 }).map fun v => pidsFree sSvc 4 v) = some false
      ∧ ((mergeService none { setArgs with pids := ⟨some 0x300, some 0x300, none, none⟩ }).map pidsApart)
        = some false := by decide +kernel

def policyArgs (i : Byte) : ServiceSetArgs :=
  { service := i, input := none, pids := ⟨none, none, none, none⟩, pcrPid := none, cuePid := none
    policy := some CuePolicy.ignore.byte, holdDefault := none, armLead := none, immLead := none
    spliceAdjust := none, spliceWindow := none, pcrTolerance := none, absenceTimeout := none }

theorem pidsOk_world (rs : List Avail) (ch : Option Channel) (ln : Lane) : PidsOk (world rs ch ln) := by
  constructor
  · intro i v h
    obtain ⟨_, rfl⟩ := svc_world h
    decide +kernel
  · intro i j v w hij h h' _
    exact absurd ((svc_world h).1.trans (svc_world h').1.symm) hij

theorem test_witness_ServiceSetAmends :
    PidsOk sAir ∧ (∃ c ch, sAir.channels.get c = some ch ∧ ch.service = 3)
      ∧ (∃ r ∈ sAir.avails, r.key.svc = 3 ∧ (r.state = .armed ∨ r.state = .active))
      ∧ canServe (.serviceSet 1 (policyArgs 3)) sAir = true ∧ sAir.services.get 3 = some svcA
      ∧ (mergeService (some svcA) { policyArgs 3 with input := some 0 }).isSome = true
      ∧ svcA.input ≠ 0 ∧ (mergeService none setArgs).isSome = true :=
  ⟨pidsOk_world _ _ _, ⟨9, chAir, by decide +kernel, rfl⟩, by decide +kernel⟩

/-- Service 3 with a request merged into it: whether its PIDs pass, its splice window and PCR PID, and whether a
shorter absence timeout has run out. -/
def mergedInto (s : State) (a : ServiceSetArgs) : Option (Bool × Nat × Pid × Bool) :=
  (mergeService (some svcA) a).map fun v =>
    (pidsApart v && pidsFree s 3 v, v.spliceWindow, v.pcrPid, decide (v.absenceTimeout ≤ s.refCount / 27000))

theorem test_witness_ServiceSetAmends_effects :
    mergedInto sAir { policyArgs 3 with spliceWindow := some 0 } = some (true, 0, 0x200, false)
      ∧ mergedInto sSvc { policyArgs 3 with pcrPid := some 0x333 } = some (true, 9009, 0x333, false)
      ∧ mergedInto { sSvc with refCount := 40 * 27000 } { policyArgs 3 with absenceTimeout := some 40 }
        = some (true, 9009, 0x200, true)
      ∧ mergeService (some svcA) { policyArgs 3 with input := some 4 } = none
      ∧ mergedInto sSvc { policyArgs 3 with cuePid := some 0x200 } = some (false, 9009, 0x200, false)
      ∧ svcA.tb.absence = some 0 ∧ svcA.tb.state = .locked ∧ sSvc.mask.getLsbD 0 = true ∧ sSvc.avails = [] := by
  decide +kernel

theorem timebasesOk_world (rs : List Avail) (ch : Option Channel) (ln : Lane) : TimebasesOk (world rs ch ln) := by
  intro i v h
  obtain ⟨_, rfl⟩ := svc_world h
  exact ⟨rfl, rfl, rfl, rfl⟩

def withLast (s : State) (o : LastOutcome) : State := updSvc 3 (fun v => { v with last := some o }) s
def unconfirmed : LastOutcome :=
  { event := 77, origin := .network, placements := [(.unconfirmed, false)], pOut := none, spliceErr := none }

theorem test_witness_TableReads :
    TimebasesOk sSvc ∧ canServe (.serviceGet 1 3) sSvc = true ∧ 64 ≤ (64 : Byte).toNat
      ∧ sSvc.services.get 63 = none ∧ canServe (.outcomeGet 1 3) sSvc = true ∧ svcA.last = none
      ∧ ((withLast sSvc unconfirmed).services.get 3).bind (fun v => v.last) = some unconfirmed
      ∧ canServe (.availGet 1 ⟨3, 77⟩) sPend = true ∧ findRec ⟨3, 78⟩ sPend = none
      ∧ findRec ⟨3, 77⟩ sPend = some (recA .pending [plc .waiting none])
      ∧ canServe (.laneGet 1 15) sSvc = true ∧ 16 ≤ (16 : Byte).toNat := by
  exact ⟨timebasesOk_world _ _ _, by decide +kernel⟩

theorem test_witness_ServiceClearEmptiesEntry :
    (∃ c ch, sNet.channels.get c = some ch ∧ ch.service = 3)
      ∧ (∀ c ch, sSvc.channels.get c = some ch → ch.service ≠ 3)
      ∧ canServe (.serviceClear 1 3) sSvc = true ∧ sSvc.services.get 0 = none ∧ sSvc.services.get 3 = some svcA
      ∧ (∃ r ∈ sPend.avails, r.key.svc = 3) ∧ ∀ r ∈ sSvc.avails, r.key.svc ≠ 3 :=
  ⟨⟨9, chNet, by decide +kernel, rfl⟩, fun _ _ h => (no_chan h).elim, by decide +kernel⟩

theorem test_witness_TemplateSetReplacesTemplate :
    canServe (.templateSet 1 ⟨3, 3, [⟨4, 15, 1⟩, ⟨1, 0xFE, 0⟩]⟩) sSvc = true ∧ 4 ≤ (4 : Byte).toNat
      ∧ checkPlacements sSvc [⟨0, 5, 0⟩] = none ∧ checkPlacements (named 5 sSvc) [⟨4, 5, 0⟩] = none
      ∧ checkPlacements sSvc [⟨4, 15, 1⟩, ⟨1, 0xFE, 0⟩] = some [⟨4, some 15, true⟩, ⟨1, none, false⟩]
      ∧ (∀ a ∈ [(⟨4, 15, 1⟩ : PlacementArg), ⟨1, 0xFE, 0⟩],
        a.zones ≠ 0 ∧ (a.lane = 0xFE ∨ a.lane.toNat < 16) ∧ a.keepOpen.toNat < 2
          ∧ ∀ l : Fin 16, a.lane.toNat = l.val → isStanding sSvc l = false)
      ∧ [(⟨4, 15, 1⟩ : PlacementArg), ⟨1, 0xFE, 0⟩].Pairwise fun a b =>
          a.zones &&& b.zones = 0 ∧ (a.lane = 0xFE ∨ a.lane ≠ b.lane) := by
  decide +kernel

def svcWith (tb : Timebase) : State := updSvc 3 (fun v => { v with tb := tb }) sSvc
def acquiringTb (n : Nat) : Timebase := { lockedTb with state := .acquiring, count := n }

theorem test_witness_PcrArrivalSettlesTimebase :
    sSvc.resetLow = false ∧ (sSvc.netIn.get 1).synced = true ∧ pcrPacket.tei = false
      ∧ sSvc.services.get 3 = some svcA ∧ svcA.input = 1 ∧ svcA.pcrPid = pcrPacket.pid
      ∧ pktPcr pcrPacket = some ⟨1000000, 0⟩ ∧ svcA.tb.ref = some ⟨300000000, 0⟩
      ∧ discontinuityOf pcrPacket = false
      ∧ (signedDiff 300000000 ((300000000 + (sSvc.refCount - 0)) % 2576980377600)).natAbs ≤ svcA.pcrTolerance
      ∧ ¬ (signedDiff 300300000 ((300000000 + (sSvc.refCount - 0)) % 2576980377600)).natAbs ≤ svcA.pcrTolerance
      ∧ ((svcWith (acquiringTb 2)).services.get 3).map (fun v => v.tb.count) = some 2
      ∧ ((svcWith (acquiringTb 3)).services.get 3).map (fun v => v.tb.count) = some 3
      ∧ ((svcWith Timebase.reset).services.get 3).map (fun v => v.tb.state) = some .unlocked
      ∧ sSvc.mask.getLsbD 0 = true := by decide +kernel

theorem test_witness_PcrArrivalSettlesTimebase_lost :
    sAir.services.get 3 = some svcA ∧ svcA.tb.state = .locked ∧ chAir.service = 3 ∧ chAir.drawsFor.isSome = true
      ∧ ((pcrArrive 3 ⟨1000000, 0⟩ true sAir).channels.get 9).bind (fun c => c.pending)
        = some ⟨.network, .asked, some .aborted⟩ := by decide +kernel

theorem test_witness_AbsenceTimeoutUnlocks :
    sAir.resetLow = false ∧ sAir.services.get 3 = some svcA ∧ svcA.tb.absence = some 0 ∧ svcA.tb.state = .locked
      ∧ ((svcWith Timebase.reset).services.get 3).map (fun v => v.tb.absence) = some none
      ∧ ((svcWith (acquiringTb 0)).services.get 3).map (fun v => v.tb.absence) = some (some 0) := by decide +kernel

def passed : Avail := { recA .pending [plc .waiting none] with e := some 999999 }
def armable : Avail := recA .pending [{ plc .waiting none with lane := some 6 }]

theorem test_witness_PendingRecordsAtTimeUpdate :
    TableOk (world [passed] (some chNet) Lane.reset)
      ∧ (∃ c ch, sPend.channels.get c = some ch ∧ ch.service = 3 ∧ zoneIn 0x04 (chanZone sPend ch) = true)
      ∧ (¬ ∃ c ch, sSvc.channels.get c = some ch ∧ ch.service = 3 ∧ zoneIn 0x04 (chanZone sSvc ch) = true)
      ∧ isBehind 999999 1000000 = true
      ∧ svcA.tb.t = some 1000000 ∧ isAhead 1200000 1000000 = true ∧ Machine.dist 1360000 1000000 ≤ svcA.armLead
      ∧ allocate (world [armable] (some chNet) Lane.reset) ⟨⟨3, 77⟩, 0⟩ (some 6) 1200000 = some 6
      ∧ allocate (named 6 (world [armable] (some chNet) Lane.reset)) ⟨⟨3, 77⟩, 0⟩ (some 6) 1200000 = none := by
  refine ⟨?_, ⟨9, chNet, by decide +kernel, rfl, by decide +kernel⟩, ?_, by decide +kernel⟩
  · unfold TableOk
    decide +kernel
  · rintro ⟨c, ch, h, _⟩
    exact no_chan h

/-- The record of `recA` with another E, alone in the table. -/
def timed (st : AvailState) (e : Time) : State :=
  world [{ recA st [plc .waiting none] with e := some e }] (some chNet) Lane.reset

/-- Where E stands against T = 1 000 000: behind it, its distance within the arm lead, and E + splice_window behind. -/
def stands (e : Time) : Bool × Bool × Bool :=
  (isBehind e 1000000, decide (Machine.dist e 1000000 ≤ svcA.armLead),
    isBehind (e + BitVec.ofNat 33 svcA.spliceWindow) 1000000)

theorem test_witness_PendingRecordsAtTimeUpdate_treat :
    (∀ st ∈ [AvailState.awaitCue, .held, .pending, .armed, .active],
      (findRec ⟨3, 77⟩ (timed st 990990)).map (fun r => r.state) = some st)
      ∧ stands 1360000 = (false, true, false) ∧ stands 1360001 = (false, false, false)
      ∧ stands 990991 = (true, false, false) ∧ stands 990990 = (true, false, true)
      ∧ svcA.holdDefault = .drop ∧ ({ svcA with holdDefault := .arm } : Service).holdDefault = .arm
      ∧ sPend.services.get 3 = some svcA := by decide +kernel

theorem test_witness_RecordsArmOnlyOnLockedService :
    exec .attnGapEnd sOpen = .next (live gapEnd sOpen)
      ∧ ∃ r ∈ (live gapEnd sOpen).avails, r.state = .armed :=
  ⟨rfl, _, List.mem_cons_self, rfl⟩

def fullTable : State := { sSvc with avails := List.replicate 512 { passed with key := ⟨4, 1⟩ } }

theorem test_witness_AvailCreateAddsRecord :
    canServe (.availCreate 1 (createArgs 1)) sSvc = true ∧ findRec ⟨3, 77⟩ sSvc = none
      ∧ sSvc.avails.length < 512 ∧ recCount sSvc 3 < 32
      ∧ checkPlacements sSvc [somePlacement] = some [⟨1, none, false⟩]
      ∧ isAhead (1200000#33 + BitVec.ofInt 33 svcA.spliceAdjust) 1000000 = true
      ∧ isBehind (999999#33 + BitVec.ofInt 33 svcA.spliceAdjust) 1000000 = true
      ∧ findRec ⟨3, 77⟩ sPend ≠ none ∧ 512 ≤ fullTable.avails.length
      ∧ checkPlacements sSvc [⟨0, 0, 0⟩] = none
      ∧ ((svcWith Timebase.reset).services.get 3).map (fun v => v.tb.state) = some .unlocked
      ∧ ¬ (((4 : Byte) = 1 ∧ (0 : Nat) < 2 ^ 33) ∨ (4 : Byte) = 2 ∨ (4 : Byte) = 3)
      ∧ ¬ (2 ^ 33 : Nat) < 2 ^ 33 ∧ 64 ≤ (64 : Byte).toNat := by decide +kernel

theorem test_witness_AvailAmendChangesRecord :
    canServe (.availAmend 1 { amendArgs 1 with time := some (1, 1300000), placements := none }) sPend = true
      ∧ findRec ⟨3, 77⟩ sPend = some (recA .pending [plc .waiting none])
      ∧ (sPend.avails.map fun q => q.key).Nodup ∧ (1300000#40).toNat < 2 ^ 33
      ∧ isAhead (1300000#33 + BitVec.ofInt 33 svcA.spliceAdjust) 1000000 = true
      ∧ isBehind (999999#33 + BitVec.ofInt 33 svcA.spliceAdjust) 1000000 = true
      ∧ canServe (.availAmend 1 { amendArgs 1 with duration := some 0, placements := none }) sAir = true
      ∧ findRec ⟨3, 77⟩ sAir = some onAirRec ∧ onAirRec.pOut = some 1200000 := by decide +kernel

/-- Record (3, 77) ARMED with its one placement LANED on lane 5, which asks for `req`; record (3, 78) holds lane 6 with
E = 1 301 000. -/
def rival (req : LaneReq) : State :=
  { world [recA .armed [{ plc .laned (some 5) with lane := req }],
      { recA .armed [plc .laned (some 6)] with key := ⟨3, 78⟩, e := some 1301000 }] (some chNet) openLane with
    lanes := (State.reset.lanes.set 5 openLane).set 6 { openLane with bound := some ⟨⟨3, 78⟩, 0⟩ } }

theorem test_witness_AvailAmendChangesRecord_refused :
    canServe (.availAmend 1 { amendArgs 1 with service := 64 }) sPend = true ∧ 64 ≤ (64 : Byte).toNat
      ∧ ¬ (((3 : Byte) = 1 ∧ (0 : Nat) < 2 ^ 33) ∨ (3 : Byte) = 2)
      ∧ findRec ⟨3, 78⟩ sPend = none ∧ (recA .armed []).state = .armed ∧ (amendArgs 1).placements ≠ none
      ∧ onAirRec.state = .active ∧ (List.replicate 5 somePlacement).length = 5
      ∧ checkPlacements sPend [⟨0, 0, 0⟩] = none := by decide +kernel

theorem test_witness_AvailAmendChangesRecord_armed :
    (∀ req ∈ [some 5, none],
      findRec ⟨3, 77⟩ (rival req) = some (recA .armed [{ plc .laned (some 5) with lane := req }])
        ∧ ((rival req).lanes.get 5).bound = some ⟨⟨3, 77⟩, 0⟩ ∧ ((rival req).lanes.get 5).state = .opening
        ∧ (∀ m, ∀ p ∈ ((rival req).lanes.get m).bound, p.key = ⟨3, 77⟩ → p = ⟨⟨3, 77⟩, 0⟩)
        ∧ passesGuard (rival req) ⟨⟨3, 77⟩, 0⟩ 1300000 1 = false
        ∧ passesGuard (rival req) ⟨⟨3, 77⟩, 0⟩ 1328000 1 = true)
      ∧ allocate (handBack 5 ⟨⟨3, 77⟩, 0⟩ (rival none)) ⟨⟨3, 77⟩, 0⟩ (some 5) 1300000 = none
      ∧ allocate (handBack 5 ⟨⟨3, 77⟩, 0⟩ (rival none)) ⟨⟨3, 77⟩, 0⟩ none 1300000 = some 0
      ∧ checkPlacements sPend [somePlacement] = some [⟨1, none, false⟩] := by decide +kernel

theorem test_amend_guard :
    ((after (.availAmend 1 { amendArgs 1 with time := some (1, 1300000), placements := none }) (rival (some 5))).avails.map
      fun r => r.placements.map fun q => (q.state, q.bound)) = [[(.waiting, none)], [(.laned, some 6)]]
      ∧ ((after (.availAmend 1 { amendArgs 1 with time := some (1, 1300000), placements := none }) (rival none)).avails.map
      fun r => r.placements.map fun q => (q.state, q.bound)) = [[(.laned, some 0)], [(.laned, some 6)]] := by
  decide +kernel

theorem tableOk_one (r : Avail) (ch : Option Channel) (ln : Lane) (h : r.key = ⟨3, 77⟩) :
    TableOk (world [r] ch ln) := by
  refine ⟨Nat.le_of_ble_eq_true rfl, fun i => ?_, ?_⟩
  · exact Nat.le_trans (List.length_filter_le _ _) (Nat.le_of_ble_eq_true rfl)
  · simp [world, h]

theorem test_witness_CancelBeforeAirRetires :
    TableOk sPend ∧ canServe (.availCancel 1 ⟨3, 77⟩) sPend = true
      ∧ findRec ⟨3, 77⟩ sPend = some (recA .pending [plc .waiting none])
      ∧ (∀ q ∈ sPend.avails, q.allDone = true → q.key.svc ≠ 3 ∨ q = recA .pending [plc .waiting none])
      ∧ (∀ q ∈ (recA .pending [plc .waiting none]).placements, q.bound ≠ some 5) :=
  ⟨tableOk_one _ _ _ rfl, by decide +kernel⟩

theorem test_witness_CancelBeforeAirRetires_lanes :
    canServe (.availCancel 1 ⟨3, 77⟩) sOpen = true ∧ canServe (.availCancel 1 ⟨64, 77⟩) sOpen = true
      ∧ findRec ⟨3, 77⟩ sOpen = some (recA .armed [plc .laned (some 5), plc .waiting none])
      ∧ (sOpen.lanes.get 5).bound = some ⟨⟨3, 77⟩, 0⟩ ∧ (sOpen.lanes.get 5).state = .opening
      ∧ ({ openLane with state := .onAir } : Lane).bound = some ⟨⟨3, 77⟩, 0⟩ ∧ findRec ⟨3, 78⟩ sOpen = none := by
  decide +kernel

theorem test_witness_CancelAndReturnOnAirAskCut :
    canServe (.availCancel 1 ⟨3, 77⟩) sAir = true ∧ canServe (.availReturn 1 ⟨3, 77⟩) sAir = true
      ∧ findRec ⟨3, 77⟩ sAir = some onAirRec ∧ onAirRec.state = .active ∧ findRec ⟨3, 77⟩ sSvc = none
      ∧ (recA .pending [plc .waiting none]).state ≠ .active := by decide +kernel

theorem test_witness_ConfirmAndDecline :
    TableOk sHeld ∧ canServe (.availConfirm 1 ⟨3, 77⟩) sHeld = true ∧ canServe (.availDecline 1 ⟨3, 77⟩) sHeld = true
      ∧ findRec ⟨3, 77⟩ sHeld = some (recA .held [plc .waiting none])
      ∧ (∀ q ∈ sHeld.avails, q.allDone = true → q.key.svc ≠ 3 ∨ q = recA .held [plc .waiting none])
      ∧ sHeld.services.get 3 ≠ none ∧ findRec ⟨3, 77⟩ (withLast sSvc unconfirmed) = none
      ∧ unconfirmed.event = 77 ∧ ∀ p ∈ unconfirmed.placements, p.1 = .unconfirmed :=
  ⟨tableOk_one _ _ _ rfl, by decide +kernel⟩

theorem test_witness_AvailWalkTakesNextRecord :
    canServe (.availWalk 1 ⟨63, 1⟩) sPend = true ∧ 2 ≤ (2 : Byte).toNat ∧ 64 ≤ (64 : Byte).toNat
      ∧ (64 : Byte) ≠ 0xFF ∧ (1 : Byte).toNat < 2 ∧ sPend.walk = none
      ∧ (∃ r ∈ sPend.avails, r.key.svc.val = (3 : Byte).toNat)
      ∧ (∀ r ∈ sPend.avails, ¬ r.key.svc.val = (63 : Byte).toNat)
      ∧ (recA .pending []).key.svc = (recA .awaitCue []).key.svc ∧ (recA .pending []).e = some 1200000
      ∧ findRec ⟨3, 77⟩ sPend = some (recA .pending [plc .waiting none]) ∧ findRec ⟨3, 77⟩ sSvc = none := by
  decide +kernel

def wholeLane (pcr : BitVec 16) : LaneSetArgs :=
  { lane := 5, pids := ⟨some 0x1FFE, some 0x401, none, none⟩, pcrPid := some pcr, preroll := some 63, eos := none
    openTimeout := some 10001 }

theorem test_witness_LaneSetAndClose_set :
    canServe (.laneSet 1 (wholeLane 0x401)) sSvc = true ∧ (0x1FFE#16).toNat ≤ 0x1FFE ∧ (0x1FFE#16) ≠ 0x401
      ∧ (sSvc.lanes.get 5).state = .idle ∧ (sOpen.lanes.get 5).state ≠ .idle
      ∧ (0x402#16) ≠ 0x1FFE ∧ (0x402#16) ≠ 0x401 := by decide +kernel

theorem test_witness_LaneSetAndClose_close :
    canServe (.laneClose 1 5) sOpen = true ∧ isKeptOpen sOpen 5 = false
      ∧ isKeptOpen (world [] none { openLane with bound := none }) 5 = true
      ∧ (sOpen.lanes.get 5).state ≠ .idle ∧ (sOpen.lanes.get 5).state ≠ .closing
      ∧ (sSvc.lanes.get 5).state = .idle ∧ 16 ≤ (16 : Byte).toNat := by decide +kernel

/-- Two placements bound in lanes 5 and 6, 1 000 ticks apart. -/
def twoBound : State :=
  { sOpen with
    avails := sOpen.avails ++ [{ recA .armed [plc .laned (some 6)] with key := ⟨3, 78⟩, e := some 1201000 }]
    lanes := sOpen.lanes.set 6 { openLane with bound := some ⟨⟨3, 78⟩, 0⟩ } }

theorem test_witness_LaneGuardSetChecksBoundPlacements :
    canServe (.laneGuardSet 1 1001) twoBound = true
      ∧ guardBroken twoBound 1000 = false
      ∧ (∃ l m : Fin 16, l ≠ m ∧ l.val / 4 = m.val / 4 ∧ ∃ p q r r' e e',
          (twoBound.lanes.get l).bound = some p ∧ (twoBound.lanes.get m).bound = some q
            ∧ findRec p.key twoBound = some r ∧ findRec q.key twoBound = some r' ∧ r.e = some e ∧ r'.e = some e'
            ∧ absDiff e e' < 1001) := by
  refine ⟨by decide +kernel, by decide +kernel, 5, 6, by decide, rfl, ⟨⟨3, 77⟩, 0⟩, ⟨⟨3, 78⟩, 0⟩,
    recA .armed [plc .laned (some 5), plc .waiting none],
    { recA .armed [plc .laned (some 6)] with key := ⟨3, 78⟩, e := some 1201000 }, 1200000, 1201000, ?_⟩
  decide +kernel

theorem test_witness_AllocationRespectsGuard :
    isEligible twoBound 4 = true ∧ isEligible twoBound 8 = true ∧ isEligible twoBound 5 = false
      ∧ allocate twoBound ⟨⟨3, 77⟩, 1⟩ (some 4) 1228000 = some 4
      ∧ allocate twoBound ⟨⟨3, 77⟩, 1⟩ (some 4) 1227999 = none
      ∧ allocate twoBound ⟨⟨3, 77⟩, 1⟩ none 1227999 = some 0 := by decide +kernel

def readyLane (n : Nat) : Lane :=
  { openLane with
    state := .ready, openStart := none, nextSeq := n, hold := decide (4032 ≤ n)
    buffer := List.replicate n ⟨0, .role .video none, plainPacket⟩ }

/-- Lane 5 with an entry, `n` packets and no PCR of its own; STANDING where `named 5` has it. -/
def filled (st : LaneState) (n : Nat) (pcr : Bool) : Lane :=
  { readyLane n with
    state := st, bound := none, entry := some 0, lpts := some 9, pcrSeen := pcr
    cfg := { openLane.cfg with pcrPid := 0x777, preroll := 64 } }

/-- A STANDING lane about to roll: its entry, 4 029 packets, and a later RAP. -/
def rolling : Lane :=
  { filled .ready 4029 true with
    nextSeq := 4031
    buffer := ⟨0, .role .video (some 9), rapPacket⟩
      :: List.replicate 4029 ⟨1, .role .video none, plainPacket⟩ ++ [⟨4030, .role .video (some 7), rapPacket⟩] }

theorem test_standing_roll :
    (rolling.rollIfDue true).entry = some 4030 ∧ (rolling.rollIfDue true).buffer.length = 1
      ∧ (rolling.rollIfDue false).entry = some 0
      ∧ rolling.buffer.find? (fun b => b.rap.isSome && decide (0 < b.seq))
        = some ⟨4030, .role .video (some 7), rapPacket⟩
      ∧ rolling.buffer.length + 1 = 4032 ∧ rolling.readers = [] := by decide +kernel

theorem test_witness_LanePacketByState_filled :
    (filled .opening 63 true).cfg.preroll = 64 ∧ (filled .opening 63 true).entry = some 0
      ∧ (filled .opening 63 true).buffer.length + 1 = 64 ∧ (filled .opening 62 true).buffer.length + 1 < 64
      ∧ (filled .opening 4096 false).buffer.length = 4096 ∧ (filled .opening 63 true).faulted = false
      ∧ classify true (filled .ready 1 true).cfg plainPacket = some (.role .video none)
      ∧ ((after (.lanePacket 5 plainPacket) (named 5 (world [] none (filled .opening 63 true)))).lanes.get 5).state
        = .ready
      ∧ isStanding (named 5 sSvc) 5 = true ∧ airLane.readers ≠ [] ∧ airLane.state = .onAir := by decide +kernel

theorem test_witness_LanePacketByState :
    sOpen.resetLow = false ∧ (sOpen.laneIn.get 5).synced = true ∧ isStanding sOpen 5 = false
      ∧ classify false openLane.cfg { plainPacket with pid := 0x555 } = none
      ∧ classify false openLane.cfg plainPacket = some (.role .video none)
      ∧ classify false openLane.cfg rapPacket = some (.role .video (some 45000))
      ∧ (sOpen.lanes.get 5).state = .opening ∧ (sOpen.lanes.get 5).entry = none
      ∧ (sOpen.lanes.get 5).buffer = [] ∧ 2 ≤ (sOpen.lanes.get 5).cfg.preroll
      ∧ (readyLane 4095).state = .ready ∧ (readyLane 4095).buffer.length < 4096
      ∧ 4096 ≤ (readyLane 4096).buffer.length ∧ (sSvc.lanes.get 5).state = .idle := by decide +kernel

theorem test_witness_LaneTimers :
    (sOpen.lanes.get 5).state = .opening ∧ (sOpen.lanes.get 5).openStart = some 0
      ∧ (sOpen.lanes.get 5).bound = some ⟨⟨3, 77⟩, 0⟩
      ∧ findRec ⟨3, 77⟩ sOpen = some (recA .armed [plc .laned (some 5), plc .waiting none])
      ∧ [plc .laned (some 5), plc .waiting none][1]? = some (plc .waiting none) ∧ (plc .waiting none).state ≠ .done
      ∧ (sOpen.avails.map fun r => r.key).Nodup
      ∧ (Lane.enterClosing 0 Lane.reset).closeStart = some 0 ∧ (Lane.enterClosing 0 Lane.reset).state = .closing
      ∧ (sSvc.lanes.get 5).state ≠ .closing ∧ isStanding (named 5 sSvc) 5 = true
      ∧ ((sAir.lanes.get 5).reader 9).map (fun r => r.starve) = some (some 0)
      ∧ isStanding sAir 5 = false ∧ (sAir.lanes.get 5).faulted = false ∧ (sAir.lanes.get 5).reader 8 = none
      ∧ isStanding (named 5 sAir) 5 = true ∧ ((named 5 sAir).lanes.get 5).faulted = false
      ∧ ((named 5 sAir).alerts.get 2).lane = 5 ∧ chAir.lane = some 5 ∧ chNet.lane = none := by
  decide +kernel

theorem test_witness_LanePacketRewritten :
    rapPacket.payload = some (.pes ⟨.whole 45000, .absent⟩ []) ∧ rapPacket.pusi = true
      ∧ plainPacket.payload = some (.bytes [9]) ∧ plainPacket.af = none ∧ pcrPacket.payload = none
      ∧ pktPcr rapPacket = some ⟨5, 0⟩ ∧ Stamp.cut ≠ .absent := by decide +kernel

theorem test_witness_ContinuityCounters :
    netRole.lastCc = some 3 ∧ netRole.rejoin = false ∧ (4 : BitVec 4) + netRole.ccDelta = 3 + 1
      ∧ (3 : BitVec 4) + netRole.ccDelta = 3 ∧ (9 : BitVec 4) + netRole.ccDelta ≠ 3
      ∧ (9 : BitVec 4) + netRole.ccDelta ≠ 3 + 1 ∧ ({ netRole with rejoin := true } : RoleState).rejoin = true := by
  decide +kernel

theorem test_witness_EveryPortEmitsOnePacket :
    (∀ c ch v, sNet.channels.get c = some ch → ch.port = 2 → sNet.services.get ch.service = some v →
        ∀ x, v.pid x ≠ some plainPacket.pid)
      ∧ sNet.resetLow = false ∧ (sNet.netIn.get 1).synced = true ∧ (sNet.ports.get 2).baseInput = 1
      ∧ (sNet.ports.get 4).baseInput ≠ 1 := by
  refine ⟨fun c ch v _ _ h x => ?_, by decide +kernel⟩
  obtain ⟨_, rfl⟩ := svc_world h
  cases x <;> decide +kernel

/-- The one service of `sNet`, and the two ports on its input. -/
theorem test_witness_EveryPortEmitsOnePacket_dispatch (meets : Service → Prop) (h : meets svcA) :
    (∀ i, i ∈ [(3 : Fin 64)] ↔ ∃ v, sNet.services.get i = some v ∧ v.input = 1 ∧ meets v)
      ∧ (∀ port, port ∈ [(2 : Fin 8), 3] ↔ (sNet.ports.get port).baseInput = 1)
      ∧ [(2 : Fin 8), 3].Pairwise (fun a b => a.val < b.val) ∧ svcA.pcrPid = 0x200
      ∧ svcA.cuePid = some 0x210 ∧ svcA.video = 0x200 ∧ svcA.pid .video = some 0x200
      ∧ pktPcr rapPacket = some ⟨5, 0⟩ ∧ pktPts rapPacket = some 45000 ∧ pktPts plainPacket = none
      ∧ pktPcr plainPacket = none := by
  refine ⟨fun i => ⟨fun hi => ?_, fun ⟨v, hv, _⟩ => ?_⟩, by decide +kernel⟩
  · obtain rfl : i = 3 := List.mem_singleton.mp hi
    exact ⟨svcA, by decide +kernel, rfl, h⟩
  · exact List.mem_singleton.mpr (svc_world hv).1

theorem test_witness_EveryPortEmitsOnePacket_governs :
    sNet.channels.get 9 = some chNet ∧ sNet.services.get chNet.service = some svcA ∧ chNet.port = 2
      ∧ ∀ d y, (∃ dh w, sNet.channels.get d = some dh ∧ dh.port = 2 ∧ sNet.services.get dh.service = some w
          ∧ w.pid y = some 0x200) → d = 9 ∧ y = .video := by
  refine ⟨by decide +kernel, by decide +kernel, rfl, fun d y ⟨dh, w, hd, _, hw, hy⟩ => ⟨(chan_world hd).1, ?_⟩⟩
  obtain ⟨_, rfl⟩ := svc_world hw
  cases y
  · rfl
  all_goals exact absurd hy (by decide +kernel)

theorem test_witness_InputsNeedSync :
    (State.reset.netIn.get 3).synced = false ∧ (State.reset.laneIn.get 15).synced = false
      ∧ ({ SyncState.reset with synced := true, misses := 2 } : SyncState).synced = true
      ∧ ([1] : List Byte).head? ≠ some 0x47 ∧ searching.synced = false
      ∧ 188 + 188 ≤ 0 + searching.seen.length ∧ 0 < ([0x47] : List Byte).length := by decide +kernel

theorem test_witness_PortAndZoneRequests_port :
    (∃ c ch, sNet.channels.get c = some ch ∧ ch.port = 2)
      ∧ (∀ c ch, sNet.channels.get c = some ch → ch.port ≠ 7) ∧ canServe (.portSet 1 ⟨7, 3, 7⟩) sNet = true
      ∧ 8 ≤ (8 : Byte).toNat ∧ 4 ≤ (4 : Byte).toNat ∧ canServe (.portGet 1 7) sNet = true := by
  refine ⟨⟨9, chNet, by decide +kernel, rfl⟩, fun c ch h => ?_, by decide +kernel⟩
  obtain ⟨_, h⟩ := chan_world h
  cases h
  decide

/-- Zone 2 covered by alert 2, whose lane 12 serves. -/
def covered : State := { sSvc with zones := sSvc.zones.set 2 { Zone.reset with cover := some 2 } }

theorem test_witness_ChannelRequests_set :
    (∃ d ch, d ≠ (8 : Fin 128) ∧ sNet.channels.get d = some ch ∧ ch.service = 3 ∧ ch.port = 2)
      ∧ (∀ d ch, d ≠ 127 → covered.channels.get d = some ch → ¬ (ch.service = 3 ∧ ch.port = 2))
      ∧ canServe (.chanSet 1 ⟨127, 3, 2⟩) covered = true ∧ 128 ≤ (128 : Byte).toNat
      ∧ covered.services.get 63 = none ∧ covered.services.get 3 = some svcA
      ∧ svcA.input = (covered.ports.get 2).baseInput ∧ svcA.input ≠ (covered.ports.get 7).baseInput
      ∧ chAir.atRest = false ∧ chNet.atRest = true ∧ covered.channels.get 127 = none :=
  ⟨⟨9, chNet, by decide, by decide +kernel, rfl, rfl⟩,
    fun _ _ _ h => (no_chan (rs := []) (ln := Lane.reset) h).elim, by decide +kernel⟩

theorem test_witness_ChannelRequests_get :
    canServe (.chanGet 1 9) sNet = true ∧ canServe (.chanClear 1 9) sNet = true ∧ 128 ≤ (128 : Byte).toNat
      ∧ sNet.channels.get 127 = none ∧ sNet.channels.get 9 = some chNet ∧ chNet.atRest = true
      ∧ chAir.atRest = false := by decide +kernel

theorem test_witness_PortAndZoneRequests_zone :
    canServe (.zoneLock 1 7) sAir = true ∧ canServe (.zoneUnlock 1 7) sAir = true
      ∧ canServe (.zoneGet 1 7) sAir = true ∧ 8 ≤ (8 : Byte).toNat ∧ (7 : Byte).toNat = (7 : Fin 8).val := by
  decide +kernel

theorem test_witness_VideoTakesTarget :
    (sAir.channels.get 9).bind (fun c => c.followStart) = none
      ∧ ({ chAir with followStart := some 0 } : Channel).followDue = false
      ∧ (PerRole.all netRole).video.source = .network ∧ chAir.roles.audio1.source = .lane 5
      ∧ ({ netRole with switched := false } : RoleState).switched = false := by decide +kernel

/-- Channel 9 back on NETWORK with its audio still on lane 5. -/
def chBack : Channel :=
  { chAir with
    holder := none, roles := { chAir.roles with video := netRole }
    departing := some ⟨5, some (.placement ⟨⟨3, 77⟩, 0⟩), some .played⟩ }

theorem test_witness_VideoTakesTarget_leaves :
    sAir.channels.get 9 = some chAir ∧ chAir.drawsFor = some ⟨⟨3, 77⟩, 0⟩ ∧ chAir.pending = none
      ∧ atOrAfter 1290000 1290000 = true ∧ atOrAfter 1289999 1290000 = false
      ∧ (sAir.lanes.get 5).readers.all (fun r => decide (r.chan = 9)) = true
      ∧ (∃ p ∈ (sAir.lanes.get 5).bound, (findPlacement p sAir).map (fun q => q.keepOpen) = some false)
      ∧ (Channel.takeTarget 0 (chanHas sAir 9) .network none 7 (some .played) chAir).holdsOn 5 = true
      ∧ (Channel.takeTarget 0 (chanHas sAir 9) (.lane 6 (.alert 2)) (some 0) 7 (some .played) chAir).holdsOn 5 = false
      ∧ (Channel.takeTarget 0 (chanHas sAir 9) (.lane 5 (.alert 2)) (some 0) 7 none chBack).departing.isSome = true := by
  decide +kernel

theorem test_video_leaves :
    ((videoTake 7 9 (.lane 6 (.alert 2)) (some .preempted) none sAir).avails.map fun r => r.placements.map fun q =>
        (q.state, q.outcome)) = [[(.done, some .preempted)]]
      ∧ ((videoTake 7 9 (.lane 6 (.alert 2)) (some .preempted) none sAir).lanes.get 5).state = .closing := by
  decide +kernel

theorem test_witness_AlertInputsDebounced :
    (State.reset.ains.get 0).pin ≠ false ∧ 0 < (State.reset.ains.get 0).debounce
      ∧ (State.reset.ains.get 0).timer = none
      ∧ ((after (.ainChange 0 false) State.reset).ains.get 0).timer = some 0
      ∧ ({ Ain.reset true with debounce := 0 } : Ain).debounce = 0
      ∧ ((State.reset.alerts.get 0).names (.ain 1)) = false ∧ ((State.reset.alerts.get 0).names (.ain 0)) = true
      ∧ canServe (.ainSet 1 ⟨5, 1, 0⟩) State.reset = true ∧ 6 ≤ (6 : Byte).toNat ∧ (1 : Byte).toNat < 2
      ∧ (Ain.reset false).timer = some 0 ∧ 0 + 0 ≤ State.reset.refCount / 27000
      ∧ canServe (.ainGet 1 5) State.reset = true := by decide +kernel

/-- A pin gone low runs its timer: a longer debounce time, a new polarity, and a new polarity with debounce time 0. -/
theorem test_witness_AlertInputsDebounced_set :
    let pressed := after (.ainChange 0 false) State.reset
    let programmed (pol deb : Nat) : Bool × Option Nat :=
      let a := (after (.ainSet 1 ⟨0, BitVec.ofNat 8 pol, BitVec.ofNat 32 deb⟩) pressed).ains.get 0
      (a.level, a.timer)
    canServe (.ainSet 1 ⟨0, 1, 40⟩) pressed = true ∧ (pressed.ains.get 0).timer = some 0
      ∧ (pressed.ains.get 0).polarity = .lowActive ∧ (pressed.ains.get 0).raw = true
      ∧ pressed.refCount / 27000 < 0 + 40 ∧ programmed 1 40 = (false, some 0) ∧ programmed 1 0 = (true, none)
      ∧ programmed 0 40 = (false, none) ∧ programmed 0 0 = (false, none) := by decide +kernel

theorem test_witness_FlagSetDeliversChange :
    canServe (.flagSet 1 ⟨7, 1⟩) sSvc = true ∧ 8 ≤ (8 : Byte).toNat ∧ 2 ≤ (2 : Byte).toNat
      ∧ (7 : Byte).toNat = (7 : Fin 8).val ∧ sSvc.rflags.get 7 = false
      ∧ (sSvc.alerts.get 0).names (.flag 7) = false
      ∧ ({ Alert.reset 0 with terms := [(.flag 7, true)] } : Alert).names (.flag 7) = true := by decide +kernel

theorem test_witness_AlertStates :
    (∀ st ∈ [AlertState.idle, .releasing, .qualifying, .active, .spent],
      condition (alertIn st true 0 0) ((alertIn st true 0 0).alerts.get 2) = true
        ∧ condition (alertIn st false 2 3) ((alertIn st false 2 3).alerts.get 2) = false
        ∧ ((alertIn st true 2 3).alerts.get 2).state = st)
      ∧ (qualifying.alerts.get 2).holdStart = some 0 ∧ (qualifying.alerts.get 2).state = .qualifying
      ∧ (releasing.alerts.get 2).releaseStart = some 0 ∧ (releasing.alerts.get 2).state = .releasing
      ∧ (State.reset.alerts.get 2).state ≠ .qualifying ∧ State.reset.mask.getLsbD 6 = true
      ∧ ((alertIn .idle true 0 0).alerts.get 2).names (.ain 0) = true
      ∧ ((alertIn .idle true 0 0).alerts.get 2).names (.ain 1) = false := by decide +kernel

/-- Alert 2 alone names flag 0, which is high; zone 2, with channel 9, is in its zones. -/
def flagged : State :=
  { sNet with
    rflags := sNet.rflags.set 0 true
    alerts := sNet.alerts.set 2
      { Alert.reset 2 with enabled := true, terms := [(.flag 0, true)], state := .idle, zones := 0x04 } }

theorem test_witness_AlertStates_zones :
    (∀ b, (flagged.alerts.get b).names (.flag 0) = decide (b = 2)) ∧ condition flagged (flagged.alerts.get 2) = true
      ∧ bestCover (alertAct 2 flagged) 2 = some 2 ∧ (flagged.zones.get 2).cover = none
      ∧ flagged.channels.get 9 = some chNet ∧ chanZone flagged chNet = 2 ∧ zoneIn 0x04 (2 : Fin 8) = true
      ∧ zoneIn 0x04 (3 : Fin 8) = false ∧ isServing flagged 2 = false
      ∧ ((alertAct 2 flagged).attn.get (alertSource 2)).getLsbD 8 = true
      ∧ ((alertAct 2 flagged).zones.get 2).waiting = true
      ∧ ((alertAct 2 { flagged with alerts := flagged.alerts.set 2 { flagged.alerts.get 2 with hold := 1 } }).zones.get 2).cover
        = none := by decide +kernel

theorem test_witness_AlertRequests_set :
    canServe (.alertSet 1 (alertArgs 3)) State.reset = true ∧ 16 ≤ (16 : Byte).toNat ∧ (alertArgs 0).terms.length < 1
      ∧ 3 < (alertArgs 4).terms.length ∧ TermSource.ofByte 6 = none ∧ TermSource.ofByte 16 = none
      ∧ (alertArgs 3).terms
        = (List.replicate 3 (TermSource.flag 0, true)).map (fun x => (x.1.byte, if x.2 then 1 else 0))
      ∧ (alertArgs 3).combine = Combine.any.byte ∧ (alertArgs 3).zones ≠ 0
      ∧ (State.reset.alerts.get 2).state = .disabled ∧ (State.reset.lanes.get 12).bound = none
      ∧ condition State.reset { Alert.reset 2 with terms := List.replicate 3 (.flag 0, true) } = false
      ∧ (State.reset.lanes.get 12).state = .idle ∧ isStanding State.reset 12 = false
      ∧ (sOpen.lanes.get 5).bound ≠ none ∧ (alertOn.alerts.get 2).state = .active := by decide +kernel

/-- Alert 2 idle and so on, naming lane 11; the request names lane 12. -/
theorem test_witness_AlertRequests_renames :
    (∀ st ∈ [AlertState.idle, .qualifying, .spent],
      let s : State :=
        { alertIn st false 2 3 with
          alerts := State.reset.alerts.set 2
            { Alert.reset 2 with
              enabled := true, state := st, lane := 11, holdStart := if st = .qualifying then some 0 else none }
          lanes := State.reset.lanes.set 11 { Lane.reset with state := .ready } }
      canServe (.alertSet 1 (alertArgs 1)) s = true ∧ (s.alerts.get 2).capable = false
        ∧ (s.lanes.get 12).bound = none ∧ isStanding s 11 = true ∧ isStanding s 12 = false
        ∧ (∀ a, (s.alerts.get a).stamp.isSome = (s.alerts.get a).capable
          ∧ (s.alerts.get a).holdStart.isSome = decide ((s.alerts.get a).state = .qualifying))
        ∧ (∀ z, (s.zones.get z).cover = bestCover s z)
        ∧ isStanding (after (.alertSet 1 (alertArgs 1)) s) 11 = false
        ∧ ((after (.alertSet 1 (alertArgs 1)) s).lanes.get 11).state = .closing
        ∧ ((after (.alertSet 1 (alertArgs 1)) s).lanes.get 12).state = .opening)
      ∧ condition (alertIn .idle true 0 0) ((alertIn .idle true 0 0).alerts.get 2) = true := by decide +kernel

/-- Alert 2 named lane 5, on which channel 9 is, and activates at once in its new configuration. -/
theorem test_witness_AlertRequests_activates :
    let s : State :=
      { flagged with
        channels := sAir.channels, lanes := flagged.lanes.set 5 { airLane with bound := none }
        alerts := flagged.alerts.set 2 { flagged.alerts.get 2 with terms := [(.flag 1, true)], lane := 5 } }
    let args : AlertSetArgs := { alertArgs 1 with hold := 0 }
    let t := after (.alertSet 1 args) s
    canServe (.alertSet 1 args) s = true ∧ (s.alerts.get 2).capable = false ∧ (s.lanes.get 12).bound = none
      ∧ (s.alerts.get 2).stamp = none ∧ (∀ z, (s.zones.get z).cover = bestCover s z)
      ∧ s.channels.get 9 = some chAir ∧ chAir.lane = some 5 ∧ isStanding s 5 = true
      ∧ (t.alerts.get 2).state = .active ∧ isStanding t 5 = false ∧ bestCover t 2 = some 2
      ∧ (t.zones.get 2).waiting = true
      ∧ (t.channels.get 9).bind (fun c => c.pending) = some ⟨.network, .coverage, some .preempted⟩ := by
  decide +kernel

theorem test_witness_AlertRequests_end :
    canServe (.alertGet 1 15) State.reset = true ∧ canServe (.alertEnd 1 2) alertOn = true
      ∧ 16 ≤ (16 : Byte).toNat ∧ (alertOn.alerts.get 2).capable = true ∧ (alertOn.alerts.get 3).capable = false := by
  decide +kernel

theorem test_witness_CoverageChangeGivesTargets :
    isServing sAir 2 = false
      ∧ isServing (named 5 (world [] (some chAir) { airLane with bound := none })) 5 = true
      ∧ (sAir.ports.get chAir.port).zone = 2 ∧ chAir.lane = some 5 ∧ chAir.lane ≠ some 6 ∧ chAir.drawsFor ≠ none
      ∧ chNet.drawsFor = none ∧ chAir.pending = none
      ∧ ({ chAir with pending := some ⟨.network, .coverage, none⟩ } : Channel).pending
        = some ⟨.network, .coverage, none⟩
      ∧ (covered.zones.get 2).cover = some 2 ∧ (covered.alerts.get 2).lane = 2
      ∧ (covered.zones.get 3).cover = none := by decide +kernel

theorem test_witness_TallySetAndGet :
    canServe (.tallySet 1 tallyArgs) State.reset = true ∧ 4 ≤ (4 : Byte).toNat ∧ 6 ≤ (6 : Byte).toNat
      ∧ 3 ≤ (3 : Byte).toNat ∧ 64 ≤ (64 : Byte).toNat ∧ (64 : Byte) ≠ 0xFE ∧ 16 ≤ (16 : Byte).toNat
      ∧ tallyArgs.kind = TallyKind.alertActive.byte ∧ tallyArgs.mode = TallyMode.steady.byte
      ∧ tallyArgs.polarity = Polarity.lowActive.byte ∧ tallyArgs.selector = 0xFE
      ∧ TallyKind.alertActive.isLevel = true
      ∧ sourceLevel { Tally.reset with kind := .alertActive } State.reset.alerts = false
      ∧ sourceLevel { Tally.reset with kind := .alertActive } alertOn.alerts = true
      ∧ canServe (.tallyGet 1 3) State.reset = true ∧ (63 : Byte).toNat < 64 ∧ (15 : Byte).toNat < 16
      ∧ TallyKind.spliceOut.byte = 1 ∧ sourceLevel { Tally.reset with kind := .alertActive, selector := some 2 }
        alertOn.alerts = true := by decide +kernel

theorem test_witness_TallyTrains :
    Tally.reset.mode = .count ∧ Tally.reset.phase = .idle ∧ pulsing.phase ≠ .idle ∧ pulsing.period ≠ 0
      ∧ 1 < pulsing.count ∧ pulsing.started < pulsing.count ∧ pulsing.phaseDue = some 200
      ∧ pulsing.pulses = 100 :: [] ∧ ({ pulsing with pulses := [100, 110] } : Tally).pulses = 100 :: [110]
      ∧ ({ pulsing with mode := .repeating } : Tally).mode = .repeating
      ∧ ({ pulsing with phase := .delay, started := 0 } : Tally).started = 0
      ∧ ({ pulsing with phase := .finishing } : Tally).phase = .finishing
      ∧ ({ pulsing with started := 2 } : Tally).started = pulsing.count ∧ Tally.reset.phaseDue = none
      ∧ Tally.reset.edge = none ∧ ({ Tally.reset with edge := some ⟨true, 40⟩ } : Tally).edge = some ⟨true, 40⟩ := by
  decide +kernel

/-- The levels of alert 2 as `old` and `new` have it, and what a record with a level kind makes of the change. -/
def followed (t : Tally) (old new : AlertState) : Tally :=
  let alert (st : AlertState) : Table Alert 16 :=
    State.reset.alerts.set 2 { Alert.reset 2 with enabled := true, state := st }
  (deliverLevels (alert old) { withTally { t with kind := .alertActive } with alerts := alert new }).tallies.get 0

theorem test_tally_follow :
    (followed { Tally.reset with mode := .repeating } .idle .active).pulses = [100]
      ∧ (followed { pulsing with mode := .repeating } .active .spent).phase = .finishing
      ∧ (followed { pulsing with mode := .repeating, pulses := [] } .active .spent).phase = .idle
      ∧ (followed { Tally.reset with mode := .repeating, phase := .delay } .active .idle).phase = .idle
      ∧ (followed { Tally.reset with mode := .steady, delay := 2 } .idle .active).edge = some ⟨true, 20⟩
      ∧ (followed { Tally.reset with mode := .steady, edge := some ⟨true, 20⟩ } .releasing .idle).edge = none
      ∧ (followed Tally.reset .idle .active).pulses = [100]
      ∧ followed { Tally.reset with selector := some 3 } .idle .active
        = { Tally.reset with selector := some 3, kind := .alertActive } := by decide +kernel

theorem test_tally_selects :
    ((deliverTrigger .ret 3 (withTally { Tally.reset with kind := .ret, selector := some 3 })).tallies.get 0).pulses = [100]
      ∧ ((deliverTrigger .ret 3 (withTally { Tally.reset with kind := .ret, selector := some 4 })).tallies.get 0).pulses
        = []
      ∧ ({ pulsing with period := 10, onTime := 10, pulses := [] } : Tally).output = true
      ∧ (countTrigger 0 { Tally.reset with count := 1, period := 9 }).phaseDue = some 100 := by decide +kernel

theorem test_witness_RaisesAndAttnLine :
    State.reset.mask.getLsbD Cause.outcome.bit = true
      ∧ ({ State.reset with mask := 0 } : State).mask.getLsbD Cause.outcome.bit = false
      ∧ (raised.attn.get (svcSource 3)).getLsbD Cause.outcome.bit = true ∧ raised.gap = none
      ∧ (after (.poll 1) raised).gap = some 0 ∧ (after (.poll 1) raised).resetLow = false := by decide +kernel

theorem test_witness_AttentionRequests :
    canServe (.attnMask 1 ⟨0, 2⟩) raised = true ∧ 2 ≤ (2 : Byte).toNat ∧ canServe (.poll 1) raised = true
      ∧ (∀ src, State.reset.attn.get src = 0#9) ∧ raised.attn.get (svcSource 3) ≠ 0#9
      ∧ (∀ lower : Fin 96, lower.val < 3 → raised.attn.get lower = 0#9)
      ∧ (∃ other, other ≠ svcSource 3 ∧ raised.attn.get other ≠ 0#9) ∧ canServe (.summary 1) raised = true := by
  decide +kernel

theorem test_witness_EventsKeepConfiguration :
    isEvent (.openTimeout 5) = true ∧ exec (.openTimeout 5) sOpen = .next (live (openTimeout 5) sOpen) :=
  ⟨rfl, rfl⟩

def cueA (k : CueKind) (t : Option Time) : Cue :=
  { kind := k, event := 77, cls := 3, time := t, duration := some 5 }

theorem test_witness_CueSectionsRead :
    (cueA .insert none).duration ≠ some 0 ∧ ([] : List Byte).head? ≠ some 0xC7 ∧ ([0xC7] : List Byte).length < 2
      ∧ ([0xC7, 10] : List Byte).length < 2 + 10 ∧ sSvc.services.get 3 = some svcA
      ∧ readCue (cueSection (cueA .insert (some 7))) = some (cueA .insert (some 7))
      ∧ readCue ((cueSection (cueA .insert (some 7))).set 16 9) = none
      ∧ (crc32 (((cueSection (cueA .insert (some 7))).set 16 9).take 17)).toNat
        ≠ natBe (((cueSection (cueA .insert (some 7))).set 16 9).drop 17) := by decide +kernel

theorem test_witness_InsertCueCreatesRecord :
    (cueA .insert none).kind = .insert ∧ findRec ⟨3, 77⟩ sSvc = none ∧ unconfirmed.event = (cueA .insert none).event
      ∧ isBehind (999999#33 + BitVec.ofInt 33 svcA.spliceAdjust) 1000000 = true ∧ svcA.policy ≠ .ignore
      ∧ svcA.templates.get (cueA .insert none).cls ≠ [] ∧ sSvc.avails.length < 512 ∧ recCount sSvc 3 < 32
      ∧ svcA.tb.state = .locked ∧ 512 ≤ fullTable.avails.length ∧ svcA.policy = .hold
      ∧ svcA.last.isNone = true := by decide +kernel

theorem test_witness_CuesOnKnownRecords :
    findRec ⟨3, 77⟩ sHeld = some (recA .held [plc .waiting none]) ∧ findRec ⟨3, 77⟩ sAir = some onAirRec
      ∧ canServe (.availCancel 1 ⟨BitVec.ofNat 8 (3 : Fin 64).val, 77⟩) sAir = true ∧ onAirRec.cutAsked = false
      ∧ (cueA .ret (some 7)).time = some 7 ∧ findRec ⟨3, 77⟩ sSvc = none ∧ (cueA .cancel none).kind ≠ .insert := by
  decide +kernel

theorem test_witness_CuesOnKnownRecords_amends :
    findRec ⟨3, 77⟩ (timed .awaitCue 5) = some { recA .awaitCue [plc .waiting none] with e := some 5 }
      ∧ ((timed .awaitCue 5).avails.map fun q => q.key).Nodup ∧ svcA.tb.state = .locked ∧ Timebase.reset.state ≠ .locked
      ∧ findRec ⟨3, 77⟩ (rival none) = some (recA .armed [{ plc .laned (some 5) with lane := none }])
      ∧ (1200000#33 + BitVec.ofInt 33 svcA.spliceAdjust) = 1200000
      ∧ (cueA .insert none).duration ≠ onAirRec.d ∧ onAirRec.pOut = some 1200000
      ∧ canServe (.availReturn 1 ⟨BitVec.ofNat 8 (3 : Fin 64).val, 77⟩) sAir = true := by decide +kernel

theorem test_cue_moves_armed :
    ((takeCue 3 svcA (cueA .insert (some 1300000)) (rival none)).avails.map fun r =>
      (r.timeSource, r.d, r.placements.map fun q => q.bound))
      = [(.fixed, some 5, [some 0]), (.fixed, some 90000, [some 6])]
      ∧ ((takeCue 3 svcA (cueA .insert none) (timed .awaitCue 5)).avails.map fun r => (r.state, r.e, r.d))
        = [(.pending, some 1180000, some 90000)] := by decide +kernel

def spliceLane : Lane :=
  { openLane with
    state := .ready, openStart := none, entry := some 0, lpts := some 45000, pcrSeen := true, nextSeq := 1
    buffer := [⟨0, .role .video (some 45000), rapPacket⟩] }

def sArmed : State := world [recA .armed [plc .laned (some 5)]] (some chNet) spliceLane

theorem test_splice_out :
    ((beat 3 1200100 sArmed).channels.get 9).map (fun c => (c.lane, c.offset, c.ret))
      = some (some 5, some 1155100, some 1290100) := by decide +kernel

theorem test_witness_SpliceOutTakesChannels :
    (∀ c ch, sArmed.channels.get c = some ch → ch.service = 3 → ch.atRest = true)
      ∧ recA .armed [plc .laned (some 5)] ∈ sArmed.avails
      ∧ sArmed.services.get 3 = some svcA ∧ svcA.tb.state = .locked ∧ (sArmed.avails.map fun a => a.key).Nodup
      ∧ (∀ a ∈ sArmed.avails, a.key.svc = 3 → a.state = .armed → a = recA .armed [plc .laned (some 5)])
      ∧ Machine.dist 1209009 1200000 < 4294967296 ∧ Machine.dist 1209009 1200000 ≤ svcA.spliceWindow
      ∧ (sArmed.lanes.get 5).state = .ready ∧ (sArmed.lanes.get 5).lpts = some 45000
      ∧ (sArmed.lanes.get 5).bound = some ⟨⟨3, 77⟩, 0⟩ ∧ isStanding sArmed 5 = false
      ∧ (sArmed.channels.get 9).map (fun ch => (ch.service, zoneIn 0x04 (chanZone sArmed ch))) = some (3, true)
      ∧ (sArmed.zones.get 2).cover = none ∧ (sArmed.zones.get 2).locked = false := by
  refine ⟨fun c ch h _ => ?_, List.mem_cons_self, by decide +kernel⟩
  obtain ⟨_, h⟩ := chan_world h
  cases h
  decide +kernel

/-- A record of the network with the same E and a lower event id, whose placement in zone 2 waits on lane 6, READY. -/
def secondRec : Avail :=
  { recA .armed [plc .laned (some 6)] with key := ⟨3, 70⟩, origin := .network }

/-- Two records claim channel 9 at their beat. -/
def sTwo : State :=
  { world [recA .armed [plc .laned (some 5)], secondRec] (some chNet) spliceLane with
    lanes := (State.reset.lanes.set 5 spliceLane).set 6 { spliceLane with bound := some ⟨⟨3, 70⟩, 0⟩ } }

theorem test_splice_conflict :
    ((beat 3 1200100 sTwo).avails.map fun r => r.placements.map fun q => (q.state, q.count, q.part, q.outcome))
      = [[(.onAir, 1, false, none)], [(.done, 0, false, some .missedConflict)]] := by decide +kernel

theorem test_splice_results :
    ((beat 3 1200100 (world [recA .armed [plc .waiting none, { plc .laned (some 5) with zones := 1 },
        plc .laned (some 7)]] (some chNet) spliceLane)).avails.map fun r => r.placements.map fun q => q.outcome)
      = [[some .missedNoLane, some .noChannel, some .missedNotReady]]
    ∧ ((beat 3 1200100 { sArmed with zones := sArmed.zones.set 2 { Zone.reset with locked := true } }).avails.map
      fun r => r.placements.map fun q => q.outcome) = [[some .lockedOut]] := by decide +kernel

theorem test_splice_misses :
    ((beat 3 1209010 sArmed).avails.map fun r => r.placements.map fun q => q.outcome) = [[some .missedLate]]
      ∧ ((beat 3 1200100 (updSvc 3 (fun v => { v with tb := Timebase.reset }) sArmed)).avails.map
        fun r => r.placements.map fun q => q.outcome) = [[some .missedNoLock]]
      ∧ ((beat 3 1209010 sArmed).lanes.get 5).state = .closing := by decide +kernel

theorem test_witness_SpliceOutTakesChannels_rivals :
    (∀ d dh, sTwo.channels.get d = some dh → dh.holdsOn 5 = false ∧ ∀ g, dh.departing = some g → g.lane ≠ 5)
      ∧ (sTwo.avails.map fun a => a.key).Nodup ∧ sTwo.services.get 3 = some svcA
      ∧ (∀ a ∈ sTwo.avails, a.key.svc = 3 ∧ a.state = .armed ∧ a.e = some 1200000
        ∧ ∀ q ∈ a.placements, q.state = .laned)
      ∧ (sTwo.lanes.get 5).state = .ready ∧ (sTwo.lanes.get 5).readers = []
      ∧ (sTwo.lanes.get 6).state = .ready ∧ isStanding sTwo 5 = false
      ∧ (recA .armed []).origin = .schedule ∧ secondRec.origin = .network
      ∧ (0x04 : ZoneSet) &&& 0x01 = 0 := by
  refine ⟨fun d dh h => ?_, by decide +kernel⟩
  obtain ⟨_, h⟩ := chan_world (rs := []) (ln := Lane.reset) h
  cases h
  exact ⟨by decide +kernel, nofun⟩

theorem test_witness_SpliceOutTakesChannels_leave :
    findRec ⟨3, 77⟩ sAir = some onAirRec ∧ (plc .onAir (some 5)).state = .onAir
      ∧ (plc .laned (some 5)).state ≠ .onAir ∧ (∀ x ∈ sAir.avails, x.key = ⟨3, 77⟩ → x = onAirRec)
      ∧ sAir.channels.get 9 = some chAir ∧ chAir.drawsFor ≠ none := by decide +kernel

/-- Channel 9 reads lane 5, its VIDEO cursor at the one packet there. -/
def readLane : Lane :=
  { airLane with readers := [{ chan := 9, cursors := { PerRole.all none with video := some 0 }, dry := false, starve := none }] }

theorem test_witness_SlotsAndFollow :
    sAir.channels.get 9 = some chAir ∧ Lane.reset.cfg.pid .audio2 = none ∧ airLane.cfg.pid .video ≠ none
      ∧ (readLane.reader 9).bind (fun r => r.cursors.get .video) = some 0
      ∧ readLane.buffer = [] ++ ⟨0, .role .video (some 1200000), plainPacket⟩ :: []
      ∧ (∀ b ∈ readLane.buffer, b.isRole .video = true → b.seq < 1) ∧ 0 ≤ 0
      ∧ ({ netRole with switched := false } : RoleState).switched = false := by decide +kernel

/-- Channel 9 takes from lane 5, where an end-of-segment packet follows the one video packet, and its reader was dry. -/
def endLane : Lane :=
  { readLane with
    buffer := [⟨0, .role .video none, plainPacket⟩, ⟨1, .eos, plainPacket⟩], nextSeq := 2
    readers := [{ chan := 9, cursors := { PerRole.all none with video := some 0 }, dry := true, starve := some 0 }] }

theorem test_witness_SlotsAndFollow_taken :
    let s := world [onAirRec] (some chAir) endLane
    let t := slot 2 9 .video 5 svcA chAir chAir.roles.video 0x200 s
    isStanding s 5 = false ∧ (∀ a ∈ ([] : List BufPkt), a.isRole .video = true → a.seq < 0)
      ∧ (endLane.buffer.find? fun a => a.isRole .video && decide (0 < a.seq)) = none
      ∧ (∃ a ∈ endLane.buffer, a.cls = .eos ∧ 0 ≤ a.seq ∧ a.seq < 2)
      ∧ ((t.lanes.get 5).reader 9).map (fun r => (r.cursors.video, r.dry, r.starve)) = some (some 2, false, none)
      ∧ chAir.drawsFor.isSome = true
      ∧ (t.channels.get 9).bind (fun c => c.pending) = some ⟨.network, .asked, some .played⟩
      ∧ isStanding (named 5 s) 5 = true := by decide +kernel

theorem test_witness_SlotsAndFollow_dry :
    let spent : Lane := { readLane with readers := readLane.readers.map fun r => { r with cursors.video := some 1 } }
    let t := slot 2 9 .video 5 svcA chAir netRole 0x200 (world [onAirRec] (some chAir) spent)
    (spent.reader 9).bind (fun r => r.cursors.get .video) = some 1 ∧ (spent.reader 9).map (fun r => r.dry) = some false
      ∧ (∀ b ∈ spent.buffer, b.isRole .video = true → b.seq < 1) ∧ (t.ports.get 2).out = [nullPacket]
      ∧ ((t.lanes.get 5).reader 9).map (fun r => (r.dry, r.starve)) = some (true, some 0) := by decide +kernel

theorem test_witness_SlotsAndFollow_governed :
    let muted : Channel := { chNet with roles := PerRole.all { netRole with source := .muted } }
    (chAir.roles.get .video).source = .lane 5 ∧ (chNet.roles.get .video).source = .network
      ∧ (muted.roles.get .video).source = .muted
      ∧ ((govern 2 9 .video svcA plainPacket (world [] (some muted) Lane.reset)).ports.get 2).out = [nullPacket]
      ∧ followsAt muted (muted.roles.get .video) plainPacket = false
      ∧ followsAt { chAir with followDue := true } { netRole with switched := false } plainPacket = true
      ∧ (networkCc netRole true 4).1 = some 4 ∧ (networkCc netRole true 3).1 = none := by decide +kernel

/-! ## Retested placements (R42, R59) -/

/-- As `rival none`, with a second placement of record (3, 77) LANED on lane 9. -/
def pair : State :=
  { rival none with
    avails := (rival none).avails.map fun r =>
      if r.key = ⟨3, 77⟩ then { r with placements := r.placements ++ [plc .laned (some 9)] } else r
    lanes := (rival none).lanes.set 9 { openLane with bound := some ⟨⟨3, 77⟩, 1⟩ } }

theorem test_witness_AvailAmendChangesRecord_stages :
    findRec ⟨3, 77⟩ pair = some (recA .armed [{ plc .laned (some 5) with lane := none }, plc .laned (some 9)])
      ∧ (pair.avails.map fun q => q.key).Nodup
      ∧ passesGuard pair ⟨⟨3, 77⟩, 0⟩ 1300000 1 = false ∧ passesGuard pair ⟨⟨3, 77⟩, 1⟩ 1300000 2 = true
      ∧ ((after (.availAmend 1 { amendArgs 1 with time := some (1, 1300000), placements := none }) pair).avails.map
        fun r => r.placements.map fun q => q.bound) = [[some 0, some 9], [some 6]] := by decide +kernel

theorem test_witness_CuesOnKnownRecords_stages :
    ((takeCue 3 svcA (cueA .insert (some 1300000)) pair).avails.map fun r => r.placements.map fun q => q.bound)
      = [[some 0, some 9], [some 6]]
      ∧ ((takeCue 3 svcA (cueA .insert (some 1300000)) pair).lanes.get 5).state = .closing := by decide +kernel

/-! ## LANE_SET's fields (R68) -/

/-- Every field of LANE_SET, with AUDIO1 absent. -/
def fullLane : LaneSetArgs :=
  { lane := 6, pids := ⟨some 0x400, some 0xFFFF, some 0x402, some 0x403⟩, pcrPid := some 0x402, preroll := some 70
    eos := some (0x500, 7), openTimeout := some 90 }

def bareLane : LaneSetArgs :=
  { lane := 6, pids := PerRole.all none, pcrPid := none, preroll := none, eos := none, openTimeout := none }

theorem test_witness_LaneSetAndClose_fields :
    canServe (.laneSet 1 fullLane) sSvc = true ∧ canServe (.laneSet 1 bareLane) sSvc = true
      ∧ ((after (.laneSet 1 bareLane) sSvc).lanes.get 6).cfg = LaneCfg.reset
      ∧ ((after (.laneSet 1 fullLane) sSvc).lanes.get 6).cfg =
        ⟨0x400, none, some 0x402, some 0x403, 0x402, 70, some (0x500, 7), 100⟩
      ∧ ((after (.laneSet 1 { fullLane with eos := some (0xFFFF, 7) }) sSvc).lanes.get 6).cfg.eos = none := by
  decide +kernel

theorem test_witness_LaneSetAndClose_refused :
    [{ bareLane with lane := 16 }, { bareLane with pids := ⟨some 0x1FFF, none, none, none⟩ },
      { bareLane with pcrPid := some 0x1FFF }, { bareLane with pids := ⟨none, none, some 0x1FFF, none⟩ },
      { bareLane with eos := some (0x1FFF, 0) }, { bareLane with pids := ⟨none, none, none, some 0x100⟩ },
      { bareLane with pcrPid := some 0x102 }, { bareLane with eos := some (0x101, 0) }].all
      (fun a => reply (after (.laneSet 1 a) sSvc) == some (.badArg, [])) = true := by decide +kernel

/-! ## Timers of lanes (R77, R82) -/

/-- Record (3, 77) with its one placement LANED on lane 5 in OPENING. -/
def sLast : State := world [recA .armed [plc .laned (some 5)], { passed with key := ⟨3, 78⟩ }] (some chNet) openLane

theorem test_witness_LaneTimers_last :
    findRec ⟨3, 77⟩ sLast = some (recA .armed [plc .laned (some 5)]) ∧ (sLast.avails.map fun r => r.key).Nodup
      ∧ (sLast.lanes.get 5).state = .opening ∧ (sLast.lanes.get 5).openStart = some 0
      ∧ (sLast.lanes.get 5).bound = some ⟨⟨3, 77⟩, 0⟩ ∧ sLast.mask.getLsbD 1 = true
      ∧ (∀ x ∈ sLast.avails, x.key.svc = 3 → x.key ≠ ⟨3, 77⟩ → ∃ q ∈ x.placements, q.state ≠ .done)
      ∧ (after (.openTimeout 5) sLast).avails = [{ passed with key := ⟨3, 78⟩ }]
      ∧ (((after (.openTimeout 5) sLast).services.get 3).bind fun v => v.last.map fun o => o.placements)
        = some [(.laneFault, false)] := by decide +kernel

theorem test_witness_LaneTimers_faulted :
    let s := world [onAirRec] (some chAir) { airLane with faulted := true }
    ((s.lanes.get 5).reader 9).map (fun r => r.starve) = some (some 0) ∧ (s.lanes.get 5).faulted = true
      ∧ (((after (.starvation 5 9) s).lanes.get 5).reader 9).map (fun r => r.starve) = some none
      ∧ (after (.starvation 5 9) s).channels = s.channels := by decide +kernel

/-! ## The follow and the lanes (R80, R121, R122) -/

/-- Channel 9 with its video on lane 5 and its audio still on NETWORK. -/
def chUp : Channel := { chAir with roles := { chAir.roles with audio1 := { netRole with switched := false } } }

theorem test_witness_SlotsAndFollow_onto :
    let s (ln : Lane) : State := world [onAirRec] (some chUp) ln
    chUp.lane = some 5 ∧ (chUp.roles.get .audio1).source = .network ∧ airLane.cfg.pid .audio1 ≠ none
      ∧ airLane.cfg.pid .audio2 = none ∧ (chUp.roles.get .audio2).source ≠ .lane 5
      ∧ (((follow 9 .audio1 (s readLane)).lanes.get 5).reader 9).map (fun r => r.cursors.audio1) = some (some 0)
      ∧ (((follow 9 .audio2 (s readLane)).lanes.get 5).reader 9).map (fun r => r.cursors.audio2) = some none
      ∧ ({ readLane with entry := none } : Lane).entry = none
      ∧ draws (s readLane) 5 9 .audio1 = true ∧ draws (s readLane) 5 9 .audio2 = false := by decide +kernel

theorem test_witness_SlotsAndFollow_off :
    let s (ch : Channel) : State := world [onAirRec] (some ch) readLane
    let both : Channel := { chBack with roles := { chBack.roles with audio2 := { netRole with source := .lane 5 } } }
    let free : Channel := { chBack with departing := some ⟨5, some (.alert 2), none⟩ }
    (chBack.roles.get .audio1).source = .lane 5 ∧ chBack.lane = none
      ∧ (∀ y ∈ Role.every, y ≠ .audio1 → (chBack.roles.get y).source ≠ .lane 5)
      ∧ (both.roles.get .audio2).source = .lane 5 ∧ Role.audio2 ≠ .audio1
      ∧ ((follow 9 .audio1 (s chBack)).lanes.get 5).state = .closing
      ∧ ((follow 9 .audio1 (s chBack)).avails.map fun r => r.placements.map fun q => q.outcome) = [[some .played]]
      ∧ ((follow 9 .audio1 (s both)).lanes.get 5).state = .onAir
      ∧ (follow 9 .audio1 (s free)).avails = [onAirRec] := by decide +kernel

theorem test_witness_SlotsAndFollow_freed :
    let ln : Lane :=
      { readLane with
        buffer := [⟨0, .role .video (some 8), rapPacket⟩, ⟨1, .eos, plainPacket⟩, ⟨2, .role .video (some 7), rapPacket⟩]
        readers := readLane.readers.map fun r => { r with cursors.video := some 2 }, nextSeq := 3 }
    let kept : Lane := { ln with entry := some 2 }
    let gone : Lane := { ln with buffer := ln.buffer.take 2 }
    ln.readers ≠ [] ∧ ln.entry = some 0 ∧ Lane.reset.readers = []
      ∧ ((ln.free (fun _ _ => true) false).buffer.map fun b => b.seq) = [2]
      ∧ (ln.free (fun _ _ => true) false).entry = some 0 ∧ (kept.free (fun _ _ => true) true).entry = some 2
      ∧ (ln.free (fun _ _ => true) true).entry = some 2 ∧ (ln.free (fun _ _ => true) true).lpts = some 7
      ∧ (gone.free (fun _ _ => true) true).entry = none := by decide +kernel

/-! ## A whole beat (R118, R129) -/

/-- Channel 9 waits for its splice-out; channel 10 is on lane 7 for record (3, 80), whose return target is 1 200 050. -/
def sBoth : State :=
  { sArmed with
    avails := sArmed.avails ++ [{ onAirRec with key := ⟨3, 80⟩, placements := [plc .onAir (some 7)] }]
    channels := sArmed.channels.set 10 (some { chAir with
      port := 1, holder := some (.placement ⟨⟨3, 80⟩, 0⟩), ret := some 1200050
      roles := { chAir.roles with video := { netRole with source := .lane 7 }, audio1 := netRole } })
    lanes := sArmed.lanes.set 7 { airLane with
      bound := some ⟨⟨3, 80⟩, 0⟩, readers := airLane.readers.map fun r => { r with chan := 10 } } }

/-- Where the video of channels 9 and 10 is after a beat. -/
def drawn (p : Time) (s : State) : Option (Option PRef) × Option (Option PRef) :=
  ((beat 3 p s).channels.get 9 |>.map Channel.drawsFor, (beat 3 p s).channels.get 10 |>.map Channel.drawsFor)

theorem test_witness_SpliceOutTakesChannels_triggers :
    sBoth.services.get 3 = some svcA
      ∧ drawn 1200100 sBoth = (some (some ⟨⟨3, 77⟩, 0⟩), some none)
      ∧ drawn 1200010 sBoth = (some (some ⟨⟨3, 77⟩, 0⟩), some (some ⟨⟨3, 80⟩, 0⟩))
      ∧ drawn 1209010 sBoth = (some none, some none)
      ∧ drawn 1190000 sBoth = (some none, some (some ⟨⟨3, 80⟩, 0⟩)) := by decide +kernel

theorem test_witness_SpliceOutTakesChannels_beat :
    let s := { sArmed with zones := sArmed.zones.set 2 { Zone.reset with locked := true } }
    (∀ c, c ∈ [(9 : Fin 128)] ↔ ∃ ch, s.channels.get c = some ch ∧ ch.service = 3)
      ∧ [(9 : Fin 128)].Pairwise (fun c d => c.val < d.val) ∧ (s.avails.map fun a => a.key).Nodup
      ∧ (s.zones.get 2).locked = true ∧ (sArmed.zones.get 2).locked = false
      ∧ (beat 3 1200100 s).channels.get 9 = (switchChannel 1200100 none 9 s).channels.get 9 := by
  refine ⟨fun c => ⟨fun h => ?_, fun ⟨ch, h, _⟩ => ?_⟩, by decide +kernel⟩
  · cases List.mem_singleton.mp h
    exact ⟨chNet, by decide +kernel⟩
  · obtain ⟨rfl, _⟩ := chan_world (rs := sArmed.avails) (ln := spliceLane) h
    exact List.mem_singleton_self _

theorem test_witness_VideoTakesTarget_beat :
    sArmed.services.get 3 = some svcA
      ∧ (∀ r ∈ sArmed.avails, r.e = some 1200000) ∧ 4294967296 ≤ Machine.dist 1199999 1200000
      ∧ (∀ r ∈ sAir.avails, r.state ≠ .armed) ∧ [(9 : Fin 128)] = [] ++ 9 :: []
      ∧ (beat 3 1290000 sAir).channels.get 9 = (switchChannel 1290000 none 9 sAir).channels.get 9
      ∧ ((beat 3 1290000 sAir).channels.get 9).map (fun c => c.lane) = some none := by decide +kernel

/-! ## What ports and roles remember (R114, R125, R135) -/

/-- What port 2 remembers of a PID after a packet. -/
def remembered (pk : Packet) (pid : Nat) : Option (BitVec 4) :=
  contRead ((after (.networkPacket 1 pk) sNet).ports.get 2).cont pid

theorem test_witness_EveryPortEmitsOnePacket_memory :
    remembered { plainPacket with cc := 6 } 0x100 = some 6 ∧ remembered plainPacket 0x101 = none
      ∧ remembered { plainPacket with pid := 0x1FFF } 0x1FFF = none
      ∧ remembered { plainPacket with payload := none } 0x100 = none
      ∧ remembered { plainPacket with pid := 0x200 } 0x200 = some 4 := by decide +kernel

theorem test_witness_ResetStreamsReleasesStreams_roles :
    canServe (.resetStreams 1) sAir = true ∧ sAir.channels.get 9 = some chAir ∧ chAir.roles.video.lastCc = some 3
      ∧ ((after (.resetStreams 1) sAir).channels.get 9).map (fun ch => networkCc ch.roles.video true 9) =
        some (some 4, { netRole with lastCc := some 4, ccDelta := 11 }) := by decide +kernel

/-! ## Lanes handed back at a time update (R31, R85) -/

/-- Lane 5 after a time update that finds the window of the record bound to it passed. -/
def missedOn (ln : Lane) : Lane :=
  let s := world [{ recA .armed [plc .laned (some 5)] with e := some 990990 }] (some chNet) ln
  (treatRecord svcA 1000000 true ⟨3, 77⟩ s).lanes.get 5

theorem test_witness_PendingRecordsAtTimeUpdate_lanes :
    openLane.bound = some ⟨⟨3, 77⟩, 0⟩ ∧ openLane.state = .opening
      ∧ (findRec ⟨3, 77⟩ sOpen).bind (fun r => r.placements[0]?) = some (plc .laned (some 5))
      ∧ stands 990990 = (true, false, true) ∧ (missedOn openLane).state = .closing
      ∧ (missedOn openLane).bound = none ∧ (missedOn openLane).closeStart = some 0
      ∧ missedOn { openLane with state := .onAir } = { openLane with state := .onAir, bound := none } := by
  decide +kernel

/-! ## Bodies byte by byte (R189, R190) -/

theorem test_layout_record :
    availBody sPend (recA .pending [plc .waiting none]) =
      [3, 0, 0, 0, 77, 1, 1, 3, 0x13, 0, 0, 0x12, 0x4F, 0x80, 0, 1, 0x5F, 0x90, 0xFF, 0xFF, 0xFF, 0xFF, 0xFF,
        0, 0, 0, 0, 0xFF, 0xFF, 0xFF, 0xFF, 0xFF, 0, 0, 3, 0x0D, 0x40, 1, 4, 5, 0, 0xFF, 1, 0xFF, 0, 0xFF, 0]
      ∧ (serviceEntry 3 svcA).drop 36 = [0, 0, 0, 150, 1, 4, 5, 0, 1, 4, 5, 0, 1, 4, 5, 0, 1, 4, 5, 0] := by
  decide +kernel

theorem test_layout_lane :
    laneConfig 5 LaneCfg.reset =
      [5, 1, 0, 1, 1, 0xFF, 0xFF, 0xFF, 0xFF, 1, 0, 0, 0, 2, 0, 0xFF, 0xFF, 0, 0, 0, 0x0B, 0xB8]
      ∧ bindingBytes sAir 5 = [1, 3, 0, 0, 0, 77, 0] ∧ bindingBytes (named 6 sAir) 6 = [2, 0, 0, 0, 0, 0, 0]
      ∧ bindingBytes sAir 6 = [0, 0, 0, 0, 0, 0, 0] ∧ namingBits (named 6 sAir) 6 = 4 := by decide +kernel

theorem test_layout_channel :
    sAir.channels.get 9 = some chAir ∧ channelEntry 9 chNet = [9, 3, 2, 1]
      ∧ chNet.stateByte (chanHas sNet 9) = 0 ∧ chUp.stateByte (chanHas sNet 9) = 1
      ∧ channelLive sAir 9 chAir =
        [1, 5, 1, 3, 0, 0, 0, 77, 0, 0xFF, 0, 0, 0, 0, 0, 0, 0, 0xFF, 0, 0, 0, 0, 0, 2, 0, 0, 0x12, 0x4F, 0x80, 0,
          5, 1, 0, 3, 5, 1, 0, 3, 0x10, 1, 0, 3, 0x10, 1, 0, 3, 0, 0xFF, 0, 0, 0, 0, 0, 0, 0, 0xFF,
          0, 0, 0x13, 0xAF, 0x10, 0xFF, 0xFF, 0xFF, 0xFF, 0xFF] := by decide +kernel

theorem test_layout_alert_tally :
    alertConfig 2 (Alert.reset 2) = [2, 0, 0, 1, 0, 1, 1, 0, 0, 0, 0, 0, 0, 0, 0, 0xFF, 2]
      ∧ alertSnapshot State.reset 2 (Alert.reset 2) = [0, 0xFF, 0xFF, 0xFF, 0xFF, 0xFF, 0xFF, 0, 0, 0, 0, 0, 0, 0, 0]
      ∧ tallyConfig 3 Tally.reset = [3, 0, 0xFE, 0, 0, 0, 0, 1, 0, 0, 0, 0, 0, 0, 0, 10, 0, 0, 0, 20, 0]
      ∧ tallyLive 0 State.reset.alerts Tally.reset = [0, 0, 0, 0, 0, 0, 0, 0xFF, 0, 0, 0xFF] := by decide +kernel

/-! ## Invariants -/

theorem test_witness_StepKeeps :
    step { sOpen with pending := [.attnGapEnd] } = .next (live gapEnd sOpen) ∧ LanesOk sOpen ∧ MemoriesOk sOpen
      ∧ AttentionOk raised ∧ GapOk (after (.poll 1) raised) ∧ TableOk sOpen := by
  refine ⟨rfl, ?_, ?_, ?_, ?_, tableOk_one _ _ _ rfl⟩
  · unfold LanesOk Lane.ok
    decide +kernel
  · unfold MemoriesOk
    decide +kernel
  · unfold AttentionOk
    decide +kernel
  · unfold GapOk
    decide +kernel

theorem test_witness_StepKeepsServicesAndChannels : PidsOk sAir ∧ TimebasesOk sAir ∧ ChannelsOk sAir := by
  refine ⟨pidsOk_world _ _ _, timebasesOk_world _ _ _, fun c ch h => ?_, fun c d ch dh h h' _ _ =>
    (chan_world h).1.trans (chan_world h').1.symm⟩
  obtain ⟨_, h⟩ := chan_world h
  cases h
  exact ⟨svcA, by decide +kernel, by decide +kernel⟩

/-- Alerts 2 and 3 ACTIVE on zone 2, activated in the same millisecond, 3 first; each with its priority. -/
def contested (p₂ p₃ : Nat) : State :=
  let on (a : Fin 16) (priority seq : Nat) : Alert :=
    { Alert.reset a with
      enabled := true, state := .active, priority := priority, zones := 0x04, stamp := some 9, seq := seq }
  { sNet with alerts := (sNet.alerts.set 2 (on 2 p₂ 1)).set 3 (on 3 p₃ 0), activations := 2 }

theorem test_witness_StepKeepsAlertCoverage :
    AlertsOk qualifying ∧ CoverageOk qualifying ∧ ActivationsOk (contested 4 4) ∧ AlertsOk (contested 4 4) := by
  refine ⟨?_, ?_, ?_, ?_⟩
  · unfold AlertsOk Alert.ok
    decide +kernel
  · unfold CoverageOk
    decide +kernel
  · unfold ActivationsOk
    decide +kernel
  · unfold AlertsOk Alert.ok
    decide +kernel

theorem test_best_cover :
    bestCover (contested 4 4) 2 = some 3 ∧ bestCover (contested 5 4) 2 = some 2 ∧ bestCover (contested 4 5) 2 = some 3
      ∧ bestCover (contested 4 4) 3 = none := by decide +kernel

/-! ## The tables that statements spell out -/

theorem test_body_lengths :
    bodyLengthOk 0x04 [3, 0, 0] = true ∧ bodyLengthOk 0x04 [3, 0, 1, 4, 5, 0] = true
      ∧ bodyLengthOk 0x04 [3, 0, 1, 4, 5] = false ∧ bodyLengthOk 0x43 (List.replicate 15 0) = true
      ∧ bodyLengthOk 0x43 ([2, 1, 7, 1] ++ List.replicate 13 0) = true ∧ bodyLengthOk 0x02 [] = false
      ∧ kindKnown 0x01 = true ∧ kindKnown 0x71 = true ∧ kindKnown 0x06 = false ∧ kindKnown 0x00 = false := by
  decide +kernel

/-- The end-of-segment packet of PID 0x333 with code 0x09, and a cut header on the VIDEO PID. -/
theorem test_classify :
    let cfg : LaneCfg := { openLane.cfg with eos := some (0x333, 9) }
    let ends : Packet := { plainPacket with pid := 0x333, pusi := true }
    let cut : Packet := { rapPacket with payload := some (.pes ⟨.whole 45000, .cut⟩ []) }
    classify false cfg { rapPacket with tei := true } = none
      ∧ classify false cfg rapPacket = some (.role .video (some 45000))
      ∧ classify false cfg cut = some (.role .video none)
      ∧ classify false cfg { plainPacket with pid := 0x101 } = some (.role .audio1 none)
      ∧ classify false cfg ends = some .eos ∧ classify true cfg ends = none
      ∧ classify false cfg { ends with payload := some (.bytes [8]) } = none
      ∧ classify false cfg { ends with pusi := false } = none
      ∧ classify false { cfg with eos := some (0x333, 0) } { ends with payload := some (.pes ⟨.absent, .absent⟩ []) }
        = some .eos := by decide +kernel

/-- Two terms on flags 0 and 1, of which the first is met, and with flag 1 high the second. -/
theorem test_condition :
    let r (c : Combine) : Alert := { Alert.reset 2 with terms := [(.flag 0, true), (.flag 1, true)], combine := c }
    let both : State := { flagged with rflags := flagged.rflags.set 1 true }
    condition flagged (r .all) = false ∧ condition flagged (r .any) = true ∧ condition flagged (r .odd) = true
      ∧ condition both (r .all) = true ∧ condition both (r .any) = true ∧ condition both (r .odd) = false
      ∧ condition flagged { r .odd with terms := [(.flag 1, false)] } = true
      ∧ condition State.reset (r .any) = false := by decide +kernel

theorem test_serving_kept_at_rest :
    let held (st : LaneState) (faulted : Bool) : State := world [] none { filled st 1 true with faulted := faulted }
    isServing (named 5 (held .ready false)) 5 = true ∧ isServing (named 5 (held .onAir false)) 5 = true
      ∧ isServing (named 5 (held .ready true)) 5 = false ∧ isServing (named 5 (held .opening false)) 5 = false
      ∧ isServing (held .ready false) 5 = false
      ∧ isKeptOpen (held .ready false) 5 = true ∧ isKeptOpen (named 5 (held .ready false)) 5 = false
      ∧ isKeptOpen (held .onAir false) 5 = false
      ∧ ({ chNet with pending := some ⟨.network, .coverage, none⟩ } : Channel).atRest = false
      ∧ ({ chNet with departing := some ⟨5, none, none⟩ } : Channel).atRest = false
      ∧ ({ chAir with holder := some (.alert 2) } : Channel).drawsFor = none := by decide +kernel

/-- A video that goes back to NETWORK, and its audio that follows it there, rejoin; one that stays does not. -/
theorem test_rejoin :
    let back (ch : Channel) : Channel := ch.takeTarget 0 (fun _ => true) .network none 1200000 none
    (back chAir).roles.video = { chAir.roles.video with source := .network, rejoin := true }
      ∧ (back chNet).roles.video.rejoin = false
      ∧ (Channel.takeTarget 0 (fun _ => true) (.lane 5 (.alert 2)) (some 0) 0 none (back chAir)).roles.video.rejoin
        = false
      ∧ ((follow 9 .audio1 (world [onAirRec] (some chBack) readLane)).channels.get 9).map (fun c => c.roles.audio1)
        = some { chBack.roles.audio1 with source := .network, switched := true, rejoin := true } := by decide +kernel

/-- A REPEAT rise in FINISHING with a delay, and then the end of the pulse in progress. -/
theorem test_witness_TallyTrains_delay :
    let risen := followed { pulsing with mode := .repeating, phase := .finishing, delay := 3 } .idle .active
    risen.phase = .delay ∧ risen.pulses = [100]
      ∧ ((after (.tallyPulseEnd 0) (withTally risen)).tallies.get 0) = { risen with pulses := [] }
      ∧ ({ pulsing with mode := .repeating, phase := .idle } : Tally).pulses = [100] := by decide +kernel

end Sys2Proof.Tests
end

section
/-! SUPPORT. Network cues (chapter 3): reading a cue section (R49 to R51, R192) and an INSERT whose key is not in the
table (R52 to R55). -/

namespace Sys2Proof.Proofs.NetworkCues

open Sys2Proof.Machine

/-! ## Fields at an offset (R187) -/

theorem natBe_concat (bs : List Byte) (b : Byte) : natBe (bs ++ [b]) = natBe bs * 256 + b.toNat := by
  simp [natBe]

/-- The low bytes of a value end in its lowest byte. -/
theorem be_succ_concat (k n : Nat) : be (k + 1) n = be k (n / 256) ++ [BitVec.ofNat 8 n] := by
  induction k with
  | zero => simp [be]
  | succ k ih =>
    rw [be, ih, be, List.cons_append, Nat.div_div_eq_div_mul, Nat.pow_succ']

theorem natBe_be (k n : Nat) : natBe (be k n) = n % 256 ^ k := by
  induction k generalizing n with
  | zero => simp [be, natBe, Nat.mod_one]
  | succ k ih =>
    rw [be_succ_concat, natBe_concat, ih, Nat.pow_succ', Nat.mod_mul, BitVec.toNat_ofNat, Nat.add_comm,
      Nat.mul_comm]

/-- A value laid out after `pre` is what the field behind `pre` holds. -/
theorem fieldAt_be {pre post : List Byte} {i k n : Nat} (at_i : pre.length = i) (fits : n < 256 ^ k) :
    fieldAt (pre ++ (be k n ++ post)) i k = n := by
  rw [fieldAt, List.drop_left' at_i, List.take_left' (length_be k n), natBe_be, Nat.mod_eq_of_lt fits]

/-! ## The checks of R50, and the cue of a section that passes them -/

/-- The splice time stands before the duration (R192). -/
def durationOffset (bs : List Byte) : Nat := if (byteAt bs 7).getLsbD 7 then 13 else 8

/-- Every check of R50 is passed, the kind being `k`. -/
structure SectionPasses (k : CueKind) (bs : List Byte) : Prop where
  marker : bs.head? = some 0xC7#8
  fits : 2 ≤ bs.length ∧ 2 + (byteAt bs 1).toNat ≤ bs.length
  crc : (crc32 (bs.take ((byteAt bs 1).toNat - 2))).toNat = fieldAt bs ((byteAt bs 1).toNat - 2) 4
  kind : CueKind.ofByte (byteAt bs 2) = some k
  length : (byteAt bs 1).toNat = cueLength ((byteAt bs 7).getLsbD 7) ((byteAt bs 7).getLsbD 6)
  duration : (byteAt bs 7).getLsbD 6 = true → BitVec.ofNat 32 (fieldAt bs (durationOffset bs) 4) ≠ 0

/-- The fields of a section, read at their places (R192). -/
def cueAt (k : CueKind) (bs : List Byte) : Cue :=
  { kind := k, event := BitVec.ofNat 32 (fieldAt bs 3 4)
    cls := ⟨(byteAt bs 7).toNat % 4, Nat.mod_lt _ (by decide)⟩
    time := if (byteAt bs 7).getLsbD 7 then some (BitVec.ofNat 33 (fieldAt bs 8 5)) else none
    duration :=
      if (byteAt bs 7).getLsbD 6 then some (BitVec.ofNat 32 (fieldAt bs (durationOffset bs) 4)) else none }

theorem readCue_of_passes {k : CueKind} {bs : List Byte} (h : SectionPasses k bs) :
    readCue bs = some (cueAt k bs) := by
  obtain ⟨marker, ⟨two, whole⟩, crc, kind, length, duration⟩ := h
  have fits : ¬ (bs.length < 2 ∨ bs.length < 2 + (byteAt bs 1).toNat) := by omega
  have carried : ¬ ((byteAt bs 7).getLsbD 6 = true ∧ BitVec.ofNat 32 (fieldAt bs (durationOffset bs) 4) = 0) :=
    fun ⟨present, zero⟩ => duration present zero
  unfold durationOffset at carried
  simp only [readCue, kind]
  rw [if_neg (Decidable.not_not.mpr marker), if_neg fits, if_neg (Decidable.not_not.mpr crc),
    if_neg (Decidable.not_not.mpr length), if_neg carried]
  rfl

theorem passes_of_readCue {bs : List Byte} {c : Cue} (h : readCue bs = some c) :
    SectionPasses c.kind bs := by
  obtain ⟨marker, h⟩ := Option.ite_none_left_eq_some.mp h
  obtain ⟨fits, h⟩ := Option.ite_none_left_eq_some.mp h
  obtain ⟨crc, h⟩ := Option.ite_none_left_eq_some.mp h
  split at h
  · cases h
  · next k kind =>
    obtain ⟨length, h⟩ := Option.ite_none_left_eq_some.mp h
    obtain ⟨carried, h⟩ := Option.ite_none_left_eq_some.mp h
    cases h
    exact ⟨Decidable.not_not.mp marker, by omega, Decidable.not_not.mp crc, kind,
      Decidable.not_not.mp length, fun present zero => carried ⟨present, zero⟩⟩

/-! ## Kind and flag bytes (R192) -/

@[simp] theorem ofByte_kindByte (k : CueKind) : CueKind.ofByte k.byte = some k := by
  cases k <;> rfl

theorem ofByte_eq_some {b : Byte} {k : CueKind} (h : CueKind.ofByte b = some k) : b = 1 ∨ b = 2 ∨ b = 3 := by
  unfold CueKind.ofByte at h
  split at h
  · next one => exact .inl one
  · split at h
    · next two => exact .inr (.inl two)
    · exact .inr (.inr (Option.ite_none_right_eq_some.mp h).1)

/-- Time present, duration present and the break class, in one byte. -/
def flagByte (timed lasting : Bool) (cls : Fin 4) : Byte :=
  BitVec.ofNat 8 ((if timed then 128 else 0) + (if lasting then 64 else 0) + cls.val)

theorem flagByte_fields (timed lasting : Bool) (cls : Fin 4) :
    (flagByte timed lasting cls).getLsbD 7 = timed ∧ (flagByte timed lasting cls).getLsbD 6 = lasting
      ∧ (flagByte timed lasting cls).toNat % 4 = cls.val := by
  decide +revert

/-! ## A section and its fields -/

def timeBytes (c : Cue) : List Byte := c.time.elim [] fun t => be 5 t.toNat

def durationField (c : Cue) : List Byte := c.duration.elim [] fun d => be 4 d.toNat

theorem length_timeBytes (c : Cue) : (timeBytes c).length = if c.time.isSome then 5 else 0 := by
  unfold timeBytes
  cases c.time <;> simp

theorem length_durationField (c : Cue) : (durationField c).length = if c.duration.isSome then 4 else 0 := by
  unfold durationField
  cases c.duration <;> simp

/-- The eight bytes that every section begins with. -/
def cueStart (c : Cue) : List Byte :=
  [0xC7, BitVec.ofNat 8 (cueLength c.time.isSome c.duration.isSome), c.kind.byte] ++ be 4 c.event.toNat
    ++ [flagByte c.time.isSome c.duration.isSome c.cls]

/-- The section up to its CRC. -/
def cueHead (c : Cue) : List Byte := cueStart c ++ timeBytes c ++ durationField c

theorem cueSection_eq (c : Cue) : cueSection c = cueHead c ++ be 4 (crc32 (cueHead c)).toNat := by
  obtain ⟨kind, event, cls, time, duration⟩ := c
  cases time <;> cases duration <;> rfl

theorem length_cueHead (c : Cue) : (cueHead c).length + 2 = cueLength c.time.isSome c.duration.isSome := by
  simp only [cueHead, cueStart, List.length_append, length_timeBytes, length_durationField, length_be,
    List.length_cons, List.length_nil, cueLength]
  omega

theorem cueLength_lt (timed lasting : Bool) : cueLength timed lasting < 256 := by
  decide +revert

section
variable (c : Cue) (extra : List Byte)

theorem lengthByte_section :
    (byteAt (cueSection c ++ extra) 1).toNat = cueLength c.time.isSome c.duration.isSome := by
  rw [cueSection_eq]
  exact (BitVec.toNat_ofNat _ _).trans (Nat.mod_eq_of_lt (cueLength_lt _ _))

theorem kindByte_section : byteAt (cueSection c ++ extra) 2 = c.kind.byte := by
  rw [cueSection_eq]
  rfl

theorem flags_section : byteAt (cueSection c ++ extra) 7 = flagByte c.time.isSome c.duration.isSome c.cls := by
  rw [cueSection_eq]
  rfl

theorem event_section : fieldAt (cueSection c ++ extra) 3 4 = c.event.toNat := by
  simp only [cueSection_eq, cueHead, cueStart, List.append_assoc]
  exact fieldAt_be rfl c.event.isLt

theorem time_section {t : Time} (ht : c.time = some t) : fieldAt (cueSection c ++ extra) 8 5 = t.toNat := by
  have fits : t.toNat < 256 ^ 5 := Nat.lt_trans t.isLt (by decide)
  simp only [cueSection_eq, cueHead, timeBytes, ht, Option.elim_some, List.append_assoc]
  exact fieldAt_be rfl fits

theorem durationOffset_section : durationOffset (cueSection c ++ extra) = (cueStart c ++ timeBytes c).length := by
  rw [durationOffset, flags_section, (flagByte_fields _ _ _).1, List.length_append, length_timeBytes]
  cases c.time <;> rfl

theorem duration_section {d : BitVec 32} (hd : c.duration = some d) :
    fieldAt (cueSection c ++ extra) (durationOffset (cueSection c ++ extra)) 4 = d.toNat := by
  rw [durationOffset_section]
  simp only [cueSection_eq, cueHead, durationField, hd, Option.elim_some]
  rw [List.append_assoc, List.append_assoc]
  exact fieldAt_be rfl d.isLt

theorem crc_section :
    (crc32 ((cueSection c ++ extra).take (cueHead c).length)).toNat
      = fieldAt (cueSection c ++ extra) (cueHead c).length 4 := by
  rw [cueSection_eq, List.append_assoc, List.take_left, fieldAt_be rfl (crc32 (cueHead c)).isLt]

theorem section_passes (carried : c.duration ≠ some 0) : SectionPasses c.kind (cueSection c ++ extra) := by
  have head := length_cueHead c
  have crcAt : cueLength c.time.isSome c.duration.isSome - 2 = (cueHead c).length := by omega
  obtain ⟨timed, lasting, -⟩ := flagByte_fields c.time.isSome c.duration.isSome c.cls
  constructor
  case marker => rw [cueSection_eq]; rfl
  case fits =>
    rw [lengthByte_section, cueSection_eq]
    simp only [List.length_append, length_be]
    omega
  case crc => rw [lengthByte_section, crcAt, crc_section]
  case kind => rw [kindByte_section, ofByte_kindByte]
  case length => rw [lengthByte_section, flags_section, timed, lasting]
  case duration =>
    intro present zero
    rw [flags_section, lasting] at present
    obtain ⟨d, hd⟩ := Option.isSome_iff_exists.mp present
    rw [duration_section c extra hd, BitVec.ofNat_toNat, BitVec.setWidth_eq] at zero
    exact carried (zero ▸ hd)

theorem cueAt_section : cueAt c.kind (cueSection c ++ extra) = c := by
  obtain ⟨timed, lasting, cls⟩ := flagByte_fields c.time.isSome c.duration.isSome c.cls
  have time : (if c.time.isSome then some (BitVec.ofNat 33 (fieldAt (cueSection c ++ extra) 8 5)) else none)
      = c.time := by
    cases ht : c.time with
    | none => rfl
    | some t => simp [time_section c extra ht]
  have duration : (if c.duration.isSome then
        some (BitVec.ofNat 32 (fieldAt (cueSection c ++ extra) (durationOffset (cueSection c ++ extra)) 4))
      else none) = c.duration := by
    cases hd : c.duration with
    | none => rfl
    | some d => simp [duration_section c extra hd]
  simp only [cueAt, flags_section, timed, lasting, cls, event_section, time, duration, BitVec.ofNat_toNat,
    BitVec.setWidth_eq]

/-- A section reads back as its cue, whatever follows it (R192). -/
theorem readCue_section (carried : c.duration ≠ some 0) : readCue (cueSection c ++ extra) = some c := by
  rw [readCue_of_passes (section_passes c extra carried), cueAt_section]

end

/-! ## A packet on the cue PID (R49) -/

section
variable {i : Fin 64} {v : Service} {pk : Packet} {s : State}

theorem cuePacket_unread (h : pk.pusi = false ∨ pk.payload = none) : cuePacket i pk s = s := by
  unfold cuePacket
  split
  · next payload =>
    obtain h | h := h
    · simp [h]
    · simp [h] at payload
  · rfl

theorem cuePacket_read {b : List Byte} (defined : s.services.get i = some v) (start : pk.pusi = true)
    (payload : pk.payload = some (.bytes b)) :
    cuePacket i pk s = (readCue b).elim (raise (svcSource i) .cueCorrupt s) fun c => takeCue i v c s := by
  simp only [cuePacket, defined, payload, if_pos start, cueBytes]
  cases readCue b <;> rfl

end

/-- Settles O32: the round trip by the fields of a section at their places, the refusals by inverting `readCue`. -/
theorem cueSectionsRead : Obligations.CueSectionsRead := by
  refine ⟨fun c extra carried => readCue_section c extra carried, fun bs => ?_,
    fun i v pk s defined => ⟨cuePacket_unread, fun b start payload => ⟨fun corrupt => ?_, fun c valid => ?_⟩⟩⟩
  · intro n flags implied failed
    refine Option.eq_none_iff_forall_ne_some.mpr fun c valid => ?_
    obtain ⟨marker, fits, crc, kind, length, duration⟩ := passes_of_readCue valid
    obtain h | h | h | h | h | h | ⟨present, zero⟩ := failed
    · exact h marker
    · omega
    · exact absurd fits.2 (by unfold byteAt; omega)
    · exact h crc
    · obtain one | two | three := ofByte_eq_some kind
      · exact h.1 one
      · exact h.2.1 two
      · exact h.2.2 three
    · exact h length
    · exact duration present (congrArg (BitVec.ofNat 32) zero)
  · rw [cuePacket_read defined start payload, corrupt, Option.elim_none]
  · rw [cuePacket_read defined start payload, valid, Option.elim_some]

/-! ## An INSERT whose key is not in the table (R52 to R55) -/

section
variable {i : Fin 64} {v : Service} {c : Cue} {s : State}

theorem lateRepeat_iff :
    lateRepeat v c = true ↔ ∃ o, v.last = some o ∧ o.event = c.event
      ∧ (c.time = none ∨ ∃ x now, c.time = some x ∧ v.tb.t = some now
        ∧ isBehind (adjust x v.spliceAdjust) now = true) := by
  unfold lateRepeat cueE
  cases v.last with
  | none => simp
  | some o => cases c.time <;> cases v.tb.t <;> simp

theorem newE_timed {x : Time} (h : c.time = some x) : newE v c = some (adjust x v.spliceAdjust) := by
  simp [newE, cueE, h]

theorem newE_untimed (h : c.time = none) :
    newE v c = if v.tb.state = .locked then v.tb.t.map fun now => addTicks now v.immLead else none := by
  unfold newE cueE
  rw [h]
  cases v.tb.state <;> cases v.tb.t <;> rfl

theorem insertNew_late (h : lateRepeat v c = true) : insertNew i v c s = s := if_pos h

theorem insertNew_ignored (h : v.policy = .ignore) : insertNew i v c s = s := by
  rw [insertNew, if_pos h, ite_self]

section
variable (fresh : lateRepeat v c ≠ true) (heard : v.policy ≠ .ignore)
include fresh heard

theorem insertNew_dropped
    (h : v.templates.get c.cls = [] ∨ 512 ≤ s.avails.length ∨ 32 ≤ recCount s i ∨ newE v c = none) :
    insertNew i v c s = raise (svcSource i) .cueDropped s := by
  unfold insertNew
  rw [if_neg fresh, if_neg heard]
  obtain empty | full | full | noTime := h
  · rw [if_pos (List.isEmpty_iff.mpr empty)]
    rfl
  · rw [if_pos (Or.inl full), ite_self]
    rfl
  · rw [if_pos (Or.inr full), ite_self]
    rfl
  · simp only [noTime, ite_self]
    rfl

theorem insertNew_created (filled : v.templates.get c.cls ≠ []) (room : s.avails.length < 512)
    (share : recCount s i < 32) {e : Time} (he : newE v c = some e) :
    insertNew i v c s = createFromCue i v c e s := by
  have full : ¬ (512 ≤ s.avails.length ∨ 32 ≤ recCount s i) := by omega
  unfold insertNew
  rw [if_neg fresh, if_neg heard, if_neg (mt List.isEmpty_iff.mp filled), if_neg full, he]

end

/-- The record of R53, in the state its policy gives it. -/
def withCueRecord (i : Fin 64) (v : Service) (c : Cue) (e : Time) (st : AvailState) (s : State) : State :=
  addRecord ⟨i, c.event⟩ .network .fixed (some e) c.duration (v.templates.get c.cls) st s

theorem createFromCue_auto {e : Time} (h : v.policy = .auto) :
    createFromCue i v c e s = withCueRecord i v c e .pending s := by
  simp only [createFromCue, h, withCueRecord]

theorem createFromCue_hold {e : Time} (h : v.policy = .hold) :
    createFromCue i v c e s =
      deliverTrigger .cueHeld i (raise (svcSource i) .cueHeld (withCueRecord i v c e .held s)) := by
  simp only [createFromCue, h, withCueRecord]

end

theorem takeCue_insertNew {i : Fin 64} {v : Service} {c : Cue} {s : State} (kind : c.kind = .insert)
    (absent : findRec ⟨i, c.event⟩ s = none) : takeCue i v c s = insertNew i v c s := by
  simp only [takeCue, kind, absent]

/-- Settles O33, by the steps of R52 in their order. -/
theorem insertCueCreatesRecord : Obligations.InsertCueCreatesRecord := by
  intro i v c s kind absent adjusted late e
  have eNew : newE v c = e := by
    cases h : c.time with
    | some x => simp only [newE_timed h, e, h]; rfl
    | none => simp only [newE_untimed h, e, h]; rfl
  rw [takeCue_insertNew kind absent, ← eNew]
  have fresh (h : ¬ late) : lateRepeat v c ≠ true := mt lateRepeat_iff.mp h
  refine ⟨fun h => insertNew_late (lateRepeat_iff.mpr h), fun _ => insertNew_ignored, fun h heard =>
    ⟨insertNew_dropped (fresh h) heard, fun filled room share x hx => ?_⟩⟩
  rw [insertNew_created (fresh h) heard filled room share hx]
  exact ⟨createFromCue_auto, createFromCue_hold⟩

end Sys2Proof.Proofs.NetworkCues
end

section
/-! SUPPORT. A lane packet in a slot (section 5.4): what becomes of its timestamps, its payload, its PCR and its
adaptation field (R104 to R107, R123). -/

namespace Sys2Proof.Proofs.SpliceArithmetic

open Sys2Proof.Machine

/-! ## Timestamps and payload (R104) -/

section
variable {o : Time} {pk : Packet}

@[simp] theorem shiftStamp_whole (t : Time) : shiftStamp o (.whole t) = .whole (t + o) := rfl

@[simp] theorem shiftStamp_absent : shiftStamp o .absent = .absent := rfl

theorem headerCut_iff {h : PesHeader} {b : List Byte} (payload : pk.payload = some (.pes h b)) :
    headerCut pk = true ↔ h.pts = .cut ∨ h.dts = .cut := by
  simp [headerCut, payload]

theorem shiftPayload_header {h : PesHeader} {b : List Byte} (payload : pk.payload = some (.pes h b))
    (start : pk.pusi = true) (pts : h.pts ≠ .cut) (dts : h.dts ≠ .cut) :
    shiftPayload o pk = some (.pes ⟨shiftStamp o h.pts, shiftStamp o h.dts⟩ b) := by
  have uncut : ¬ headerCut pk = true := mt (headerCut_iff payload).mp (not_or.mpr ⟨pts, dts⟩)
  simp only [shiftPayload, start, payload, if_neg uncut]

theorem shiftPayload_cut (cut : headerCut pk = true) : shiftPayload o pk = pk.payload := by
  unfold shiftPayload
  split
  · exact if_pos cut
  · rfl

theorem shiftPayload_unread (h : pk.pusi = false ∨ ∀ h b, pk.payload ≠ some (.pes h b)) :
    shiftPayload o pk = pk.payload := by
  unfold shiftPayload
  split
  · next header start payload =>
    obtain unstarted | headless := h
    · exact absurd start (by simp [unstarted])
    · exact absurd payload (headless _ _)
  · rfl

end

/-! ## PCR (R105, R106) and the rest of the adaptation field (R107) -/

section
variable {o : Time} {a : Adaptation}

theorem shiftPcr_none {inComponent : Bool} (h : a.pcr = none) : shiftPcr inComponent o a = a := by
  simp only [shiftPcr, h]

theorem shiftPcr_kept {c : Pcr} (h : a.pcr = some c) :
    shiftPcr true o a = { a with pcr := some ⟨c.base + o, c.ext⟩ } := by
  simp only [shiftPcr, h, if_true]

theorem shiftPcr_removed {c : Pcr} (h : a.pcr = some c) :
    shiftPcr false o a = { a with pcr := none, rest := a.rest ++ List.replicate 6 0xFF } := by
  simp [shiftPcr, h]

/-- The flags, and the length of the field: six stuffing bytes make up for a PCR taken out (R106, R107). -/
theorem shiftPcr_frame (inComponent : Bool) (o : Time) (a : Adaptation) :
    (shiftPcr inComponent o a).discontinuity = a.discontinuity
      ∧ (shiftPcr inComponent o a).randomAccess = a.randomAccess
      ∧ (shiftPcr inComponent o a).others = a.others ∧ (shiftPcr inComponent o a).size = a.size := by
  cases h : a.pcr with
  | none => simp only [shiftPcr_none h, and_self]
  | some c =>
    cases inComponent with
    | true => simp [shiftPcr_kept h, Adaptation.size, h]
    | false => simp +arith [shiftPcr_removed h, Adaptation.size, h]

end

theorem rewrite_payload (inComponent : Bool) (o : Time) (pid : Pid) (pk : Packet) :
    (rewrite inComponent o pid pk).payload = shiftPayload o pk := rfl

theorem rewrite_af (inComponent : Bool) (o : Time) (pid : Pid) (pk : Packet) :
    (rewrite inComponent o pid pk).af = pk.af.map (shiftField inComponent o) := rfl

/-- Settles O37, field by field: the header's stamps by `shiftPayload`, the clock by `shiftPcr`. -/
theorem lanePacketRewritten : Obligations.LanePacketRewritten := by
  intro inComponent o pid pk out
  have payload : out.payload = shiftPayload o pk := rewrite_payload inComponent o pid pk
  have field : out.af = pk.af.map (shiftField inComponent o) := rewrite_af inComponent o pid pk
  refine ⟨rfl, rfl, rfl, rfl, rfl, rfl, fun h b pes => ⟨fun ⟨start, pts, dts⟩ => ?shifted, fun unread => ?received⟩,
    fun b bytes => ?bytes, fun none => ?noPayload, fun none => ?noField, fun empty => ?emptyField,
    fun a holds => ?adaptation⟩
  case shifted =>
    exact ⟨_, payload.trans (shiftPayload_header pes start pts dts),
      fun t whole => by simp [whole], fun absent => by simp [absent],
      fun t whole => by simp [whole], fun absent => by simp [absent]⟩
  case received =>
    rw [payload]
    obtain unstarted | cut := unread
    · exact shiftPayload_unread (.inl unstarted)
    · exact shiftPayload_cut ((headerCut_iff pes).mpr cut)
  case bytes => exact payload.trans (shiftPayload_unread (.inr (by simp [bytes])))
  case noPayload => exact payload.trans ((shiftPayload_unread (.inr (by simp [none]))).trans none)
  case noField => rw [field, none, Option.map_none]
  case emptyField => rw [field, empty, Option.map_some, shiftField]
  case adaptation =>
    obtain ⟨discontinuity, randomAccess, others, size⟩ := shiftPcr_frame inComponent o a
    refine ⟨shiftPcr inComponent o a, by rw [field, holds, Option.map_some, shiftField], discontinuity, randomAccess,
      others, size, shiftPcr_none, fun c pcr => ⟨?kept, ?removed⟩⟩
    case kept =>
      rintro rfl
      simp only [shiftPcr_kept pcr, and_self]
    case removed =>
      rintro rfl
      simp only [shiftPcr_removed pcr, and_self]

end Sys2Proof.Proofs.SpliceArithmetic
end

section
/-! SUPPORT. The alert records, the zones they cover and the order of their activations (sections 7.3 and 7.4): what
each operation of the Alert Unit keeps of them, and that every step keeps them (R144, R148). -/

namespace Sys2Proof.Proofs.AlertCoverage

open Sys2Proof.Machine

/-! ## What a step is to keep -/

/-- The alert records and the coverage stay in order from `s` to `t`, and so do the activations. -/
structure KeepsAlerts (s t : State) : Prop where
  covered : AlertsOk s → CoverageOk s → AlertsOk t ∧ CoverageOk t
  activations : ActivationsOk s → ActivationsOk t

theorem KeepsAlerts.refl (s : State) : KeepsAlerts s s := ⟨.intro, id⟩

theorem KeepsAlerts.trans {s t u : State} (h : KeepsAlerts s t) (k : KeepsAlerts t u) : KeepsAlerts s u :=
  ⟨fun ok cover => (h.covered ok cover).elim k.covered, fun act => k.activations (h.activations act)⟩

/-- `t` has the alert records and the coverage of `s`, and has activated none. -/
structure SameAlerts (s t : State) : Prop where
  alerts : t.alerts = s.alerts
  activations : t.activations = s.activations
  cover : ∀ z, (t.zones.get z).cover = (s.zones.get z).cover

theorem SameAlerts.keeps {s t : State} (h : SameAlerts s t) : KeepsAlerts s t where
  covered ok cover :=
    ⟨fun a => by rw [h.alerts]; exact ok a, fun z => by rw [h.cover, bestCover_of_alerts h.alerts]; exact cover z⟩
  activations act := act.congr h.alerts h.activations

/-- What leaves the Alert Unit's own fields as they are keeps all of it. -/
theorem keeps_of_same {s t : State} (ha : t.alerts = s.alerts) (hn : t.activations = s.activations)
    (hz : t.zones = s.zones) : KeepsAlerts s t :=
  SameAlerts.keeps ⟨ha, hn, fun z => by rw [hz]⟩

theorem keeps_of_streams {s t : State} (h : OnlyStreams s t) : KeepsAlerts s t :=
  keeps_of_same (by rw [h]) (by rw [h]) (by rw [h])

theorem keeps_of_cues {s t : State} (h : OnlyCues s t) : KeepsAlerts s t := keeps_of_streams h.streams

theorem keeps_updZone (z : Fin 8) {f : Zone → Zone} (h : ∀ q, (f q).cover = q.cover) (s : State) :
    KeepsAlerts s (updZone z f s) :=
  SameAlerts.keeps ⟨rfl, rfl, fun y => by
    rw [zones_updZone, Table.get_set]
    split
    · next e => rw [h, e]
    · rfl⟩

theorem keeps_raise (src : Fin 96) (k : Cause) (s : State) : KeepsAlerts s (raise src k s) :=
  keeps_of_cues (raise_only src k s).cues

theorem keeps_reachMs (n : Nat) (s : State) : KeepsAlerts s (reachMs n s) :=
  keeps_of_same (alerts_reachMs n s) (activations_reachMs n s) (zones_reachMs n s)

theorem keeps_reachCount (n : Nat) (s : State) : KeepsAlerts s (reachCount n s) :=
  keeps_of_same (alerts_reachCount n s) (activations_reachCount n s) (zones_reachCount n s)

theorem overFin_keepsAlerts {n : Nat} {f : Fin n → State → State} (h : ∀ i s, KeepsAlerts s (f i s)) (s : State) :
    KeepsAlerts s (overFin n f s) :=
  overFin_keeps (KeepsAlerts s) (fun i u k => k.trans (h i u)) (.refl s)

/-! ## Records covering no zone -/

theorem bestCover_none {s : State} (calm : ∀ a, (s.alerts.get a).capable = false) (z : Fin 8) :
    bestCover s z = none := by
  cases h : bestCover s z with
  | none => rfl
  | some a =>
    obtain ⟨may, -⟩ := (bestCover_spec s z).2 a h
    simp [mayCover, calm] at may

/-- With no record covering-capable, no zone is covered and no activation has a place. -/
theorem keeps_of_calm {s t : State} (ok : AlertsOk t) (calm : ∀ a, (t.alerts.get a).capable = false)
    (bare : ∀ z, (t.zones.get z).cover = none) : KeepsAlerts s t where
  covered _ _ := ⟨ok, fun z => by rw [bare, bestCover_none calm]⟩
  activations _ := ⟨fun a h => by simp [calm] at h, fun a _ _ h => by simp [calm] at h⟩

theorem fullReset_keeps (low : Bool) (s : State) : KeepsAlerts s { fullReset s with resetLow := low } := by
  have fresh (a : Fin 16) : ({ fullReset s with resetLow := low } : State).alerts.get a = Alert.reset a :=
    Table.get_ofFn Alert.reset a
  refine keeps_of_calm (fun a => ?_) (fun a => ?_) fun z => congrArg Zone.cover (Table.get_replicate Zone.reset z)
  · rw [fresh]; exact ⟨rfl, rfl, rfl, rfl⟩
  · rw [fresh]; rfl

/-! ## One record changes -/

/-- The covering record of a zone stays where the one record that changes may cover it as before, in the same order. -/
theorem bestCover_one {s t : State} {a : Fin 16} {z : Fin 8} (other : ∀ b, b ≠ a → t.alerts.get b = s.alerts.get b)
    (may : mayCover t z a = mayCover s z a)
    (order : mayCover s z a = true → coverOrder (t.alerts.get a) = coverOrder (s.alerts.get a)) :
    bestCover t z = bestCover s z := by
  refine bestCover_congr (fun i => ?_) fun i hi => ?_
  · by_cases e : i = a
    · rw [e, may]
    · unfold mayCover; rw [other i e]
  · by_cases e : i = a
    · rw [e] at hi ⊢; exact order hi
    · rw [other i e]

theorem alertsOk_one {s t : State} {a : Fin 16} (other : ∀ b, b ≠ a → t.alerts.get b = s.alerts.get b)
    (own : (t.alerts.get a).ok) (h : AlertsOk s) : AlertsOk t := fun b => by
  by_cases e : b = a
  · rw [e]; exact own
  · rw [other b e]; exact h b

/-- A record changes and may cover the zones as before: no coverage is to be evaluated. -/
theorem coverageOk_one {s t : State} {a : Fin 16} (other : ∀ b, b ≠ a → t.alerts.get b = s.alerts.get b)
    (hz : t.zones = s.zones) (may : ∀ z, mayCover t z a = mayCover s z a)
    (order : (s.alerts.get a).capable = true → coverOrder (t.alerts.get a) = coverOrder (s.alerts.get a))
    (h : CoverageOk s) : CoverageOk t := fun z => by
  rw [hz, h z, bestCover_one other (may z) fun m => order ?_]
  simp only [mayCover, Bool.and_eq_true] at m
  exact m.1

/-- A record changes, and the coverage of its zones is evaluated (R148). -/
theorem coverageOk_evalZones {s u : State} {a : Fin 16} (other : ∀ b, b ≠ a → u.alerts.get b = s.alerts.get b)
    (hz : u.zones = s.zones) (own : (u.alerts.get a).zones = (s.alerts.get a).zones) (h : CoverageOk s) :
    CoverageOk (evalZones (s.alerts.get a).zones u) := fun z => by
  obtain ⟨frame, spec⟩ := evalZones_spec (s.alerts.get a).zones u
  rw [bestCover_of_alerts frame.alerts]
  cases hin : zoneIn (s.alerts.get a).zones z with
  | true => exact (spec z).1 hin
  | false =>
    have out : mayCover s z a = false := by simp [mayCover, hin]
    have out' : mayCover u z a = false := by simp [mayCover, own, hin]
    rw [(spec z).2 hin, hz, h z, bestCover_one other (out'.trans out.symm) (by simp [out])]

/-! ## The operations on records -/

/-- What an entry to ACTIVE makes of the record (R144). -/
theorem enterActive_get (a : Fin 16) (s : State) :
    (enterActive a s).alerts.get a = { s.alerts.get a with
      state := .active, stamp := some (BitVec.ofNat 48 (nowMs s)), seq := s.activations, holdStart := none
      releaseStart := none } := by
  unfold enterActive
  dsimp only
  rw [(evalZones_spec _ _).1.alerts, alerts_raise, get_updAlert, if_pos rfl]

/-- What the end of an activation makes of the record (R145, R146). -/
theorem endAlert_get (after : AlertState) (a : Fin 16) (s : State) :
    (endAlert after a s).alerts.get a =
      { s.alerts.get a with state := after, stamp := none, releaseStart := none } := by
  unfold endAlert
  dsimp only
  rw [(evalZones_spec _ _).1.alerts, alerts_raise, get_updAlert, if_pos rfl]

theorem endAlert_other (after : AlertState) {a b : Fin 16} (h : b ≠ a) (s : State) :
    (endAlert after a s).alerts.get b = s.alerts.get b := by
  unfold endAlert
  dsimp only
  rw [(evalZones_spec _ _).1.alerts, alerts_raise, get_updAlert, if_neg (Ne.symm h)]

/-- A record changes but for its zones, raises a cause, and has the coverage of its zones evaluated. -/
theorem coverageOk_raised (a : Fin 16) {f : Alert → Alert} (k : Cause) {s : State}
    (own : (f (s.alerts.get a)).zones = (s.alerts.get a).zones) (h : CoverageOk s) :
    let u := raise (alertSource a) k (updAlert a f s)
    CoverageOk (evalZones (u.alerts.get a).zones u) := by
  have self : (raise (alertSource a) k (updAlert a f s)).alerts.get a = f (s.alerts.get a) := by
    rw [alerts_raise, get_updAlert, if_pos rfl]
  dsimp only
  rw [self, own]
  refine coverageOk_evalZones (fun b hb => ?_) (zones_raise _ _ _) (by rw [self, own]) h
  rw [alerts_raise, get_updAlert, if_neg (Ne.symm hb)]

theorem coverageOk_enterActive (a : Fin 16) {s : State} (h : CoverageOk s) : CoverageOk (enterActive a s) :=
  coverageOk_raised a .alertActive (s := { s with activations := s.activations + 1 }) rfl h

theorem coverageOk_endAlert (after : AlertState) (a : Fin 16) {s : State} (h : CoverageOk s) :
    CoverageOk (endAlert after a s) := coverageOk_raised a .alertEnded rfl h

theorem enterActive_keeps (a : Fin 16) {s : State} (on : (s.alerts.get a).state ≠ .disabled) :
    KeepsAlerts s (enterActive a s) where
  covered ok cover := by
    refine ⟨alertsOk_one (enterActive_alerts a s).2.1 ?_ ok, coverageOk_enterActive a cover⟩
    obtain ⟨-, enabled, -, -⟩ := ok a
    rw [enterActive_get]
    exact ⟨rfl, by simpa [on] using enabled, rfl, rfl⟩
  activations := activationsOk_enterActive a

theorem endAlert_keeps {after : AlertState} (ha : after = .idle ∨ after = .spent) {a : Fin 16} {s : State}
    (ends : (s.alerts.get a).capable = true) : KeepsAlerts s (endAlert after a s) where
  covered ok cover := by
    refine ⟨alertsOk_one (fun b h => endAlert_other after h s) ?_ ok, coverageOk_endAlert after a cover⟩
    obtain ⟨-, enabled, hold, -⟩ := ok a
    rw [endAlert_get]
    unfold Alert.capable at ends
    obtain rfl | rfl := ha <;> cases e : (s.alerts.get a).state <;> simp_all [Alert.ok, Alert.capable]
  activations act := activationsOk_endAlert after a act ha

/-- A record's update that leaves it in order, and as it was where it is covering-capable. -/
theorem updAlert_keeps (a : Fin 16) (f : Alert → Alert) {s : State}
    (own : (s.alerts.get a).ok → (f (s.alerts.get a)).ok)
    (capable : (f (s.alerts.get a)).capable = (s.alerts.get a).capable)
    (same : (s.alerts.get a).capable = true →
      (f (s.alerts.get a)).zones = (s.alerts.get a).zones
        ∧ coverOrder (f (s.alerts.get a)) = coverOrder (s.alerts.get a)) :
    KeepsAlerts s (updAlert a f s) := by
  have self : (updAlert a f s).alerts.get a = f (s.alerts.get a) := by rw [get_updAlert, if_pos rfl]
  have other (b : Fin 16) (h : b ≠ a) : (updAlert a f s).alerts.get b = s.alerts.get b := by
    rw [get_updAlert, if_neg (Ne.symm h)]
  refine ⟨fun ok cover => ⟨alertsOk_one other ?_ ok, coverageOk_one other rfl (fun z => ?_) (fun h => ?_) cover⟩,
    fun act => activationsOk_updAlert a f act fun c => ?_⟩
  · rw [self]; exact own (ok a)
  · unfold mayCover
    rw [self, capable]
    cases h : (s.alerts.get a).capable with
    | true => rw [(same h).1]
    | false => rfl
  · rw [self]; exact (same h).2
  · rw [capable] at c
    exact ⟨c, congrArg (fun x => x.2.2) (same c).2⟩

/-- A record acts on its condition (R143, R145, R146): it passes to ACTIVE or out of it with its zones evaluated, or
it is covering-capable after as before. -/
theorem alertAct_keeps (a : Fin 16) (s : State) : KeepsAlerts s (alertAct a s) := by
  unfold alertAct
  dsimp only
  split
  case h_1 e _ =>
    split
    · exact enterActive_keeps a (by simp [e])
    · exact updAlert_keeps a _ (by simp +contextual [Alert.ok, Alert.capable, e]) (by simp [Alert.capable, e])
        (by simp [Alert.capable, e])
  case h_2 e _ =>
    exact updAlert_keeps a _ (by simp +contextual [Alert.ok, Alert.capable, e]) (by simp [Alert.capable, e])
      (by simp [Alert.capable, e])
  case h_3 e _ =>
    split
    · exact endAlert_keeps (.inl rfl) (by simp [Alert.capable, e])
    · exact updAlert_keeps a _ (by simp +contextual [Alert.ok, Alert.capable, e]) (by simp [Alert.capable, e])
        fun _ => ⟨rfl, rfl⟩
  case h_4 e _ =>
    exact updAlert_keeps a _ (by simp +contextual [Alert.ok, Alert.capable, e]) (by simp [Alert.capable, e])
      fun _ => ⟨rfl, rfl⟩
  case h_5 e _ =>
    exact updAlert_keeps a _ (by simp +contextual [Alert.ok, Alert.capable, e]) (by simp [Alert.capable, e])
      (by simp [Alert.capable, e])
  case h_6 => exact .refl s

theorem rejudgeHold_keeps (a : Fin 16) (s : State) : KeepsAlerts s (rejudgeHold a s) := by
  unfold rejudgeHold
  dsimp only
  split
  · next e _ =>
    split
    · exact enterActive_keeps a (by simp [e])
    · exact .refl s
  · exact .refl s

theorem deliverLevel_keeps (src : TermSource) (s : State) : KeepsAlerts s (deliverLevel src s) :=
  overFin_keepsAlerts (fun a s => by
    split
    · exact alertAct_keeps a s
    · exact .refl s) s

theorem updAin_keeps (i : Fin 6) (f : Ain → Ain) (s : State) : KeepsAlerts s (updAin i f s) := by
  have stored : KeepsAlerts s { s with ains := s.ains.set i (f (s.ains.get i)) } := keeps_of_same rfl rfl rfl
  unfold updAin
  dsimp only
  split
  · exact stored
  · exact stored.trans (deliverLevel_keeps (.ain i) _)

theorem setFlag_keeps (j : Fin 8) (level : Bool) (s : State) : KeepsAlerts s (setFlag j level s) := by
  have stored : KeepsAlerts s { s with rflags := s.rflags.set j level } := keeps_of_same rfl rfl rfl
  unfold setFlag
  split
  · exact .refl s
  · exact stored.trans (deliverLevel_keeps (.flag j) _)

/-! ## Lanes and their alerts -/

theorem overList_channels_keeps {α : Type} {l : List α} {f : α → State → State} (h : ∀ a s, OnlyChannels s (f a s))
    (s : State) : KeepsAlerts s (overList l f s) := keeps_of_cues (overList_onlyChannels h s).cues

theorem laneServes_keeps (l : Fin 16) (s : State) : KeepsAlerts s (laneServes l s) :=
  overFin_keepsAlerts (fun z s => by
    split
    · split
      · exact (keeps_updZone z (f := fun q => { q with waiting := false }) (fun _ => rfl) s).trans
          (overList_channels_keeps (giveCoverage_only _) _)
      · exact .refl s
    · exact .refl s) s

theorem standingStarved_keeps (l : Fin 16) (s : State) : KeepsAlerts s (standingStarved l s) := by
  unfold standingStarved
  refine (overList_channels_keeps (giveCoverage_only .network) s).trans (overFin_keepsAlerts (fun z u => ?_) _)
  split
  · split
    · exact (keeps_updZone z (f := fun q => { q with waiting := true }) (fun _ => rfl) u).trans (keeps_raise _ _ _)
    · exact .refl u
  · exact .refl u

theorem laneStarves_keeps (l : Fin 16) (s : State) : KeepsAlerts s (laneStarves l s) := by
  unfold laneStarves
  dsimp only
  split
  · exact keeps_of_same rfl rfl rfl
  · have asked {f : Lane → Lane} {cs : List (Fin 128)} : KeepsAlerts s (overList cs (askReturnHeld .laneFault false)
        (raise (laneSource l) .laneFault (updLane l f s))) :=
      (keeps_of_cues (updLane_only l f s).cues).trans
        ((keeps_raise _ _ _).trans (overList_channels_keeps (askReturnHeld_only _ _) _))
    split
    · exact asked.trans (standingStarved_keeps l _)
    · exact asked

theorem lanePacket_keeps (l : Fin 16) (pk : Packet) (s : State) : KeepsAlerts s (lanePacket l pk s) := by
  have offered (f : Lane → Lane) :
      KeepsAlerts s (updLane l f { s with laneIn := s.laneIn.set l (s.laneIn.get l).accept }) :=
    keeps_of_same rfl rfl rfl
  unfold lanePacket
  dsimp only
  split
  · exact keeps_of_same rfl rfl rfl
  · split
    · exact (offered _).trans (laneServes_keeps l _)
    · exact offered _

theorem laneNamed_keeps (l : Fin 16) (s : State) : KeepsAlerts s (laneNamed l s) := by
  unfold laneNamed
  dsimp only
  split
  · exact (keeps_of_cues (updLane_only l _ s).cues).trans (laneServes_keeps l _)
  · exact keeps_of_cues (updLane_only l _ s).cues

theorem laneUnnamed_keeps (l : Fin 16) (s : State) : KeepsAlerts s (laneUnnamed l s) := by
  unfold laneUnnamed
  exact (keeps_of_cues (updLane_only l _ s).cues).trans (overList_channels_keeps (giveCoverage_only .network) _)

/-- A configuration written on a record that is not covering-capable, and the record's act on it (R141). -/
theorem configureAlert_keeps (a : Fin 16) (c : AlertCfg) {s : State} (calm : (s.alerts.get a).capable = false) :
    KeepsAlerts s (configureAlert a c.apply s) := by
  have still : (c.apply (s.alerts.get a)).capable = false := by
    unfold Alert.capable at calm
    unfold AlertCfg.apply Alert.capable
    cases c.enabled <;> cases e : (s.alerts.get a).state <;> simp_all
  have written : KeepsAlerts s (updAlert a c.apply s) := by
    refine updAlert_keeps a _ (fun ok => ?_) (still.trans calm.symm) (by simp [calm])
    obtain ⟨stamp, enabled, hold, release⟩ := ok
    rw [calm] at stamp
    refine ⟨by rw [still]; exact stamp, ?_⟩
    unfold Alert.capable at calm
    unfold AlertCfg.apply
    cases c.enabled <;> cases e : (s.alerts.get a).state <;> simp_all
  have unnamed (b : Bool) (l : Fin 16) (u : State) (h : KeepsAlerts s u) :
      KeepsAlerts s (if b then laneUnnamed l u else u) := by
    cases b with
    | true => exact h.trans (laneUnnamed_keeps l u)
    | false => exact h
  have named (b : Bool) (l : Fin 16) (u : State) (h : KeepsAlerts s u) :
      KeepsAlerts s (if b then laneNamed l u else u) := by
    cases b with
    | true => exact h.trans (laneNamed_keeps l u)
    | false => exact h
  unfold configureAlert
  dsimp only
  refine KeepsAlerts.trans ?_ (rejudgeHold_keeps a _)
  refine KeepsAlerts.trans ?_ (alertAct_keeps a _)
  exact named _ _ _ (unnamed _ _ _ written)

/-- RESET_STREAMS puts every record at rest with no zone covered, and every record acts on its condition anew (R158). -/
theorem resetStreamsAll_keeps (s : State) : KeepsAlerts s (resetStreamsAll s) := by
  have rest (a : Fin 16) : (quieted s).alerts.get a = (s.alerts.get a).resetStreams :=
    Table.get_mapIdx (fun _ r => Alert.resetStreams r) s.alerts a
  have calm (a : Fin 16) : ((quieted s).alerts.get a).capable = false := by
    rw [rest]
    unfold Alert.resetStreams Alert.capable
    dsimp only
    split <;> rfl
  rw [resetStreamsAll_eq]
  refine (keeps_of_calm (fun a => ?_) calm fun z => ?_).trans (overFin_keepsAlerts alertAct_keeps _)
  · refine ⟨by rw [calm, rest]; rfl, ?_⟩
    rw [rest]
    unfold Alert.resetStreams
    cases (s.alerts.get a).enabled <;> simp
  · exact congrArg Zone.cover
      (Table.get_mapIdx (fun _ (q : Zone) => { q with cover := none, waiting := false }) s.zones z)

/-! ## The commands -/

theorem serve_keeps {P : State → Prop} {s : State} {block : State → Answer} {tag kind : Byte}
    {same : List Byte → Bool} (h : Answers s P (block s)) (kept : ∀ t, P t → KeepsAlerts s t) :
    KeepsAlerts s (serve tag kind same block s) :=
  h.serve (fun _ _ _ k => k.trans (keeps_of_same rfl rfl rfl)) (.refl s) kept

theorem live_keeps {f : State → State} {s : State} (h : KeepsAlerts s (f s)) : KeepsAlerts s (live f s) := by
  unfold live
  split
  · exact .refl s
  · exact h

theorem amendArmed_only (r : Avail) (e : Option Time) (d : Option (Option (BitVec 32))) (s : State) :
    OnlyRecords s (amendArmed r e d s) := by
  have updated (f : Avail → Avail) : OnlyRecords s (updRec r.key f s) := updRec_only r.key f s
  unfold amendArmed
  dsimp only
  split
  · split
    · exact updated _
    · exact (updated _).trans (amendArmedE_only _ _ _)
  · exact updated _

theorem applyAmendment_only (r : Avail) (e : Option Time) (d : Option (Option (BitVec 32)))
    (ps : Option (List TPlacement)) (s : State) : OnlyCues s (applyAmendment r e d ps s) := by
  unfold applyAmendment
  split
  · exact (amendArmed_only r e d s).cues
  · split
    · exact amendActiveD_only _ _ s
    · exact .refl s
  · exact (updRec_only _ _ s).cues

/-- An accepted SERVICE_SET changes services and channels, and raises TIMEBASE_LOST (R6). -/
theorem amendService_only (i : Fin 64) (old v : Service) (s : State) :
    OnlyCues s (remeasure i old v (retime i old v (putService i v s))) := by
  have put : OnlyCues s (putService i v s) := rfl
  have timed (u : State) : OnlyCues u (retime i old v u) := by
    unfold retime
    dsimp only
    split
    · split
      · exact (updSvc_only i _ u).cues.trans (raise_only _ _ _).cues
      · exact (updSvc_only i _ u).cues
    · exact .refl u
  have measured (u : State) : OnlyCues u (remeasure i old v u) := by
    unfold remeasure
    split
    · split
      · exact expireTimebase_only i u
      · exact .refl u
    · exact .refl u
  exact put.trans ((timed _).trans (measured _))

/-! ## Timers and packets -/

theorem takeNetworkPacket_keeps (m : Fin 4) (pk : Packet) (s : State) : KeepsAlerts s (takeNetworkPacket m pk s) := by
  unfold takeNetworkPacket
  split
  · exact (keeps_of_same rfl rfl rfl : KeepsAlerts s { s with netIn := s.netIn.set m (s.netIn.get m).accept }).trans
      (keeps_of_streams (networkPacket_only m pk s))
  · exact .refl s

theorem takeLanePacket_keeps (l : Fin 16) (pk : Packet) (s : State) : KeepsAlerts s (takeLanePacket l pk s) := by
  unfold takeLanePacket
  split
  · exact lanePacket_keeps l pk s
  · exact .refl s

theorem ainChange_keeps (i : Fin 6) (high : Bool) (s : State) : KeepsAlerts s (ainChange i high s) := by
  unfold ainChange
  split
  · exact keeps_of_same rfl rfl rfl
  · exact updAin_keeps i _ s

theorem debounceExpiry_keeps (i : Fin 6) (s : State) : KeepsAlerts s (debounceExpiry i s) := by
  unfold debounceExpiry
  dsimp only
  split
  · exact (keeps_reachMs _ s).trans (updAin_keeps i _ _)
  · exact .refl s

theorem holdExpiry_keeps (a : Fin 16) (s : State) : KeepsAlerts s (holdExpiry a s) := by
  unfold holdExpiry
  dsimp only
  split
  · next e _ => exact (keeps_reachMs _ s).trans (enterActive_keeps a (by simp [e]))
  · exact .refl s

theorem releaseExpiry_keeps (a : Fin 16) (s : State) : KeepsAlerts s (releaseExpiry a s) := by
  unfold releaseExpiry
  dsimp only
  split
  · next e _ => exact (keeps_reachMs _ s).trans (endAlert_keeps (.inl rfl) (by simp [Alert.capable, e]))
  · exact .refl s

theorem pcrAbsenceTimeout_keeps (i : Fin 64) (s : State) : KeepsAlerts s (pcrAbsenceTimeout i s) := by
  unfold pcrAbsenceTimeout
  split
  · split
    · exact (keeps_reachMs _ s).trans (keeps_of_cues (expireTimebase_only i _))
    · exact .refl s
  · exact .refl s

theorem openTimeout_keeps (l : Fin 16) (s : State) : KeepsAlerts s (openTimeout l s) := by
  unfold openTimeout
  dsimp only
  split
  · exact (keeps_reachMs _ s).trans (keeps_of_cues (laneTimesOut_only l _).cues)
  · exact .refl s

theorem closingExpiry_keeps (l : Fin 16) (s : State) : KeepsAlerts s (closingExpiry l s) := by
  unfold closingExpiry
  dsimp only
  split
  · exact (keeps_reachMs _ s).trans (keeps_of_cues (updLane_only l _ _).cues)
  · exact .refl s

theorem starvationExpiry_keeps (l : Fin 16) (c : Fin 128) (s : State) : KeepsAlerts s (starvationExpiry l c s) := by
  unfold starvationExpiry
  split
  · split
    · exact (keeps_reachMs _ s).trans (laneStarves_keeps l _)
    · exact .refl s
  · exact .refl s

theorem followExpiry_keeps (c : Fin 128) (s : State) : KeepsAlerts s (followExpiry c s) := by
  unfold followExpiry
  split
  · split
    · exact (keeps_reachMs _ s).trans (keeps_of_cues (updChan_only c _ _).cues)
    · exact .refl s
  · exact .refl s

theorem updTally_keeps (o : Fin 4) (f : Tally → Tally) (s : State) : KeepsAlerts s (updTally o f s) :=
  keeps_of_same rfl rfl rfl

theorem tallyPhaseExpiry_keeps (o : Fin 4) (s : State) : KeepsAlerts s (tallyPhaseExpiry o s) := by
  unfold tallyPhaseExpiry
  split
  · exact (keeps_reachMs _ s).trans (updTally_keeps o _ _)
  · exact .refl s

theorem tallyPulseEnd_keeps (o : Fin 4) (s : State) : KeepsAlerts s (tallyPulseEnd o s) := by
  unfold tallyPulseEnd
  split
  · exact (keeps_reachMs _ s).trans (updTally_keeps o _ _)
  · exact .refl s

theorem tallyEdgeExpiry_keeps (o : Fin 4) (s : State) : KeepsAlerts s (tallyEdgeExpiry o s) := by
  unfold tallyEdgeExpiry
  split
  · exact (keeps_reachMs _ s).trans (updTally_keeps o _ _)
  · exact .refl s

theorem gapEnd_keeps (s : State) : KeepsAlerts s (gapEnd s) := by
  unfold gapEnd
  split
  · exact (keeps_reachCount _ s).trans (keeps_of_same rfl rfl rfl)
  · exact .refl s

/-! ## Every command -/

/-- Every command keeps the alert records, their coverage and their activations in order. -/
theorem exec_keeps {c : Instr} {s t : State} (h : exec c s = .next t) : KeepsAlerts s t := by
  cases c <;> cases h
  case requestTransaction bytes =>
    show KeepsAlerts s (requestTransaction bytes s)
    unfold requestTransaction takeFrame
    repeat' split
    all_goals exact keeps_of_same rfl rfl rfl
  case readTransaction clocks =>
    show KeepsAlerts s (readTransaction clocks s)
    unfold readTransaction
    split <;> exact keeps_of_same rfl rfl rfl
  case otherTransferByte bytes =>
    show KeepsAlerts s (otherTransaction bytes s)
    unfold otherTransaction
    split <;> exact keeps_of_same rfl rfl rfl
  case resetNLow => exact fullReset_keeps true s
  case powerOn => exact fullReset_keeps true s
  case resetNRise =>
    show KeepsAlerts s (riseReset s)
    unfold riseReset
    split
    · exact fullReset_keeps false s
    · exact .refl s
  case serviceSet tag a =>
    refine serve_keeps (serviceSet_answers a s) fun t ⟨i, v, _, _, _, h⟩ => ?_
    obtain ⟨-, rfl⟩ | ⟨old, -, -, rfl⟩ := h
    · exact keeps_of_same rfl rfl rfl
    · exact keeps_of_cues (amendService_only i old v s)
  case serviceGet tag i => exact serve_keeps (serviceGet_answers i s) fun _ e => e ▸ .refl s
  case serviceClear tag i =>
    exact serve_keeps (serviceClear_answers i s) fun _ ⟨_, _, _, e⟩ => e ▸ keeps_of_same rfl rfl rfl
  case templateSet tag a =>
    exact serve_keeps (templateSet_answers a s) fun _ ⟨_, _, _, _, e⟩ => e ▸ keeps_of_same rfl rfl rfl
  case outcomeGet tag i => exact serve_keeps (outcomeGet_answers i s) fun _ e => e ▸ .refl s
  case availCreate tag a =>
    exact serve_keeps (availCreate_answers a s) fun _ ⟨_, _, _, _, _, _, _, _, _, _, _, _, e⟩ =>
      e ▸ keeps_of_same rfl rfl rfl
  case availAmend tag a =>
    exact serve_keeps (availAmend_answers a s) fun _ ⟨_, r, _, m, ps, e, _, _, _, _, _, _, h⟩ =>
      h ▸ keeps_of_cues (applyAmendment_only r e m.duration ps s)
  case availCancel tag a =>
    exact serve_keeps (availCancel_answers a s) fun _ ⟨r, _, _, e⟩ => e ▸ keeps_of_cues (cancelRecord_only r.key s)
  case availReturn tag a =>
    exact serve_keeps (availReturn_answers a s) fun _ ⟨r, _, _, e⟩ => e ▸ keeps_of_cues (returnNow_only r.key s)
  case availConfirm tag a =>
    exact serve_keeps (availConfirm_answers a s) fun _ ⟨_, _, _, e⟩ => e ▸ keeps_of_same rfl rfl rfl
  case availDecline tag a =>
    exact serve_keeps (availDecline_answers a s) fun _ ⟨r, _, _, e⟩ =>
      e ▸ keeps_of_cues ((finishAll_only _ r.key s).schedule.trans (retireDone_only _ _)).cues
  case availGet tag a => exact serve_keeps (availGet_answers a s) fun _ e => e ▸ .refl s
  case availWalk tag a => exact serve_keeps (availWalk_answers a s) fun _ ⟨_, e⟩ => e ▸ keeps_of_same rfl rfl rfl
  case laneSet tag a =>
    exact serve_keeps (laneSet_answers a s) fun _ ⟨_, _, _, _, _, e⟩ => e ▸ keeps_of_same rfl rfl rfl
  case laneGet tag l => exact serve_keeps (laneGet_answers l s) fun _ e => e ▸ .refl s
  case laneClose tag l =>
    refine serve_keeps (laneClose_answers l s) fun _ h => ?_
    obtain rfl | ⟨_, _, rfl⟩ := h
    · exact .refl _
    · exact keeps_of_same rfl rfl rfl
  case laneGuardSet tag v => exact serve_keeps (laneGuardSet_answers v s) fun _ e => e ▸ keeps_of_same rfl rfl rfl
  case portSet tag a => exact serve_keeps (portSet_answers a s) fun _ ⟨_, _, _, _, e⟩ => e ▸ keeps_of_same rfl rfl rfl
  case portGet tag p => exact serve_keeps (portGet_answers p s) fun _ e => e ▸ .refl s
  case chanSet tag a =>
    refine serve_keeps (chanSet_answers a s) fun _ ⟨c, _, p, _, _, _, _, _, e⟩ => ?_
    subst e
    unfold joinCoverage
    dsimp only
    repeat' split
    all_goals exact keeps_of_same rfl rfl rfl
  case chanGet tag c => exact serve_keeps (chanGet_answers c s) fun _ ⟨_, e⟩ => e ▸ keeps_of_same rfl rfl rfl
  case chanClear tag c =>
    exact serve_keeps (chanClear_answers c s) fun _ ⟨_, _, _, _, e⟩ => e ▸ keeps_of_same rfl rfl rfl
  case zoneLock tag z =>
    exact serve_keeps (zoneLock_answers z s) fun _ ⟨z, e⟩ => e ▸
      (keeps_updZone z (f := fun q => { q with locked := true }) (fun _ => rfl) s).trans
        (overList_channels_keeps (askReturnHeld_only _ _) _)
  case zoneUnlock tag z =>
    exact serve_keeps (zoneUnlock_answers z s) fun _ ⟨z, e⟩ => e ▸
      keeps_updZone z (f := fun q => { q with locked := false }) (fun _ => rfl) s
  case zoneGet tag z => exact serve_keeps (zoneGet_answers z s) fun _ e => e ▸ .refl s
  case ainSet tag a => exact serve_keeps (ainSet_answers a s) fun _ ⟨_, _, e⟩ => e ▸ updAin_keeps _ _ s
  case ainGet tag i => exact serve_keeps (ainGet_answers i s) fun _ e => e ▸ .refl s
  case flagSet tag a => exact serve_keeps (flagSet_answers a s) fun _ ⟨_, _, e⟩ => e ▸ setFlag_keeps _ _ s
  case alertSet tag a =>
    exact serve_keeps (alertSet_answers a s) fun _ ⟨i, c, _, calm, _, e⟩ => e ▸ configureAlert_keeps i c calm
  case alertGet tag a => exact serve_keeps (alertGet_answers a s) fun _ e => e ▸ .refl s
  case alertEnd tag a =>
    refine serve_keeps (alertEnd_answers a s) fun _ ⟨i, capable, e⟩ => e ▸ endAlert_keeps ?_ capable
    split
    · exact .inr rfl
    · exact .inl rfl
  case tallySet tag a => exact serve_keeps (tallySet_answers a s) fun _ ⟨_, _, _, e⟩ => e ▸ keeps_of_same rfl rfl rfl
  case tallyGet tag o => exact serve_keeps (tallyGet_answers o s) fun _ e => e ▸ .refl s
  case attnMask tag a => exact serve_keeps (attnMask_answers a s) fun _ ⟨_, e⟩ => e ▸ keeps_of_same rfl rfl rfl
  case poll tag =>
    refine serve_keeps (poll_answers s) fun _ h => ?_
    obtain ⟨_, rfl⟩ | ⟨_, _, rfl⟩ := h
    · exact .refl _
    · exact keeps_of_same rfl rfl rfl
  case summary tag => exact serve_keeps (summary_answers s) fun _ e => e ▸ .refl s
  case resetStreams tag => exact serve_keeps (resetStreams_answers s) fun _ e => e ▸ resetStreamsAll_keeps s
  case resetAll tag => exact serve_keeps (resetAll_answers s) fun _ e => e ▸ fullReset_keeps s.resetLow s
  case networkPacket m pk => exact live_keeps (takeNetworkPacket_keeps m pk s)
  case lanePacket l pk => exact live_keeps (takeLanePacket_keeps l pk s)
  case ainChange i high => exact ainChange_keeps i high s
  case debounceExpiry i => exact live_keeps (debounceExpiry_keeps i s)
  case holdTimerExpiry a => exact live_keeps (holdExpiry_keeps a s)
  case releaseTimerExpiry a => exact live_keeps (releaseExpiry_keeps a s)
  case pcrAbsenceTimeout i => exact live_keeps (pcrAbsenceTimeout_keeps i s)
  case openTimeout l => exact live_keeps (openTimeout_keeps l s)
  case closingTimerExpiry l => exact live_keeps (closingExpiry_keeps l s)
  case starvation l c => exact live_keeps (starvationExpiry_keeps l c s)
  case followTimeout c => exact live_keeps (followExpiry_keeps c s)
  case tallyPhaseTimerExpiry o => exact live_keeps (tallyPhaseExpiry_keeps o s)
  case tallyPulseEnd o => exact live_keeps (tallyPulseEnd_keeps o s)
  case tallyPendingEdgeExpiry o => exact live_keeps (tallyEdgeExpiry_keeps o s)
  case attnGapEnd => exact live_keeps (gapEnd_keeps s)
  case networkInputSearchOrMiss m bytes => exact live_keeps (keeps_of_same rfl rfl rfl)
  case laneInputSearchOrMiss l bytes => exact live_keeps (keeps_of_same rfl rfl rfl)

theorem step_keeps {s t : State} (h : step s = .next t) : KeepsAlerts s t := by
  unfold step at h
  split at h
  · cases h
    unfold State.tick
    split
    · exact .refl s
    · exact keeps_of_same rfl rfl rfl
  · next c rest _ =>
    exact (keeps_of_same rfl rfl rfl : KeepsAlerts s { s with pending := rest }).trans (exec_keeps h)

/-! ## The record that R148 names -/

/-- Of two covering-capable records one activation is the earlier, and the stamps are there to say which (R144). -/
theorem before_iff_earlier {a b : Alert} {x y : BitVec 48} (hx : a.stamp = some x) (hy : b.stamp = some y) :
    a.before b = true ↔ b.priority < a.priority ∨ (b.priority = a.priority
      ∧ ∃ x y, a.stamp = some x ∧ b.stamp = some y ∧ (x.toNat < y.toNat ∨ (x = y ∧ a.seq < b.seq))) := by
  rw [before_iff, hx, hy]
  simp [BitVec.toNat_inj]

theorem before_total {a b : Alert} (apart : a.seq ≠ b.seq) (h : ¬ b.before a = true) : a.before b = true := by
  rw [before_iff] at *
  omega

theorem before_asymm {a b : Alert} (h : a.before b = true) : ¬ b.before a = true := by
  rw [before_iff] at *
  omega

/-- With the activations apart, the covering record is the one that comes before every other that may cover the zone. -/
theorem bestCover_eq_some_iff {s : State} {z : Fin 8} (act : ActivationsOk s) (a : Fin 16) :
    bestCover s z = some a ↔ mayCover s z a = true
      ∧ ∀ b, b ≠ a → mayCover s z b = true → (s.alerts.get a).before (s.alerts.get b) = true := by
  have capable {i : Fin 16} (h : mayCover s z i = true) : (s.alerts.get i).capable = true := by
    simp only [mayCover, Bool.and_eq_true] at h
    exact h.1
  constructor
  · intro h
    obtain ⟨may, last⟩ := (bestCover_spec s z).2 a h
    exact ⟨may, fun b ne hb => before_total (act.2 a b ne.symm (capable may) (capable hb)) (last b hb)⟩
  · rintro ⟨may, first⟩
    cases h : bestCover s z with
    | none => exact absurd may ((bestCover_spec s z).1 h a)
    | some b =>
      obtain ⟨may', last⟩ := (bestCover_spec s z).2 b h
      by_cases e : b = a
      · rw [e]
      · exact absurd (first b e may') (last a may)

theorem bestCover_eq_none_iff {s : State} {z : Fin 8} : bestCover s z = none ↔ ∀ a, ¬ mayCover s z a = true := by
  refine ⟨(bestCover_spec s z).1, fun h => ?_⟩
  cases e : bestCover s z with
  | none => rfl
  | some a => exact absurd ((bestCover_spec s z).2 a e).1 (h a)

theorem mayCover_iff {s : State} {z : Fin 8} {a : Fin 16} : mayCover s z a = true ↔
    ((s.alerts.get a).state = .active ∨ (s.alerts.get a).state = .releasing)
      ∧ (s.alerts.get a).zones.getLsbD z.val = true := by
  simp only [mayCover, Alert.capable, zoneIn, Bool.and_eq_true, Bool.or_eq_true, decide_eq_true_eq]

theorem stamp_of_mayCover {s : State} {z : Fin 8} {a : Fin 16} (ok : AlertsOk s) (h : mayCover s z a = true) :
    ∃ x, (s.alerts.get a).stamp = some x := by
  obtain ⟨stamp, -⟩ := ok a
  simp only [mayCover, Bool.and_eq_true] at h
  exact Option.isSome_iff_exists.mp (stamp.trans h.1)

/-- Settles O60: every command keeps the alert records with their coverage, and the activations; the covering record
is the least in an order that is total on the covering-capable records. -/
theorem stepKeepsAlertCoverage : Obligations.StepKeepsAlertCoverage := by
  unfold Obligations.StepKeepsAlertCoverage
  refine ⟨fun s t h => (step_keeps h).covered, fun s t h => (step_keeps h).activations, fun s z ok act => ?_⟩
  dsimp only
  simp only [← mayCover_iff]
  refine ⟨fun a => ?_, bestCover_eq_none_iff⟩
  rw [bestCover_eq_some_iff act]
  refine and_congr_right fun may => forall_congr' fun b => imp_congr_right fun _ => imp_congr_right fun may' => ?_
  obtain ⟨x, hx⟩ := stamp_of_mayCover ok may
  obtain ⟨y, hy⟩ := stamp_of_mayCover ok may'
  exact before_iff_earlier hx hy

end Sys2Proof.Proofs.AlertCoverage
end

section
/-! SUPPORT. An alert record's condition (R139), what the record makes of it (R143 to R146), and a level delivered to
the records that name its source (R136, R138). -/

namespace Sys2Proof.Proofs.AlertRecords

open Sys2Proof.Machine
open Sys2Proof.Proofs.AlertCoverage

/-! ## Conditions (R139) -/

section
variable {s : State} {r : Alert}

theorem condition_all (h : r.combine = .all) : condition s r = true ↔ ∀ x ∈ r.terms, termTrue s x = true := by
  unfold condition
  rw [h]
  exact List.all_eq_true

theorem condition_any (h : r.combine = .any) : condition s r = true ↔ ∃ x ∈ r.terms, termTrue s x = true := by
  unfold condition
  rw [h]
  exact List.any_eq_true

theorem condition_odd (h : r.combine = .odd) : condition s r = true ↔ r.terms.countP (termTrue s) % 2 = 1 := by
  unfold condition
  rw [h, List.countP_eq_length_filter]
  exact decide_eq_true_iff

/-- With one term the three ways to combine agree. -/
theorem condition_one {x : TermSource × Bool} (h : r.terms = [x]) : condition s r = termTrue s x := by
  unfold condition
  rw [h]
  cases r.combine <;> cases e : termTrue s x <;> simp [e]

theorem names_iff {src : TermSource} : r.names src = true ↔ ∃ wanted, (src, wanted) ∈ r.terms := by
  unfold Alert.names
  simp

end

/-! ## An evaluation of coverage, from the state before its record changed -/

/-- `v` has all that an evaluation of coverage reads or changes, the alert records apart, as it stands in `s`. -/
structure SameSurroundings (s v : State) : Prop where
  zones : v.zones = s.zones
  channels : v.channels = s.channels
  lanes : v.lanes = s.lanes
  ports : v.ports = s.ports
  avails : v.avails = s.avails
  attn : v.attn = s.attn
  mask : v.mask = s.mask

theorem SameSurroundings.refl (s : State) : SameSurroundings s s := ⟨rfl, rfl, rfl, rfl, rfl, rfl, rfl⟩

theorem SameSurroundings.trans {s t u : State} (h : SameSurroundings s t) (k : SameSurroundings t u) :
    SameSurroundings s u :=
  ⟨k.zones.trans h.zones, k.channels.trans h.channels, k.lanes.trans h.lanes, k.ports.trans h.ports,
    k.avails.trans h.avails, k.attn.trans h.attn, k.mask.trans h.mask⟩

theorem sameSurroundings_reachMs (n : Nat) (s : State) : SameSurroundings s (reachMs n s) := by
  rw [reachMs_eq]
  exact ⟨rfl, rfl, rfl, rfl, rfl, rfl, rfl⟩

/-- An entry to ACTIVE raises ALERT_ACTIVE and has the coverage of the record's zones evaluated (R144). -/
theorem enterActive_evaluates (a : Fin 16) (s : State) : ∃ v, SameSurroundings s v
    ∧ enterActive a s = evalZones (s.alerts.get a).zones (raise (alertSource a) .alertActive v) := by
  unfold enterActive
  dsimp only
  rw [alerts_raise, get_updAlert, if_pos rfl]
  refine ⟨_, ?_, rfl⟩
  exact ⟨rfl, rfl, rfl, rfl, rfl, rfl, rfl⟩

/-- The end of an activation raises ALERT_ENDED and has the coverage of the record's zones evaluated (R145, R146). -/
theorem endAlert_evaluates (after : AlertState) (a : Fin 16) (s : State) : ∃ v, SameSurroundings s v
    ∧ endAlert after a s = evalZones (s.alerts.get a).zones (raise (alertSource a) .alertEnded v) := by
  unfold endAlert
  dsimp only
  rw [alerts_raise, get_updAlert, if_pos rfl]
  refine ⟨_, ?_, rfl⟩
  exact ⟨rfl, rfl, rfl, rfl, rfl, rfl, rfl⟩

section
variable {s v : State} (zs : ZoneSet) (src : Fin 96) (k : Cause) (h : SameSurroundings s v)
include h

theorem recovered_after_raise : Recovered zs s (evalZones zs (raise src k v)) := by
  refine evalZones_recovered ((zones_raise _ _ _).trans h.zones) ((channels_raise _ _ _).trans h.channels)
    ((lanes_raise _ _ _).trans h.lanes) ((ports_raise _ _ _).trans h.ports) ?_
  have same : AttnLe s v := ⟨h.mask, fun _ _ held => by rw [h.attn]; exact held⟩
  exact same.trans (attnLe_raise src k v)

theorem cover_after_raise (z : Fin 8) :
    if zoneIn zs z then ((evalZones zs (raise src k v)).zones.get z).cover = bestCover (evalZones zs (raise src k v)) z
    else (evalZones zs (raise src k v)).zones.get z = s.zones.get z := by
  obtain ⟨frame, spec⟩ := evalZones_spec zs (raise src k v)
  split
  · next inside => rw [(spec z).1 inside, bestCover_of_alerts frame.alerts]
  · next outside => rw [(spec z).2 (by simpa using outside), zones_raise, h.zones]

theorem held_after_evaluation (masked : s.mask.getLsbD k.bit = true) (own : k.flag.getLsbD k.bit = true) :
    ((evalZones zs (raise src k v)).attn.get src).getLsbD k.bit = true :=
  held_after_raise (grows_evalZones zs _) (by rw [h.mask]; exact masked) own

theorem lanes_after_raise : (evalZones zs (raise src k v)).lanes = s.lanes := by
  rw [(evalZones_spec zs _).1.lanes, lanes_raise, h.lanes]

theorem avails_after_raise : (evalZones zs (raise src k v)).avails = s.avails := by
  rw [(evalZones_spec zs _).1.avails, avails_raise, h.avails]

end

/-- What an evaluation after a raise makes of all but the alert records. -/
structure Evaluated (zs : ZoneSet) (src : Fin 96) (k : Cause) (s t : State) : Prop where
  recovered : Recovered zs s t
  cover : ∀ z, if zoneIn zs z then (t.zones.get z).cover = bestCover t z else t.zones.get z = s.zones.get z
  held : s.mask.getLsbD k.bit = true → k.flag.getLsbD k.bit = true → (t.attn.get src).getLsbD k.bit = true
  lanes : t.lanes = s.lanes
  avails : t.avails = s.avails

theorem enterActive_evaluated {a : Fin 16} {s u : State} (h : SameSurroundings s u) :
    Evaluated (u.alerts.get a).zones (alertSource a) .alertActive s (enterActive a u) := by
  obtain ⟨v, same, e⟩ := enterActive_evaluates a u
  have same := h.trans same
  rw [e]
  exact ⟨recovered_after_raise _ _ _ same, cover_after_raise _ _ _ same, held_after_evaluation _ _ _ same,
    lanes_after_raise _ _ _ same, avails_after_raise _ _ _ same⟩

theorem endAlert_evaluated {after : AlertState} {a : Fin 16} {s u : State} (h : SameSurroundings s u) :
    Evaluated (u.alerts.get a).zones (alertSource a) .alertEnded s (endAlert after a u) := by
  obtain ⟨v, same, e⟩ := endAlert_evaluates after a u
  have same := h.trans same
  rw [e]
  exact ⟨recovered_after_raise _ _ _ same, cover_after_raise _ _ _ same, held_after_evaluation _ _ _ same,
    lanes_after_raise _ _ _ same, avails_after_raise _ _ _ same⟩

/-! ## A record acts on its condition (R143, R145, R146) -/

section
variable {a : Fin 16} {s : State}

theorem alertAct_enters (state : (s.alerts.get a).state = .idle) (cond : condition s (s.alerts.get a) = true)
    (hold : (s.alerts.get a).hold = 0) : alertAct a s = enterActive a s := by
  unfold alertAct
  simp only [state, cond, hold, if_true]

theorem alertAct_ends (state : (s.alerts.get a).state = .active) (cond : condition s (s.alerts.get a) = false)
    (release : (s.alerts.get a).release = 0) : alertAct a s = endAlert .idle a s := by
  unfold alertAct
  simp only [state, cond, release, if_true]

/-- A record that neither becomes nor ceases to be ACTIVE changes no coverage. -/
theorem alertAct_quiet
    (enters : ¬ ((s.alerts.get a).state = .idle ∧ condition s (s.alerts.get a) = true ∧ (s.alerts.get a).hold = 0))
    (ends : ¬ ((s.alerts.get a).state = .active ∧ condition s (s.alerts.get a) = false
      ∧ (s.alerts.get a).release = 0)) : SameSurroundings s (alertAct a s) := by
  unfold alertAct
  dsimp only
  split
  case h_1 state cond =>
    split
    · next hold => exact absurd ⟨state, cond, hold⟩ enters
    · exact ⟨rfl, rfl, rfl, rfl, rfl, rfl, rfl⟩
  case h_3 state cond =>
    split
    · next release => exact absurd ⟨state, cond, release⟩ ends
    · exact ⟨rfl, rfl, rfl, rfl, rfl, rfl, rfl⟩
  all_goals exact ⟨rfl, rfl, rfl, rfl, rfl, rfl, rfl⟩

theorem alertAct_true_still (cond : condition s (s.alerts.get a) = true)
    (state : (s.alerts.get a).state = .disabled ∨ (s.alerts.get a).state = .qualifying
      ∨ (s.alerts.get a).state = .active ∨ (s.alerts.get a).state = .spent) : alertAct a s = s := by
  unfold alertAct
  obtain e | e | e | e := state <;> simp only [e, cond]

theorem alertAct_false_still (cond : condition s (s.alerts.get a) = false)
    (state : (s.alerts.get a).state = .disabled ∨ (s.alerts.get a).state = .idle
      ∨ (s.alerts.get a).state = .releasing) : alertAct a s = s := by
  unfold alertAct
  obtain e | e | e := state <;> simp only [e, cond]

theorem lanes_alertAct : (alertAct a s).lanes = s.lanes := by
  by_cases enters : (s.alerts.get a).state = .idle ∧ condition s (s.alerts.get a) = true ∧ (s.alerts.get a).hold = 0
  · obtain ⟨state, cond, hold⟩ := enters
    rw [alertAct_enters state cond hold, (enterActive_evaluated (.refl s)).lanes]
  · by_cases ends : (s.alerts.get a).state = .active ∧ condition s (s.alerts.get a) = false
        ∧ (s.alerts.get a).release = 0
    · obtain ⟨state, cond, release⟩ := ends
      rw [alertAct_ends state cond release, (endAlert_evaluated (.refl s)).lanes]
    · exact (alertAct_quiet enters ends).lanes

end

/-! ## A level delivered (R136, R138; log 13) -/

/-- The order of activation apart, what a record becomes does not depend on how many activations came before. -/
theorem acted_seq (now m n : Nat) (cond : Bool) (r : Alert) :
    { r.acted now m cond with seq := 0 } = { r.acted now n cond with seq := 0 } := by
  unfold Alert.acted
  split
  · split <;> rfl
  all_goals rfl

/-- What delivering a level from `src` in `s` makes of record `al`. -/
def Delivered (src : TermSource) (s : State) (al : Fin 16) (u : State) : Prop :=
  ((s.alerts.get al).names src = false → u.alerts.get al = s.alerts.get al)
    ∧ ((s.alerts.get al).names src = true →
      { u.alerts.get al with seq := 0 } = { (alertAct al s).alerts.get al with seq := 0 })

/-- The acts of the other records leave a record to act as from the start: they change no level and no other record. -/
theorem deliverLevel_delivers (src : TermSource) (s : State) (al : Fin 16) :
    Delivered src s al (deliverLevel src s) := by
  refine overFin_each (fun b u => u.alerts.get b = s.alerts.get b ∧ OnlyAlerts s u) (Delivered src s)
    (fun b u ⟨own, only⟩ => ?acts) (fun b c u ne ⟨own, only⟩ => ?waits) (fun b c u ne done => ?stays)
    (fun b => ⟨rfl, .refl s⟩) al
  case acts =>
    rw [own]
    refine ⟨fun unnamed => by rw [unnamed]; exact own, fun named => ?_⟩
    have ains : u.ains = s.ains := by rw [only]
    have rflags : u.rflags = s.rflags := by rw [only]
    have clock : nowMs u = nowMs s := by unfold nowMs; rw [only]
    rw [if_pos named, alertAct_get, alertAct_get, own, clock,
      condition_congr ains rflags (rfl : (s.alerts.get b).terms = _) rfl]
    exact acted_seq _ _ _ _ _
  case waits =>
    split
    · exact ⟨(alertAct_other ne.symm u).trans own, only.trans (alertAct_only c u)⟩
    · exact ⟨own, only⟩
  case stays =>
    split
    · unfold Delivered
      rw [alertAct_other ne.symm]
      exact done
    · exact done

theorem overList_still {α : Type} {f : α → State → State} {s : State} {l : List α} (h : ∀ a ∈ l, f a s = s) :
    overList l f s = s :=
  overList_keeps (· = s) (fun a ha _ e => e ▸ h a ha) rfl

/-- A loop in which one round alone changes the state is that round. -/
theorem overFin_sole {n : Nat} {f : Fin n → State → State} {i : Fin n} {s : State} (before : ∀ j, j ≠ i → f j s = s)
    (after : ∀ j, j ≠ i → f j (f i s) = f i s) : overFin n f s = f i s := by
  obtain ⟨l, m, e⟩ := List.append_of_mem (List.mem_finRange i)
  have nodup := List.nodup_finRange n
  rw [e] at nodup
  obtain ⟨-, tail, apart⟩ := List.nodup_append.mp nodup
  have first := overList_still fun j hj => before j (apart j hj i List.mem_cons_self)
  have last := overList_still fun j (hj : j ∈ m) => after j fun h => (List.nodup_cons.mp tail).1 (h ▸ hj)
  unfold overList at first last
  rw [overFin, e, List.foldl_append, List.foldl_cons, first, last]

/-- A level that one record names becomes that record's act. -/
theorem deliverLevel_sole {src : TermSource} {al : Fin 16} {s : State}
    (sole : ∀ b, (s.alerts.get b).names src = decide (b = al)) : deliverLevel src s = alertAct al s := by
  have named : (s.alerts.get al).names src = true := by rw [sole, decide_eq_true rfl]
  have unnamed {b : Fin 16} (ne : b ≠ al) : (s.alerts.get b).names src = false := by rw [sole, decide_eq_false ne]
  unfold deliverLevel
  rw [overFin_sole (i := al), if_pos named]
  · intro b ne
    rw [unnamed ne, if_neg Bool.false_ne_true]
  · intro b ne
    rw [if_pos named, alertAct_other ne, unnamed ne, if_neg Bool.false_ne_true]

theorem lanes_deliverLevel (src : TermSource) (s : State) : (deliverLevel src s).lanes = s.lanes :=
  overFin_same State.lanes (fun b u => by
    split
    · exact lanes_alertAct
    · rfl) s

/-! ## The timers of a record (R143, R145; log 3) -/

section
variable {a : Fin 16} {s : State}

theorem holdExpiry_stopped (h : (s.alerts.get a).state ≠ .qualifying ∨ (s.alerts.get a).holdStart = none) :
    holdExpiry a s = s := by
  unfold holdExpiry
  dsimp only
  split
  · next state start => simp [state, start] at h
  · rfl

theorem holdExpiry_runs {start : Nat} (state : (s.alerts.get a).state = .qualifying)
    (runs : (s.alerts.get a).holdStart = some start) :
    holdExpiry a s = enterActive a (reachMs (start + (s.alerts.get a).hold * 100) s) := by
  unfold holdExpiry
  simp only [state, runs]
  rfl

theorem releaseExpiry_stopped (h : (s.alerts.get a).state ≠ .releasing ∨ (s.alerts.get a).releaseStart = none) :
    releaseExpiry a s = s := by
  unfold releaseExpiry
  dsimp only
  split
  · next state start => simp [state, start] at h
  · rfl

theorem releaseExpiry_runs {start : Nat} (state : (s.alerts.get a).state = .releasing)
    (runs : (s.alerts.get a).releaseStart = some start) :
    releaseExpiry a s = endAlert .idle a (reachMs (start + (s.alerts.get a).release * 100) s) := by
  unfold releaseExpiry
  simp only [state, runs]
  rfl

theorem exec_holdTimerExpiry (high : s.resetLow = false) : exec (.holdTimerExpiry a) s = .next (holdExpiry a s) :=
  congrArg Host.Outcome.next (live_of_high high)

theorem exec_releaseTimerExpiry (high : s.resetLow = false) :
    exec (.releaseTimerExpiry a) s = .next (releaseExpiry a s) :=
  congrArg Host.Outcome.next (live_of_high high)

end

theorem refCount_enterActive (a : Fin 16) (s : State) : (enterActive a s).refCount = s.refCount := by
  rw [enterActive_only a s]

theorem refCount_endAlert (after : AlertState) (a : Fin 16) (s : State) :
    (endAlert after a s).refCount = s.refCount := by
  rw [endAlert_only after a s]

/-- Settles O46: the conditions by the way of combining, a record's act by its state, delivery by the acts of the
records in turn, and the timers by the entry to ACTIVE and the end of an activation at the time they are due. -/
theorem alertStates : Obligations.AlertStates := by
  unfold Obligations.AlertStates
  refine ⟨fun s r => ?condition, fun a s => ?acts, fun src al s => ?delivers, fun a s high => ?timers⟩
  case condition =>
    intro holds
    have e : termTrue s = holds := by
      funext ⟨src, wanted⟩
      cases src <;> rfl
    clear_value holds
    subst e
    exact ⟨condition_all, condition_any, condition_odd, fun _ => condition_one, fun _ => names_iff⟩
  case acts =>
    intro r now after untouched recovered retargeted
    have acted : after = r.acted now s.activations (condition s r) := alertAct_get a s
    refine ⟨fun cond => ⟨fun state hold => ?qualifies, fun state hold => ?enters, fun state => ?resumes,
      alertAct_true_still cond⟩, fun cond => ⟨fun state => ?abandons, fun state release => ?releases,
      fun state release => ?ends, fun state => ?rearms, alertAct_false_still cond⟩, fun enters ends => ?quiet,
      fun b h => alertAct_other h s⟩
    case enters =>
      have act : alertAct a s = enterActive a s := alertAct_enters state cond hold
      have settled := enterActive_evaluated (a := a) (.refl s)
      rw [← act] at settled
      refine ⟨by rw [acted]; simp only [Alert.acted, state, cond, hold, if_true], ?_, settled.cover, settled.recovered,
        fun masked => settled.held masked rfl⟩
      rw [act, (enterActive_alerts a s).1]
    case ends =>
      have act : alertAct a s = endAlert .idle a s := alertAct_ends state cond release
      have settled := endAlert_evaluated (after := .idle) (a := a) (.refl s)
      rw [← act] at settled
      exact ⟨by rw [acted]; simp only [Alert.acted, state, cond, release, if_true], settled.cover, settled.recovered,
        fun masked => settled.held masked rfl⟩
    case quiet =>
      have same := alertAct_quiet enters ends
      exact ⟨same.zones, same.channels, same.attn⟩
    case qualifies => rw [acted]; simp only [Alert.acted, state, cond, Nat.ne_of_gt hold, if_false]
    case releases => rw [acted]; simp only [Alert.acted, state, cond, Nat.ne_of_gt release, if_false]
    all_goals rw [acted]; simp only [Alert.acted, state, cond]
  case delivers =>
    have only := deliverLevel_only src s
    obtain ⟨unnamed, named⟩ := deliverLevel_delivers src s al
    exact ⟨unnamed, named, deliverLevel_sole, by rw [only], by rw [only], lanes_deliverLevel src s, by rw [only],
      by rw [only]⟩
  case timers =>
    rw [exec_holdTimerExpiry high, exec_releaseTimerExpiry high]
    refine ⟨fun stopped => congrArg _ (holdExpiry_stopped stopped), fun start state runs => ?held,
      fun stopped => congrArg _ (releaseExpiry_stopped stopped), fun start state runs => ?released⟩
    case held =>
      rw [holdExpiry_runs state runs]
      generalize due : start + (s.alerts.get a).hold * 100 = n
      have settled := enterActive_evaluated (a := a) (sameSurroundings_reachMs n s)
      rw [alerts_reachMs] at settled
      refine ⟨_, rfl, ?_, ?_, fun masked => settled.held masked rfl, settled.recovered, fun b h => ?_, settled.lanes,
        settled.avails⟩
      · rw [refCount_enterActive, reachMs_eq]
      · rw [enterActive_get, refCount_enterActive, alerts_reachMs, activations_reachMs]
        rfl
      · rw [(enterActive_alerts a _).2.1 b h, alerts_reachMs]
    case released =>
      rw [releaseExpiry_runs state runs]
      generalize due : start + (s.alerts.get a).release * 100 = n
      have settled := endAlert_evaluated (after := .idle) (a := a) (sameSurroundings_reachMs n s)
      rw [alerts_reachMs] at settled
      refine ⟨_, rfl, ?_, ?_, fun masked => settled.held masked rfl, settled.recovered, fun b h => ?_, settled.lanes,
        settled.avails⟩
      · rw [refCount_endAlert, reachMs_eq]
      · rw [endAlert_get, alerts_reachMs]
      · rw [endAlert_other .idle h, alerts_reachMs]

end Sys2Proof.Proofs.AlertRecords
end

section
/-! SUPPORT. The sources of levels (section 7.1): request flags (R138), and alert inputs with their debounce timers
(R136, R137). -/

namespace Sys2Proof.Proofs.AlertLevels

open Sys2Proof.Machine
open Sys2Proof.Proofs.AlertRecords

/-! ## Operands (R183, R188) -/

theorem boolOfByte_boolByte (b : Bool) : boolOfByte (if b then 1 else 0) = some b := by
  cases b <;> rfl

theorem boolOfByte_eq_none {b : Byte} (h : 2 ≤ b.toNat) : boolOfByte b = none := by
  have ne0 : b ≠ 0 := by rintro rfl; exact absurd h (by decide)
  have ne1 : b ≠ 1 := by rintro rfl; exact absurd h (by decide)
  unfold boolOfByte
  rw [if_neg ne0, if_neg ne1]

theorem polarity_ofByte_eq_none {b : Byte} (h : 2 ≤ b.toNat) : Polarity.ofByte b = none := by
  have ne0 : b ≠ 0 := by rintro rfl; exact absurd h (by decide)
  have ne1 : b ≠ 1 := by rintro rfl; exact absurd h (by decide)
  unfold Polarity.ofByte
  rw [if_neg ne0, if_neg ne1]

/-- A polarity byte in range is the code of the polarity it gives. -/
theorem polarity_ofByte {b : Byte} (h : b.toNat < 2) :
    Polarity.ofByte b = some (if b = 0 then .highActive else .lowActive)
      ∧ (if b = 0 then Polarity.highActive else .lowActive).byte = b := by
  obtain rfl | rfl : b = 0 ∨ b = 1 := by
    rcases (show b.toNat = 0 ∨ b.toNat = 1 by omega) with e | e
    · exact .inl (BitVec.eq_of_toNat_eq e)
    · exact .inr (BitVec.eq_of_toNat_eq e)
  · exact ⟨rfl, rfl⟩
  · exact ⟨rfl, rfl⟩

/-! ## Request flags (R138) -/

theorem flagLevels_get (s : State) (k : Fin 8) : (flagLevels s).getLsbD k.val = s.rflags.get k := by
  unfold flagLevels
  rw [BitVec.getLsbD_ofNat, testBit_bitsOf]
  have h : k.val < s.rflags.entries.length := by rw [s.rflags.size_eq]; exact k.isLt
  simp [k.isLt, List.getElem?_eq_getElem h, Table.get]

theorem setFlag_repeated {j : Fin 8} {level : Bool} {s : State} (h : s.rflags.get j = level) : setFlag j level s = s :=
  if_pos h

theorem setFlag_changed {j : Fin 8} {level : Bool} {s : State} (h : s.rflags.get j ≠ level) :
    setFlag j level s = deliverLevel (.flag j) { s with rflags := s.rflags.set j level } := if_neg h

theorem setFlag_levels (j : Fin 8) (level : Bool) (s : State) :
    (setFlag j level s).rflags = s.rflags.set j level ∧ (setFlag j level s).ains = s.ains := by
  by_cases h : s.rflags.get j = level
  · rw [setFlag_repeated h, ← h, Table.set_get_self]
    exact ⟨rfl, rfl⟩
  · rw [setFlag_changed h, deliverLevel_only]
    exact ⟨rfl, rfl⟩

theorem setFlag_unnamed {j : Fin 8} {level : Bool} {s : State} {al : Fin 16}
    (h : (s.alerts.get al).names (.flag j) = false) : (setFlag j level s).alerts.get al = s.alerts.get al := by
  by_cases e : s.rflags.get j = level
  · rw [setFlag_repeated e]
  · rw [setFlag_changed e]
    exact (deliverLevel_delivers (.flag j) _ al).1 h

theorem flagSet_refused {a : FlagSetArgs} (s : State) (h : 8 ≤ a.flag.toNat ∨ 2 ≤ a.level.toNat) :
    flagSet a s = refuse .badArg s := by
  unfold flagSet
  obtain h | h := h
  · rw [fin?_eq_none h]
  · rw [boolOfByte_eq_none h]
    split
    · next bad => exact nomatch bad
    · rfl

theorem flagSet_sets {a : FlagSetArgs} (s : State) {j : Fin 8} {level : Bool} (flag : a.flag.toNat = j.val)
    (value : a.level = if level then 1 else 0) :
    flagSet a s = accept [flagLevels (setFlag j level s)] (setFlag j level s) := by
  unfold flagSet
  rw [fin?_eq_some flag, value, boolOfByte_boolByte]

/-- Settles O45: a flag's change is a delivery to the records that name it, by `deliverLevel_delivers`. -/
theorem flagSetDeliversChange : Obligations.FlagSetDeliversChange := by
  unfold Obligations.FlagSetDeliversChange
  intro tag a s serves
  rw [exec_flagSet serves]
  refine ⟨fun bad => by rw [flagSet_refused s bad, complete_refuse], fun j level flag value => ?_⟩
  rw [flagSet_sets s flag value, complete_accept]
  obtain ⟨rflags, ains⟩ := setFlag_levels j level s
  refine ⟨_, _, rfl, flagLevels_get _, rflags, ains, setFlag_repeated, fun changed => ⟨setFlag_changed changed, ?_⟩,
    fun al => setFlag_unnamed⟩
  intro al named
  rw [setFlag_changed changed]
  exact (deliverLevel_delivers (.flag j) _ al).2 named

/-! ## The record of an input -/

section
variable {i : Fin 6} {f : Ain → Ain} {a : Ain} {s : State}

theorem updAin_settled (becomes : f (s.ains.get i) = a) (h : a.level = (s.ains.get i).level) :
    updAin i f s = { s with ains := s.ains.set i a } := by
  subst becomes
  exact if_pos h

theorem updAin_changed (becomes : f (s.ains.get i) = a) (h : a.level ≠ (s.ains.get i).level) :
    updAin i f s = deliverLevel (.ain i) { s with ains := s.ains.set i a } := by
  subst becomes
  exact if_neg h

theorem ains_updAin : (updAin i f s).ains = s.ains.set i (f (s.ains.get i)) := by
  rw [updAin_only i f s]

end

theorem ains_deliverLevel (src : TermSource) (s : State) : (deliverLevel src s).ains = s.ains := by
  rw [deliverLevel_only src s]

/-! ## Debounce (R136) -/

section
variable {a : Ain} {old : Bool} {now : Nat}

theorem settle_unchanged (h : a.raw = old) : a.settle now old = a := if_pos h

theorem settle_at_once (h : a.raw ≠ old) (debounce : a.debounce = 0) :
    a.settle now old = { a with level := a.raw, timer := none } := by
  unfold Ain.settle
  rw [if_neg h, if_pos debounce]

theorem settle_back (h : a.raw ≠ old) (debounce : 0 < a.debounce) (level : a.raw = a.level) :
    a.settle now old = { a with timer := none } := by
  unfold Ain.settle
  rw [if_neg h, if_neg (Nat.ne_of_gt debounce), if_pos level]

theorem settle_starts (h : a.raw ≠ old) (debounce : 0 < a.debounce) (level : a.raw ≠ a.level) :
    a.settle now old = { a with timer := some now } := by
  unfold Ain.settle
  rw [if_neg h, if_neg (Nat.ne_of_gt debounce), if_neg level]

theorem raw_pin (a : Ain) (high : Bool) :
    ({ a with pin := high } : Ain).raw = if a.polarity = .highActive then high else !high := by
  unfold Ain.raw
  cases a.polarity <;> rfl

theorem raw_pin_ne {high : Bool} (h : high ≠ a.pin) : ({ a with pin := high } : Ain).raw ≠ a.raw := by
  unfold Ain.raw
  cases a.polarity
  · exact h
  · simpa using h

end

theorem exec_ainChange {i : Fin 6} {high : Bool} {s : State} (h : s.resetLow = false) : exec (.ainChange i high) s =
    .next (updAin i (fun a => Ain.settle (nowMs s) a.raw { a with pin := high }) s) := by
  show Host.Outcome.next (ainChange i high s) = _
  unfold ainChange
  rw [if_neg (by rw [h]; exact Bool.false_ne_true)]

theorem exec_debounceExpiry {i : Fin 6} {s : State} (h : s.resetLow = false) :
    exec (.debounceExpiry i) s = .next (debounceExpiry i s) := congrArg Host.Outcome.next (live_of_high h)

theorem debounceExpiry_stopped {i : Fin 6} {s : State} (h : (s.ains.get i).timer = none) :
    debounceExpiry i s = s := by
  unfold debounceExpiry
  simp only [h]

theorem debounceExpiry_runs {i : Fin 6} {s : State} {start : Nat} (h : (s.ains.get i).timer = some start) :
    debounceExpiry i s =
      updAin i Ain.expire { s with refCount := countAt (start + (s.ains.get i).debounce) s } := by
  unfold debounceExpiry
  simp only [h, reachMs_eq]

/-! ## AIN_SET and AIN_GET (R137) -/

section
variable {a : Ain} {now deb : Nat} {pol : Polarity}

theorem judge_stopped (h : a.timer = none) : a.judge now = a := by
  unfold Ain.judge
  rw [h]

theorem judge_reached {start : Nat} (h : a.timer = some start) (reached : start + a.debounce ≤ now) :
    a.judge now = { a with level := a.raw, timer := none } := by
  unfold Ain.judge
  rw [h]
  exact if_pos reached

theorem judge_runs {start : Nat} (h : a.timer = some start) (runs : now < start + a.debounce) : a.judge now = a := by
  unfold Ain.judge
  rw [h]
  exact if_neg (Nat.not_le.mpr runs)

theorem judge_frame (now : Nat) (a : Ain) : (a.judge now).polarity = a.polarity ∧ (a.judge now).debounce = a.debounce
    ∧ (a.judge now).pin = a.pin := by
  unfold Ain.judge Ain.expire
  split
  · split <;> exact ⟨rfl, rfl, rfl⟩
  · exact ⟨rfl, rfl, rfl⟩

theorem settle_frame (now : Nat) (old : Bool) (a : Ain) : (a.settle now old).polarity = a.polarity
    ∧ (a.settle now old).debounce = a.debounce ∧ (a.settle now old).pin = a.pin := by
  unfold Ain.settle
  repeat' split
  all_goals exact ⟨rfl, rfl, rfl⟩

/-- AIN_SET stores both fields and moves no pin. -/
theorem program_frame (now : Nat) (pol : Polarity) (deb : Nat) (a : Ain) :
    (a.program now pol deb).polarity = pol ∧ (a.program now pol deb).debounce = deb
      ∧ (a.program now pol deb).pin = a.pin := by
  unfold Ain.program
  obtain ⟨p, d, q⟩ := judge_frame now (Ain.settle now a.raw { a with polarity := pol, debounce := deb })
  obtain ⟨p', d', q'⟩ := settle_frame now a.raw { a with polarity := pol, debounce := deb }
  exact ⟨p.trans p', d.trans d', q.trans q'⟩

/-- The same polarity: only the running timer is judged. -/
theorem program_same (h : pol = a.polarity) : a.program now pol deb = ({ a with debounce := deb } : Ain).judge now := by
  subst h
  exact congrArg (Ain.judge now) (settle_unchanged rfl)

theorem program_stopped (h : pol = a.polarity) (stopped : a.timer = none) :
    a.program now pol deb = { a with debounce := deb } :=
  (program_same h).trans (judge_stopped stopped)

theorem program_reached {start : Nat} (h : pol = a.polarity) (runs : a.timer = some start)
    (reached : start + deb ≤ now) : a.program now pol deb = { a with debounce := deb, level := a.raw, timer := none } :=
  (program_same h).trans (judge_reached runs reached)

theorem program_runs {start : Nat} (h : pol = a.polarity) (runs : a.timer = some start)
    (early : now < start + deb) : a.program now pol deb = { a with debounce := deb } :=
  (program_same h).trans (judge_runs runs early)

/-- A new polarity inverts the raw level. -/
theorem raw_inverted (h : pol ≠ a.polarity) : ({ a with polarity := pol, debounce := deb } : Ain).raw = !a.raw := by
  unfold Ain.raw
  cases pol <;> cases e : a.polarity <;> simp [e] at h ⊢

theorem program_starts (h : pol ≠ a.polarity) (long : 0 < deb) (level : a.raw = a.level) :
    a.program now pol deb = { a with polarity := pol, debounce := deb, timer := some now } := by
  have raw := raw_inverted (deb := deb) h
  unfold Ain.program
  rw [settle_starts (by simp [raw]) long (by simp [raw, level])]
  exact judge_runs rfl (Nat.lt_add_of_pos_right long)

theorem program_stops (h : pol ≠ a.polarity) (long : 0 < deb) (level : a.raw ≠ a.level) :
    a.program now pol deb = { a with polarity := pol, debounce := deb, timer := none } := by
  have raw := raw_inverted (deb := deb) h
  unfold Ain.program
  rw [settle_back (by simp [raw]) long (by rw [raw]; exact Bool.not_eq.mpr level)]
  exact judge_stopped rfl

theorem program_at_once (h : pol ≠ a.polarity) (zero : deb = 0) :
    a.program now pol deb = { a with polarity := pol, debounce := deb, level := !a.raw, timer := none } := by
  have raw := raw_inverted (deb := deb) h
  unfold Ain.program
  rw [settle_at_once (by simp [raw]) zero, raw]
  exact judge_stopped rfl

end

theorem ainSet_refused {a : AinSetArgs} (s : State) (h : 6 ≤ a.input.toNat ∨ 2 ≤ a.polarity.toNat) :
    ainSet a s = refuse .badArg s := by
  unfold ainSet
  obtain h | h := h
  · rw [fin?_eq_none h]
  · rw [polarity_ofByte_eq_none h]
    split
    · next bad => exact nomatch bad
    · rfl

theorem ainSet_programs {a : AinSetArgs} (s : State) {i : Fin 6} (input : a.input.toNat = i.val)
    (polarity : a.polarity.toNat < 2) : ainSet a s = accept (a.polarity :: be 4 (debounceOf a.debounce))
      (updAin i (Ain.program (nowMs s) (if a.polarity = 0 then .highActive else .lowActive)
        (debounceOf a.debounce)) s) := by
  obtain ⟨pol, code⟩ := polarity_ofByte polarity
  unfold ainSet
  rw [fin?_eq_some input, pol]
  dsimp only
  rw [code]

theorem ainGet_refused {b : Byte} (s : State) (h : 6 ≤ b.toNat) : ainGet b s = refuse .badArg s := by
  unfold ainGet
  rw [fin?_eq_none h]

theorem ainGet_reads {b : Byte} (s : State) {i : Fin 6} (h : b.toNat = i.val) :
    ainGet b s = accept ([(s.ains.get i).polarity.byte] ++ be 4 (s.ains.get i).debounce
      ++ [boolByte (s.ains.get i).raw, boolByte (s.ains.get i).level, boolByte (s.ains.get i).timer.isSome]) s := by
  unfold ainGet
  rw [fin?_eq_some h]

/-- A delivered level changes no input, and each record as its own act makes it. -/
theorem deliverLevel_delivered (src : TermSource) (s : State) : (deliverLevel src s).ains = s.ains
    ∧ ∀ al, Delivered src s al (deliverLevel src s) :=
  ⟨ains_deliverLevel src s, deliverLevel_delivers src s⟩

/-- Settles O44: what each event makes of the input's record and, where the debounced level changes, the delivery. -/
theorem alertInputsDebounced : Obligations.AlertInputsDebounced := by
  unfold Obligations.AlertInputsDebounced
  refine ⟨fun i high s up => ?pin, fun i s up => ?expiry, fun tag a s => ⟨fun serves => ⟨fun bad => ?refused,
    fun i input polarity => ?set⟩, fun b serves => ⟨fun bad => ?unread, fun i input => ?read⟩⟩⟩
  case pin =>
    rw [exec_ainChange up]
    intro a raw put
    have reads : ({ a with pin := high } : Ain).raw = raw := raw_pin a high
    refine ⟨fun same => ?held, fun moves long => ⟨fun differs => ?starts, fun agrees => ?stops⟩, fun moves zero => ?_⟩
    case held =>
      subst same
      exact congrArg _ (updAin_settled (settle_unchanged rfl) rfl)
    case starts =>
      exact congrArg _ (updAin_settled (settle_starts (raw_pin_ne moves) long (by rw [reads]; exact differs)) rfl)
    case stops =>
      exact congrArg _ (updAin_settled (settle_back (raw_pin_ne moves) long (by rw [reads]; exact agrees)) rfl)
    have becomes : Ain.settle (nowMs s) a.raw { a with pin := high } =
        { a with pin := high, level := raw, timer := none } := by
      rw [settle_at_once (raw_pin_ne moves) zero, reads]
    exact ⟨fun agrees => congrArg _ (updAin_settled becomes agrees), fun differs =>
      ⟨congrArg _ (updAin_changed becomes differs), deliverLevel_delivered _ _⟩⟩
  case expiry =>
    rw [exec_debounceExpiry up]
    refine ⟨fun stopped => congrArg _ (debounceExpiry_stopped stopped), fun start runs => ?_⟩
    rw [debounceExpiry_runs runs]
    exact ⟨fun agrees => congrArg _ (updAin_settled rfl agrees), fun differs =>
      ⟨congrArg _ (updAin_changed rfl differs), deliverLevel_delivered _ _⟩⟩
  case refused => rw [exec_ainSet serves, ainSet_refused s bad, complete_refuse]
  case set =>
    intro pol deb old
    have programs : ainSet a s = accept (a.polarity :: be 4 deb) (updAin i (Ain.program (nowMs s) pol deb) s) :=
      ainSet_programs s input polarity
    rw [exec_ainSet serves, programs, complete_accept]
    have own : (updAin i (Ain.program (nowMs s) pol deb) s).ains.get i = old.program (nowMs s) pol deb := by
      rw [ains_updAin, Table.get_set, if_pos rfl]
    obtain ⟨hpol, hdeb, hpin⟩ := program_frame (nowMs s) pol deb old
    refine ⟨_, rfl, ?_⟩
    rw [own]
    refine ⟨hpol, hdeb, hpin, fun j ne => ?_, ⟨updAin_settled rfl, fun changed =>
      ⟨updAin_changed rfl changed, deliverLevel_delivered _ _⟩⟩, fun same stopped => ?_, fun new long agrees => ?_,
      fun new long differs => ?_, fun new zero => ?_, fun start same runs reached => ?_,
      fun start same runs early => ?_⟩
    · rw [ains_updAin, Table.get_set, if_neg ne.symm]
    · rw [program_stopped same stopped]
      exact ⟨rfl, stopped⟩
    · rw [program_starts new long agrees]
      exact ⟨rfl, rfl⟩
    · rw [program_stops new long differs]
      exact ⟨rfl, rfl⟩
    · rw [program_at_once new zero]
      exact ⟨rfl, rfl⟩
    · rw [program_reached (now := nowMs s) same runs reached]
      exact ⟨rfl, rfl⟩
    · rw [program_runs (now := nowMs s) same runs early]
      exact ⟨rfl, runs⟩
  case unread => rw [exec_ainGet serves, ainGet_refused s bad, complete_refuse]
  case read =>
    rw [exec_ainGet serves, ainGet_reads s input]
    rfl

end Sys2Proof.Proofs.AlertLevels
end

section
/-! SUPPORT. The Tally Unit (chapter 8): the output (R160), what triggers and the levels of alert records make of a
record (R147, R159, R161 to R163), and its timers. -/

namespace Sys2Proof.Proofs.TallyTrains

open Sys2Proof.Machine

/-! ## Pulse trains (R160 to R162) -/

/-- A REPEAT pulse starts: the phase timer runs to the next one, with a period of 0 it is stopped (R162; log 47). -/
def pulsed (now : Nat) (t : Tally) : Tally :=
  { t with
    phase := .pulsing, pulses := t.pulses ++ [now + t.onTime * 10]
    phaseDue := if t.period = 0 then none else some (now + t.period * 10) }

/-- A COUNT pulse starts, the `n`th of its train (R161; log 15). -/
def counted (now n : Nat) (t : Tally) : Tally :=
  { t with
    phase := .pulsing, started := n, pulses := t.pulses ++ [now + t.onTime * 10]
    phaseDue := some (if n < t.count then now + t.period * 10 else now + t.onTime * 10) }

/-- A train's delay starts (R161, R162). -/
def delayed (now : Nat) (t : Tally) : Tally :=
  { t with phase := .delay, started := 0, phaseDue := some (now + t.delay * 10) }

section
variable {now : Nat} {t : Tally}

theorem startPulse_count (h : t.mode = .count) :
    startPulse now t = counted now (if t.period = 0 then t.count else t.started + 1) t := by
  simp only [startPulse, counted, h]

theorem startPulse_repeating (h : t.mode = .repeating) : startPulse now t = pulsed now t := by
  simp only [startPulse, pulsed, h]

theorem startTrain_delayed (h : t.delay ≠ 0) : startTrain now t = delayed now t := if_neg h

theorem startTrain_count (mode : t.mode = .count) (delay : t.delay = 0) :
    startTrain now t = counted now (if t.period = 0 then t.count else 1) t :=
  (if_pos delay).trans (startPulse_count mode)

theorem startTrain_repeating (mode : t.mode = .repeating) (delay : t.delay = 0) :
    startTrain now t = pulsed now { t with started := 0 } :=
  (if_pos delay).trans (startPulse_repeating mode)

theorem countTrigger_ignored (h : t.phase ≠ .idle) : countTrigger now t = t := if_neg h

theorem countTrigger_starts (h : t.phase = .idle) : countTrigger now t = startTrain now t := if_pos h

/-- What keeps the output active between pulses (R160). -/
theorem unbroken_iff : t.unbroken = true ↔ t.phase = .pulsing ∧ 0 < t.period ∧ t.period ≤ t.onTime
    ∧ ((t.mode = .count ∧ t.started < t.count) ∨ t.mode = .repeating) := by
  unfold Tally.unbroken
  cases t.mode <;> simp [and_assoc]

theorem output_iff : t.output = true ↔ t.steady = true ∨ t.pulses ≠ [] ∨ t.unbroken = true := by
  unfold Tally.output
  simp [or_assoc]

theorem pin_eq : t.pin = if t.polarity = .highActive then t.output else !t.output := by
  unfold Tally.pin
  cases t.polarity <;> rfl

end

/-! ## Triggers (R159, R161) -/

theorem admits_iff {t : Tally} {i : Nat} : t.admits i = true ↔ t.selector = none ∨ t.selector = some i := by
  unfold Tally.admits
  cases t.selector <;> simp

theorem deliverTrigger_get (k : TallyKind) (i : Fin 64) (s : State) (o : Fin 4) :
    (deliverTrigger k i s).tallies.get o =
      if (s.tallies.get o).kind = k ∧ ((s.tallies.get o).selector = none ∨ (s.tallies.get o).selector = some i.val)
      then countTrigger (nowMs s) (s.tallies.get o) else s.tallies.get o := by
  simp only [← admits_iff]
  exact Table.get_mapIdx _ s.tallies o

/-! ## Levels of alert records (R147, R159) -/

/-- The record's level of its kind is high (R147). -/
def IsHigh (k : TallyKind) (r : Alert) : Prop :=
  (k = .alertQualifying ∧ r.state = .qualifying) ∨ (k = .alertActive ∧ (r.state = .active ∨ r.state = .releasing))

theorem alertLevel_iff {k : TallyKind} {r : Alert} : alertLevel k r = true ↔ IsHigh k r := by
  unfold alertLevel IsHigh
  cases k <;> simp

theorem isLevel_iff {k : TallyKind} : k.isLevel = true ↔ k = .alertQualifying ∨ k = .alertActive := by
  cases k <;> simp [TallyKind.isLevel]

theorem sourceLevel_iff {t : Tally} {alerts : Table Alert 16} : sourceLevel t alerts = true ↔
    ∃ a : Fin 16, (t.selector = none ∨ t.selector = some a.val) ∧ IsHigh t.kind (alerts.get a) := by
  unfold sourceLevel
  simp [admits_iff, alertLevel_iff]

theorem deliverLevels_get (old : Table Alert 16) (s : State) (o : Fin 4) :
    (deliverLevels old s).tallies.get o = tallyFollow (nowMs s) old s.alerts (s.tallies.get o) :=
  Table.get_mapIdx _ s.tallies o

section
variable {now : Nat} {old new : Table Alert 16} {t : Tally}

theorem follow_no_level (h : t.kind.isLevel = false) : tallyFollow now old new t = t := by
  unfold tallyFollow
  rw [h]
  rfl

/-- An admitted record's level rises. -/
def Rises (old new : Table Alert 16) (t : Tally) : Prop :=
  ∃ a : Fin 16, (t.selector = none ∨ t.selector = some a.val) ∧ ¬ IsHigh t.kind (old.get a) ∧ IsHigh t.kind (new.get a)

theorem rises_iff : Rises old new t ↔ ((List.finRange 16).any fun a =>
    t.admits a.val && !alertLevel t.kind (old.get a) && alertLevel t.kind (new.get a)) = true := by
  unfold Rises
  simp only [List.any_eq_true, List.mem_finRange, true_and, Bool.and_eq_true, Bool.not_eq_true', admits_iff,
    ← alertLevel_iff, Bool.not_eq_true, and_assoc]

theorem follow_count_rise (level : t.kind.isLevel = true) (mode : t.mode = .count) (h : Rises old new t) :
    tallyFollow now old new t = countTrigger now t := by
  unfold tallyFollow
  rw [if_pos level]
  simp only [mode]
  exact if_pos (rises_iff.mp h)

theorem follow_count_still (level : t.kind.isLevel = true) (mode : t.mode = .count) (h : ¬ Rises old new t) :
    tallyFollow now old new t = t := by
  unfold tallyFollow
  rw [if_pos level]
  simp only [mode]
  exact if_neg (mt rises_iff.mpr h)

theorem follow_same (level : t.kind.isLevel = true) (mode : t.mode ≠ .count)
    (h : sourceLevel t old = sourceLevel t new) : tallyFollow now old new t = t := by
  unfold tallyFollow
  rw [if_pos level, h]
  cases e : t.mode with
  | count => exact absurd e mode
  | repeating => cases sourceLevel t new <;> rfl
  | steady => exact if_pos rfl

theorem follow_repeating_rise (level : t.kind.isLevel = true) (mode : t.mode = .repeating)
    (was : ¬ sourceLevel t old = true) (is : sourceLevel t new = true) :
    tallyFollow now old new t = repeatRise now t := by
  unfold tallyFollow
  simp only [if_pos level, mode, Bool.eq_false_iff.mpr was, is]

theorem follow_repeating_fall (level : t.kind.isLevel = true) (mode : t.mode = .repeating)
    (was : sourceLevel t old = true) (is : ¬ sourceLevel t new = true) :
    tallyFollow now old new t = repeatFall t := by
  unfold tallyFollow
  simp only [if_pos level, mode, was, Bool.eq_false_iff.mpr is]

theorem follow_steady (level : t.kind.isLevel = true) (mode : t.mode = .steady)
    (h : sourceLevel t old ≠ sourceLevel t new) :
    tallyFollow now old new t = steadyFollow now (sourceLevel t new) t := by
  unfold tallyFollow
  simp only [if_pos level, mode, if_neg h]

/-! ## A REPEAT record (R162) -/

theorem repeatRise_starts (h : t.phase = .idle ∨ t.phase = .finishing) : repeatRise now t = startTrain now t := by
  unfold repeatRise
  obtain e | e := h <;> simp only [e]

theorem repeatRise_running (h : t.phase = .delay ∨ t.phase = .pulsing) : repeatRise now t = t := by
  unfold repeatRise
  obtain e | e := h <;> simp only [e]

theorem repeatFall_delay (h : t.phase = .delay) : repeatFall t = { t with phase := .idle, phaseDue := none } := by
  unfold repeatFall
  simp only [h]

theorem repeatFall_between (h : t.phase = .pulsing) (done : t.pulses = []) :
    repeatFall t = { t with phase := .idle, phaseDue := none } := by
  unfold repeatFall
  simp [h, done]

theorem repeatFall_in_pulse {front : List Nat} {last : Nat} (h : t.phase = .pulsing)
    (pulses : t.pulses = front ++ [last]) : repeatFall t = { t with phase := .finishing, phaseDue := some last } := by
  unfold repeatFall latestEnd
  simp [h, pulses]

theorem repeatFall_ended (h : t.phase = .idle ∨ t.phase = .finishing) : repeatFall t = t := by
  unfold repeatFall
  obtain e | e := h <;> simp only [e]

/-! ## A STEADY record (R163) -/

theorem steadyFollow_returns {level : Bool} (h : level = t.steady) :
    steadyFollow now level t = { t with edge := none } := if_pos h

theorem steadyFollow_at_once {level : Bool} (h : level ≠ t.steady) (delay : t.delay = 0) :
    steadyFollow now level t = { t with steady := level, edge := none } := by
  unfold steadyFollow
  rw [if_neg h, if_pos delay]

theorem steadyFollow_delays {level : Bool} (h : level ≠ t.steady) (delay : t.delay ≠ 0) (edge : t.edge = none) :
    steadyFollow now level t = { t with edge := some ⟨level, now + t.delay * 10⟩ } := by
  unfold steadyFollow
  rw [if_neg h, if_neg delay]
  simp only [edge]

theorem steadyFollow_pending {level : Bool} (h : level ≠ t.steady) (delay : t.delay ≠ 0) (edge : t.edge ≠ none) :
    steadyFollow now level t = t := by
  unfold steadyFollow
  rw [if_neg h, if_neg delay]
  cases e : t.edge with
  | none => exact absurd e edge
  | some _ => rfl

end

/-! ## Timers (log 3) -/

section
variable {now : Nat} {t : Tally}

theorem phaseExpiry_delay (h : t.phase = .delay) : phaseExpiry now t = startPulse now t := by
  unfold phaseExpiry
  simp only [h]

theorem phaseExpiry_next (h : t.phase = .pulsing) (mode : t.mode = .count) (more : t.started < t.count) :
    phaseExpiry now t = startPulse now t := by
  unfold phaseExpiry
  simp only [h, mode, if_pos more]

theorem phaseExpiry_last (h : t.phase = .pulsing) (mode : t.mode = .count) (last : t.count ≤ t.started) :
    phaseExpiry now t = t := by
  unfold phaseExpiry
  simp only [h, mode, if_neg (Nat.not_lt.mpr last)]

theorem phaseExpiry_repeats {due : Nat} (h : t.phase = .pulsing) (mode : t.mode = .repeating)
    (runs : t.phaseDue = some due) : phaseExpiry now t = startPulse now t := by
  unfold phaseExpiry
  simp only [h, mode, runs, Option.isSome_some, if_true]

theorem phaseExpiry_ended (h : t.phase = .idle ∨ t.phase = .finishing) : phaseExpiry now t = t := by
  unfold phaseExpiry
  obtain e | e := h <;> simp only [e]

theorem pulseEnd_more {due : Nat} {rest : List Nat} (h : t.pulses = due :: rest) (more : rest ≠ []) :
    pulseEnd t = { t with pulses := rest } := by
  unfold pulseEnd
  simp [h, more]

theorem pulseEnd_goes_on {due : Nat} (h : t.pulses = [due]) (phase : t.phase = .pulsing)
    (mode : t.mode = .repeating ∨ (t.mode = .count ∧ t.started < t.count)) : pulseEnd t = { t with pulses := [] } := by
  unfold pulseEnd
  obtain mode | ⟨mode, more⟩ := mode
  · simp [h, phase, mode]
  · simp [h, phase, mode, more]

theorem pulseEnd_left_over {due : Nat} (h : t.pulses = [due]) (phase : t.phase = .delay ∨ t.phase = .idle) :
    pulseEnd t = { t with pulses := [] } := by
  unfold pulseEnd
  obtain phase | phase := phase <;> simp [h, phase]

theorem pulseEnd_count_over {due : Nat} (h : t.pulses = [due]) (phase : t.phase = .pulsing) (mode : t.mode = .count)
    (last : t.count ≤ t.started) :
    pulseEnd t = { t with pulses := [], phase := .idle, started := 0, phaseDue := none } := by
  unfold pulseEnd
  simp [h, phase, mode, Nat.not_lt.mpr last]

theorem pulseEnd_finishes {due : Nat} (h : t.pulses = [due]) (phase : t.phase = .finishing) :
    pulseEnd t = { t with pulses := [], phase := .idle, phaseDue := none } := by
  unfold pulseEnd
  simp [h, phase]

theorem edgeExpiry_sets {e : Edge} (h : t.edge = some e) :
    edgeExpiry t = { t with steady := e.level, edge := none } := by
  unfold edgeExpiry
  rw [h]

end

section
variable {o : Fin 4} {s : State}

theorem updTally_reachMs (o : Fin 4) (f : Tally → Tally) (n : Nat) (s : State) : updTally o f (reachMs n s) =
    { s with refCount := countAt n s, tallies := s.tallies.set o (f (s.tallies.get o)) } := by
  rw [reachMs_eq]
  rfl

theorem tallyPhaseExpiry_stopped (h : (s.tallies.get o).phaseDue = none) : tallyPhaseExpiry o s = s := by
  unfold tallyPhaseExpiry
  rw [h]

theorem tallyPhaseExpiry_runs {due : Nat} (h : (s.tallies.get o).phaseDue = some due) : tallyPhaseExpiry o s =
    { s with
      refCount := countAt due s
      tallies := s.tallies.set o (phaseExpiry (countAt due s / 27000) (s.tallies.get o)) } := by
  unfold tallyPhaseExpiry
  rw [h]
  exact (updTally_reachMs o _ due s).trans (by rw [reachMs_eq]; rfl)

theorem tallyPulseEnd_stopped (h : (s.tallies.get o).pulses = []) : tallyPulseEnd o s = s := by
  unfold tallyPulseEnd
  rw [h]

theorem tallyPulseEnd_runs {due : Nat} {rest : List Nat} (h : (s.tallies.get o).pulses = due :: rest) :
    tallyPulseEnd o s =
      { s with refCount := countAt due s, tallies := s.tallies.set o (pulseEnd (s.tallies.get o)) } := by
  unfold tallyPulseEnd
  rw [h]
  exact updTally_reachMs o pulseEnd due s

theorem tallyEdgeExpiry_stopped (h : (s.tallies.get o).edge = none) : tallyEdgeExpiry o s = s := by
  unfold tallyEdgeExpiry
  rw [h]

theorem tallyEdgeExpiry_runs {e : Edge} (h : (s.tallies.get o).edge = some e) : tallyEdgeExpiry o s =
    { s with refCount := countAt e.due s, tallies := s.tallies.set o (edgeExpiry (s.tallies.get o)) } := by
  unfold tallyEdgeExpiry
  rw [h]
  exact updTally_reachMs o edgeExpiry e.due s

theorem exec_tallyPhaseTimerExpiry (h : s.resetLow = false) :
    exec (.tallyPhaseTimerExpiry o) s = .next (tallyPhaseExpiry o s) := congrArg Host.Outcome.next (live_of_high h)

theorem exec_tallyPulseEnd (h : s.resetLow = false) :
    exec (.tallyPulseEnd o) s = .next (tallyPulseEnd o s) := congrArg Host.Outcome.next (live_of_high h)

theorem exec_tallyPendingEdgeExpiry (h : s.resetLow = false) :
    exec (.tallyPendingEdgeExpiry o) s = .next (tallyEdgeExpiry o s) := congrArg Host.Outcome.next (live_of_high h)

end

/-- Settles O50: by the phase and mode of a record, one lemma for each thing that can happen to it. -/
theorem tallyTrains : Obligations.TallyTrains := by
  unfold Obligations.TallyTrains
  refine ⟨fun t => ?output, fun now t mode => ?counts, fun k i s => ?triggered, fun old s o => ?follows,
    fun o s up => ?timers⟩
  case output =>
    exact ⟨by rw [output_iff, unbroken_iff], pin_eq⟩
  case counts =>
    refine ⟨countTrigger_ignored, fun idle delay => ?_, fun idle delay => ?_⟩
    · exact (countTrigger_starts idle).trans (startTrain_delayed delay)
    · exact (countTrigger_starts idle).trans (startTrain_count mode delay)
  case triggered =>
    refine ⟨rfl, fun o => ⟨fun reached => ?_, fun unreached => ?_⟩⟩
    · exact (deliverTrigger_get k i s o).trans (if_pos reached)
    · exact (deliverTrigger_get k i s o).trans (if_neg unreached)
  case follows =>
    intro now x after high admitted was is
    have becomes : after = tallyFollow now old s.alerts x := deliverLevels_get old s o
    have was_iff : was ↔ sourceLevel x old = true := sourceLevel_iff.symm
    have is_iff : is ↔ sourceLevel x s.alerts = true := sourceLevel_iff.symm
    have same_iff : (was ↔ is) ↔ sourceLevel x old = sourceLevel x s.alerts :=
      (iff_congr was_iff is_iff).trans Bool.eq_iff_iff.symm
    rw [becomes]
    refine ⟨fun calm quiet => follow_no_level (Bool.eq_false_iff.mpr fun level =>
      (isLevel_iff.mp level).elim calm quiet), fun kind => ?_⟩
    have level : x.kind.isLevel = true := isLevel_iff.mpr kind
    refine ⟨fun mode => ⟨follow_count_rise level mode, fun still => ?unraised⟩, fun mode => ⟨fun same => ?flat,
      fun low rises => ?rise, fun high falls => ?fall⟩, fun mode => ⟨fun same => ?flat',
      fun new changes new_iff => ?steady⟩⟩
    case unraised => exact follow_count_still level mode fun ⟨a, admitted, low, high⟩ => low (still a admitted high)
    case flat => exact follow_same level (by simp [mode]) (same_iff.mp same)
    case flat' => exact follow_same level (by simp [mode]) (same_iff.mp same)
    case rise =>
      rw [follow_repeating_rise level mode (mt was_iff.mpr low) (is_iff.mp rises)]
      refine ⟨fun resting => ?_, repeatRise_running⟩
      rw [repeatRise_starts resting]
      exact ⟨startTrain_delayed, startTrain_repeating mode⟩
    case fall =>
      rw [follow_repeating_fall level mode (was_iff.mp high) (mt is_iff.mpr falls)]
      exact ⟨repeatFall_delay, repeatFall_between, fun phase _ _ => repeatFall_in_pulse phase, repeatFall_ended⟩
    case steady =>
      obtain rfl : new = sourceLevel x s.alerts := Bool.eq_iff_iff.mpr (new_iff.trans is_iff)
      rw [follow_steady level mode (mt same_iff.mpr changes)]
      exact ⟨steadyFollow_returns, steadyFollow_at_once, fun differs delay =>
        ⟨steadyFollow_delays differs delay, steadyFollow_pending differs delay⟩⟩
  case timers =>
    rw [exec_tallyPhaseTimerExpiry up, exec_tallyPulseEnd up, exec_tallyPendingEdgeExpiry up]
    intro t put
    refine ⟨fun stopped => congrArg _ (tallyPhaseExpiry_stopped stopped), fun due runs => ?phase,
      fun empty => congrArg _ (tallyPulseEnd_stopped empty), fun due rest runs => ?pulse,
      fun empty => congrArg _ (tallyEdgeExpiry_stopped empty), fun e runs => ?edge⟩
    case phase =>
      rw [tallyPhaseExpiry_runs runs]
      intro n turns
      have turn {x : Tally} (h : phaseExpiry (n / 27000) t = x) : turns x :=
        congrArg (fun x => Host.Outcome.next (put n x)) h
      refine ⟨fun phase mode started => turn ?_, fun phase mode => turn ?_, fun phase mode period more => turn ?_,
        fun phase mode _ => turn ?_, fun phase mode last => turn (phaseExpiry_last phase mode last),
        fun ended => turn (phaseExpiry_ended ended)⟩
      · rw [phaseExpiry_delay phase, startPulse_count mode, started]
        rfl
      · exact (phaseExpiry_delay phase).trans (startPulse_repeating mode)
      · rw [phaseExpiry_next phase mode more, startPulse_count mode, if_neg period]
        rfl
      · exact (phaseExpiry_repeats phase mode runs).trans (startPulse_repeating mode)
    case pulse =>
      rw [tallyPulseEnd_runs runs]
      intro n
      have ends {x : Tally} (h : pulseEnd t = x) :
          (.next (put n (pulseEnd t)) : Host.Outcome State Fault Refusal) = .next (put n x) :=
        congrArg (fun x => Host.Outcome.next (put n x)) h
      refine ⟨fun more => ends (pulseEnd_more runs more), fun last phase mode => ends ?_, fun last phase => ends ?_,
        fun last phase mode done => ends ?_, fun last phase => ends ?_⟩
      all_goals subst last
      · exact pulseEnd_goes_on runs phase mode
      · exact pulseEnd_left_over runs phase
      · exact pulseEnd_count_over runs phase mode done
      · exact pulseEnd_finishes runs phase
    case edge => rw [tallyEdgeExpiry_runs runs, edgeExpiry_sets runs]

end Sys2Proof.Proofs.TallyTrains
end

section
/-! SUPPORT. The requests on tallies (chapter 8): what TALLY_SET checks, programs and stores, and what TALLY_GET reads
(R164, R165). -/

namespace Sys2Proof.Proofs.TallyRequests

open Sys2Proof.Machine
open Sys2Proof.Proofs.TallyTrains

/-! ## Codes of a tally configuration (R189) -/

theorem kind_ofByte_iff {b : Byte} {k : TallyKind} : TallyKind.ofByte b = some k ↔ b = k.byte := by
  constructor
  · intro h
    unfold TallyKind.ofByte at h
    repeat' split at h
    all_goals cases h <;> assumption
  · rintro rfl
    cases k <;> rfl

theorem mode_ofByte_iff {b : Byte} {m : TallyMode} : TallyMode.ofByte b = some m ↔ b = m.byte := by
  constructor
  · intro h
    unfold TallyMode.ofByte at h
    repeat' split at h
    all_goals cases h <;> assumption
  · rintro rfl
    cases m <;> rfl

theorem polarity_ofByte_iff {b : Byte} {p : Polarity} : Polarity.ofByte b = some p ↔ b = p.byte := by
  constructor
  · intro h
    unfold Polarity.ofByte at h
    repeat' split at h
    all_goals cases h <;> assumption
  · rintro rfl
    cases p <;> rfl

theorem kind_byte_lt (k : TallyKind) : k.byte.toNat < 6 := by cases k <;> decide

theorem mode_byte_lt (m : TallyMode) : m.byte.toNat < 3 := by cases m <;> decide

theorem polarity_byte_lt (p : Polarity) : p.byte.toNat < 2 := by cases p <;> decide

theorem kind_byte_injective {j k : TallyKind} (h : j.byte = k.byte) : j = k :=
  Option.some.inj ((kind_ofByte_iff.mpr rfl).symm.trans (kind_ofByte_iff.mpr h))

theorem clampNat_eq {lo hi : Nat} (h : lo ≤ hi) (v : BitVec 32) :
    clampNat lo hi v = (max (lo : Int) (min (hi : Int) v.toInt)).toNat := by
  unfold clampNat clampInt
  congr 1
  split
  · omega
  · split <;> omega

/-! ## The checks (R164) -/

/-- Check 2: a selector byte that suits the kind, and the selector it gives. -/
def SelectorSuits (k : TallyKind) (b : Byte) (sel : Option Nat) : Prop :=
  ((b = 0xFE ∨ k = .none) ∧ sel = none)
    ∨ (((k = .spliceOut ∨ k = .ret) ∧ b.toNat < 64 ∨ k.isLevel = true ∧ b.toNat < 16) ∧ sel = some b.toNat)

/-- ANY or an index: the indices end below 0xFE, so that a byte is read in one way only. -/
theorem any_or_index_iff {n : Nat} {b : Byte} {sel : Option Nat} (small : n ≤ 0xFE) :
    (if b = 0xFE then some none else none).or ((fin? n b).map fun i => some i.val) = some sel
      ↔ (b = 0xFE ∧ sel = none) ∨ (b.toNat < n ∧ sel = some b.toNat) := by
  by_cases any : b = 0xFE
  · subst any
    have out : ¬ (0xFE : Byte).toNat < n := Nat.not_lt.mpr small
    simp only [if_true, Option.some_or, Option.some.injEq, out, false_and, or_false, true_and, eq_comm]
  · unfold fin?
    simp only [any, if_false, Option.none_or, false_and, false_or]
    split
    · next inside => simp [inside, eq_comm]
    · next out => simp [out]

theorem selectorArg_iff {k : TallyKind} {b : Byte} {sel : Option Nat} :
    selectorArg k b = some sel ↔ SelectorSuits k b sel := by
  unfold selectorArg SelectorSuits
  cases k with
  | none => simp [TallyKind.isLevel, eq_comm]
  | cueHeld => simp [TallyKind.isLevel, eq_comm]
  | spliceOut | ret => exact (any_or_index_iff (by decide)).trans (by simp [TallyKind.isLevel])
  | alertQualifying | alertActive => exact (any_or_index_iff (by decide)).trans (by simp [TallyKind.isLevel])

theorem modeSuits_iff {k : TallyKind} {m : TallyMode} :
    modeSuits k m = true ↔ m = .count ∨ k.isLevel = true ∨ k = .none := by
  unfold modeSuits
  simp [or_assoc]

/-- The request passes checks 1 to 3, with the kind, mode, polarity and selector that its bytes give. -/
structure Configures (a : TallySetArgs) (k : TallyKind) (m : TallyMode) (pol : Polarity) (sel : Option Nat) : Prop where
  kind : a.kind = k.byte
  mode : a.mode = m.byte
  polarity : a.polarity = pol.byte
  selector : SelectorSuits k a.selector sel
  suits : m = .count ∨ k.isLevel = true ∨ k = .none

/-- The record the request programs: its values clamped, on a stopped output. -/
def programmed (a : TallySetArgs) (k : TallyKind) (m : TallyMode) (pol : Polarity) (sel : Option Nat) : Tally :=
  { kind := k, selector := sel, mode := m, count := (max 1 (min 15 a.count.toInt)).toNat
    delay := (max 0 (min 255 a.delay.toInt)).toNat
    onTime := (max 1 (min 255 a.onTime.toInt)).toNat
    period := (max 0 (min 255 a.period.toInt)).toNat
    polarity := pol, phase := .idle, started := 0, phaseDue := none, pulses := [], edge := none
    steady := false }

section
variable {a : TallySetArgs} {k j : TallyKind} {m : TallyMode} {pol : Polarity} {sel : Option Nat} {t x : Tally}

theorem Configures.kind_eq (c : Configures a k m pol sel) (h : a.kind = j.byte) : k = j :=
  kind_byte_injective (c.kind.symm.trans h)

/-- Bytes of no kind, mode or polarity pass no check (check 1). -/
theorem Configures.codes_lt (c : Configures a k m pol sel) :
    a.kind.toNat < 6 ∧ a.mode.toNat < 3 ∧ a.polarity.toNat < 2 := by
  rw [c.kind, c.mode, c.polarity]
  exact ⟨kind_byte_lt k, mode_byte_lt m, polarity_byte_lt pol⟩

/-- A trigger kind that names a service takes an index below 64 or ANY (check 2). -/
theorem Configures.trigger_selector (c : Configures a k m pol sel) (h : a.kind = 1 ∨ a.kind = 2) :
    a.selector = 0xFE ∨ a.selector.toNat < 64 := by
  have trigger : k = .spliceOut ∨ k = .ret := h.imp c.kind_eq c.kind_eq
  obtain ⟨any | rfl, -⟩ | ⟨⟨-, index⟩ | ⟨-, index⟩, -⟩ := c.selector
  · exact .inl any
  · exact trigger.elim nofun nofun
  · exact .inr index
  · exact .inr (Nat.lt_trans index (by decide))

/-- A level kind takes the index of an alert record or ANY (check 2). -/
theorem Configures.level_selector (c : Configures a k m pol sel) (h : a.kind = 4 ∨ a.kind = 5) :
    a.selector = 0xFE ∨ a.selector.toNat < 16 := by
  have level : k.isLevel = true := isLevel_iff.mpr (h.imp c.kind_eq c.kind_eq)
  obtain ⟨any | rfl, -⟩ | ⟨⟨rfl | rfl, -⟩ | ⟨-, index⟩, -⟩ := c.selector
  · exact .inl any
  · exact absurd level Bool.false_ne_true
  · exact absurd level Bool.false_ne_true
  · exact absurd level Bool.false_ne_true
  · exact .inr index

/-- CUE_HELD takes ANY only (check 2). -/
theorem Configures.cueHeld_selector (c : Configures a k m pol sel) (h : a.kind = 3) : a.selector = 0xFE := by
  obtain rfl : k = .cueHeld := c.kind_eq h
  obtain ⟨any | none, -⟩ | ⟨⟨spliceOut | ret, -⟩ | ⟨level, -⟩, -⟩ := c.selector
  · exact any
  · exact nomatch none
  · exact nomatch spliceOut
  · exact nomatch ret
  · exact absurd level Bool.false_ne_true

/-- The trigger kinds go with COUNT only (check 3). -/
theorem Configures.trigger_mode (c : Configures a k m pol sel) (h : a.kind = 1 ∨ a.kind = 2 ∨ a.kind = 3) :
    a.mode = 0 := by
  have suits := c.suits
  obtain rfl | rfl | rfl : k = .spliceOut ∨ k = .ret ∨ k = .cueHeld := h.imp c.kind_eq (.imp c.kind_eq c.kind_eq)
  all_goals
    obtain rfl : m = .count := by simpa [TallyKind.isLevel] using suits
    exact c.mode

theorem tallyOf_configured (c : Configures a k m pol sel) : tallyOf a t = some (programmed a k m pol sel) := by
  unfold tallyOf
  rw [kind_ofByte_iff.mpr c.kind, mode_ofByte_iff.mpr c.mode, polarity_ofByte_iff.mpr c.polarity]
  simp only [Option.bind_eq_bind, Option.bind_some, selectorArg_iff.mpr c.selector, modeSuits_iff.mpr c.suits, if_true]
  rw [clampNat_eq (by decide), clampNat_eq (by decide), clampNat_eq (by decide), clampNat_eq (by decide)]
  rfl

theorem configures_of_tallyOf (h : tallyOf a t = some x) : ∃ k m pol sel, Configures a k m pol sel := by
  simp only [tallyOf, Option.bind_eq_bind, Option.bind_eq_some_iff, Option.ite_none_right_eq_some] at h
  obtain ⟨k, kind, m, mode, pol, polarity, sel, selector, suits, -⟩ := h
  exact ⟨k, m, pol, sel, kind_ofByte_iff.mp kind, mode_ofByte_iff.mp mode, polarity_ofByte_iff.mp polarity,
    selectorArg_iff.mp selector, modeSuits_iff.mp suits⟩

end

/-! ## The look at the source level (R164) -/

section
variable {now : Nat} {alerts : Table Alert 16} {t : Tally}

theorem tallyLook_still (h : t.kind.isLevel = false ∨ sourceLevel t alerts = false ∨ t.mode = .count) :
    tallyLook now alerts t = t := by
  unfold tallyLook
  obtain h | h | h := h
  · rw [h]; rfl
  · rw [h, Bool.and_false]; rfl
  · rw [h]; exact ite_self t

theorem tallyLook_repeating (level : t.kind.isLevel = true) (high : sourceLevel t alerts = true)
    (mode : t.mode = .repeating) : tallyLook now alerts t = startTrain now t := by
  unfold tallyLook
  rw [level, high, mode]
  rfl

theorem tallyLook_steady (level : t.kind.isLevel = true) (high : sourceLevel t alerts = true)
    (mode : t.mode = .steady) : tallyLook now alerts t = steadyFollow now true t := by
  unfold tallyLook
  rw [level, high, mode]
  rfl

end

/-! ## The requests -/

section
variable {tag : Byte} {a : TallySetArgs} {b : Byte} {o : Fin 4} {s : State}

theorem tallySet_refused (s : State)
    (h : 4 ≤ a.output.toNat ∨ ∀ k m pol sel, ¬ Configures a k m pol sel) : tallySet a s = refuse .badArg s := by
  unfold tallySet
  obtain h | h := h
  · rw [fin?_eq_none h]
  · split
    · rfl
    · next o _ =>
      have unprogrammed : tallyOf a (s.tallies.get o) = none := Option.eq_none_iff_forall_ne_some.mpr fun x e =>
        let ⟨k, m, pol, sel, c⟩ := configures_of_tallyOf e
        h k m pol sel c
      rw [unprogrammed]

/-- The record is stored as it looks at its source level, and answered as stored. -/
theorem tallySet_stores {k : TallyKind} {m : TallyMode} {pol : Polarity} {sel : Option Nat} {x : Tally}
    (output : a.output.toNat = o.val) (c : Configures a k m pol sel)
    (looks : tallyLook (nowMs s) s.alerts (programmed a k m pol sel) = x) :
    tallySet a s = accept (tallyConfig o x ++ tallyLive (nowMs s) s.alerts x)
      { s with tallies := s.tallies.set o x } := by
  subst looks
  unfold tallySet
  rw [fin?_eq_some output]
  dsimp only
  rw [tallyOf_configured c]
  simp only [tallyBody, tallies_updTally, Table.get_set, if_true]
  rfl

theorem tallyGet_refused (s : State) (h : 4 ≤ b.toNat) : tallyGet b s = refuse .badArg s := by
  unfold tallyGet
  rw [fin?_eq_none h]

theorem tallyGet_reads (s : State) (h : b.toNat = o.val) : tallyGet b s = accept (tallyBody o s) s := by
  unfold tallyGet
  rw [fin?_eq_some h]

end

/-- Settles O49: the checks by what a request that passes them must hold, the record by its look at the source level. -/
theorem tallySetAndGet : Obligations.TallySetAndGet := by
  unfold Obligations.TallySetAndGet
  refine fun tag a s => ⟨fun serves => ?set, fun b serves => ?get⟩
  case get =>
    rw [exec_tallyGet serves]
    exact ⟨fun bad => by rw [tallyGet_refused s bad, complete_refuse], fun o output => by
      rw [tallyGet_reads s output, complete_accept]; rfl⟩
  case set =>
    rw [exec_tallySet serves]
    intro refused
    have refuses (h : 4 ≤ a.output.toNat ∨ ∀ k m pol sel, ¬ Configures a k m pol sel) : refused :=
      congrArg (Host.Outcome.next ∘ complete tag kTallySet) (tallySet_refused s h)
    refine ⟨fun bad => refuses (bad.imp_right fun bad k m pol sel c => ?codes),
      fun kind out named => refuses (.inr fun k m pol sel c => ?trigger),
      fun kind out named => refuses (.inr fun k m pol sel c => ?level),
      fun kind named => refuses (.inr fun k m pol sel c => named (c.cueHeld_selector kind)),
      fun kind mode => refuses (.inr fun k m pol sel c => mode (c.trigger_mode kind)),
      fun o k m pol sel output kind mode polarity selector suits => ?_⟩
    case codes =>
      have := c.codes_lt
      omega
    case trigger => exact (c.trigger_selector kind).elim named (Nat.not_lt.mpr out)
    case level => exact (c.level_selector kind).elim named (Nat.not_lt.mpr out)
    intro t₀ now put
    have stores {x : Tally} (looks : tallyLook now s.alerts t₀ = x) : put x :=
      congrArg (Host.Outcome.next ∘ complete tag kTallySet)
        (tallySet_stores output ⟨kind, mode, polarity, selector, suits⟩ looks)
    refine ⟨fun still => stores (tallyLook_still still), fun level high repeats => ?repeating,
      fun level high steady => ?steady⟩
    case repeating =>
      have starts : tallyLook now s.alerts t₀ = startTrain now t₀ := tallyLook_repeating level high repeats
      have pulses (delay : t₀.delay = 0) : tallyLook now s.alerts t₀ = pulsed now t₀ :=
        starts.trans (startTrain_repeating repeats delay)
      refine ⟨fun delay => stores (starts.trans (startTrain_delayed delay)), fun delay period => stores ?_,
        fun delay period => stores ?_⟩
      · rw [pulses delay, pulsed, if_neg period]
        rfl
      · rw [pulses delay, pulsed, if_pos period]
        rfl
    case steady =>
      have follows : tallyLook now s.alerts t₀ = steadyFollow now true t₀ := tallyLook_steady level high steady
      have rises : true ≠ t₀.steady := Bool.false_ne_true.symm
      exact ⟨fun delay => stores (follows.trans (steadyFollow_delays rises delay rfl)),
        fun delay => stores (follows.trans (steadyFollow_at_once rises delay))⟩

end Sys2Proof.Proofs.TallyRequests
end

section
/-! SUPPORT. The attention set and the gap (sections 9.1 and 9.3): when the set is non-empty, and that every step keeps
each source to the kinds it may hold, and a gap to PULSE mode with causes pending. -/

namespace Sys2Proof.Proofs.AttentionSet

open Sys2Proof.Machine
open Sys2Proof.Proofs.AlertCoverage (amendService_only amendArmed_only applyAmendment_only)

/-! ## The set as a whole -/

theorem attnNonEmpty_iff {s : State} : attnNonEmpty s = true ↔ ∃ src, s.attn.get src ≠ 0#9 := by
  unfold attnNonEmpty
  simp only [List.any_eq_true, bne_iff_ne]
  constructor
  · rintro ⟨k, mem, ne⟩
    obtain ⟨n, lt, rfl⟩ := List.getElem_of_mem mem
    exact ⟨⟨n, s.attn.size_eq ▸ lt⟩, ne⟩
  · rintro ⟨src, ne⟩
    exact ⟨_, List.get_mem _ _, ne⟩

theorem attnNonEmpty_eq_false_iff {s : State} : attnNonEmpty s = false ↔ ∀ src, s.attn.get src = 0#9 := by
  rw [← Bool.not_eq_true, attnNonEmpty_iff]
  simp only [not_exists, ne_eq, Classical.not_not]

theorem attnNonEmpty_grows {s t : State} (h : Grows s t) (ne : attnNonEmpty s = true) : attnNonEmpty t = true := by
  obtain ⟨src, held⟩ := attnNonEmpty_iff.mp ne
  obtain ⟨added, union, -⟩ := h src
  refine attnNonEmpty_iff.mpr ⟨src, fun empty => held ?_⟩
  rw [union, BitVec.or_eq_zero_iff] at empty
  exact empty.1

/-- Growth by kinds that each source may hold leaves every source with such kinds only. -/
theorem attentionOk_grows {s t : State} (h : Grows s t) (ok : AttentionOk s) : AttentionOk t := by
  intro src
  obtain ⟨added, union, allowed⟩ := h src
  have before := ok src
  rw [union, BitVec.and_or_distrib_right, before, allowed, BitVec.or_self]

/-! ## What a step is to keep -/

/-- The attention set stays legal from `s` to `t`, and the gap stays within PULSE mode and a non-empty set. -/
structure KeepsAttention (s t : State) : Prop where
  attention : AttentionOk s → AttentionOk t
  gap : GapOk s → GapOk t

theorem KeepsAttention.refl (s : State) : KeepsAttention s s := ⟨id, id⟩

theorem KeepsAttention.trans {s t u : State} (h : KeepsAttention s t) (k : KeepsAttention t u) : KeepsAttention s u :=
  ⟨k.attention ∘ h.attention, k.gap ∘ h.gap⟩

/-- Raises alone, with line mode and gap as they were, keep both (R168, R171). -/
theorem keeps_of_grows {s t : State} (h : Grows s t) (mode : t.lineMode = s.lineMode) (gap : t.gap = s.gap) :
    KeepsAttention s t where
  attention := attentionOk_grows h
  gap ok runs := by
    rw [gap] at runs
    obtain ⟨pulse, held⟩ := ok runs
    exact ⟨mode.trans pulse, attnNonEmpty_grows h held⟩

theorem keeps_of_same {s t : State} (attn : t.attn = s.attn) (mode : t.lineMode = s.lineMode) (gap : t.gap = s.gap) :
    KeepsAttention s t := keeps_of_grows (.same attn) mode gap

theorem keeps_of_streams {s t : State} (grows : Grows s t) (h : OnlyStreams s t) : KeepsAttention s t :=
  keeps_of_grows grows (by rw [h]) (by rw [h])

theorem keeps_of_cues {s t : State} (grows : Grows s t) (h : OnlyCues s t) : KeepsAttention s t :=
  keeps_of_streams grows h.streams

theorem keeps_of_alerts {s t : State} (grows : Grows s t) (h : OnlyAlerts s t) : KeepsAttention s t :=
  keeps_of_grows grows (by rw [h]) (by rw [h])

theorem keeps_of_channels {s t : State} (h : OnlyChannels s t) : KeepsAttention s t :=
  keeps_of_cues (.channels h) h.cues

theorem keeps_reachMs (n : Nat) (s : State) : KeepsAttention s (reachMs n s) :=
  keeps_of_same (attn_reachMs n s) (lineMode_reachMs n s) (gap_reachMs n s)

/-! ## Resets -/

/-- With the set empty and no gap there is nothing to keep (R175). -/
theorem keeps_of_empty {s t : State} (empty : ∀ src, t.attn.get src = 0#9) (gap : t.gap = none) :
    KeepsAttention s t where
  attention _ src := by rw [empty, BitVec.zero_and]
  gap _ runs := by simp [gap] at runs

theorem attn_fullReset (s : State) (src : Fin 96) : (fullReset s).attn.get src = 0#9 := Table.get_replicate 0#9 src

theorem fullReset_keeps (low : Bool) (s : State) : KeepsAttention s { fullReset s with resetLow := low } :=
  keeps_of_empty (attn_fullReset s) rfl

theorem grows_abortRecords (i : Fin 64) (s : State) : Grows s (abortRecords i s) :=
  grows_overList (fun k u => by
    have finished : Grows u (finishAll .aborted k u) := .records (finishAll_only _ k u)
    split
    · split
      · dsimp only
        split
        · exact finished.trans (grows_retire _ _)
        · exact finished
      · exact .refl u
    · exact .refl u) s

/-- RESET_STREAMS raises what its blocks raise, and leaves line mode and gap (R176). -/
theorem resetStreamsAll_keeps (s : State) : KeepsAttention s (resetStreamsAll s) := by
  have aborted : KeepsAttention s (abortedAll s) :=
    keeps_of_cues (grows_overFin grows_abortRecords s) (abortedAll_only s).cues
  have rest (u : State) : KeepsAttention u (quietedFrom s u) := keeps_of_same rfl rfl rfl
  rw [resetStreamsAll_eq]
  exact (aborted.trans (rest _)).trans
    (keeps_of_alerts (grows_overFin grows_alertAct _) (overFin_onlyAlerts alertAct_only _))

/-! ## Requests -/

theorem serve_keeps {P : State → Prop} {s : State} {block : State → Answer} {tag kind : Byte}
    {same : List Byte → Bool} (h : Answers s P (block s)) (kept : ∀ t, P t → KeepsAttention s t) :
    KeepsAttention s (serve tag kind same block s) :=
  h.serve (fun _ _ _ k => k.trans (keeps_of_same rfl rfl rfl)) (.refl s) kept

theorem grows_retime (i : Fin 64) (old v : Service) (s : State) : Grows s (retime i old v s) := by
  unfold retime
  dsimp only
  split
  · split
    · exact (Grows.same rfl).trans (grows_svc i .timebaseLost (by decide) (updSvc i _ s))
    · exact .same rfl
  · exact .refl s

theorem grows_remeasure (i : Fin 64) (old v : Service) (s : State) : Grows s (remeasure i old v s) := by
  unfold remeasure
  split
  · split
    · exact grows_expireTimebase i s
    · exact .refl s
  · exact .refl s

theorem amendService_keeps (i : Fin 64) (old v : Service) (s : State) :
    KeepsAttention s (remeasure i old v (retime i old v (putService i v s))) := by
  have put : Grows s (putService i v s) := .same rfl
  exact keeps_of_cues ((put.trans (grows_retime i old v _)).trans (grows_remeasure i old v _))
    (amendService_only i old v s)

theorem grows_applyAmendment (r : Avail) (e : Option Time) (d : Option (Option (BitVec 32)))
    (ps : Option (List TPlacement)) (s : State) : Grows s (applyAmendment r e d ps s) := by
  unfold applyAmendment
  split
  · exact .records (amendArmed_only r e d s)
  · split
    · exact grows_amendActiveD _ _ s
    · exact .refl s
  · exact .records (updRec_only _ _ s)

theorem declined_keeps (r : Avail) (s : State) :
    KeepsAttention s (retireDone r.key.svc (finishAll .declined r.key s)) :=
  have finished := finishAll_only .declined r.key s
  keeps_of_cues ((Grows.records finished).trans (grows_retireDone _ _))
    (finished.schedule.trans (retireDone_only _ _)).cues

theorem joinCoverage_keeps (c : Fin 128) (p : Fin 8) (s : State) : KeepsAttention s (joinCoverage c p s) := by
  unfold joinCoverage
  dsimp only
  split
  · split
    · exact .refl s
    · exact keeps_of_channels (giveCoverage_only _ _ _)
  · exact .refl s

theorem lockZone_keeps (z : Fin 8) (s : State) : KeepsAttention s (lockZone z s) :=
  (keeps_of_same rfl rfl rfl : KeepsAttention s (updZone z _ s)).trans
    (keeps_of_channels (overList_onlyChannels (askReturnHeld_only _ _) _))

theorem updAin_keeps (i : Fin 6) (f : Ain → Ain) (s : State) : KeepsAttention s (updAin i f s) :=
  keeps_of_grows (grows_updAin i f s) (by rw [updAin_only i f s]) (by rw [updAin_only i f s])

theorem setFlag_keeps (j : Fin 8) (level : Bool) (s : State) : KeepsAttention s (setFlag j level s) := by
  unfold setFlag
  split
  · exact .refl s
  · exact (keeps_of_same rfl rfl rfl : KeepsAttention s { s with rflags := s.rflags.set j level }).trans
      (keeps_of_alerts (grows_deliverLevel _ _) (deliverLevel_only _ _))

/-- ATTN_MASK leaves the set; LEVEL ends the gap, and PULSE leaves it (R169, R171). -/
theorem maskStored_keeps (mask : BitVec 9) (m : LineMode) (s : State) :
    KeepsAttention s { s with mask := mask, lineMode := m, gap := if m = .level then none else s.gap } where
  attention := id
  gap ok runs := by
    cases m with
    | level => simp at runs
    | pulse => exact ⟨rfl, (ok runs).2⟩

/-- The state that POLL leaves once it has reported a source (R172). -/
def polled (src : Fin 96) (s : State) : State :=
  { s with attn := s.attn.set src 0#9, gap := gapAfterPoll { s with attn := s.attn.set src 0#9 } }

theorem attn_polled (src other : Fin 96) (s : State) :
    (polled src s).attn.get other = if src = other then 0#9 else s.attn.get other := Table.get_set _ _ _ _

/-- POLL starts a gap in PULSE mode while causes remain, and ends it otherwise (R171). -/
theorem gap_polled (src : Fin 96) (s : State) :
    (polled src s).gap = if s.lineMode = .pulse ∧ attnNonEmpty (polled src s) = true then some s.refCount else none :=
  rfl

theorem polled_keeps (src : Fin 96) (s : State) : KeepsAttention s (polled src s) where
  attention ok other := by
    rw [attn_polled]
    split
    · exact BitVec.zero_and
    · exact ok other
  gap _ runs := by
    rw [gap_polled] at runs
    exact Option.isSome_ite.mp runs

/-! ## Packets, pins and timers -/

theorem live_keeps {f : State → State} {s : State} (h : KeepsAttention s (f s)) : KeepsAttention s (live f s) := by
  unfold live
  split
  · exact .refl s
  · exact h

theorem takeNetworkPacket_keeps (m : Fin 4) (pk : Packet) (s : State) :
    KeepsAttention s (takeNetworkPacket m pk s) := by
  have only := networkPacket_only m pk s
  unfold takeNetworkPacket
  split
  · exact keeps_of_grows (grows_networkPacket m pk s) (by rw [only]) (by rw [only])
  · exact .refl s

theorem takeLanePacket_keeps (l : Fin 16) (pk : Packet) (s : State) : KeepsAttention s (takeLanePacket l pk s) := by
  have only := lanePacket_only l pk s
  unfold takeLanePacket
  split
  · exact keeps_of_grows (grows_lanePacket l pk s) (by rw [only]) (by rw [only])
  · exact .refl s

theorem ainChange_keeps (i : Fin 6) (high : Bool) (s : State) : KeepsAttention s (ainChange i high s) := by
  unfold ainChange
  split
  · exact keeps_of_same rfl rfl rfl
  · exact updAin_keeps i _ s

theorem debounceExpiry_keeps (i : Fin 6) (s : State) : KeepsAttention s (debounceExpiry i s) := by
  unfold debounceExpiry
  dsimp only
  split
  · exact (keeps_reachMs _ s).trans (updAin_keeps i _ _)
  · exact .refl s

theorem holdExpiry_keeps (a : Fin 16) (s : State) : KeepsAttention s (holdExpiry a s) := by
  unfold holdExpiry
  dsimp only
  split
  · exact (keeps_reachMs _ s).trans (keeps_of_alerts (grows_enterActive a _) (enterActive_only a _))
  · exact .refl s

theorem endAlert_keeps (after : AlertState) (a : Fin 16) (s : State) : KeepsAttention s (endAlert after a s) :=
  keeps_of_alerts (grows_endAlert after a s) (endAlert_only after a s)

theorem releaseExpiry_keeps (a : Fin 16) (s : State) : KeepsAttention s (releaseExpiry a s) := by
  unfold releaseExpiry
  dsimp only
  split
  · exact (keeps_reachMs _ s).trans (endAlert_keeps _ a _)
  · exact .refl s

theorem pcrAbsenceTimeout_keeps (i : Fin 64) (s : State) : KeepsAttention s (pcrAbsenceTimeout i s) := by
  unfold pcrAbsenceTimeout
  split
  · split
    · exact (keeps_reachMs _ s).trans (keeps_of_cues (grows_expireTimebase i _) (expireTimebase_only i _))
    · exact .refl s
  · exact .refl s

theorem openTimeout_keeps (l : Fin 16) (s : State) : KeepsAttention s (openTimeout l s) := by
  unfold openTimeout
  dsimp only
  split
  · exact (keeps_reachMs _ s).trans (keeps_of_cues (grows_laneTimesOut l _) (laneTimesOut_only l _).cues)
  · exact .refl s

theorem closingExpiry_keeps (l : Fin 16) (s : State) : KeepsAttention s (closingExpiry l s) := by
  unfold closingExpiry
  dsimp only
  split
  · exact (keeps_reachMs _ s).trans (keeps_of_same rfl rfl rfl)
  · exact .refl s

theorem starvationExpiry_keeps (l : Fin 16) (c : Fin 128) (s : State) : KeepsAttention s (starvationExpiry l c s) := by
  unfold starvationExpiry
  split
  · split
    · exact (keeps_reachMs _ s).trans (keeps_of_alerts (grows_laneStarves l _) (laneStarves_only l _))
    · exact .refl s
  · exact .refl s

theorem followExpiry_keeps (c : Fin 128) (s : State) : KeepsAttention s (followExpiry c s) := by
  unfold followExpiry
  split
  · split
    · exact (keeps_reachMs _ s).trans (keeps_of_same rfl rfl rfl)
    · exact .refl s
  · exact .refl s

theorem tallyPhaseExpiry_keeps (o : Fin 4) (s : State) : KeepsAttention s (tallyPhaseExpiry o s) := by
  unfold tallyPhaseExpiry
  split
  · exact (keeps_reachMs _ s).trans (keeps_of_same rfl rfl rfl)
  · exact .refl s

theorem tallyPulseEnd_keeps (o : Fin 4) (s : State) : KeepsAttention s (tallyPulseEnd o s) := by
  unfold tallyPulseEnd
  split
  · exact (keeps_reachMs _ s).trans (keeps_of_same rfl rfl rfl)
  · exact .refl s

theorem tallyEdgeExpiry_keeps (o : Fin 4) (s : State) : KeepsAttention s (tallyEdgeExpiry o s) := by
  unfold tallyEdgeExpiry
  split
  · exact (keeps_reachMs _ s).trans (keeps_of_same rfl rfl rfl)
  · exact .refl s

theorem gapEnd_keeps (s : State) : KeepsAttention s (gapEnd s) where
  attention ok := by
    unfold gapEnd
    split
    · exact (keeps_of_same (attn_reachCount _ s) (lineMode_reachCount _ s) (gap_reachCount _ s)).attention ok
    · exact ok
  gap ok := by
    unfold gapEnd
    split
    · exact fun runs => nomatch runs
    · exact ok

/-! ## Every command -/

/-- Every command keeps the attention set legal, and the gap with it. -/
theorem exec_keeps {c : Instr} {s t : State} (h : exec c s = .next t) : KeepsAttention s t := by
  cases c <;> cases h
  case requestTransaction bytes =>
    show KeepsAttention s (requestTransaction bytes s)
    unfold requestTransaction takeFrame
    repeat' split
    all_goals exact keeps_of_same rfl rfl rfl
  case readTransaction clocks =>
    show KeepsAttention s (readTransaction clocks s)
    unfold readTransaction
    split <;> exact keeps_of_same rfl rfl rfl
  case otherTransferByte bytes =>
    show KeepsAttention s (otherTransaction bytes s)
    unfold otherTransaction
    split <;> exact keeps_of_same rfl rfl rfl
  case resetNLow => exact fullReset_keeps true s
  case powerOn => exact fullReset_keeps true s
  case resetNRise =>
    show KeepsAttention s (riseReset s)
    unfold riseReset
    split
    · exact fullReset_keeps false s
    · exact .refl s
  case serviceSet tag a =>
    refine serve_keeps (serviceSet_answers a s) fun t ⟨i, v, _, _, _, h⟩ => ?_
    obtain ⟨-, rfl⟩ | ⟨old, -, -, rfl⟩ := h
    · exact keeps_of_same rfl rfl rfl
    · exact amendService_keeps i old v s
  case serviceGet tag i => exact serve_keeps (serviceGet_answers i s) fun _ e => e ▸ .refl s
  case serviceClear tag i =>
    exact serve_keeps (serviceClear_answers i s) fun _ ⟨_, _, _, e⟩ => e ▸ keeps_of_same rfl rfl rfl
  case templateSet tag a =>
    exact serve_keeps (templateSet_answers a s) fun _ ⟨_, _, _, _, e⟩ => e ▸ keeps_of_same rfl rfl rfl
  case outcomeGet tag i => exact serve_keeps (outcomeGet_answers i s) fun _ e => e ▸ .refl s
  case availCreate tag a =>
    exact serve_keeps (availCreate_answers a s) fun _ ⟨_, _, _, _, _, _, _, _, _, _, _, _, e⟩ =>
      e ▸ keeps_of_same rfl rfl rfl
  case availAmend tag a =>
    exact serve_keeps (availAmend_answers a s) fun _ ⟨_, r, _, m, ps, e, _, _, _, _, _, _, h⟩ =>
      h ▸ keeps_of_cues (grows_applyAmendment r e m.duration ps s) (applyAmendment_only r e m.duration ps s)
  case availCancel tag a =>
    exact serve_keeps (availCancel_answers a s) fun _ ⟨r, _, _, e⟩ =>
      e ▸ keeps_of_cues (grows_cancelRecord r.key s) (cancelRecord_only r.key s)
  case availReturn tag a =>
    exact serve_keeps (availReturn_answers a s) fun _ ⟨r, _, _, e⟩ =>
      e ▸ keeps_of_cues (grows_returnNow r.key s) (returnNow_only r.key s)
  case availConfirm tag a =>
    exact serve_keeps (availConfirm_answers a s) fun _ ⟨_, _, _, e⟩ => e ▸ keeps_of_same rfl rfl rfl
  case availDecline tag a =>
    exact serve_keeps (availDecline_answers a s) fun _ ⟨r, _, _, e⟩ => e ▸ declined_keeps r s
  case availGet tag a => exact serve_keeps (availGet_answers a s) fun _ e => e ▸ .refl s
  case availWalk tag a => exact serve_keeps (availWalk_answers a s) fun _ ⟨_, e⟩ => e ▸ keeps_of_same rfl rfl rfl
  case laneSet tag a =>
    exact serve_keeps (laneSet_answers a s) fun _ ⟨_, _, _, _, _, e⟩ => e ▸ keeps_of_same rfl rfl rfl
  case laneGet tag l => exact serve_keeps (laneGet_answers l s) fun _ e => e ▸ .refl s
  case laneClose tag l =>
    refine serve_keeps (laneClose_answers l s) fun _ h => ?_
    obtain rfl | ⟨_, _, rfl⟩ := h
    · exact .refl _
    · exact keeps_of_same rfl rfl rfl
  case laneGuardSet tag v => exact serve_keeps (laneGuardSet_answers v s) fun _ e => e ▸ keeps_of_same rfl rfl rfl
  case portSet tag a => exact serve_keeps (portSet_answers a s) fun _ ⟨_, _, _, _, e⟩ => e ▸ keeps_of_same rfl rfl rfl
  case portGet tag p => exact serve_keeps (portGet_answers p s) fun _ e => e ▸ .refl s
  case chanSet tag a =>
    refine serve_keeps (chanSet_answers a s) fun _ ⟨c, _, p, _, _, _, _, _, e⟩ => ?_
    subst e
    refine .trans ?_ (joinCoverage_keeps c p _)
    exact keeps_of_same rfl rfl rfl
  case chanGet tag c => exact serve_keeps (chanGet_answers c s) fun _ ⟨_, e⟩ => e ▸ keeps_of_same rfl rfl rfl
  case chanClear tag c =>
    exact serve_keeps (chanClear_answers c s) fun _ ⟨_, _, _, _, e⟩ => e ▸ keeps_of_same rfl rfl rfl
  case zoneLock tag z => exact serve_keeps (zoneLock_answers z s) fun _ ⟨z, e⟩ => e ▸ lockZone_keeps z s
  case zoneUnlock tag z =>
    exact serve_keeps (zoneUnlock_answers z s) fun _ ⟨_, e⟩ => e ▸ keeps_of_same rfl rfl rfl
  case zoneGet tag z => exact serve_keeps (zoneGet_answers z s) fun _ e => e ▸ .refl s
  case ainSet tag a => exact serve_keeps (ainSet_answers a s) fun _ ⟨_, _, e⟩ => e ▸ updAin_keeps _ _ s
  case ainGet tag i => exact serve_keeps (ainGet_answers i s) fun _ e => e ▸ .refl s
  case flagSet tag a => exact serve_keeps (flagSet_answers a s) fun _ ⟨_, _, e⟩ => e ▸ setFlag_keeps _ _ s
  case alertSet tag a =>
    exact serve_keeps (alertSet_answers a s) fun _ ⟨i, c, _, _, _, e⟩ =>
      e ▸ keeps_of_alerts (grows_configureAlert i c.apply s) (configureAlert_only i c.apply s)
  case alertGet tag a => exact serve_keeps (alertGet_answers a s) fun _ e => e ▸ .refl s
  case alertEnd tag a => exact serve_keeps (alertEnd_answers a s) fun _ ⟨i, _, e⟩ => e ▸ endAlert_keeps _ i s
  case tallySet tag a => exact serve_keeps (tallySet_answers a s) fun _ ⟨_, _, _, e⟩ => e ▸ keeps_of_same rfl rfl rfl
  case tallyGet tag o => exact serve_keeps (tallyGet_answers o s) fun _ e => e ▸ .refl s
  case attnMask tag a => exact serve_keeps (attnMask_answers a s) fun _ ⟨m, e⟩ => e ▸ maskStored_keeps _ m s
  case poll tag =>
    refine serve_keeps (poll_answers s) fun _ h => ?_
    obtain ⟨_, rfl⟩ | ⟨src, _, rfl⟩ := h
    · exact .refl _
    · exact polled_keeps src s
  case summary tag => exact serve_keeps (summary_answers s) fun _ e => e ▸ .refl s
  case resetStreams tag => exact serve_keeps (resetStreams_answers s) fun _ e => e ▸ resetStreamsAll_keeps s
  case resetAll tag => exact serve_keeps (resetAll_answers s) fun _ e => e ▸ fullReset_keeps s.resetLow s
  case networkPacket m pk => exact live_keeps (takeNetworkPacket_keeps m pk s)
  case lanePacket l pk => exact live_keeps (takeLanePacket_keeps l pk s)
  case ainChange i high => exact ainChange_keeps i high s
  case debounceExpiry i => exact live_keeps (debounceExpiry_keeps i s)
  case holdTimerExpiry a => exact live_keeps (holdExpiry_keeps a s)
  case releaseTimerExpiry a => exact live_keeps (releaseExpiry_keeps a s)
  case pcrAbsenceTimeout i => exact live_keeps (pcrAbsenceTimeout_keeps i s)
  case openTimeout l => exact live_keeps (openTimeout_keeps l s)
  case closingTimerExpiry l => exact live_keeps (closingExpiry_keeps l s)
  case starvation l c => exact live_keeps (starvationExpiry_keeps l c s)
  case followTimeout c => exact live_keeps (followExpiry_keeps c s)
  case tallyPhaseTimerExpiry o => exact live_keeps (tallyPhaseExpiry_keeps o s)
  case tallyPulseEnd o => exact live_keeps (tallyPulseEnd_keeps o s)
  case tallyPendingEdgeExpiry o => exact live_keeps (tallyEdgeExpiry_keeps o s)
  case attnGapEnd => exact live_keeps (gapEnd_keeps s)
  case networkInputSearchOrMiss m bytes => exact live_keeps (keeps_of_same rfl rfl rfl)
  case laneInputSearchOrMiss l bytes => exact live_keeps (keeps_of_same rfl rfl rfl)

theorem step_keeps {s t : State} (h : step s = .next t) : KeepsAttention s t := by
  unfold step at h
  split at h
  · cases h
    unfold State.tick
    split
    · exact .refl s
    · exact keeps_of_same rfl rfl rfl
  · next c rest _ =>
    exact (keeps_of_same rfl rfl rfl : KeepsAttention s { s with pending := rest }).trans (exec_keeps h)

/-- Settles O57: a command raises only kinds that their sources may hold, and only POLL starts a gap. -/
theorem stepKeepsAttention : Obligations.StepKeepsAttention := by
  unfold Obligations.StepKeepsAttention
  exact fun s t h => ⟨(step_keeps h).attention, (step_keeps h).gap⟩

end Sys2Proof.Proofs.AttentionSet
end

section
/-! SUPPORT. Raises and the ATTN line (sections 9.1 and 9.3), the set under a full reset (R175), and the requests on the
attention set (sections 9.2, 9.4 and 9.5). -/

namespace Sys2Proof.Proofs.AttentionRequests

open Sys2Proof.Machine
open Sys2Proof.Proofs.AttentionSet (attnNonEmpty_iff attnNonEmpty_eq_false_iff attn_fullReset polled attn_polled
  gap_polled)

/-! ## Raises (R168) -/

theorem getLsbD_flag (k : Cause) (j : Nat) : k.flag.getLsbD j = decide (j = k.bit) := by
  have bounded : k.bit < 9 := by cases k <;> decide
  rw [Bool.eq_iff_iff]
  simp only [Cause.flag, BitVec.getLsbD_shiftLeft, BitVec.getLsbD_one, Bool.and_eq_true, Bool.not_eq_true',
    decide_eq_true_eq, decide_eq_false_iff_not]
  omega

theorem flag_ne_zero (k : Cause) : k.flag ≠ 0#9 := fun zero => by
  have own := getLsbD_flag k k.bit
  simp [zero] at own

/-- A kind that is already held is not recorded again. -/
theorem or_flag_of_held {x : BitVec 9} {k : Cause} (held : x.getLsbD k.bit = true) : x ||| k.flag = x := by
  apply BitVec.eq_of_getLsbD_eq
  intro j _
  rw [BitVec.getLsbD_or, getLsbD_flag]
  by_cases own : j = k.bit
  · rw [own, held, Bool.true_or]
  · rw [decide_eq_false own, Bool.or_false]

theorem raise_masked {src : Fin 96} {k : Cause} {s : State} (h : s.mask.getLsbD k.bit = false) : raise src k s = s :=
  if_neg (by rw [h]; exact Bool.false_ne_true)

section
variable {src : Fin 96} {k : Cause} {s : State} (h : s.mask.getLsbD k.bit = true)
include h

theorem raise_own : (raise src k s).attn.get src = s.attn.get src ||| k.flag := by
  rw [attn_raise, if_pos h, Table.get_set, if_pos rfl]

theorem raise_other {other : Fin 96} (ne : other ≠ src) : (raise src k s).attn.get other = s.attn.get other := by
  rw [attn_raise, if_pos h, Table.get_set, if_neg ne.symm]

theorem raise_own_bit (j : Nat) :
    ((raise src k s).attn.get src).getLsbD j = ((s.attn.get src).getLsbD j || decide (j = k.bit)) := by
  rw [raise_own h, BitVec.getLsbD_or, getLsbD_flag]

theorem attnNonEmpty_raise : attnNonEmpty (raise src k s) = true := by
  refine attnNonEmpty_iff.mpr ⟨src, fun empty => flag_ne_zero k ?_⟩
  rw [raise_own h, BitVec.or_eq_zero_iff] at empty
  exact empty.2

end

/-! ## The ATTN line and the gap (R170, R171) -/

theorem attnLine_no_gap {s : State} (h : s.gap = none) : attnLine s = attnNonEmpty s := by
  rw [attnLine, h, Option.isNone_none, Bool.and_true]

theorem attnLine_iff {s : State} (h : s.gap = none) : attnLine s = true ↔ ∃ src, s.attn.get src ≠ 0#9 := by
  rw [attnLine_no_gap h, attnNonEmpty_iff]

theorem attnLine_gap {s : State} {start : Nat} (h : s.gap = some start) : attnLine s = false := by
  rw [attnLine, h, Option.isNone_some, Bool.and_false]

theorem exec_attnGapEnd {s : State} (h : s.resetLow = false) : exec .attnGapEnd s = .next (gapEnd s) :=
  congrArg Host.Outcome.next (live_of_high h)

theorem gapEnd_stopped {s : State} (h : s.gap = none) : gapEnd s = s := by
  unfold gapEnd
  rw [h]

theorem gapEnd_runs {s : State} {start : Nat} (h : s.gap = some start) : gapEnd s = { s with
    gap := none
    refCount := if start + 1350 ≤ s.refCount then s.refCount else start + 1350 } := by
  unfold gapEnd reachCount gapCounts
  rw [h]
  dsimp only
  split <;> rfl

/-- Settles O51: a raise by what it makes of its source's kinds, the line by the set and the gap. -/
theorem raisesAndAttnLine : Obligations.RaisesAndAttnLine := by
  unfold Obligations.RaisesAndAttnLine
  refine ⟨fun src k s => ⟨raise_masked, fun enabled => ⟨raise_own enabled, ?recorded, fun j ne => ?kept,
      fun other ne => raise_other enabled ne, fun held => ?once⟩⟩,
    fun s => ⟨attnLine_iff, fun start => attnLine_gap, fun high still => ?stopped, fun start high runs => ?ends⟩⟩
  case recorded => rw [raise_own_bit enabled, decide_eq_true rfl, Bool.or_true]
  case kept => rw [raise_own_bit enabled, decide_eq_false ne, Bool.or_false]
  case once => rw [raise_own enabled, or_flag_of_held held]
  case stopped => rw [exec_attnGapEnd high, gapEnd_stopped still]
  case ends => exact ⟨_, by rw [exec_attnGapEnd high, gapEnd_runs runs], rfl, attnLine_iff rfl⟩

/-! ## The set under a full reset (R175) -/

/-- Each of the four ways leaves the full-reset values, but for RESET_N's level and the two slots (R184, R185). -/
theorem exec_fullReset {c : Instr} {s : State} (h : isFullReset c s) : ∃ low req resp,
    exec c s = .next { fullReset s with resetLow := low, reqSlot := req, respSlot := resp } := by
  obtain rfl | rfl | ⟨rfl, low⟩ | ⟨tag, rfl, serves⟩ := h
  · exact ⟨true, _, _, rfl⟩
  · exact ⟨true, _, _, rfl⟩
  · exact ⟨false, _, _, congrArg Host.Outcome.next (if_pos low)⟩
  · exact ⟨s.resetLow, _, _, exec_resetAll serves⟩

theorem mask_all (k : Cause) : (0x1FF#9).getLsbD k.bit = true := by cases k <;> rfl

/-- Settles O7: every way leaves the values of `fullReset`, whose mask lets the first raise through to the line. -/
theorem fullResetAttention : Obligations.FullResetAttention := by
  unfold Obligations.FullResetAttention
  intro c s h
  obtain ⟨low, req, resp, run⟩ := exec_fullReset h
  refine ⟨_, run, attn_fullReset s, rfl, rfl, rfl, ?released, fun src k => ?asserted⟩
  case released => exact (attnLine_no_gap rfl).trans (attnNonEmpty_eq_false_iff.mpr (attn_fullReset s))
  case asserted =>
    have gap (u : State) : (raise src k u).gap = u.gap := by rw [raise_only src k u]
    rw [attnLine_no_gap (gap _)]
    exact attnNonEmpty_raise (mask_all k)

/-! ## ATTN_MASK (R169, R171) -/

theorem lineMode_ofByte_eq_none {b : Byte} (h : 2 ≤ b.toNat) : LineMode.ofByte b = none := by
  have zero : b ≠ 0 := by rintro rfl; exact absurd h (by decide)
  have one : b ≠ 1 := by rintro rfl; exact absurd h (by decide)
  rw [LineMode.ofByte, if_neg zero, if_neg one]

theorem causeBytes_mask (mask : BitVec 16) : causeBytes (BitVec.ofNat 9 mask.toNat) = be 2 (mask.toNat % 512) := by
  rw [causeBytes, BitVec.toNat_ofNat]

section
variable {a : AttnMaskArgs} (s : State)

theorem attnMask_refused (h : 2 ≤ a.mode.toNat) : attnMask a s = refuse .badArg s := by
  unfold attnMask
  rw [lineMode_ofByte_eq_none h]

theorem attnMask_level (h : a.mode = 0) : attnMask a s = accept (be 2 (a.mask.toNat % 512) ++ [0])
    { s with mask := BitVec.ofNat 9 a.mask.toNat, lineMode := .level, gap := none } := by
  unfold attnMask
  rw [h, ← causeBytes_mask]
  rfl

theorem attnMask_pulse (h : a.mode = 1) : attnMask a s = accept (be 2 (a.mask.toNat % 512) ++ [1])
    { s with mask := BitVec.ofNat 9 a.mask.toNat, lineMode := .pulse } := by
  unfold attnMask
  rw [h, ← causeBytes_mask]
  rfl

end

/-! ## POLL (R172) -/

theorem lowestSource_eq_none {s : State} (h : ∀ src, s.attn.get src = 0#9) : lowestSource s = none :=
  List.find?_eq_none.mpr fun src _ => by simp [h src]

theorem lowestSource_eq_some {s : State} {src : Fin 96} (held : s.attn.get src ≠ 0#9)
    (lowest : ∀ lower, lower.val < src.val → s.attn.get lower = 0#9) : lowestSource s = some src := by
  have place : src.val < (List.finRange 96).length := by rw [List.length_finRange]; exact src.isLt
  rw [lowestSource, List.find?_eq_some_iff_getElem]
  refine ⟨bne_iff_ne.mpr held, src.val, place, List.getElem_finRange _, fun j lt => ?_⟩
  rw [List.getElem_finRange, lowest _ lt]
  rfl

theorem poll_empty {s : State} (h : ∀ src, s.attn.get src = 0#9) : poll s = accept [0xFF, 0, 0, 0, 0, 0] s := by
  unfold poll
  rw [lowestSource_eq_none h]

theorem poll_lowest {s : State} {src : Fin 96} (h : lowestSource s = some src) : poll s =
    accept ([BitVec.ofNat 8 src.val] ++ be 2 (s.attn.get src).toNat ++ snapshot s src
      ++ [boolByte (attnNonEmpty (polled src s))]) (polled src s) := by
  unfold poll
  rw [h]
  rfl

/-- After the clearing the set is non-empty exactly when another source has causes. -/
theorem attnNonEmpty_polled {src : Fin 96} {s : State} :
    attnNonEmpty (polled src s) = true ↔ ∃ other, other ≠ src ∧ s.attn.get other ≠ 0#9 := by
  rw [attnNonEmpty_iff]
  refine exists_congr fun other => ?_
  rw [attn_polled]
  split
  · next own => simp [own]
  · next ne => simp [Ne.symm ne]

theorem boolByte_eq_one_iff {b : Bool} : boolByte b = 1 ↔ b = true := by cases b <;> decide

theorem boolByte_eq_zero_iff {b : Bool} : boolByte b = 0 ↔ ¬ b = true := by cases b <;> decide

theorem isSome_gap_polled (src : Fin 96) (s : State) : (polled src s).gap.isSome =
    decide (s.lineMode = .pulse ∧ boolByte (attnNonEmpty (polled src s)) = 1) := by
  rw [Bool.eq_iff_iff, decide_eq_true_iff, boolByte_eq_one_iff, gap_polled, Option.isSome_ite]

/-- A gap is measured from its POLL (R171). -/
theorem start_gap_polled {src : Fin 96} {s : State} {start : Nat} (h : (polled src s).gap = some start) :
    start = s.refCount := by
  rw [gap_polled] at h
  obtain ⟨-, started⟩ := Option.ite_none_right_eq_some.mp h
  exact (Option.some.inj started).symm

theorem snapshot_svc (s : State) (i : Fin 64) :
    snapshot s (svcSource i) = [(tbStateOf s i).byte, BitVec.ofNat 8 (recCount s i)] := by
  have service : (svcSource i).val < 64 := i.isLt
  unfold snapshot
  rw [dif_pos service]
  rfl

theorem snapshot_lane (s : State) (l : Fin 16) :
    snapshot s (laneSource l) = [(s.lanes.get l).state.byte, (s.lanes.get l).lastFault.byte] := by
  have service : ¬ (laneSource l).val < 64 := Nat.not_lt.mpr (Nat.le_add_right _ _)
  have lane : (laneSource l).val < 80 := Nat.add_lt_add_left l.isLt 64
  have index : (⟨(laneSource l).val - 64, by omega⟩ : Fin 16) = l := Fin.ext (Nat.add_sub_cancel_left _ _)
  unfold snapshot
  rw [dif_neg service, dif_pos lane]
  simp only [index]

theorem snapshot_alert (s : State) (a : Fin 16) :
    snapshot s (alertSource a) = [(s.alerts.get a).state.byte, 0] := by
  have lane : ¬ (alertSource a).val < 80 := Nat.not_lt.mpr (Nat.le_add_right _ _)
  have index : (⟨(alertSource a).val - 80, by omega⟩ : Fin 16) = a := Fin.ext (Nat.add_sub_cancel_left _ _)
  unfold snapshot
  rw [dif_neg (by omega), dif_neg lane]
  simp only [index]

/-! ## SUMMARY (R174) -/

@[simp] theorem length_causeBytes (k : BitVec 9) : (causeBytes k).length = 2 := length_be _ _

theorem length_flatMap_causeBytes (l : List (BitVec 9)) : (l.flatMap causeBytes).length = 2 * l.length := by
  induction l with
  | nil => rfl
  | cons k l ih => rw [List.flatMap_cons, List.length_append, length_causeBytes, ih, List.length_cons]; omega

/-- The kinds of the source at place n stand in the two bytes from 2n on. -/
theorem causeBytes_at {l : List (BitVec 9)} {n : Nat} (h : n < l.length) (rest : List Byte) :
    ((l.flatMap causeBytes ++ rest).drop (2 * n)).take 2 = causeBytes l[n] := by
  have front : ((l.take n).flatMap causeBytes).length = 2 * n := by
    rw [length_flatMap_causeBytes, List.length_take_of_le (Nat.le_of_lt h)]
  have parts : l.flatMap causeBytes =
      (l.take n).flatMap causeBytes ++ (causeBytes l[n] ++ (l.drop (n + 1)).flatMap causeBytes) := by
    rw [← List.flatMap_cons, ← List.drop_eq_getElem_cons h, ← List.flatMap_append, List.take_append_drop]
  rw [parts, List.append_assoc, List.drop_left' front, List.append_assoc, List.take_left' (length_causeBytes _)]

/-- The whole set, the mask and the line mode (R174, R191). -/
def summaryBody (s : State) : List Byte :=
  s.attn.entries.flatMap causeBytes ++ (causeBytes s.mask ++ [s.lineMode.byte])

theorem summary_reads (s : State) : summary s = accept (summaryBody s) s := by
  rw [summary, List.append_assoc]
  rfl

theorem length_set (s : State) : (s.attn.entries.flatMap causeBytes).length = 192 := by
  rw [length_flatMap_causeBytes, s.attn.size_eq]

theorem length_summaryBody (s : State) : (summaryBody s).length = 195 := by
  simp only [summaryBody, List.length_append, length_set, length_causeBytes, List.length_singleton]

theorem summaryBody_source (s : State) (src : Fin 96) :
    ((summaryBody s).drop (2 * src.val)).take 2 = be 2 (s.attn.get src).toNat :=
  causeBytes_at (s.attn.size_eq.symm ▸ src.isLt) _

theorem summaryBody_mask (s : State) : ((summaryBody s).drop 192).take 2 = be 2 s.mask.toNat := by
  rw [summaryBody, List.drop_left' (length_set s), List.take_left' (length_causeBytes _), causeBytes]

theorem summaryBody_mode (s : State) : (summaryBody s)[194]? = some s.lineMode.byte := by
  rw [summaryBody, ← List.append_assoc]
  have front : (s.attn.entries.flatMap causeBytes ++ causeBytes s.mask).length = 194 := by
    rw [List.length_append, length_set, length_causeBytes]
  rw [← front, List.getElem?_concat_length]

/-- Settles O52: each request by what its block answers. -/
theorem attentionRequests : Obligations.AttentionRequests := by
  unfold Obligations.AttentionRequests
  refine ⟨fun tag a s serves => ?mask, fun tag s serves => ⟨fun empty => ?nothing, fun src held lowest => ?reported⟩,
    fun tag s serves => ?summary⟩
  case mask =>
    rw [exec_attnMask serves]
    exact ⟨fun bad => by rw [attnMask_refused s bad, complete_refuse],
      fun level => by rw [attnMask_level s level, complete_accept],
      fun pulse => by rw [attnMask_pulse s pulse, complete_accept]⟩
  case nothing => rw [exec_poll serves, poll_empty empty, complete_accept]
  case reported =>
    intro more
    have left : attnNonEmpty (polled src s) = true ↔ more := attnNonEmpty_polled
    refine ⟨snapshot s src, boolByte (attnNonEmpty (polled src s)), polled src s, ?answer, rfl, rfl, rfl, rfl, rfl, rfl,
      rfl, fun remain => boolByte_eq_one_iff.mpr (left.mpr remain),
      fun empty => boolByte_eq_zero_iff.mpr (empty ∘ left.mp), isSome_gap_polled src s,
      fun start => start_gap_polled, fun i svc => svc ▸ snapshot_svc s i, fun l lane => lane ▸ snapshot_lane s l,
      fun a alert => alert ▸ snapshot_alert s a⟩
    case answer => rw [exec_poll serves, poll_lowest (lowestSource_eq_some held lowest), complete_accept]
  case summary =>
    exact ⟨summaryBody s, by rw [exec_summary serves, summary_reads, complete_accept], length_summaryBody s,
      summaryBody_source s, summaryBody_mask s, summaryBody_mode s⟩

end Sys2Proof.Proofs.AttentionRequests
end
